-- ==== Sys2Proof/Word.lean ====
section
/-! DEFINITION. The word types of the memory port and of tower memory, and the types of plain numbers. -/

namespace Sys2Proof

/-- One byte of tower memory. -/
abbrev Byte := BitVec 8

/-- One word of the memory port (R120: every access moves one whole 16-bit word). -/
abbrev Word := BitVec 16

/-- A tower time in seconds (R65). An integer: a start of a span moved by SET_CLOCK (R67) may fall before
2000-01-01, and the span stays exact. A time is written to tower memory modulo 2^32 (R173). -/
abbrev Time := Int

/-- A page of tower memory: page n is bytes 256 n to 256 n + 255 (R120). -/
abbrev Page := Fin 128

end Sys2Proof
end

