-- ==== Sys2Proof/Config.lean ====
section
/-! DEFINITION. What every NZ418 fixes: capacities, fixed waits and addresses. The spec leaves no value to an
implementation and calls no result undefined, so there is no free value here. -/

namespace Sys2Proof.Config

/-- The last second of 2099-12-31 (R65). -/
def lastSecond : Time := 3155759999
/-- Seconds of one day. -/
def daySeconds : Time := 86400
/-- PART_ID (Table 7-1). -/
def partId : Word := 0x0418
/-- The format word of a formatted tower memory (R133). -/
def formatWord : Word := 0x4E5A
/-- Bytes of tower memory (00, "The host's view"). -/
def memBytes : Nat := 32768
/-- Bytes of one page. -/
def pageBytes : Nat := 256
/-- What a byte of tower memory that nothing has written reads as (DESIGN CHOICE, unsafe, log 1). -/
def blankByte : Byte := 0
/-- The level field of a judgement without a level (R8). -/
def noLevel : Nat := 65535
/-- Records the record queue holds (R154). -/
def queueMax : Nat := 24
/-- Pages that may be TAKEN (R135). -/
def takenMax : Nat := 4
/-- Orders that may be in flight (R135). -/
def inflightMax : Nat := 8
/-- Holds the hold table has room for (Table 3-6). -/
def holdsMax : Nat := 3
/-- Tries a start list remembers (R42). -/
def startsMax : Nat := 12
/-- The span of the starting limit (R42). -/
def startSpan : Time := 3600
/-- The stop confirmation, and the wait before a STUCK record of a welded heater (R45, R52). -/
def stopConfirm : Time := 10
/-- A heater's fixed RETRY_WAIT (R51). -/
def heaterRetry : Time := 60
/-- The time limit of an order in flight (R140). -/
def orderLimit : Time := 600
/-- SERVICE lasts 30 minutes from its entry or renewal (R143). -/
def serviceTime : Time := 1800
/-- Bytes of a journal page after its header (09, 9.3). -/
def journalBytes : Nat := 248
/-- Bytes of a GAP record (R157). -/
def gapBytes : Nat := 40
/-- Counters of 16 bits run on from 65 535 to 0. -/
def wrap16 : Nat := 65536
/-- Counts that stop at 65 535 (R127, R155). -/
def max16 : Nat := 65535
/-- The stagnation timer stops here (R115). -/
def stagnationMax : Nat := 86400
/-- The cycle of a zone in DUTY (R112). -/
def dutyCycle : Nat := 600

end Sys2Proof.Config
end

