-- ==== Sys2Proof/Syntax.lean ====
section
/-! DEFINITION. The commands: one constructor of Instr for each row of spec/opcode_table.json, and the types of their operands. -/

namespace Sys2Proof

/-- The nine actuators (R38). -/
inductive ActId where
  | pump (n : Fin 4) | inlet | heater (n : Fin 4)
  deriving DecidableEq, Repr

/-- The claimants of the load arbiter (Table 4-3). -/
inductive Load where
  | pump (n : Fin 4) | heater (n : Fin 4)
  deriving DecidableEq, Repr

/-- Page and slot of an order (R135). -/
structure OrderRef where
  page : Page
  slot : Fin 7
  deriving DecidableEq, Repr

/-- The trust in the level (R7), from best to worst. -/
inductive Quality where
  | good | single | floatsOnly | none
  deriving DecidableEq, Repr

/-- The part of the tank the level lies in (R8). -/
inductive Band where
  | belowLow | lowToHigh | highToTop | aboveTop
  deriving DecidableEq, Repr

/-- The frost state (R107). -/
inductive FrostState where
  | none | frost | hard
  deriving DecidableEq, Repr

/-- The owner of an actuator (Table 3-1). -/
inductive Owner where
  | none | plan (n : Nat) | manual | guard | frost | hold
  deriving DecidableEq, Repr

/-- A position the inlet may be commanded to (Table 3-1). -/
inductive Position where
  | opened | closed
  deriving DecidableEq, Repr

/-- The float switches and the overflow-pipe switch; true is wet or active (1.3). -/
structure Floats where
  low : Bool
  high : Bool
  top : Bool
  opf : Bool
  deriving DecidableEq, Repr

/-- What one survey samples: the eight raw codes of the 12-bit converter and the four switches (R1). -/
structure Sample where
  codes : Vector (BitVec 12) 8
  floats : Floats
  deriving DecidableEq, Repr

/-- A temperature with its valid flag; it reads 0 when the flag is clear (R4). -/
structure Temp where
  value : Int
  valid : Bool
  deriving DecidableEq, Repr

/-- State and bad count of one analogue channel (R3). -/
structure ChanStat where
  failed : Bool
  bad : Nat
  deriving DecidableEq, Repr

/-- The judgement record (R9). `floats.opf` is also the flag OPF_ACTIVE (R5). The last two fields are what the
delivery of the judgement tells its receivers beside the record: the survey period of the survey that made it
(R27, R29, R83) and whether that survey is a minute boundary of the survey unit's count (R1, R88). -/
structure Judgement where
  level : Nat
  band : Band
  quality : Quality
  disagree : Bool
  floatFault : Bool
  volume : Nat
  inflow : Nat
  draw : Nat
  drawValid : Bool
  air : Temp
  water : Temp
  zones : Vector Temp 4
  floats : Floats
  chans : Vector ChanStat 8
  time : Time
  period : Nat
  minute : Bool
  deriving DecidableEq, Repr

/-- The identity of a tariff window: the day number of the day it starts on and its slot (4.3). -/
structure WindowId where
  day : Int
  slot : Nat
  deriving DecidableEq, Repr

/-- Why the actuator controller tells a plan of its pumps again (R55). -/
inductive PumpChange where
  | staged | running | failed | recalled | lost | stopped
  deriving DecidableEq, Repr

/-- What the actuator controller reports to a plan (R87, R89). -/
inductive Report where
  | inletOpen | inletStuck | inletLost | inletTaken | left
  | pumps (engaged : List (Fin 4)) (change : PumpChange)
  deriving DecidableEq, Repr

/-- The notices of the actuator controller to the frost unit (R111). -/
inductive Notice where
  | on | failedTry | recalled | failed | held | usable | mainsLoss
  deriving DecidableEq, Repr

/-- The record kinds (Table 9-1). -/
inductive RecKind where
  | guardTrip | overflow | pumpFail | stuck | heaterFail | power
  | guardClear | quality | planBegin | planEnd | frost | zone | hold | run | clock | settings | start | service | mark | gap
  | levelFrame | levelStep
  deriving DecidableEq, Repr

/-- A record as it waits for its sequence number (R153): kind, time of its making, order reference, body bytes. -/
structure Rec where
  kind : RecKind
  time : Time
  ref : Option OrderRef
  body : List Byte
  deriving DecidableEq, Repr

/-- Order statuses, in code order (11.3). -/
inductive Status where
  | new | inFlight | done | refused | retry | failed | aborted | notRun
  deriving DecidableEq, Repr

/-- Reasons, in code order (11.3). -/
inductive Reason where
  | none | unknownOrder | badArgument | restricted | localControl | notFitted | guard | failedActuator | held | noSuchPlan
  | noSuchHold | clockUnset | settingsInvalid | notClear | busy | tableFull | holdPending | timeLimit | stuck | noConfirm
  | power | reset | serviceEnd
  deriving DecidableEq, Repr

/-- The step of R169 at which a pin reset arrives during a start-up and abandons it (log 53): after the format check, after
the settings and the first survey, within the repair when `pages` pages are done, or after the START record. -/
inductive StartCut where
  | format | settings | repair (pages : Fin 129) | record
  deriving DecidableEq, Repr

/-- What a start-up finds at the inputs: the samples of its first survey (R1), the STARTSEL straps (R167), the
mains-present and LOCAL inputs (R168, R152), feedbacks and limit switches (R64), and the pin reset that cuts it short, if
one arrives before its end (R169). -/
structure StartInputs where
  sample : Sample
  startsel : Fin 4
  mains : Bool
  localIn : Bool
  feedback : Vector Bool 4
  current : Vector Bool 4
  openLs : Bool
  closedLs : Bool
  cut : Option StartCut
  deriving DecidableEq, Repr

/-- The commands. Each constructor's comment gives its row and the rule the row names. -/
inductive Instr where
  -- survey unit
  /-- SURVEY (R1) -/
  | survey (x : Sample)
  /-- CLOCK_SET_REPORT (R15) -/
  | clockSetReport (old new : Time)
  -- overflow guard
  /-- GUARD_JUDGEMENT (R23) -/
  | guardJudgement (j : Judgement)
  /-- FROST_STATE_CHANGE (R21) -/
  | frostStateChange (f : FrostState)
  /-- GUARD_TRAVEL_END (R27) -/
  | guardTravelEnd
  -- load arbiter
  /-- CLAIM (R74) -/
  | claim (c : Load) (units level : Nat) (urgent : Bool)
  /-- WITHDRAWAL (R74) -/
  | withdrawal (c : Load)
  /-- GRANT_RELEASE (R77) -/
  | grantRelease (c : Load)
  /-- RELEVEL (R75) -/
  | relevel (c : Load) (level : Nat) (urgent : Bool)
  /-- MASK_CHANGE (R78) -/
  | maskChange (mask : Nat)
  /-- BUDGET_CHANGE (R80) -/
  | budgetChange (budget : Nat)
  /-- ARBITER_MAINS_LOSS (R81) -/
  | arbiterMainsLoss
  -- actuator controller
  /-- TRY_BEGIN (R41) -/
  | tryBegin (c : Load)
  /-- TRY_DEADLINE (R41) -/
  | tryDeadline (n : Fin 4)
  /-- RETRY_DEADLINE (R41) -/
  | retryDeadline (n : Fin 4)
  /-- RUN_FEEDBACK_CHANGE (R45) -/
  | runFeedbackChange (n : Fin 4) (on : Bool)
  /-- MIN_RUN_ELAPSED (R44) -/
  | minRunElapsed (n : Fin 4)
  /-- STOP_CONFIRM_EXPIRY (R45) -/
  | stopConfirmExpiry (n : Fin 4)
  /-- MIN_OFF_EXPIRY (R45) -/
  | minOffExpiry (n : Fin 4)
  /-- START_LIST_AGEING (R42) -/
  | startListAgeing (n : Fin 4)
  /-- RECALL (R46) -/
  | recall (c : Load)
  /-- STAGE_REQUEST (R55); `leaving` is set when the plan leaves the inlet (R89) -/
  | stageRequest (plan count : Nat) (leaving : Bool)
  /-- PLAN_GRANT (R53) -/
  | planGrant (plan : Nat)
  /-- INLET_COMMAND (R48), from the owner `by` -/
  | inletCommand (owner : Owner) (pos : Position)
  /-- LIMIT_SWITCH_CHANGE (R49): both switches as they now stand -/
  | limitSwitchChange (openLs closedLs : Bool)
  /-- TRAVEL_DEADLINE (R48) -/
  | travelDeadline
  /-- HEATER_START_REQUEST (R51) -/
  | heaterStartRequest (h : Fin 4) (level : Nat) (urgent : Bool)
  /-- HEATER_STOP_REQUEST (R52) -/
  | heaterStopRequest (h : Fin 4)
  /-- HEATER_CURRENT_CHANGE (R51) -/
  | heaterCurrentChange (h : Fin 4) (on : Bool)
  /-- HEATER_TRY_DEADLINE (R51) -/
  | heaterTryDeadline (h : Fin 4)
  /-- HEATER_RETRY_END (R51) -/
  | heaterRetryEnd (h : Fin 4)
  /-- HEATER_STUCK_EXPIRY (R52) -/
  | heaterStuckExpiry (h : Fin 4)
  /-- HOLD_DEADLINE (R60) -/
  | holdDeadline (number : Nat)
  /-- ACTUATOR_MAINS_LOSS (R61) -/
  | actuatorMainsLoss
  /-- ACTUATOR_MAINS_RESTORE (R61) -/
  | actuatorMainsRestore
  -- calendar
  /-- TARIFF_EVALUATION (R70) -/
  | tariffEvaluation
  /-- CLOCK_ROLLOVER (R65) -/
  | clockRollover
  -- plan controller
  /-- CHEAP_START (R92) -/
  | cheapStart (w : WindowId) (endTime : Time)
  /-- CHEAP_END (R92) -/
  | cheapEnd (w : WindowId)
  /-- PLAN_JUDGEMENT (R86) -/
  | planJudgement (j : Judgement)
  /-- START_AT_PASSES (R86) -/
  | startAtPasses (plan : Nat)
  /-- INLET_SEIZED (R25) -/
  | inletSeized
  /-- INLET_FREE (R30) -/
  | inletFree
  /-- ACTUATOR_REPORT (R87) -/
  | actuatorReport (plan : Nat) (r : Report)
  /-- PUMP_AVAILABLE (R90) -/
  | pumpAvailable (n : Fin 4)
  /-- TURNOVER_REQUEST (R99) -/
  | turnoverRequest
  /-- PLAN_MAINS_LOSS (R91) -/
  | planMainsLoss
  -- frost unit
  /-- FROST_JUDGEMENT (R106) -/
  | frostJudgement (j : Judgement)
  /-- HEATER_NOTICE (R111) -/
  | heaterNotice (h : Fin 4) (k : Notice)
  /-- TURNOVER_CREATED (R115) -/
  | turnoverCreated
  -- memory port
  /-- MAP_ENTRY_WRITE (R122) -/
  | mapEntryWrite (p : Page) (v : Word)
  /-- CONTENT_WRITE (R125): a word address of pages 1 to 127 -/
  | contentWrite (a : BitVec 14) (v : Word)
  /-- ATTN_WRITE (R128) -/
  | attnWrite (v : Word)
  /-- ATTN_EN_WRITE (R130) -/
  | attnEnWrite (v : Word)
  /-- LATCH (R131) -/
  | latch (v : Word)
  /-- KEY (R143) -/
  | key (v : Word)
  /-- IGNORED_WRITE (R120): a word address that answers no write -/
  | ignoredWrite (a : BitVec 15) (v : Word)
  -- order engine
  /-- PAGE_TAKE (R136) -/
  | pageTake
  /-- SET_CLOCK (R66) -/
  | setClock (r : OrderRef) (t : BitVec 32)
  /-- ADOPT_SETTINGS (R165) -/
  | adoptSettings (r : OrderRef)
  /-- SET_TARGET (R96) -/
  | setTarget (r : OrderRef) (level : Word)
  /-- FILL_NOW (R98); deadline 0 is none -/
  | fillNow (r : OrderRef) (target count : Word) (deadline : BitVec 32)
  /-- TURNOVER_NOW (R99) -/
  | turnoverNow (r : OrderRef)
  /-- CANCEL_PLAN (R101) -/
  | cancelPlan (r : OrderRef) (plan : Word)
  /-- READ_PLAN (R147) -/
  | readPlan (r : OrderRef) (plan : Word)
  /-- READ_ACTUATOR (R148) -/
  | readActuator (r : OrderRef) (act : Word)
  /-- START_PUMP (R148) -/
  | startPump (r : OrderRef) (pump hold : Word)
  /-- STOP_PUMP (R148) -/
  | stopPump (r : OrderRef) (pump hold : Word)
  /-- OPEN_INLET (R149) -/
  | openInlet (r : OrderRef) (hold : Word)
  /-- CLOSE_INLET (R149) -/
  | closeInlet (r : OrderRef) (hold : Word)
  /-- RELEASE_MANUAL (R54) -/
  | releaseManual (r : OrderRef)
  /-- HOLD_ACTUATOR (R57) -/
  | holdActuator (r : OrderRef) (act : Word)
  /-- RELEASE_HOLD (R60) -/
  | releaseHold (r : OrderRef) (hold : Word)
  /-- CLEAR_FAILURE (R47) -/
  | clearFailure (r : OrderRef) (act : Word)
  /-- RESET_GUARD (R32) -/
  | resetGuard (r : OrderRef)
  /-- GUARD_TEST (R33) -/
  | guardTest (r : OrderRef)
  /-- JOURNAL_MARK (R151): the 16 host bytes -/
  | journalMark (r : OrderRef) (host : Vector Byte 16)
  /-- FLUSH_JOURNAL (R160) -/
  | flushJournal (r : OrderRef)
  /-- ORDER_COMPLETE (R140) -/
  | orderComplete (r : OrderRef) (st : Status) (rs : Reason) (result : List Byte)
  /-- ORDER_TIME_LIMIT (R140) -/
  | orderTimeLimit (r : OrderRef)
  /-- PAGE_ANSWER (R142) -/
  | pageAnswer (p : Page)
  /-- SERVICE_EXPIRY (R144) -/
  | serviceExpiry
  /-- LOCAL_ENTRY (R145) -/
  | localEntry
  /-- LOCAL_EXIT (R145) -/
  | localExit
  /-- ORDER_MAINS_LOSS (R152) -/
  | orderMainsLoss
  -- journal writer
  /-- RECORD_ARRIVAL (R154) -/
  | recordArrival (r : Rec)
  /-- PAGE_OPEN (R156) -/
  | pageOpen
  /-- JOURNAL_AGE_EXPIRY (R159) -/
  | journalAgeExpiry
  -- settings unit
  /-- MAINS_LOSS (R168) -/
  | mainsLoss
  /-- MAINS_RESTORE (R171) -/
  | mainsRestore
  /-- STAGGER_END (R168) -/
  | staggerEnd
  /-- COLD_START (R169) -/
  | coldStart (x : StartInputs)
  /-- PIN_RESET (R169) -/
  | pinReset (x : StartInputs)
  /-- RESET_INPUT_ASSERTED (R28) -/
  | resetInputAsserted
  deriving DecidableEq, Repr

end Sys2Proof
end

