-- ==== Sys2Proof/Machine/State.lean ====
section
/-! DEFINITION. The state of the NZ418: every register, list, table, timer and pin the spec gives its blocks, the
tower memory, the messages on their way between blocks, and the queue of commands. Plain data. -/

namespace Sys2Proof.Machine

/-- A memory: bytes at rising addresses, none equal to the blank byte (log 1). -/
abbrev Memory := List Host.Cell

/-! ## Settings (10.1, Table 11-7) -/

/-- One strapping point (R11). -/
structure Strap where
  level : Nat
  volume : Nat
  deriving DecidableEq, Repr

/-- The two calibration points of a channel (R2). -/
structure Cal where
  code1 : Nat
  value1 : Int
  code2 : Nat
  value2 : Int
  deriving DecidableEq, Repr

/-- Per-pump settings (Table 3-2). -/
structure PumpSet where
  fitted : Bool
  flow : Nat
  units : Nat
  deriving DecidableEq, Repr

/-- Per-zone settings (Table 6-2). -/
structure ZoneSet where
  fitted : Bool
  channel : Fin 8
  level : Nat
  failDuty : Nat
  onTemp : Int
  offTemp : Int
  hardTemp : Int
  units : Nat
  deriving DecidableEq, Repr

/-- A window slot: first minute of the day and length; length 0 is unused (R68). -/
structure Slot where
  start : Nat
  length : Nat
  deriving DecidableEq, Repr

/-- The windows of one weekday (Table 4-1). -/
structure DayTariff where
  cheap : Vector Slot 3
  peak : Vector Slot 2
  deriving DecidableEq, Repr

/-- The working settings (R163; Table 11-7 in index order). -/
structure Settings where
  siteNumber : Nat
  siteCode : Nat
  straps : List Strap
  floatLow : Nat
  floatHigh : Nat
  floatTop : Nat
  floatBand : Nat
  cal : Vector Cal 8
  abTolerance : Nat
  warnLevel : Nat
  tripLevel : Nat
  releaseLevel : Nat
  frostMargin : Nat
  tripConfirm : Nat
  releaseAck : Bool
  releaseDelay : Nat
  pumps : Vector PumpSet 4
  confirmTime : Nat
  startTryLimit : Nat
  restartInterval : Nat
  startsPerHour : Nat
  minRun : Nat
  minOff : Nat
  travelLimit : Nat
  heaterConfirm : Nat
  heaterTryLimit : Nat
  frostThreshold : Int
  hardThreshold : Int
  frostHysteresis : Int
  turnoverTemp : Int
  stagnationLimit : Nat
  waterChannel : Option (Fin 8)
  turnoverDepth : Nat
  drawLimit : Nat
  zones : Vector ZoneSet 4
  tariff : Vector DayTariff 7
  cheapMask : Nat
  standardMask : Nat
  peakMask : Nat
  loadBudget : Nat
  nightTarget : Nat
  dayFloor : Nat
  topupMargin : Nat
  topupMinutes : Nat
  fillMargin : Nat
  defaultDraw : Nat
  restartStagger : Nat
  reportInterval : Nat
  stepDeadband : Nat
  journalAge : Nat
  holdLifetime : Nat
  deriving DecidableEq, Repr

/-- The factory defaults (R166, Table 10-3; other fields at the lowest value of their range). -/
def factory : Settings where
  siteNumber := 0
  siteCode := 0
  straps := [⟨0, 0⟩, ⟨40000, 4000000⟩]
  floatLow := 2000
  floatHigh := 30000
  floatTop := 34000
  floatBand := 100
  cal := #v[⟨400, 0, 3900, 40000⟩, ⟨400, 0, 3900, 40000⟩, ⟨400, -400, 3900, 600⟩, ⟨400, -400, 3900, 600⟩,
    ⟨400, -400, 3900, 600⟩, ⟨400, -400, 3900, 600⟩, ⟨400, -400, 3900, 600⟩, ⟨400, -400, 3900, 600⟩]
  abTolerance := 150
  warnLevel := 32000
  tripLevel := 33000
  releaseLevel := 30000
  frostMargin := 500
  tripConfirm := 3
  releaseAck := true
  releaseDelay := 60
  pumps := Vector.replicate 4 ⟨false, 0, 1⟩
  confirmTime := 2
  startTryLimit := 1
  restartInterval := 10
  startsPerHour := 1
  minRun := 0
  minOff := 0
  travelLimit := 120
  heaterConfirm := 2
  heaterTryLimit := 1
  frostThreshold := 20
  hardThreshold := -80
  frostHysteresis := 15
  turnoverTemp := -400
  stagnationLimit := 1
  waterChannel := none
  turnoverDepth := 100
  drawLimit := 1
  zones := Vector.replicate 4 ⟨false, 3, 1, 0, -400, -400, -400, 1⟩
  tariff := Vector.replicate 7 ⟨Vector.replicate 3 ⟨0, 0⟩, Vector.replicate 2 ⟨0, 0⟩⟩
  cheapMask := 0
  standardMask := 2
  peakMask := 3
  loadBudget := 0
  nightTarget := 30000
  dayFloor := 10000
  topupMargin := 100
  topupMinutes := 1
  fillMargin := 0
  defaultDraw := 0
  restartStagger := 30
  reportInterval := 15
  stepDeadband := 200
  journalAge := 15
  holdLifetime := 60

/-! ## Survey unit (01) -/

/-- An analogue channel (R3). -/
structure Channel where
  failed : Bool
  bad : Nat
  held : Option Int
  deriving DecidableEq, Repr

/-- One minute sample (R13). -/
structure MinuteSample where
  volume : Nat
  quality : Quality
  inflow : Nat
  deriving DecidableEq, Repr

/-- One entry of the hourly draw table (Table 1-4). -/
structure HourEntry where
  mean : Nat
  minutes : Nat
  valid : Bool
  deriving DecidableEq, Repr

/-- The hour accumulator while it holds an hour (R14). -/
structure HourAcc where
  hour : Nat
  sum : Nat
  count : Nat
  deriving DecidableEq, Repr

/-- The report interval in progress (R16); `minutes` are the minute boundaries counted since it began. -/
structure Interval where
  start : Time
  least : Nat
  most : Nat
  sum : Nat
  count : Nat
  worst : Quality
  startVolume : Nat
  minutes : Nat
  deriving DecidableEq, Repr

/-- The survey unit's state (Table 1-5). -/
structure SurveyState where
  chans : Vector Channel 8
  deb : Floats
  prev : Option Floats
  judgement : Option Judgement
  seconds : Nat
  interval : Option Nat
  minutes : List MinuteSample
  minAcc : Nat
  intAcc : Nat
  draw : Nat
  drawValid : Bool
  hours : Vector HourEntry 24
  hourAcc : Option HourAcc
  report : Option Interval
  reportFrom : Time
  startVolDue : Bool
  stepRef : Option Nat
  spacing : Nat
  deriving DecidableEq, Repr

/-! ## Overflow guard (02) -/

/-- Guard states (Table 2-1). -/
inductive GuardMode where
  | clear | watch | tripped | held
  deriving DecidableEq, Repr

/-- Trip causes: Table 2-3 in its order, then TEST. -/
inductive Cause where
  | topFloat | overflowFlow | blind | highFloat | level | test
  deriving DecidableEq, Repr

/-- An active overflow episode (R34). -/
structure Episode where
  start : Time
  elapsed : Nat
  deriving DecidableEq, Repr

/-- The guard's state (Table 2-1). -/
structure GuardState where
  mode : GuardMode
  frostFlag : Bool
  effWarn : Nat
  effTrip : Nat
  confirm : Nat
  causes : List Cause
  first : Option Cause
  tripTime : Option Time
  tripSecs : Nat
  release : Option Nat
  episode : Option Episode
  deriving DecidableEq, Repr

/-! ## Actuator controller (03) -/

/-- Pump machine states (Table 3-3). -/
inductive PumpMode where
  | ready | resting | starting | running | stopping | retryWait | failed | stuckOn | held
  deriving DecidableEq, Repr

/-- Heater machine states (R51). -/
inductive HeaterMode where
  | ready | starting | on | retryWait | failed | held
  deriving DecidableEq, Repr

/-- Inlet machine states (Table 3-5). -/
inductive InletMode where
  | closed | opening | opened | closing | midway | stuck
  deriving DecidableEq, Repr

/-- What the owner last asked (Table 3-1). -/
inductive Request where
  | none | start | stop
  deriving DecidableEq, Repr

/-- The standing with the load arbiter (Table 3-1). -/
inductive ClaimState where
  | none | claimed | granted | recalled
  deriving DecidableEq, Repr

/-- A pump entry (Table 3-1). `stopDl` is the 10 s stop confirmation (R45), `offEnd` the end of `min_off`, `offWaived`
the waiver of R61, `stopWait` a stop that waits on `min_run` (R44), `seconds` the remainder of run minutes (R43). -/
structure Pump where
  owner : Owner
  request : Request
  contactor : Bool
  feedback : Bool
  mode : PumpMode
  tries : Nat
  claim : ClaimState
  runSince : Option Time
  offSince : Option Time
  tryDl : Option Time
  retryDl : Option Time
  stopDl : Option Time
  offEnd : Option Time
  offWaived : Bool
  stopWait : Bool
  hold : Option Nat
  starts : List Time
  minutes : Nat
  seconds : Nat
  deriving DecidableEq, Repr

/-- A heater entry (Table 3-1). `stuckDl` is the end of the 10 s of current with the contactor OFF, `stuckSaid` that its
STUCK record was made (R52); `level` and `urgent` are what the frost unit gave with its last request (06, 6.3). -/
structure Heater where
  owner : Owner
  request : Request
  contactor : Bool
  current : Bool
  mode : HeaterMode
  tries : Nat
  claim : ClaimState
  runSince : Option Time
  offSince : Option Time
  tryDl : Option Time
  retryDl : Option Time
  stuckDl : Option Time
  stuckSaid : Bool
  hold : Option Nat
  level : Nat
  urgent : Bool
  deriving DecidableEq, Repr

/-- The inlet entry (Table 3-1). Marks: `releasing` (R54), `leaving` (R53), `closeWait` a close that waits for pumps
(R50), `openWait` an OPEN_INLET that waits for a plan's pumps (R54), `driveWait` the closing travel of a start, which waits until
the part drives its outputs (R64, log 52). `closeFor` and `goFor` are pumps that a waiting close or open, and a leaving plan or a
releasing MANUAL, wait for though a hold that ended has made their owner NONE (R50, R54, R60). -/
structure Inlet where
  owner : Owner
  cmd : Option Position
  openLs : Bool
  closedLs : Bool
  mode : InletMode
  travelDl : Option Time
  hold : Option Nat
  releasing : Bool
  leaving : Bool
  closeWait : Bool
  openWait : Bool
  driveWait : Bool
  closeFor : List (Fin 4)
  goFor : List (Fin 4)
  deriving DecidableEq, Repr

/-- A hold record (Table 3-6); PENDING until `established` is present. -/
structure Hold where
  number : Nat
  act : ActId
  requested : Time
  established : Option Time
  deadline : Time
  ref : OrderRef
  deriving DecidableEq, Repr

/-- The actuator controller's state (R38, R57). -/
structure ActState where
  pumps : Vector Pump 4
  inlet : Inlet
  heaters : Vector Heater 4
  holds : List Hold
  lastHold : Nat
  deriving DecidableEq, Repr

/-! ## Calendar and load arbiter (04) -/

/-- Tariff bands (R69). -/
inductive Tariff where
  | cheap | standard | peak
  deriving DecidableEq, Repr

/-- A window in force (Table 4-2). -/
structure Window where
  cheap : Bool
  ident : WindowId
  endTime : Time
  deriving DecidableEq, Repr

/-- The calendar's state (Table 4-2); the band is none from a pin reset to the first evaluation (R72). -/
structure CalState where
  count : Time
  set : Bool
  band : Option Tariff
  window : Option Window
  lastBegun : Option WindowId
  deriving DecidableEq, Repr

/-- A claim (Table 4-3). -/
structure Claim where
  who : Load
  units : Nat
  level : Nat
  urgent : Bool
  join : Nat
  deriving DecidableEq, Repr

/-- A grant (Table 4-3): RECALLED when `recalled`. -/
structure Grant where
  who : Load
  units : Nat
  level : Nat
  urgent : Bool
  join : Nat
  recalled : Bool
  deriving DecidableEq, Repr

/-- The load arbiter's state (R73). -/
structure ArbState where
  budget : Nat
  mask : Nat
  claims : List Claim
  grants : List Grant
  join : Nat
  deriving DecidableEq, Repr

/-! ## Plan controller (05) -/

/-- Plan kinds (Table 5-2). -/
inductive PlanKind where
  | nightFill | dayTopup | hostFill | turnover
  deriving DecidableEq, Repr

/-- Plan origins (Table 5-2). -/
inductive Origin where
  | calendar | level | order | frost
  deriving DecidableEq, Repr

/-- Plan states (Table 5-2). -/
inductive PlanState where
  | waiting | active | paused | ended
  deriving DecidableEq, Repr

/-- Pause causes (Table 5-3). -/
inductive Pause where
  | guard | preempted | localControl | power | hostClose | noPumps
  deriving DecidableEq, Repr

/-- End causes (Table 5-2). -/
inductive EndCause where
  | targetReached | deadline | cancelled | notNeeded | absorbed | noPumps | settings | reset
  deriving DecidableEq, Repr

/-- A plan record (Table 5-2). `cleared` says that the pause cause has cleared (Table 5-3), `volAcc` is the volume
accumulator (R83), `actRun` the run time since the plan last became ACTIVE (R97), `floats` the target form FLOATS,
`floatsComputed` that a night fill was computed under FLOATS_ONLY or NONE (R94), `early` its early start (R94),
`draw` the phase DRAW of a turnover. -/
structure Plan where
  number : Nat
  kind : PlanKind
  origin : Origin
  state : PlanState
  pause : Option Pause
  cleared : Bool
  target : Nat
  targetVolume : Nat
  floats : Bool
  deadline : Option Time
  window : Option WindowId
  latest : Option Time
  startAt : Option Time
  stage : Nat
  engaged : List (Fin 4)
  volAcc : Nat
  runTime : Nat
  firstActive : Option Time
  activeSince : Option Time
  activeLevel : Option Nat
  actRun : Nat
  draw : Bool
  startLevel : Option Nat
  depth : Option Nat
  drawSecs : Nat
  runOn : Option Nat
  floatsComputed : Bool
  early : Bool
  created : Time
  endCause : Option EndCause
  ref : Option OrderRef
  deriving DecidableEq, Repr

/-- The plan controller's state (Table 5-4). -/
structure PlanCtl where
  slots : Vector (Option Plan) 6
  lastNumber : Nat
  request : Option Nat
  override : Option Nat
  topupInhibit : Bool
  deriving DecidableEq, Repr

/-! ## Frost unit (06) -/

/-- Zone states (Table 6-4). -/
inductive ZoneState where
  | idle | want | heating | shed | duty | zoneFault | disabled
  deriving DecidableEq, Repr

/-- A zone record beside its settings (Table 6-3). -/
structure Zone where
  state : ZoneState
  urgent : Bool
  want : Bool
  duty : Nat
  temp : Temp
  deriving DecidableEq, Repr

/-- The frost unit's state (Table 6-1); `noAir` is frost cause NO_AIR. -/
structure FrostCtl where
  state : FrostState
  noAir : Bool
  zones : Vector Zone 4
  stagnation : Nat
  first : Bool
  deriving DecidableEq, Repr

/-! ## Order engine (08) -/

/-- The orders, in code order (11.3). -/
inductive OrderCode where
  | setClock | adoptSettings | setTarget | fillNow | turnoverNow | cancelPlan | readPlan | readActuator
  | startPump | stopPump | openInlet | closeInlet | releaseManual | holdActuator | releaseHold | clearFailure
  | resetGuard | guardTest | journalMark | flushJournal
  deriving DecidableEq, Repr

/-- A taken page (R135). -/
structure TakenPage where
  page : Page
  next : Nat
  parked : Bool
  records : Nat
  deriving DecidableEq, Repr

/-- An in-flight order (R135). -/
structure InFlight where
  ref : OrderRef
  code : OrderCode
  target : Nat
  entry : Time
  deriving DecidableEq, Repr

/-- Access states (Table 8-3). -/
inductive Access where
  | normal | service | localControl
  deriving DecidableEq, Repr

/-- The order engine's state (R135). -/
structure EngState where
  submitted : List Page
  taken : List TakenPage
  inflight : List InFlight
  lastTaken : Byte
  access : Access
  serviceEnd : Option Time
  deriving DecidableEq, Repr

/-! ## Journal writer (09) -/

/-- Losses of one class (R155). -/
structure Gap where
  count : Nat
  first : Time
  last : Time
  deriving DecidableEq, Repr

/-- The open journal page and its header (R156, Table 11-5). -/
structure OpenPage where
  page : Page
  fill : Nat
  records : Nat
  used : Nat
  first : Nat
  gapInside : Bool
  ageStart : Option Time
  deriving DecidableEq, Repr

/-- The journal writer's state (Table 9-2). -/
structure JrnState where
  queue : List Rec
  given : List Page
  opened : Option OpenPage
  seq : Nat
  fill : Nat
  gaps : Vector Gap 3
  resetMark : Bool
  flush : Option OrderRef
  shortage : Bool
  starting : Bool
  deriving DecidableEq, Repr

/-! ## Settings unit (10) -/

/-- Power states (R168). -/
inductive Power where
  | start | run | dark
  deriving DecidableEq, Repr

/-- Start-up sources (Table 10-4). -/
inductive Source where
  | image | defaultsAfterFault | defaults | standby
  deriving DecidableEq, Repr

/-- The settings unit's state, and the inputs it reads (R163, R168). -/
structure SysState where
  settings : Settings
  number : Nat
  source : Source
  power : Power
  standby : Bool
  stagger : Option Time
  started : Bool
  held : Bool
  mains : Bool
  localIn : Bool
  deriving DecidableEq, Repr

/-! ## Memory port (07) -/

/-- Page states, in code order (Table 7-2). -/
inductive PageState where
  | free | orderDraft | submitted | taken | answered | journalGiven | journalOpen | journalFull | fixed
  deriving DecidableEq, Repr

/-- A map entry (R121). -/
structure MapEntry where
  state : PageState
  seq : Byte
  deriving DecidableEq, Repr

/-- Protect causes, in code order (Table 11-1). -/
inductive ProtectCause where
  | none | mapTransition | owned | board | settingsLocked | starting
  deriving DecidableEq, Repr

/-- The protect record (R127). -/
structure Protect where
  captured : Bool
  addr : Nat
  value : Word
  cause : ProtectCause
  time : Time
  further : Nat
  deriving DecidableEq, Repr

/-- One line of the attention detail (R129). -/
structure DetailLine where
  count : Nat
  subject : Nat
  time : Time
  deriving DecidableEq, Repr

/-- The summary of one actuator entry in a board copy (R131), in its byte form (Table 11-1). -/
structure ActSummary where
  ownerKind : Nat
  plan : Nat
  request : Nat
  commanded : Nat
  sensed : Nat
  machine : Nat
  tries : Nat
  claim : Nat
  hold : Nat
  minutes : Nat
  recentStarts : Nat
  deriving DecidableEq, Repr

/-- A board copy, item by item in the order of R131. -/
structure BoardCopy where
  count : Nat
  time : Time
  judgement : Option Judgement
  guard : GuardState
  frost : FrostCtl
  zoneSets : Vector ZoneSet 4
  cal : CalState
  arb : ArbState
  acts : List ActSummary
  plans : Vector (Option Plan) 6
  holds : List Hold
  submitted : Nat
  taken : List Page
  inflight : List InFlight
  queued : List Nat
  gaps : Vector Gap 3
  openPage : Option Page
  given : Nat
  access : Access
  minutesLeft : Nat
  power : Power
  number : Nat
  source : Source
  standby : Bool
  deriving DecidableEq, Repr

/-- The memory port's state (Table 7-8). Attention flags and enables are bits 0 to 5 of Table 7-6. -/
structure PortState where
  shadow : Vector MapEntry 128
  mapReady : Bool
  attn : BitVec 6
  attnEn : BitVec 6
  copies : Nat
  board : Option BoardCopy
  protect : Protect
  detail : Vector DetailLine 6
  deriving DecidableEq, Repr

/-! ## The whole -/

/-- The state of the block. `transit` and `pending` are the model's own (log 4, log 5): the messages between blocks
that have not arrived, oldest first, and the queue of commands. -/
structure State where
  mem : Memory
  port : PortState
  survey : SurveyState
  guard : GuardState
  act : ActState
  cal : CalState
  arb : ArbState
  plans : PlanCtl
  frost : FrostCtl
  eng : EngState
  jrn : JrnState
  sys : SysState
  transit : List Instr
  pending : List Instr
  deriving DecidableEq, Repr

/-- Faults: the spec names no event that stops the part, so there is none (INVENTORY, Faults). -/
inductive Fault where
  deriving DecidableEq, Repr

/-- Refusals: only the name for a command without a meaning; no arm raises it. -/
inductive Refusal where
  /-- A command that has no meaning yet. Raised by no arm of exec; safe. -/
  | notModelled (mnemonic : String)
  deriving DecidableEq, Repr

/-! ## Values at reset -/

/-- A pump after a start (Table 3-7), with feedback OFF and no run minutes. -/
def Pump.initial : Pump where
  owner := .none
  request := .none
  contactor := false
  feedback := false
  mode := .ready
  tries := 0
  claim := .none
  runSince := none
  offSince := none
  tryDl := none
  retryDl := none
  stopDl := none
  offEnd := none
  offWaived := false
  stopWait := false
  hold := none
  starts := []
  minutes := 0
  seconds := 0

/-- A heater after a start (Table 3-7), with no current. -/
def Heater.initial : Heater where
  owner := .none
  request := .none
  contactor := false
  current := false
  mode := .ready
  tries := 0
  claim := .none
  runSince := none
  offSince := none
  tryDl := none
  retryDl := none
  stuckDl := none
  stuckSaid := false
  hold := none
  level := 1
  urgent := false

/-- The inlet after a start (Table 3-7), with neither limit switch made; its closing travel waits for the outputs (R64). -/
def Inlet.initial : Inlet where
  owner := .none
  cmd := some .closed
  openLs := false
  closedLs := false
  mode := .midway
  travelDl := none
  hold := none
  releasing := false
  leaving := false
  closeWait := false
  openWait := false
  driveWait := true
  closeFor := []
  goFor := []

/-- The actuator controller after a cold start (Table 3-7). -/
def ActState.initial : ActState where
  pumps := Vector.replicate 4 Pump.initial
  inlet := Inlet.initial
  heaters := Vector.replicate 4 Heater.initial
  holds := []
  lastHold := 0

/-- The survey unit after a cold start (Table 1-5). -/
def SurveyState.initial : SurveyState where
  chans := Vector.replicate 8 ⟨false, 0, none⟩
  deb := ⟨false, false, false, false⟩
  prev := none
  judgement := none
  seconds := 0
  interval := none
  minutes := []
  minAcc := 0
  intAcc := 0
  draw := 0
  drawValid := false
  hours := Vector.replicate 24 ⟨0, 0, false⟩
  hourAcc := none
  report := none
  reportFrom := 0
  startVolDue := false
  stepRef := none
  spacing := 10

/-- The guard after a cold start or a pin reset, under settings `t` (R37). The trip duration, of which R37 gives no value, is
0 (log 41). -/
def GuardState.initial (t : Settings) : GuardState where
  mode := .clear
  frostFlag := false
  effWarn := t.warnLevel
  effTrip := t.tripLevel
  confirm := 0
  causes := []
  first := none
  tripTime := none
  tripSecs := 0
  release := none
  episode := none

/-- The calendar after a cold start (R72). -/
def CalState.initial : CalState where
  count := 0
  set := false
  band := some .standard
  window := none
  lastBegun := none

/-- The load arbiter after a start, under settings `t` (R82). Until the first mask arrives it holds the standard mask of
those settings, of which R82 says nothing (log 2). -/
def ArbState.initial (t : Settings) : ArbState where
  budget := t.loadBudget
  mask := t.standardMask
  claims := []
  grants := []
  join := 0

/-- The plan controller after a start (Table 5-4). -/
def PlanCtl.initial : PlanCtl where
  slots := Vector.replicate 6 none
  lastNumber := 0
  request := none
  override := none
  topupInhibit := false

/-- The frost unit after a start, under settings `t` (Table 6-6). Until a judgement a zone's temperature is 0 and not valid, of which
Table 6-6 says nothing (log 60). -/
def FrostCtl.initial (t : Settings) : FrostCtl where
  state := .none
  noAir := false
  zones := t.zones.map fun z => ⟨if z.fitted then .idle else .disabled, false, false, 0, ⟨0, false⟩⟩
  stagnation := 0
  first := true

/-- The order engine after a cold start, before the map is read (Table 8-5). -/
def EngState.initial : EngState where
  submitted := []
  taken := []
  inflight := []
  lastTaken := 0
  access := .normal
  serviceEnd := none

/-- The journal writer after a cold start (Table 9-2). -/
def JrnState.initial : JrnState where
  queue := []
  given := []
  opened := none
  seq := 0
  fill := 0
  gaps := Vector.replicate 3 ⟨0, 0, 0⟩
  resetMark := false
  flush := none
  shortage := false
  starting := true

/-- The protect record after a start (Table 7-8). -/
def Protect.initial : Protect where
  captured := false
  addr := 0
  value := 0
  cause := .none
  time := 0
  further := 0

/-- The memory port at a cold start, before the format check (Table 7-8); no board copy. -/
def PortState.initial : PortState where
  shadow := Vector.replicate 128 ⟨.free, 0⟩
  mapReady := false
  attn := 0
  attnEn := 0
  copies := 0
  board := none
  protect := Protect.initial
  detail := Vector.replicate 6 ⟨0, 0, 0⟩

/-- The settings unit at a cold start, before step 1 of R169. -/
def SysState.initial : SysState where
  settings := factory
  number := 0
  source := .defaults
  power := .start
  standby := false
  stagger := none
  started := false
  held := false
  mains := true
  localIn := false

/-- Right after power is applied with the battery domain lost, before start-up has run (log 2). -/
def State.reset : State where
  mem := []
  port := PortState.initial
  survey := SurveyState.initial
  guard := GuardState.initial factory
  act := ActState.initial
  cal := CalState.initial
  arb := ArbState.initial factory
  plans := PlanCtl.initial
  frost := FrostCtl.initial factory
  eng := EngState.initial
  jrn := JrnState.initial
  sys := SysState.initial
  transit := []
  pending := []

end Sys2Proof.Machine
end

