-- ==== Sys2Proof/Machine/Ops.lean ====
section
/-! DEFINITION. The named operations every block uses: tower memory, the page map, the tables of the state, and the
messages between blocks. -/

namespace Sys2Proof.Machine

/-! ## Tower memory -/

/-- The byte at an address; an unlisted address reads the blank byte. -/
def Memory.read : Memory → Nat → Byte
  | [], _ => Config.blankByte
  | (b, v) :: m, a => if b = a then v else Memory.read m a

/-- The list with the byte `v` at `a`, in address order. -/
def Memory.insert : Memory → Nat → Byte → Memory
  | [], a, v => [(a, v)]
  | (b, w) :: m, a, v =>
    if a < b then (a, v) :: (b, w) :: m else if a = b then (a, v) :: m else (b, w) :: Memory.insert m a v

/-- A write of one byte. It keeps the canonical form; an address outside tower memory does not exist and changes nothing. -/
def Memory.write (m : Memory) (a : Nat) (v : Byte) : Memory :=
  if Config.memBytes ≤ a then m
  else if v = Config.blankByte then m.filter (fun c => decide (c.1 ≠ a))
  else Memory.insert m a v

/-- Consecutive bytes written from address `a` on. -/
def Memory.writes : Memory → Nat → List Byte → Memory
  | m, _, [] => m
  | m, a, v :: vs => Memory.writes (Memory.write m a v) (a + 1) vs

/-- The canonical form: addresses strictly rising, inside tower memory, and no blank byte listed. -/
def Memory.wf (m : Memory) : Bool :=
  decide (m.Pairwise fun x y => x.1 < y.1) && m.all fun c => decide (c.1 < Config.memBytes ∧ c.2 ≠ Config.blankByte)

/-- The byte address of offset `o` of page `p` (R120). -/
def addr (p : Page) (o : Nat) : Nat := Config.pageBytes * p.val + o

/-- A number in `k` bytes, little-endian (R173). -/
def leBytes : Nat → Nat → List Byte
  | 0, _ => []
  | k + 1, n => BitVec.ofNat 8 n :: leBytes k (n / 256)

/-- One byte at offset `o` of page `p`, as a number. -/
def State.byte (s : State) (p : Page) (o : Nat) : Nat := (s.mem.read (addr p o)).toNat

/-- The 16-bit number at offset `o` of page `p` (R173). -/
def State.half (s : State) (p : Page) (o : Nat) : Nat := s.byte p o + 256 * s.byte p (o + 1)

/-- The 32-bit number at offset `o` of page `p`, low word first (R173). -/
def State.full (s : State) (p : Page) (o : Nat) : Nat := s.half p o + 65536 * s.half p (o + 2)

/-- The part's own write of bytes into page `p` from offset `o` on. -/
def State.poke (p : Page) (o : Nat) (bs : List Byte) (s : State) : State :=
  { s with mem := s.mem.writes (addr p o) bs }

/-! ## The page map -/

/-- The code of a page state (Table 7-2). -/
def PageState.code : PageState → Nat
  | .free => 0
  | .orderDraft => 1
  | .submitted => 2
  | .taken => 3
  | .answered => 4
  | .journalGiven => 5
  | .journalOpen => 6
  | .journalFull => 7
  | .fixed => 8

/-- The page state of a code; none above 8 (Table 7-2). -/
def PageState.ofCode (n : Nat) : Option PageState :=
  [.free, .orderDraft, .submitted, .taken, .answered, .journalGiven, .journalOpen, .journalFull, .fixed][n]?

/-- A change of a map entry: page 0 and the shadow in one event (R121). -/
def State.setEntry (p : Page) (e : MapEntry) (s : State) : State :=
  { s with
    mem := s.mem.writes (2 * p.val) [BitVec.ofNat 8 e.state.code, e.seq]
    port := { s.port with shadow := s.port.shadow.set p.val e p.isLt } }

/-- The entry of a page, as the shadow holds it. -/
def State.entry (s : State) (p : Page) : MapEntry := s.port.shadow[p.val]'p.isLt

/-- A change of a page's state that keeps its sequence byte (Table 7-4). -/
def State.setPageState (p : Page) (st : PageState) (s : State) : State :=
  s.setEntry p ⟨st, (s.entry p).seq⟩

/-! ## Messages and gates -/

/-- A message to another block sets out (log 4). -/
def State.post (m : Instr) (s : State) : State := { s with transit := s.transit ++ [m] }

/-- Messages sent in order. -/
def State.posts (ms : List Instr) (s : State) : State := { s with transit := s.transit ++ ms }

/-- A command while the part is held in reset changes nothing (log 8). -/
def State.alive (f : State → State) (s : State) : State := if s.sys.held then s else f s

/-- The arrival of a message: its oldest copy leaves the messages on their way, and the block acts (log 4). -/
def State.taking (c : Instr) (f : State → State) (s : State) : State :=
  s.alive fun s => f { s with transit := s.transit.erase c }

/-- The present tower time (R65). -/
def State.now (s : State) : Time := s.cal.count

/-- Whether a running timer has run out. -/
def State.due (s : State) (d : Option Time) : Bool :=
  match d with
  | none => false
  | some t => decide (t ≤ s.now)

/-- The working settings (R163). -/
def State.set (s : State) : Settings := s.sys.settings

/-! ## The actuator table -/

/-- The four pumps or heaters, in table order. -/
def four : List (Fin 4) := [0, 1, 2, 3]

/-- A pump entry. -/
def State.pump (s : State) (n : Fin 4) : Pump := s.act.pumps[n.val]'n.isLt

/-- A heater entry. -/
def State.heater (s : State) (h : Fin 4) : Heater := s.act.heaters[h.val]'h.isLt

/-- A pump entry changed. -/
def State.setPump (n : Fin 4) (p : Pump) (s : State) : State :=
  { s with act := { s.act with pumps := s.act.pumps.set n.val p n.isLt } }

/-- A pump entry changed by a function. -/
def State.modPump (n : Fin 4) (f : Pump → Pump) (s : State) : State := s.setPump n (f (s.pump n))

/-- A heater entry changed. -/
def State.setHeater (h : Fin 4) (p : Heater) (s : State) : State :=
  { s with act := { s.act with heaters := s.act.heaters.set h.val p h.isLt } }

/-- A heater entry changed by a function. -/
def State.modHeater (h : Fin 4) (f : Heater → Heater) (s : State) : State := s.setHeater h (f (s.heater h))

/-- The inlet entry changed by a function. -/
def State.modInlet (f : Inlet → Inlet) (s : State) : State := { s with act := { s.act with inlet := f s.act.inlet } }

/-- The settings of a pump. -/
def State.pumpSet (s : State) (n : Fin 4) : PumpSet := s.set.pumps[n.val]'n.isLt

/-- The settings of a zone and of its heater. -/
def State.zoneSet (s : State) (h : Fin 4) : ZoneSet := s.set.zones[h.val]'h.isLt

/-- Whether an actuator is fitted; INLET always is (Table 3-1). -/
def State.fitted (s : State) : ActId → Bool
  | .pump n => (s.pumpSet n).fitted
  | .inlet => true
  | .heater h => (s.zoneSet h).fitted

/-- The hold number an actuator entry carries. -/
def State.holdOf (s : State) : ActId → Option Nat
  | .pump n => (s.pump n).hold
  | .inlet => s.act.inlet.hold
  | .heater h => (s.heater h).hold

/-- The hold that names an actuator. -/
def State.holdNaming (s : State) (a : ActId) : Option Hold := s.act.holds.find? fun h => decide (h.act = a)

/-- Whether an ESTABLISHED hold names the actuator. -/
def State.heldEstablished (s : State) (a : ActId) : Bool :=
  match s.holdNaming a with
  | none => false
  | some h => h.established.isSome

/-- Whether a PENDING hold names the actuator. -/
def State.heldPending (s : State) (a : ActId) : Bool :=
  match s.holdNaming a with
  | none => false
  | some h => h.established.isNone

/-- The lowest number above `last` not in `used`, counting on from 255 to 1 (R57, R84). -/
def nextNumber (last : Nat) (used : List Nat) : Nat :=
  (((List.range 255).map fun k => (last + k) % 255 + 1).find? fun n => !used.contains n).getD 1

/-- Folds a change over a list of members. -/
def overAll {α : Type} (l : List α) (f : α → State → State) (s : State) : State := l.foldl (fun s a => f a s) s

end Sys2Proof.Machine
end

