-- ==== Sys2Proof/Machine/Operands.lean ====
section
/-! DEFINITION. How values are written into and read from tower memory: the encodings of R173, the codes of Table 11-1,
the fields of order records (Tables 11-3 and 11-4) and the summaries of READ_ACTUATOR and the board copy. -/

namespace Sys2Proof

/-! ## Codes of the command types (Table 11-1, 11.3) -/

/-- Quality codes. -/
def Quality.code : Quality → Nat
  | .good => 0
  | .single => 1
  | .floatsOnly => 2
  | .none => 3
/-- Band codes. -/
def Band.code : Band → Nat
  | .belowLow => 0
  | .lowToHigh => 1
  | .highToTop => 2
  | .aboveTop => 3
/-- Frost state codes. -/
def FrostState.code : FrostState → Nat
  | .none => 0
  | .frost => 1
  | .hard => 2
/-- Owner kind codes. -/
def Owner.code : Owner → Nat
  | .none => 0
  | .plan _ => 1
  | .manual => 2
  | .guard => 3
  | .frost => 4
  | .hold => 5
/-- The plan number of an owner, 0 when it is no plan. -/
def Owner.planNumber : Owner → Nat
  | .none => 0
  | .plan n => n
  | .manual => 0
  | .guard => 0
  | .frost => 0
  | .hold => 0
/-- Whether the owner is a plan. -/
def Owner.isPlan : Owner → Bool
  | .none => false
  | .plan _ => true
  | .manual => false
  | .guard => false
  | .frost => false
  | .hold => false
/-- Actuator codes: the order of the actuator table. -/
def ActId.code : ActId → Nat
  | .pump n => n.val
  | .inlet => 4
  | .heater h => 5 + h.val
/-- The actuator of a code 0 to 8. -/
def ActId.ofCode (n : Nat) : Option ActId :=
  [.pump 0, .pump 1, .pump 2, .pump 3, .inlet, .heater 0, .heater 1, .heater 2, .heater 3][n]?
/-- A claimant as an actuator. -/
def Load.act : Load → ActId
  | .pump n => .pump n
  | .heater h => .heater h
/-- Record kind codes (Table 11-6). -/
def RecKind.code : RecKind → Nat
  | .guardTrip => 1
  | .overflow => 2
  | .pumpFail => 3
  | .stuck => 4
  | .heaterFail => 5
  | .power => 6
  | .guardClear => 16
  | .quality => 17
  | .planBegin => 18
  | .planEnd => 19
  | .frost => 20
  | .zone => 21
  | .hold => 22
  | .run => 23
  | .clock => 24
  | .settings => 25
  | .start => 26
  | .service => 27
  | .mark => 28
  | .gap => 29
  | .levelFrame => 32
  | .levelStep => 33
/-- The class of a kind: 0 ALARM, 1 EVENT, 2 TELEMETRY (Table 9-1; the codes of Table 11-6 by sixteens). -/
def RecKind.cls (k : RecKind) : Fin 3 := if k.code ≤ 15 then 0 else if k.code ≤ 31 then 1 else 2
/-- Status codes (11.3). -/
def Status.code : Status → Nat
  | .new => 0
  | .inFlight => 1
  | .done => 2
  | .refused => 3
  | .retry => 4
  | .failed => 5
  | .aborted => 6
  | .notRun => 7
/-- Reason codes (11.3). -/
def Reason.code : Reason → Nat
  | .none => 0
  | .unknownOrder => 1
  | .badArgument => 2
  | .restricted => 3
  | .localControl => 4
  | .notFitted => 5
  | .guard => 6
  | .failedActuator => 7
  | .held => 8
  | .noSuchPlan => 9
  | .noSuchHold => 10
  | .clockUnset => 11
  | .settingsInvalid => 12
  | .notClear => 13
  | .busy => 14
  | .tableFull => 15
  | .holdPending => 16
  | .timeLimit => 17
  | .stuck => 18
  | .noConfirm => 19
  | .power => 20
  | .reset => 21
  | .serviceEnd => 22

end Sys2Proof

namespace Sys2Proof.Machine

/-! ## Numbers (R173) -/

/-- A one-byte number. -/
def b1 (n : Nat) : List Byte := leBytes 1 n
/-- A two-byte number. -/
def b2 (n : Nat) : List Byte := leBytes 2 n
/-- A four-byte number. -/
def b4 (n : Nat) : List Byte := leBytes 4 n
/-- A two's-complement 16-bit number. -/
def bs2 (i : Int) : List Byte := leBytes 2 (i % 65536).toNat
/-- A tower time, modulo 2^32. -/
def bt (t : Time) : List Byte := leBytes 4 (t % 4294967296).toNat
/-- A tower time or 0xFFFFFFFF when absent. -/
def bto : Option Time → List Byte
  | none => b4 0xFFFFFFFF
  | some t => bt t
/-- A 32-bit count or 0xFFFFFFFF when absent. -/
def b4o : Option Nat → List Byte
  | none => b4 0xFFFFFFFF
  | some n => b4 n
/-- A two-byte count or level, or 0xFFFF when absent. -/
def b2o : Option Nat → List Byte
  | none => b2 0xFFFF
  | some n => b2 n
/-- A one-byte enumeration, or 0xFF when absent. -/
def b1o : Option Nat → List Byte
  | none => b1 0xFF
  | some n => b1 n
/-- A mark or flag as one byte. -/
def bb (x : Bool) : List Byte := b1 (if x then 1 else 0)
/-- Reserved bytes. -/
def rsv (k : Nat) : List Byte := List.replicate k 0
/-- Marks as bits, bit 0 first. -/
def bits : List Bool → Nat
  | [] => 0
  | x :: xs => (if x then 1 else 0) + 2 * bits xs
/-- A 16-bit two's-complement number as read. -/
def signed16 (n : Nat) : Int := if n < 32768 then (n : Int) else (n : Int) - 65536

/-! ## Codes (Table 11-1) -/

/-- Guard state codes. -/
def GuardMode.code : GuardMode → Nat
  | .clear => 0
  | .watch => 1
  | .tripped => 2
  | .held => 3
/-- The causes in code order. -/
def allCauses : List Cause := [.topFloat, .overflowFlow, .blind, .highFloat, .level, .test]
/-- Cause codes. -/
def Cause.code : Cause → Nat
  | .topFloat => 0
  | .overflowFlow => 1
  | .blind => 2
  | .highFloat => 3
  | .level => 4
  | .test => 5
/-- A set of causes in one byte. -/
def causeSet (cs : List Cause) : Nat := bits (allCauses.map fun c => cs.contains c)
/-- Zone state codes. -/
def ZoneState.code : ZoneState → Nat
  | .idle => 0
  | .want => 1
  | .heating => 2
  | .shed => 3
  | .duty => 4
  | .zoneFault => 5
  | .disabled => 6
/-- Pump state codes (Table 3-3). -/
def PumpMode.code : PumpMode → Nat
  | .ready => 0
  | .resting => 1
  | .starting => 2
  | .running => 3
  | .stopping => 4
  | .retryWait => 5
  | .failed => 6
  | .stuckOn => 7
  | .held => 8
/-- Inlet state codes (Table 3-5). -/
def InletMode.code : InletMode → Nat
  | .closed => 0
  | .opening => 1
  | .opened => 2
  | .closing => 3
  | .midway => 4
  | .stuck => 5
/-- Heater state codes. -/
def HeaterMode.code : HeaterMode → Nat
  | .ready => 0
  | .starting => 1
  | .on => 2
  | .retryWait => 3
  | .failed => 4
  | .held => 5
/-- Request codes. -/
def Request.code : Request → Nat
  | .none => 0
  | .start => 1
  | .stop => 2
/-- Commanded position codes of INLET. -/
def cmdCode : Option Position → Nat
  | none => 0
  | some .opened => 1
  | some .closed => 2
/-- Claim state codes. -/
def ClaimState.code : ClaimState → Nat
  | .none => 0
  | .claimed => 1
  | .granted => 2
  | .recalled => 3
/-- Plan kind codes. -/
def PlanKind.code : PlanKind → Nat
  | .nightFill => 0
  | .dayTopup => 1
  | .hostFill => 2
  | .turnover => 3
/-- Plan origin codes. -/
def Origin.code : Origin → Nat
  | .calendar => 0
  | .level => 1
  | .order => 2
  | .frost => 3
/-- Plan state codes. -/
def PlanState.code : PlanState → Nat
  | .waiting => 0
  | .active => 1
  | .paused => 2
  | .ended => 3
/-- Pause cause codes. -/
def Pause.code : Pause → Nat
  | .guard => 0
  | .preempted => 1
  | .localControl => 2
  | .power => 3
  | .hostClose => 4
  | .noPumps => 5
/-- End cause codes. -/
def EndCause.code : EndCause → Nat
  | .targetReached => 0
  | .deadline => 1
  | .cancelled => 2
  | .notNeeded => 3
  | .absorbed => 4
  | .noPumps => 5
  | .settings => 6
  | .reset => 7
/-- Access state codes. -/
def Access.code : Access → Nat
  | .normal => 0
  | .service => 1
  | .localControl => 2
/-- Power state codes. -/
def Power.code : Power → Nat
  | .start => 0
  | .run => 1
  | .dark => 2
/-- Start-up source codes. -/
def Source.code : Source → Nat
  | .image => 0
  | .defaultsAfterFault => 1
  | .defaults => 2
  | .standby => 3
/-- Tariff band codes. -/
def Tariff.code : Tariff → Nat
  | .cheap => 0
  | .standard => 1
  | .peak => 2
/-- Protect cause codes. -/
def ProtectCause.code : ProtectCause → Nat
  | .none => 0
  | .mapTransition => 1
  | .owned => 2
  | .board => 3
  | .settingsLocked => 4
  | .starting => 5
/-- The orders in code order (11.3). -/
def allOrders : List OrderCode :=
  [.setClock, .adoptSettings, .setTarget, .fillNow, .turnoverNow, .cancelPlan, .readPlan, .readActuator, .startPump,
    .stopPump, .openInlet, .closeInlet, .releaseManual, .holdActuator, .releaseHold, .clearFailure, .resetGuard,
    .guardTest, .journalMark, .flushJournal]
/-- The order of a code 1 to 20. -/
def OrderCode.ofCode (n : Nat) : Option OrderCode := if n = 0 then none else allOrders[n - 1]?
/-- The code of an order. -/
def OrderCode.code (o : OrderCode) : Nat := allOrders.idxOf o + 1

/-! ## Actuator summaries (R148, Table 11-1) -/

/-- Tries of a start list within the last 3 600 s; a time later than the present counts (R42). -/
def recentStarts (now : Time) (l : List Time) : Nat := (l.filter fun t => decide (now < t + Config.startSpan)).length

/-- The summary of an actuator entry. -/
def State.summary (s : State) : ActId → ActSummary
  | .pump n =>
    let p := s.pump n
    { ownerKind := p.owner.code, plan := p.owner.planNumber, request := p.request.code,
      commanded := if p.contactor then 1 else 0, sensed := if p.feedback then 1 else 0, machine := p.mode.code,
      tries := p.tries, claim := p.claim.code, hold := p.hold.getD 0, minutes := p.minutes,
      recentStarts := recentStarts s.now p.starts }
  | .inlet =>
    let v := s.act.inlet
    { ownerKind := v.owner.code, plan := v.owner.planNumber, request := 0, commanded := cmdCode v.cmd,
      sensed := bits [v.openLs, v.closedLs], machine := v.mode.code, tries := 0, claim := 0, hold := v.hold.getD 0,
      minutes := 0, recentStarts := 0 }
  | .heater h =>
    let p := s.heater h
    { ownerKind := p.owner.code, plan := p.owner.planNumber, request := p.request.code,
      commanded := if p.contactor then 1 else 0, sensed := if p.current then 1 else 0, machine := p.mode.code,
      tries := p.tries, claim := p.claim.code, hold := p.hold.getD 0, minutes := 0, recentStarts := 0 }

/-- The result of READ_ACTUATOR (11.3). -/
def ActSummary.result (a : ActSummary) : List Byte :=
  b1 a.ownerKind ++ b1 a.plan ++ b1 a.machine ++ b1 a.commanded ++ b1 a.sensed ++ b1 a.tries ++ b1 a.claim ++ b1 a.hold
    ++ b4 a.minutes

/-! ## Plan values (Table 5-2) -/

/-- Volume delivered (R83). -/
def Plan.delivered (p : Plan) : Nat := p.volAcc / 60

/-- The result of READ_PLAN (11.3). -/
def Plan.result (p : Plan) : List Byte :=
  b1 p.number ++ b1 p.kind.code ++ b1 p.state.code
    ++ b1o (match p.state with
        | .waiting => none
        | .active => none
        | .paused => p.pause.map Pause.code
        | .ended => p.endCause.map EndCause.code)
    ++ b1 p.stage ++ b1 (bits (four.map fun n => p.engaged.contains n)) ++ b2 p.target ++ b4 p.delivered

/-! ## Order records (Tables 11-3 and 11-4) -/

/-- The offset of slot `k`. -/
def slotOffset (k : Nat) : Nat := 16 + 32 * k
/-- The order count of a page. -/
def State.orderCount (s : State) (p : Page) : Nat := s.byte p 2
/-- The code byte of a slot. -/
def State.orderCode (s : State) (p : Page) (k : Nat) : Nat := s.byte p (slotOffset k)
/-- The CHAIN flag of a slot. -/
def State.orderChain (s : State) (p : Page) (k : Nat) : Bool := decide (s.byte p (slotOffset k + 1) % 2 = 1)
/-- The status byte of a slot. -/
def State.orderStatus (s : State) (p : Page) (k : Nat) : Nat := s.byte p (slotOffset k + 2)
/-- The target of a slot. -/
def State.orderTarget (s : State) (p : Page) (k : Nat) : Nat := s.half p (slotOffset k + 4)
/-- Argument word `w`, 1 to 3, of a slot. -/
def State.orderArg (s : State) (p : Page) (k w : Nat) : Nat := s.half p (slotOffset k + 4 + 2 * w)
/-- Whether a status byte is a final status. -/
def finalStatus (n : Nat) : Bool := decide (2 ≤ n ∧ n ≤ 7)

/-- What a final order leaves in its result area: nothing written, or bytes followed by zeros (R174). -/
def resultArea (r : List Byte) : List Byte := (r ++ rsv 12).take 12

/-- Writes status and reason of an order (R174). -/
def State.writeStatus (r : OrderRef) (st : Status) (rs : Reason) (s : State) : State :=
  s.poke r.page (slotOffset r.slot.val + 2) (b1 st.code ++ b1 rs.code)

/-- Writes the result area of an order (R174). -/
def State.writeResult (r : OrderRef) (bs : List Byte) (s : State) : State :=
  s.poke r.page (slotOffset r.slot.val + 12) (resultArea bs)

/-- What the handing of an order gives (R138, R139): the state after it, the status (IN_FLIGHT where the block accepts a
delayed order), the reason, and the result, absent where the result area is left alone. -/
structure Handed where
  state : State
  status : Status
  reason : Reason
  result : Option (List Byte)

/-- The order is DONE at its handing. -/
def Handed.done (res : List Byte) (s : State) : Handed := ⟨s, .done, .none, some res⟩
/-- The block accepts a delayed order. -/
def Handed.accepted (s : State) : Handed := ⟨s, .inFlight, .none, none⟩
/-- The order is refused. -/
def Handed.refused (r : Reason) (s : State) : Handed := ⟨s, .refused, r, none⟩
/-- The order is answered RETRY. -/
def Handed.retry (r : Reason) (s : State) : Handed := ⟨s, .retry, r, none⟩

end Sys2Proof.Machine
end

