-- ==== Sys2Proof/Machine/Flags.lean ====
section
/-! DEFINITION. The flags of the memory port: the attention causes with their detail lines (R128 to R130), and the
protect record of dropped host writes (R127). -/

namespace Sys2Proof.Machine

/-- The attention causes (Table 7-6). -/
inductive Attn where
  | answer | journal | pageWant | protect | alarm | restart
  deriving DecidableEq, Repr

/-- The bit of a cause in ATTN and ATTN_EN (Table 7-6). -/
def Attn.bit : Attn → Fin 6
  | .answer => 0
  | .journal => 1
  | .pageWant => 2
  | .protect => 3
  | .alarm => 4
  | .restart => 5

/-- The flag word with one bit set. -/
def Attn.mask (a : Attn) : BitVec 6 := BitVec.ofNat 6 (2 ^ a.bit.val)

/-- Page 1, the board page. -/
def boardPage : Page := 1

/-- An attention detail line as it stands on the board page (Table 11-2). -/
def DetailLine.bytes (d : DetailLine) : List Byte := b2 d.count ++ b2 d.subject ++ bt d.time

/-- The protect record as it stands on the board page (Table 11-2, offsets 2 to 13). -/
def Protect.bytes (p : Protect) : List Byte :=
  bb p.captured ++ b1 p.cause.code ++ b2 p.addr ++ b2 p.value.toNat ++ bt p.time ++ b2 p.further

/-- An attention cause is raised: the flag, the detail line and its bytes (R129). -/
def State.raise (a : Attn) (subject : Nat) (s : State) : State :=
  let old := s.port.detail[a.bit.val]'a.bit.isLt
  let line : DetailLine := ⟨(old.count + 1) % Config.wrap16, subject, s.now⟩
  { s with port := { s.port with
      attn := s.port.attn ||| a.mask
      detail := s.port.detail.set a.bit.val line a.bit.isLt } }.poke boardPage (16 + 8 * a.bit.val) line.bytes

/-- The protect record changes, and its bytes with it. -/
def State.setProtect (p : Protect) (s : State) : State :=
  { s with port := { s.port with protect := p } }.poke boardPage 2 p.bytes

/-- A dropped host write: captured when ARMED, counted when CAPTURED; PROTECT is raised (R127). -/
def State.dropWrite (word : Nat) (v : Word) (c : ProtectCause) (s : State) : State :=
  let p := s.port.protect
  (s.setProtect (if p.captured then { p with further := min Config.max16 (p.further + 1) }
    else ⟨true, word, v, c, s.now, 0⟩)).raise .protect c.code

/-- A write to ATTN: flags written 1 are cleared; a 1 on PROTECT also re-arms the protect record (R127, R128). -/
def State.clearAttn (v : Word) (s : State) : State :=
  let s' := { s with port := { s.port with attn := s.port.attn &&& ~~~(v.setWidth 6) } }
  if v.getLsbD Attn.protect.bit.val then s'.setProtect { s.port.protect with captured := false, further := 0 } else s'

/-- The ATTN pin: asserted while an enabled flag is set (R130). -/
def State.attnPin (s : State) : Bool := decide (s.port.attn &&& s.port.attnEn ≠ 0)

end Sys2Proof.Machine
end

