-- ==== Sys2Proof/Machine/Journal.lean ====
section
/-! DEFINITION. The journal writer (09): records, the record queue, journal pages, and the commands of its rows. -/

namespace Sys2Proof

/-- The length of a record in bytes (R153): header, order reference when present, body. -/
def Rec.length (r : Rec) : Nat := 8 + (if r.ref.isSome then 4 else 0) + r.body.length

end Sys2Proof

namespace Sys2Proof.Machine

/-- The bytes of a record with its sequence number (11.4). -/
def recBytes (r : Rec) (seq : Nat) : List Byte :=
  b1 (r.kind.code + if r.ref.isSome then 128 else 0) ++ b1 (r.length / 4) ++ b2 seq ++ bt r.time
    ++ (match r.ref with
      | none => []
      | some o => b1 o.page.val ++ b1 o.slot.val ++ rsv 2)
    ++ r.body

/-! ## Record counts of taken pages (R135) -/

/-- Changes the record count of a taken page. -/
def State.modRecords (p : Page) (f : Nat → Nat) (s : State) : State :=
  { s with eng := { s.eng with taken := s.eng.taken.map fun t => if t.page = p then { t with records := f t.records } else t } }

/-- A record joins the queue: the count of its page rises (R135). -/
def State.joinReport (r : Rec) (s : State) : State :=
  match r.ref with
  | none => s
  | some o => s.modRecords o.page (· + 1)

/-- Whether a taken page can be answered: run to its end, every order final and none in flight, no record waiting (R142). -/
def State.pageDone (s : State) (p : Page) : Bool :=
  match s.eng.taken.find? fun t => decide (t.page = p) with
  | none => false
  | some t => decide (s.orderCount p ≤ t.next) && !t.parked && decide (t.records = 0)
      && !(s.eng.inflight.any fun e => decide (e.ref.page = p))
      && (List.range (s.orderCount p)).all fun k => finalStatus (s.orderStatus p k)

/-- The answer of a page sets out when its conditions hold (R142, log 10). -/
def State.checkAnswer (p : Page) (s : State) : State := if s.pageDone p then s.post (.pageAnswer p) else s

/-- A record leaves the queue: the count of its page falls, and the page may be answered (R135, R142). A count of 0 stays 0,
which R135 does not say (log 50). -/
def State.leaveReport (r : Rec) (s : State) : State :=
  match r.ref with
  | none => s
  | some o => (s.modRecords o.page (· - 1)).checkAnswer o.page

/-! ## Losses (R155) -/

/-- One more lost record of a class. -/
def Gap.lose (now : Time) (g : Gap) : Gap :=
  ⟨min Config.max16 (g.count + 1), if g.count = 0 then now else g.first, now⟩

/-- A record of class `c` is lost. -/
def State.lose (c : Fin 3) (s : State) : State :=
  { s with jrn := { s.jrn with gaps := s.jrn.gaps.set c.val ((s.jrn.gaps[c.val]'c.isLt).lose s.now) c.isLt } }

/-- Whether a GAP is pending (R155). -/
def JrnState.gapPending (j : JrnState) : Bool := j.resetMark || j.gaps.toList.any fun g => decide (0 < g.count)

/-! ## Journal pages (R156 to R161) -/

/-- The header of the open page (Table 11-5). -/
def OpenPage.bytes (o : OpenPage) (flags : Nat) : List Byte :=
  b2 o.fill ++ b1 o.records ++ b1 o.used ++ b2 o.first ++ b1 flags ++ rsv 1

/-- The open page and its header in tower memory. -/
def State.setOpen (o : OpenPage) (s : State) : State :=
  { s with jrn := { s.jrn with opened := some o } }.poke o.page 0 (o.bytes (bits [o.gapInside]))

/-- The writer opens the head of the given-journal list (R156). -/
def State.openPage (p : Page) (s : State) : State :=
  let s1 := { s with jrn := { s.jrn with given := s.jrn.given.erase p, fill := (s.jrn.fill + 1) % Config.wrap16 } }
  (s1.setOpen ⟨p, s.jrn.fill, 0, 0, 0, false, none⟩).setEntry p ⟨.journalOpen, BitVec.ofNat 8 s.jrn.fill⟩

/-- Closing the open page with the marks FLUSHED and AGED (R158). A closing as a flush completes the flush order. -/
def State.closePage (o : OpenPage) (flushed aged : Bool) (s : State) : State :=
  let s1 := (s.poke o.page 0 (o.bytes (bits [o.gapInside, flushed, aged]))).setPageState o.page .journalFull
  let s2 := { s1 with jrn := { s1.jrn with opened := none } }.raise .journal o.page.val
  if flushed then
    match s2.jrn.flush with
    | none => s2
    | some r => { s2 with jrn := { s2.jrn with flush := none } }.post (.orderComplete r .done .none (b1 o.page.val))
  else s2

/-- Writing one record into the open page (R157). -/
def State.writeRec (o : OpenPage) (r : Rec) (gap : Bool) (s : State) : State :=
  let o' : OpenPage := { o with
    records := o.records + 1
    used := o.used + r.length
    first := if o.records = 0 then s.jrn.seq else o.first
    gapInside := o.gapInside || gap
    ageStart := if o.records = 0 then some s.now else o.ageStart }
  { (s.poke o.page (8 + o.used) (recBytes r s.jrn.seq)).setOpen o' with
    jrn := { s.jrn with opened := some o', seq := (s.jrn.seq + 1) % Config.wrap16 } }

/-- The GAP record as it stands (R155, Table 11-6). -/
def State.gapRec (s : State) : Rec :=
  let gs := s.jrn.gaps.toList
  ⟨.gap, s.now, none, bb s.jrn.resetMark ++ rsv 1 ++ gs.flatMap (fun g => b2 g.count)
    ++ gs.flatMap (fun g => bt g.first ++ bt g.last)⟩

/-- Writing the pending GAP: the counts, the times and the reset mark return to their start (R155, R162). -/
def State.writeGap (o : OpenPage) (s : State) : State :=
  let s1 := s.writeRec o s.gapRec true
  { s1 with jrn := { s1.jrn with gaps := Vector.replicate 3 ⟨0, 0, 0⟩, resetMark := false } }

/-- Writing the queue head: it leaves the queue (R157). -/
def State.writeHead (o : OpenPage) (r : Rec) (s : State) : State :=
  let s1 := s.writeRec o r false
  { s1 with jrn := { s1.jrn with queue := s1.jrn.queue.tail } }.leaveReport r

/-- A shortage begins, unless one is marked (R161). -/
def State.beginShortage (s : State) : State :=
  if s.jrn.shortage then s else { s with jrn := { s.jrn with shortage := true } }.raise .pageWant 0

/-- The writer's work at an event: open, write, close and begin a shortage, as far as it goes. Each round opens a page,
writes a record or closes a page, so `fuel` of four rounds for each waiting record and a few more is enough. -/
def State.writerLoop : Nat → State → State
  | 0, s => s
  | fuel + 1, s =>
    if s.jrn.starting then s else
    match s.jrn.opened, s.jrn.queue with
    | none, [] => s
    | none, _ :: _ =>
      match s.jrn.given with
      | [] => s.beginShortage
      | p :: _ => State.writerLoop fuel (s.openPage p)
    | some o, [] => if s.jrn.flush.isSome then State.writerLoop fuel (s.closePage o true false) else s
    | some o, r :: _ =>
      if s.jrn.gapPending then
        if o.used + Config.gapBytes ≤ Config.journalBytes then State.writerLoop fuel (s.writeGap o)
        else State.writerLoop fuel (s.closePage o s.jrn.flush.isSome false)
      else if o.used + r.length ≤ Config.journalBytes then State.writerLoop fuel (s.writeHead o r)
      else State.writerLoop fuel (s.closePage o s.jrn.flush.isSome false)

/-- The writer's work at an event. -/
def State.writer (s : State) : State := s.writerLoop (4 * s.jrn.queue.length + 8)

/-! ## Arrival of a record (R153, R154) -/

/-- The lowest class present in the queue, when it is lower than class `c`. -/
def lowerClass (c : Fin 3) (q : List Rec) : Option (Fin 3) :=
  if decide (c < 2) && q.any (fun r => decide (r.kind.cls = 2)) then some 2
  else if decide (c < 1) && q.any (fun r => decide (r.kind.cls = 1)) then some 1
  else none

/-- The newcomer joins at the tail. -/
def State.joinQueue (r : Rec) (s : State) : State :=
  { s with jrn := { s.jrn with queue := s.jrn.queue ++ [r] } }.joinReport r

/-- The oldest record of class `c` is evicted. -/
def State.evict (c : Fin 3) (s : State) : State :=
  match s.jrn.queue.find? fun r => decide (r.kind.cls = c) with
  | none => s
  | some r => (({ s with jrn := { s.jrn with queue := s.jrn.queue.erase r } }.lose c).leaveReport r)

/-- The queue takes a newcomer, evicting for it or dropping it when full (R154). -/
def State.queueIn (r : Rec) (s : State) : State :=
  if s.jrn.queue.length < Config.queueMax then s.joinQueue r
  else
    match lowerClass r.kind.cls s.jrn.queue with
    | some c => (s.evict c).joinQueue r
    | none => s.lose r.kind.cls

/-- A record reaches the writer: ALARM is raised for an alarm, the queue takes it, the writer goes to work. -/
def State.arrive (r : Rec) (s : State) : State :=
  let s1 := if r.kind.cls = 0 then s.raise .alarm r.kind.code else s
  (s1.queueIn r).writer

/-- A block makes a record at time `t`; it reaches the writer in the same event (R153, log 9). -/
def State.make (k : RecKind) (t : Time) (ref : Option OrderRef) (body : List Byte) (s : State) : State :=
  s.arrive ⟨k, t, ref, body⟩

/-- A page joins the given-journal list: a shortage ends, and the writer may open it (R156, R161). -/
def State.givePage (p : Page) (s : State) : State :=
  { s with jrn := { s.jrn with given := s.jrn.given ++ [p], shortage := false } }.writer

/-- A page is withdrawn from the given-journal list (R122, R161). -/
def State.ungivePage (p : Page) (s : State) : State :=
  { s with jrn := { s.jrn with given := s.jrn.given.erase p } }.writer

/-! ## The rows -/

/-- RECORD_ARRIVAL (R154). -/
def State.recordArrival (r : Rec) (s : State) : State := s.taking (.recordArrival r) (·.arrive r)

/-- PAGE_OPEN (R156): the head of the given-journal list is opened when no page is open and a record waits. -/
def State.pageOpen (s : State) : State := s.taking .pageOpen (·.writer)

/-- Whether the open page has reached its age (R159). -/
def State.pageAged (s : State) (o : OpenPage) : Bool :=
  match o.ageStart with
  | none => false
  | some t => decide (t + 60 * s.set.journalAge ≤ s.now)

/-- JOURNAL_AGE_EXPIRY (R159): a page that has reached its age is closed AGED. -/
def State.ageCheck (s : State) : State :=
  match s.jrn.opened with
  | none => s
  | some o => if s.pageAged o then (s.closePage o false true).writer else s

/-- A flush request (R160); the answer at the handing when nothing is open and nothing waits. -/
def State.flushRequest (r : OrderRef) (s : State) : State :=
  { s with jrn := { s.jrn with flush := some r } }.writer

end Sys2Proof.Machine
end

