-- ==== Sys2Proof/Machine/PlanCore.lean ====
section
/-! DEFINITION. The plan table (R83, R84, R101, R103), readiness and the contest for the inlet (R85, R86): the parts of
the plan controller that the other blocks' events run. -/

namespace Sys2Proof.Machine

/-! ## Finding plans -/

/-- The plans in the table, in slot order. -/
def State.planList (s : State) : List Plan := s.plans.slots.toList.filterMap id

/-- The plan of a number. -/
def State.plan (s : State) (n : Nat) : Option Plan := s.planList.find? fun p => decide (p.number = n)

/-- Whether a plan is not ENDED. -/
def Plan.live (p : Plan) : Bool := decide (p.state ≠ .ended)

/-- The plan of a kind that is not ENDED; there is at most one (R83). -/
def State.livePlan (s : State) (k : PlanKind) : Option Plan := s.planList.find? fun p => p.live && decide (p.kind = k)

/-- The ACTIVE plan. -/
def State.activePlan (s : State) : Option Plan := s.planList.find? fun p => decide (p.state = .active)

/-- The plans of number `n` changed by a function. -/
def State.modPlan (n : Nat) (f : Plan → Plan) (s : State) : State :=
  { s with plans := { s.plans with slots := s.plans.slots.map fun o => o.map fun p => if p.number = n then f p else p } }

/-- The rank of a kind (5.2). -/
def PlanKind.rank : PlanKind → Nat
  | .dayTopup => 4
  | .hostFill => 3
  | .nightFill => 2
  | .turnover => 1

/-- The claim level of a kind (Table 4-4). -/
def PlanKind.level : PlanKind → Nat
  | .nightFill => 1
  | .turnover => 1
  | .hostFill => 3
  | .dayTopup => 4

/-- Whether some pump is fitted. -/
def State.anyPumpFitted (s : State) : Bool := four.any fun n => (s.pumpSet n).fitted

/-- A pump is available to plan `n` (R87). -/
def State.available (s : State) (n : Nat) (k : Fin 4) : Bool :=
  let p := s.pump k
  (s.pumpSet k).fitted && decide (p.mode ≠ .failed ∧ p.mode ≠ .stuckOn) && p.hold.isNone
    && (decide (p.owner = .none) || decide (p.owner = .plan n))

/-- A pump placed by run minutes, ties to the lower number (R55, R93). -/
def State.placePump (s : State) (k : Fin 4) : List (Fin 4) → List (Fin 4)
  | [] => [k]
  | b :: l =>
    if (s.pump k).minutes < (s.pump b).minutes ∨ ((s.pump k).minutes = (s.pump b).minutes ∧ k < b) then k :: b :: l
    else b :: s.placePump k l

/-- Pumps by fewest run minutes, ties to the lower number (R55, R93). -/
def State.byMinutes (s : State) (l : List (Fin 4)) : List (Fin 4) := l.foldl (fun l k => s.placePump k l) []

/-- The volume of a level by the strapping table (R11). -/
def volumeAt : List Strap → Nat → Nat
  | [], _ => 0
  | [a], _ => a.volume
  | a :: b :: l, x =>
    if x ≤ a.level then a.volume
    else if x < b.level then a.volume + (x - a.level) * (b.volume - a.volume) / (b.level - a.level)
    else volumeAt (b :: l) x

/-! ## The latest judgement -/

/-- Whether the latest judgement carries a numeric level: GOOD or SINGLE (R8). -/
def numericQuality (q : Quality) : Bool := decide (q = .good ∨ q = .single)

/-- Quality code of the latest judgement, 0xFF when there is none. -/
def State.lastQuality (s : State) : List Byte := b1o (s.survey.judgement.map fun j => Quality.code j.quality)

/-- Level field of the latest judgement, 65535 when there is none. -/
def State.lastLevel (s : State) : Nat :=
  match s.survey.judgement with
  | none => Config.noLevel
  | some j => j.level

/-! ## Records (R103) -/

/-- The body of PLAN_BEGIN (Table 11-6). A plan without a window has window slot 0xFF, and a window of the day before day 0 has day
number 0 (log 58). -/
def Plan.beginBody (p : Plan) : List Byte :=
  b1 p.number ++ b1 p.kind.code ++ b1 p.origin.code ++ b1 p.stage ++ b2 p.target ++ b2o p.startLevel ++ b2o p.depth
    ++ rsv 2 ++ b4 p.targetVolume ++ bto p.deadline ++ b2o (p.window.map fun w => w.day.toNat)
    ++ b1o (p.window.map fun w => w.slot) ++ rsv 1 ++ bto p.startAt ++ bto p.latest

/-- The body of PLAN_END (Table 11-6). -/
def State.planEndBody (s : State) (p : Plan) (c : EndCause) : List Byte :=
  b1 p.number ++ b1 p.kind.code ++ b1 c.code ++ s.lastQuality ++ b2 s.lastLevel ++ rsv 2 ++ b4 p.delivered
    ++ b4 p.runTime ++ bto p.firstActive

/-! ## Ending and pausing -/

/-- A plan ends (R101), by an event of time `t`: its record, and its leaving of the inlet when it was ACTIVE (R89). The
contest is run by the caller. -/
def State.finishPlan (n : Nat) (c : EndCause) (t : Time) (ref : Option OrderRef) (s : State) : State :=
  match s.plan n with
  | none => s
  | some p =>
    if p.live then
      let s1 := (s.modPlan n fun p => { p with
        state := .ended, endCause := some c, startAt := none, pause := none, cleared := false, activeSince := none,
        activeLevel := none }).make .planEnd t ref (s.planEndBody p c)
      if decide (p.state = .active) then s1.post (.stageRequest n 0 true) else s1
    else s

/-- An ACTIVE plan is PAUSED with a cause. HOST_CLOSE is clear at once when the inlet has no owner (R90, Table 5-3). -/
def State.pausePlan (n : Nat) (c : Pause) (s : State) : State :=
  s.modPlan n fun p =>
    if p.state = .active then
      { p with
        state := .paused
        pause := some c
        cleared := decide (c = .hostClose ∧ s.act.inlet.owner = .none)
        activeSince := none
        activeLevel := none }
    else p

/-- A pause cause clears wherever it stands (Table 5-3). -/
def State.clearPauses (c : Pause) (s : State) : State :=
  let clear (p : Plan) : Plan := if p.pause = some c then { p with cleared := true } else p
  { s with plans := { s.plans with slots := s.plans.slots.map fun o => o.map clear } }

/-! ## Creation (R84) -/

/-- The slot a creation takes: a free one, else that of the ENDED plan created first (R84); of several the lowest (log 46). -/
def State.freeSlot (s : State) : Fin 6 :=
  let all : List (Fin 6) := [0, 1, 2, 3, 4, 5]
  let at' (i : Fin 6) : Option Plan := s.plans.slots[i.val]'i.isLt
  match all.find? fun i => (at' i).isNone with
  | some i => i
  | none =>
    (all.foldl (fun (best : Option (Fin 6 × Time)) i =>
      match at' i with
      | none => best
      | some p =>
        if p.live then best
        else match best with
          | none => some (i, p.created)
          | some (j, t) => if p.created < t then some (i, p.created) else some (j, t)) none).elim 0 (·.1)

/-- The number the next plan takes (R84). -/
def State.nextPlanNumber (s : State) : Nat :=
  nextNumber s.plans.lastNumber ((s.plans.slots.set s.freeSlot.val none s.freeSlot.isLt).toList.filterMap
    fun o => o.map Plan.number)

/-- A plan as it is created: WAITING, with nothing done. -/
def State.blankPlan (s : State) (k : PlanKind) (o : Origin) (target : Nat) (startAt : Option Time) : Plan where
  number := s.nextPlanNumber
  kind := k
  origin := o
  state := .waiting
  pause := none
  cleared := false
  target := target
  targetVolume := volumeAt s.set.straps target
  floats := match s.survey.judgement with
    | none => true
    | some j => !numericQuality j.quality
  deadline := none
  window := none
  latest := none
  startAt := startAt
  stage := 0
  engaged := []
  volAcc := 0
  runTime := 0
  firstActive := none
  activeSince := none
  activeLevel := none
  actRun := 0
  draw := false
  startLevel := none
  depth := none
  drawSecs := 0
  runOn := none
  floatsComputed := false
  early := false
  created := s.now
  endCause := none
  ref := none

/-- A plan enters the table with its PLAN_BEGIN; without a fitted pump it ends at once (R84). -/
def State.addPlan (p : Plan) (t : Time) (s : State) : State :=
  let s1 := { s with plans := { s.plans with
    slots := s.plans.slots.set s.freeSlot.val (some p) s.freeSlot.isLt, lastNumber := p.number } }
  let s2 := s1.make .planBegin t p.ref p.beginBody
  if s2.anyPumpFitted then s2 else s2.finishPlan p.number .noPumps t none

/-! ## Readiness and the contest (R85, R86, R100) -/

/-- Whether the inlet's owner is an ACTIVE plan of a rank above `r`. -/
def State.outranked (s : State) (r : Nat) : Bool :=
  match s.act.inlet.owner with
  | .none => false
  | .plan m =>
    match s.plan m with
    | none => false
    | some q => decide (q.state = .active ∧ r < q.kind.rank)
  | .manual => false
  | .guard => false
  | .frost => false
  | .hold => false

/-- Whether the pause cause of a PAUSED plan has cleared (Table 5-3). -/
def State.pauseCleared (s : State) (p : Plan) : Bool :=
  p.cleared || (decide (p.pause = some .preempted) && !s.outranked p.kind.rank)

/-- Whether a turnover in DRAW inhibits a WAITING night fill (R99). -/
def State.drawInhibits (s : State) (p : Plan) : Bool :=
  match s.livePlan .turnover with
  | none => false
  | some t => t.draw && decide (p.kind = .nightFill ∧ p.state = .waiting) && !(s.due p.latest)

/-- Whether plans may take the inlet at all: guard, access, power, stagger and STANDBY (R85). -/
def State.plansMayRun (s : State) : Bool :=
  decide (s.guard.mode = .clear) && decide (s.eng.access ≠ .localControl) && decide (s.sys.power = .run)
    && s.sys.stagger.isNone && !s.sys.standby

/-- A plan is ready (R85). -/
def State.ready (s : State) (p : Plan) : Bool :=
  ((decide (p.state = .waiting) && s.due p.startAt) || (decide (p.state = .paused) && s.pauseCleared p))
    && s.plansMayRun && !s.drawInhibits p && !(decide (p.kind = .turnover) && p.draw)

/-- A night fill's start-at is brought to now; it is present only while the plan is WAITING. -/
def State.nightStartNow (s : State) : State :=
  match s.livePlan .nightFill with
  | none => s
  | some p => s.modPlan p.number fun p => if p.state = .waiting then { p with startAt := some s.now } else p

/-- Whether a turnover's DRAW ends; `j` is the judgement of the event, if it is one (R99). -/
def State.drawEnds (s : State) (tr : Plan) (j : Option Judgement) : Bool :=
  let deep := match j with
    | none => false
    | some j => numericQuality j.quality && decide (j.level + tr.depth.getD 0 ≤ tr.startLevel.getD 0)
  let night := match s.livePlan .nightFill with
    | none => false
    | some p => s.due p.latest || (decide (p.state = .waiting) && p.early)
  deep || decide (s.set.drawLimit * 3600 ≤ tr.drawSecs) || night

/-- The DRAW of a WAITING turnover ends where it must (R99): absorbed by a night fill, or REFILL (R100). -/
def State.drawCheck (j : Option Judgement) (t : Time) (s : State) : State :=
  match s.livePlan .turnover with
  | none => s
  | some tr =>
    if decide (tr.state = .waiting) && tr.draw && s.drawEnds tr j then
      if (s.livePlan .nightFill).isSome then (s.finishPlan tr.number .absorbed t none).nightStartNow
      else s.modPlan tr.number fun p => { p with draw := false, stage := 1, startAt := some s.now }
    else s

/-- A plan that becomes ready absorbs a turnover (R100): a plan ready at a contest, however long it has been so (log 48). -/
def State.absorb (t : Time) (s : State) : State :=
  match s.livePlan .turnover with
  | none => s
  | some tr =>
    let topup := (s.livePlan .dayTopup).any s.ready
    let night := !tr.draw && (s.livePlan .nightFill).any s.ready
    if topup || night then
      let s1 := s.finishPlan tr.number .absorbed t none
      if night then s1.nightStartNow else s1
    else s

/-- The candidate of the contest: the ready plan of highest rank. -/
def State.candidate (s : State) : Option Plan :=
  (s.planList.filter s.ready).foldl (fun best p =>
    match best with
    | none => some p
    | some q => if q.kind.rank < p.kind.rank then some p else some q) none

/-- Whether the inlet may pass to a plan of rank `r` (R53, R86). -/
def State.inletPassable (s : State) (r : Nat) : Bool :=
  (s.holdNaming .inlet).isNone &&
  match s.act.inlet.owner with
  | .none => true
  | .plan m =>
    match s.plan m with
    | none => true
    | some q => decide (q.state ≠ .active ∨ q.kind.rank < r)
  | .manual => false
  | .guard => false
  | .frost => false
  | .hold => false

/-- The contest for the inlet at an event of time `t` (R86), after the end of DRAW where the event finds one (R99). The
winner's request sets out to the actuator controller. -/
def State.contestAt (t : Time) (s : State) : State :=
  let s := (s.drawCheck none t).absorb t
  match s.plans.request, s.candidate with
  | none, some p =>
    if s.inletPassable p.kind.rank then
      { s with plans := { s.plans with request := some p.number } }.post (.planGrant p.number)
    else s
  | _, _ => s

/-- The contest at an event of the present time. -/
def State.contest (s : State) : State := s.contestAt s.now

/-- A plan ends and the contest is run (R101). -/
def State.endPlan (n : Nat) (c : EndCause) (t : Time) (ref : Option OrderRef) (s : State) : State :=
  (s.finishPlan n c t ref).contestAt t

/-- The inlet's owner has become NONE: HOST_CLOSE clears and the contest is run (Table 5-3, R86). -/
def State.inletFreed (s : State) : State := (s.clearPauses .hostClose).contest

end Sys2Proof.Machine
end

