-- ==== Sys2Proof/Machine/Actuator.lean ====
section
/-! DEFINITION. The actuator controller's operations (03): load, tries, stops, the inlet valve, heaters and holds. The
rows of the controller stand in ActuatorRows.lean. -/

namespace Sys2Proof.Machine

/-! ## Telling others -/

/-- The in-flight order of a code and target is reported to the order engine (R140). -/
def State.completeOrder (c : OrderCode) (target : Nat) (st : Status) (rs : Reason) (res : List Byte) (s : State) : State :=
  s.posts ((s.eng.inflight.filter fun e => decide (e.code = c ∧ e.target = target)).map
    fun e => .orderComplete e.ref st rs res)

/-- Whether a pump is engaged for plan `n`: owned by it with request START (R55). -/
def State.isEngaged (s : State) (n : Nat) (k : Fin 4) : Bool :=
  decide ((s.pump k).owner = .plan n ∧ (s.pump k).request = .start)

/-- Whether a pump is in STARTING, RUNNING or STOPPING. -/
def Pump.turning (p : Pump) : Bool := decide (p.mode = .starting ∨ p.mode = .running ∨ p.mode = .stopping)

/-- Whether a pump stands in the engaged list of plan `n` as the controller reports it: engaged, or still on its way off and
neither lost to a hold nor to an unfitting (R44, R87, R89). -/
def State.isListed (s : State) (n : Nat) (k : Fin 4) : Bool :=
  s.isEngaged n k
    || (decide ((s.pump k).owner = .plan n) && (s.pump k).turning && (s.pump k).hold.isNone && (s.pumpSet k).fitted)

/-- The engaged pumps of plan `n` as reported: those it has in its order, then the new ones as R55 chose them. -/
def State.engagedOf (s : State) (n : Nat) : List (Fin 4) :=
  let old := (match s.plan n with
    | none => []
    | some p => p.engaged).filter (s.isListed n)
  old ++ s.byMinutes (four.filter fun k => s.isListed n k && !old.contains k)

/-- A plan that owns something is told. -/
def State.tellPlan (o : Owner) (r : Report) (s : State) : State :=
  match o with
  | .none => s
  | .plan n => s.post (.actuatorReport n r)
  | .manual => s
  | .guard => s
  | .frost => s
  | .hold => s

/-- A plan is told which pumps are engaged, and why it is told (R55). -/
def State.tellPumps (o : Owner) (c : PumpChange) (s : State) : State :=
  match o with
  | .none => s
  | .plan n => s.post (.actuatorReport n (.pumps (s.engagedOf n) c))
  | .manual => s
  | .guard => s
  | .frost => s
  | .hold => s

/-! ## Load (R39) -/

/-- The claim level of a pump's owner (Table 4-4); a plan not in the table claims at level 1. -/
def State.ownerLevel (s : State) : Owner → Nat
  | .none => 1
  | .plan n =>
    match s.plan n with
    | none => 1
    | some p => p.kind.level
  | .manual => 5
  | .guard => 1
  | .frost => 1
  | .hold => 5

/-- Whether a pump stands where a claim is placed: READY, RESTING, RETRY_WAIT, or HELD and exercised (R39, R59). -/
def Pump.claims (p : Pump) : Bool :=
  decide (p.request = .start ∧ p.claim = .none) &&
    (decide (p.mode = .ready ∨ p.mode = .resting ∨ p.mode = .retryWait) || decide (p.mode = .held ∧ p.owner = .hold))

/-- A pump's claim is placed where R39 asks for one. -/
def State.claimPump (n : Fin 4) (s : State) : State :=
  let p := s.pump n
  if p.claims then
    (s.setPump n { p with claim := .claimed }).post (.claim (.pump n) (s.pumpSet n).units (s.ownerLevel p.owner) false)
  else s

/-- What gives up a claim or a grant. -/
def giveUp (c : ClaimState) (l : Load) : List Instr :=
  match c with
  | .none => []
  | .claimed => [.withdrawal l]
  | .granted => [.grantRelease l]
  | .recalled => [.grantRelease l]

/-- A pump's claim or grant is given up; a request still START claims anew (R39). -/
def State.releasePump (n : Fin 4) (s : State) : State :=
  let p := s.pump n
  ((s.setPump n { p with claim := .none }).posts (giveUp p.claim (.pump n))).claimPump n

/-- A heater's claim is placed where R39 asks for one. -/
def State.claimHeater (h : Fin 4) (s : State) : State :=
  let p := s.heater h
  if decide (p.request = .start ∧ p.claim = .none) && decide (p.mode = .ready ∨ p.mode = .retryWait) then
    (s.setHeater h { p with claim := .claimed }).post (.claim (.heater h) (s.zoneSet h).units p.level p.urgent)
  else s

/-- A heater's claim or grant is given up; a request still START claims anew (R39, R52). -/
def State.releaseHeater (h : Fin 4) (s : State) : State :=
  let p := s.heater h
  ((s.setHeater h { p with claim := .none }).posts (giveUp p.claim (.heater h))).claimHeater h

/-! ## Pumps: stops (R44, R45) -/

/-- The body of a RUN record (Table 11-6): mark stop, its cause and the run time. -/
def runStopBody (n : Fin 4) (cause : Nat) (secs : Int) : List Byte := b1 n.val ++ b1 1 ++ b1 cause ++ rsv 1 ++ b4 secs.toNat

/-- A RUN stop record, when the pump had been RUNNING; its run-since goes absent. -/
def State.runStop (n : Fin 4) (cause : Nat) (s : State) : State :=
  match (s.pump n).runSince with
  | none => s
  | some t => (s.modPump n fun p => { p with runSince := none }).make .run s.now none (runStopBody n cause (s.now - t))

/-- The owner a pump keeps when it is off: its own while the request is START or the owner is HOLD, else NONE (R44). -/
def Pump.offOwner (p : Pump) : Owner := if p.request = .start ∨ p.owner = .hold then p.owner else .none

/-- A request that is not START is over when the pump is off; that a STOP ends so is the model's choice (log 45). -/
def Pump.offRequest (p : Pump) : Request := if p.request = .start then .start else .none

/-- A pump confirms off: RESTING, or HELD under an ESTABLISHED hold (R45, R59). -/
def State.confirmOff (n : Fin 4) (s : State) : State :=
  let s := s.runStop n 0
  let p := s.pump n
  let held := s.heldEstablished (.pump n)
  let off := s.now + s.set.minOff
  let s1 := s.setPump n { p with
    mode := if held then .held else .resting
    offSince := some s.now
    offEnd := if held then none else some off
    stopDl := none
    owner := p.offOwner
    request := p.offRequest }
  let s2 := ((s1.releasePump n).completeOrder .stopPump n.val .done .none []).tellPumps p.owner .stopped
  let s3 := if decide (p.mode = .stuckOn) then s2.post (.pumpAvailable n) else s2
  if !held && decide (s.set.minOff = 0) then s3.post (.minOffExpiry n) else s3

/-- A pump's contactor is commanded OFF: STOPPING, confirmed at once when its feedback is OFF (R45). -/
def State.contactorOff (n : Fin 4) (s : State) : State :=
  let s1 := s.modPump n fun p => { p with
    contactor := false, mode := .stopping, stopDl := some (s.now + Config.stopConfirm), tryDl := none, stopWait := false }
  if (s.pump n).feedback then s1 else s1.confirmOff n

/-- Whether a RUNNING pump has run for `min_run` (R44). -/
def State.ranEnough (s : State) (n : Fin 4) : Bool :=
  match (s.pump n).runSince with
  | none => true
  | some t => decide (t + s.set.minRun ≤ s.now)

/-- The owner a pump with its contactor OFF has after a stop: HOLD stays, any other leaves it (R44). -/
def Pump.leftOwner (p : Pump) : Owner := if p.owner = .hold then .hold else .none

/-- A pump with its contactor OFF gives up its request, its load and its owner, and the owner is told (R39, R44, R89). -/
def State.pumpIdle (n : Fin 4) (s : State) : State :=
  ((s.modPump n fun p => { p with request := .none, owner := p.leftOwner }).releasePump n).tellPumps (s.pump n).owner .stopped

/-- A stop request from the pump's owner (R44). A RESTING pump keeps its claim or grant until it is READY (log 18). -/
def State.pumpStop (n : Fin 4) (s : State) : State :=
  let p := s.pump n
  match p.mode with
  | .running =>
    let s1 := s.setPump n { p with request := .stop }
    if s.ranEnough n then s1.contactorOff n else s1.modPump n fun p => { p with stopWait := true }
  | .starting => (s.setPump n { p with request := .stop }).contactorOff n
  | .stopping => s.setPump n { p with request := .stop }
  | .stuckOn => s.setPump n { p with request := .stop }
  | .failed => s.setPump n { p with request := .stop }
  | .resting => (s.setPump n { p with request := .stop, owner := p.leftOwner }).tellPumps p.owner .stopped
  | .ready => s.pumpIdle n
  | .retryWait => s.pumpIdle n
  | .held => s.pumpIdle n

/-- A pump is taken from its owner without `min_run`: the request is discarded (R44, R57). -/
def State.pumpDrop (n : Fin 4) (s : State) : State :=
  let p := s.pump n
  match p.mode with
  | .running => (s.setPump n { p with request := .none }).contactorOff n
  | .starting => (s.setPump n { p with request := .none }).contactorOff n
  | .stopping => s.setPump n { p with request := .none }
  | .stuckOn => s.setPump n { p with request := .none }
  | .failed => s.setPump n { p with request := .none }
  | .ready => s.pumpIdle n
  | .resting => s.pumpIdle n
  | .retryWait => s.pumpIdle n
  | .held => s.pumpIdle n

/-- A pump in STARTING or RUNNING is cut with its request kept (R46, R50). -/
def State.pumpCut (n : Fin 4) (s : State) : State :=
  if decide ((s.pump n).mode = .starting ∨ (s.pump n).mode = .running) then s.contactorOff n else s

/-! ## Pumps: tries (R40 to R43) -/

/-- Whether a pump's owner has the inlet for it (R40): a plan or MANUAL its own, a held pump a MANUAL one. -/
def State.inletServes (s : State) (o : Owner) : Bool :=
  match o with
  | .none => false
  | .plan _ => decide (s.act.inlet.owner = o)
  | .manual => decide (s.act.inlet.owner = .manual)
  | .guard => false
  | .frost => false
  | .hold => decide (s.act.inlet.owner = .manual)

/-- The conditions of R40 for a try of a pump. -/
def State.canTry (s : State) (n : Fin 4) : Bool :=
  let p := s.pump n
  (s.pumpSet n).fitted && (decide (p.mode = .ready) || decide (p.mode = .held ∧ p.owner = .hold))
    && decide (p.request = .start) && decide (p.claim = .granted)
    && decide (s.act.inlet.mode = .opened ∧ s.act.inlet.cmd = some .opened) && !s.act.inlet.openWait
    && s.inletServes p.owner && decide (s.guard.mode = .clear) && decide (s.eng.access ≠ .localControl)
    && decide (s.sys.power = .run) && s.sys.stagger.isNone && !s.sys.standby
    && decide (recentStarts s.now p.starts < s.set.startsPerHour)

/-- The body of a RUN record marked start: a start has neither stop cause nor run time (R41, R173). -/
def runStartBody (n : Fin 4) : List Byte := b1 n.val ++ b1 0 ++ b1o none ++ rsv 1 ++ b4o none

/-- A try is confirmed: RUNNING, with its records and reports (R41). -/
def State.pumpConfirmed (n : Fin 4) (s : State) : State :=
  ((((s.modPump n fun p => { p with mode := .running, tries := 0, runSince := some s.now, tryDl := none }).make .run s.now
    none (runStartBody n)).completeOrder .startPump n.val .done .none []).tellPumps
      (s.pump n).owner .running)

/-- A try begins: contactor ON, the start list, STARTING with its deadline (R41, R42). -/
def State.beginTry (n : Fin 4) (s : State) : State :=
  let s1 := s.modPump n fun p =>
    let l := p.starts ++ [s.now]
    { p with
      contactor := true, starts := l.drop (l.length - Config.startsMax), mode := .starting
      tryDl := some (s.now + s.set.confirmTime) }
  if (s.pump n).feedback then s1.pumpConfirmed n else s1

/-- The body of PUMP_FAIL (Table 11-6). -/
def failBody (n : Fin 4) (o : Owner) (tries : Nat) : List Byte := b1 n.val ++ b1 o.code ++ b1 o.planNumber ++ b1 tries

/-- The failed state of a pump: its request discarded, its load given up, the alarm and the reports; a held pump returns to
HELD, which also ends a STOP_PUMP (R41, R54, R59). -/
def State.pumpFailed (n : Fin 4) (tries : Nat) (s : State) : State :=
  let p := s.pump n
  let held := decide (p.owner = .hold)
  let s1 := s.setPump n { p with
    mode := if held then .held else .failed
    tries := if held then 0 else tries
    request := .none
    owner := if held then .hold else .none }
  let s2 := (((s1.releasePump n).make .pumpFail s.now none (failBody n p.owner tries)).tellPumps p.owner .failed).completeOrder
    .startPump n.val .failed .noConfirm []
  if held then s2.completeOrder .stopPump n.val .done .none [] else s2

/-- A failed try: RETRY_WAIT below `start_try_limit`, FAILED at it (R41, R43). A withdrawn request and a recalled grant
are given up with it (R39). -/
def State.tryFailed (n : Fin 4) (s : State) : State :=
  let s1 := s.modPump n fun p => { p with contactor := false, tryDl := none, stopWait := false, tries := p.tries + 1 }
  let p := s1.pump n
  if s.set.startTryLimit ≤ p.tries then s1.pumpFailed n p.tries
  else
    let s2 := s1.setPump n { p with mode := .retryWait, retryDl := some (s.now + s.set.restartInterval) }
    if p.request ≠ .start then s2.pumpIdle n else if p.claim = .recalled then s2.releasePump n else s2

/-! ## The inlet valve (R48 to R50) -/

/-- Whether the part drives its valve: RUN, not STANDBY, not LOCAL (R62, R167, R61). -/
def State.drives (s : State) : Bool :=
  decide (s.sys.power = .run) && !s.sys.standby && decide (s.eng.access ≠ .localControl)

/-- The valve has confirmed the position `d`: the owner is told, and an order that waits for it is DONE (R48). -/
def State.inletConfirmed (d : Position) (s : State) : State :=
  match d with
  | .opened => (s.tellPlan s.act.inlet.owner .inletOpen).completeOrder .openInlet 0 .done .none []
  | .closed => s.completeOrder .closeInlet 0 .done .none []

/-- A travel toward an end begins, its deadline fresh; where the outputs are released or held none begins, and the command alone
stands (R48, R61, R62, R167, log 52). A travel whose end switch is made already waits for a change of the switches or for its
deadline (log 56). -/
def State.travel (m : InletMode) (s : State) : State :=
  if s.drives then
    s.modInlet fun v => { v with mode := m, travelDl := some (s.now + s.set.travelLimit), driveWait := false }
  else s

/-- The valve stands where it is commanded: the position is confirmed, and a part that drives its outputs has no travel left to
begin (R48, R64). -/
def State.standing (d : Position) (s : State) : State :=
  (s.modInlet fun v => { v with driveWait := v.driveWait && !s.drives }).inletConfirmed d

/-- A drive toward `d`: confirmed at once where the valve stands there, unchanged where it travels there, else a new
travel (R48). -/
def State.drive (d : Position) (s : State) : State :=
  match d, s.act.inlet.mode with
  | .opened, .opened => s.standing .opened
  | .opened, .opening => s
  | .opened, .closed => s.travel .opening
  | .opened, .closing => s.travel .opening
  | .opened, .midway => s.travel .opening
  | .opened, .stuck => s.travel .opening
  | .closed, .closed => s.standing .closed
  | .closed, .closing => s
  | .closed, .opened => s.travel .closing
  | .closed, .opening => s.travel .closing
  | .closed, .midway => s.travel .closing
  | .closed, .stuck => s.travel .closing

/-- A close at once, with nothing waiting for it: the guard's, a hold's (R50). -/
def State.closeNow (s : State) : State :=
  (s.modInlet fun v => { v with cmd := some .closed, closeWait := false, openWait := false }).drive .closed

/-- Whether a pump belongs to the inlet's owner: its own, or an exercised held pump under MANUAL (R50). -/
def State.ownersPump (s : State) (p : Pump) : Bool :=
  decide (s.act.inlet.owner ≠ .none ∧ p.owner = s.act.inlet.owner)
    || decide (s.act.inlet.owner = .manual ∧ p.owner = .hold)

/-- Whether some pump of the inlet's owner is still turning, or one of those recorded in `goFor`: what a leaving plan and a
releasing MANUAL wait for (R53, R54). -/
def State.ownTurning (s : State) : Bool :=
  four.any fun n => (s.pump n).turning && (s.ownersPump (s.pump n) || s.act.inlet.goFor.contains n)

/-- Whether some pump that a waiting close or open must see off is still turning: the owner's, one of a plan that lost the
inlet, or one recorded in `closeFor` (R50, R54). -/
def State.pumpsTurning (s : State) : Bool :=
  four.any fun n => (s.pump n).turning
    && (s.ownersPump (s.pump n) || (s.pump n).owner.isPlan || s.act.inlet.closeFor.contains n)

/-- A command from the inlet's owner; a close first sends a stop request to every pump of the owner (R48, R50). A valve in OPENING
travels on while a close waits (log 57). -/
def State.command (d : Position) (s : State) : State :=
  match d with
  | .opened => (s.modInlet fun v => { v with cmd := some .opened, closeWait := false }).drive .opened
  | .closed =>
    let waits := decide (s.act.inlet.mode ≠ .closed ∧ s.act.inlet.mode ≠ .closing)
    let s1 := overAll (four.filter fun n => s.ownersPump (s.pump n)) State.pumpStop
      (s.modInlet fun v => { v with
        cmd := some .closed, closeWait := v.closeWait || waits, openWait := false, closeFor := [] })
    if s.act.inlet.mode = .closed then s1.drive .closed else s1

/-- The valve is driven toward its commanded position, unless the command waits for pumps. -/
def State.driveCmd (s : State) : State :=
  if s.act.inlet.closeWait || s.act.inlet.openWait then s
  else match s.act.inlet.cmd with
    | none => s
    | some d => s.drive d

/-- A valve that a switch change leaves MIDWAY is re-driven toward its commanded position (R49), not in LOCAL (R62). -/
def State.redrive (s : State) : State := if s.eng.access = .localControl then s else s.driveCmd

/-- The closing travel of a start that waits for the outputs begins once the part drives them (R64, R167). -/
def State.driveHeld (s : State) : State := if s.act.inlet.driveWait && s.drives then s.driveCmd else s

/-- Whether the guard or a hold keeps the inlet CLOSED (R61, R62). -/
def State.keptClosed (s : State) : Bool :=
  decide (s.act.inlet.owner = .guard) || (s.holdNaming .inlet).isSome

/-- Outputs that were released or held are driven again: the guard's or a hold's close anew, else the closing travel of a start
(R61, R62, R64, R167). -/
def State.redriven (s : State) : State := if s.keptClosed then s.drive .closed else s.driveHeld

/-- The state the switches show at rest (R47, R49). -/
def judged (openLs closedLs : Bool) : InletMode :=
  match openLs, closedLs with
  | true, false => .opened
  | false, true => .closed
  | true, true => .midway
  | false, false => .midway

/-- What waits for pumps to be off goes on when they are: a waiting close, a waiting open, a leaving plan, a releasing
MANUAL (R50, R53, R54). -/
def State.inletProgress (s : State) : State :=
  let v := s.act.inlet
  let off := !s.pumpsTurning
  let s1 := if v.closeWait && off then (s.modInlet fun v => { v with closeWait := false }).drive .closed else s
  let s2 := if v.openWait && off then (s1.modInlet fun v => { v with openWait := false }).drive .opened else s1
  if s.ownTurning then s2
  else if v.leaving then
    ((s2.modInlet fun v => { v with owner := .none, leaving := false, releasing := false, goFor := [] }).closeNow.tellPlan v.owner .left).inletFreed
  else if v.releasing then (s2.modInlet fun v => { v with owner := .none, releasing := false, goFor := [] }).inletFreed
  else s2

/-! ## Heaters (R51, R52) -/

/-- The frost unit is told of a heater. -/
def State.tellFrost (h : Fin 4) (k : Notice) (s : State) : State := s.post (.heaterNotice h k)

/-- Whether a heater's grant is due to be given up once its current is OFF (R52). -/
def Heater.releaseDue (p : Heater) : Bool := decide (p.claim = .recalled ∨ (p.claim = .granted ∧ p.request ≠ .start))

/-- A heater's load is given up if it is due: a claim not yet granted with its request (R39), a grant once no current flows
(R52). -/
def State.heaterRelease (h : Fin 4) (s : State) : State :=
  let p := s.heater h
  if decide (p.claim = .claimed ∧ p.request ≠ .start) then s.releaseHeater h
  else if p.releaseDue && !p.current then
    (s.setHeater h { p with offSince := some s.now }).releaseHeater h
  else s

/-- The end of the 10 s of R52 for a heater whose contactor goes OFF: current flows, and this period of it has made no STUCK
record. -/
def Heater.stuckFrom (p : Heater) (now : Time) : Option Time :=
  if p.current && !p.stuckSaid then some (now + Config.stopConfirm) else none

/-- A heater's contactor is commanded OFF, its state becoming `m`; current that stays starts the 10 s of R52. -/
def State.heaterOff (h : Fin 4) (m : HeaterMode) (s : State) : State :=
  (s.modHeater h fun p => { p with
    contactor := false, mode := m, tryDl := none, runSince := none, stuckDl := p.stuckFrom s.now }).heaterRelease h

/-- The conditions of R51 for a try of a heater. -/
def State.canTryHeater (s : State) (h : Fin 4) : Bool :=
  let p := s.heater h
  (s.zoneSet h).fitted && decide (p.mode = .ready) && decide (p.owner = .frost) && decide (p.request = .start)
    && decide (p.claim = .granted) && decide (s.sys.power = .run) && !s.sys.standby

/-- A heater's current is confirmed: ON (R51). -/
def State.heaterConfirmed (h : Fin 4) (s : State) : State :=
  (s.modHeater h fun p => { p with mode := .on, tries := 0, tryDl := none, runSince := some s.now }).tellFrost h .on

/-- A heater's try begins (R51); current already sensed confirms it at once (log 20). -/
def State.beginHeaterTry (h : Fin 4) (s : State) : State :=
  let s1 := s.modHeater h fun p => { p with
    contactor := true, mode := .starting, tryDl := some (s.now + s.set.heaterConfirm), stuckDl := none }
  if (s.heater h).current then s1.heaterConfirmed h else s1

/-- A heater's failed try: RETRY_WAIT for 60 s below the limit, FAILED at it (R51). -/
def State.heaterTryFailed (h : Fin 4) (s : State) : State :=
  let tries := (s.heater h).tries + 1
  if s.set.heaterTryLimit ≤ tries then
    (((s.modHeater h fun p => { p with tries := tries, request := .none }).heaterOff h .failed).make .heaterFail s.now none
      (b1 h.val ++ b1 h.val ++ b1 tries ++ rsv 1)).tellFrost h .failed
  else
    ((s.modHeater h fun p => { p with tries := tries, retryDl := some (s.now + Config.heaterRetry) }).heaterOff h
      .retryWait).tellFrost h .failedTry

/-- A stop of a heater, its request becoming `r` (R52); its owner stays (log 35). -/
def State.heaterStop (h : Fin 4) (r : Request) (s : State) : State :=
  let s1 := s.modHeater h fun p => { p with request := r }
  match (s.heater h).mode with
  | .starting => s1.heaterOff h .ready
  | .on => s1.heaterOff h .ready
  | .ready => s1.heaterRelease h
  | .retryWait => s1.heaterRelease h
  | .failed => s1.heaterRelease h
  | .held => s1.heaterRelease h

/-! ## Holds (R57 to R60) -/

/-- The body of a HOLD record (Table 11-6): mark 0 established, 1 ended; way 0 none, 1 RELEASED, 2 EXPIRED. -/
def holdBody (h : Hold) (mark way : Nat) : List Byte := b1 h.number ++ b1 h.act.code ++ b1 mark ++ b1 way

/-- The hold number of an actuator entry changes. -/
def State.setHoldOf (a : ActId) (n : Option Nat) (s : State) : State :=
  match a with
  | .pump k => s.modPump k fun p => { p with hold := n }
  | .inlet => s.modInlet fun v => { v with hold := n }
  | .heater k => s.modHeater k fun p => { p with hold := n }

/-- Whether an actuator is confirmed in its safe state (R58); no pump with its feedback ON is (log 19). -/
def State.safe (s : State) : ActId → Bool
  | .pump k =>
    let p := s.pump k
    decide (p.mode = .resting ∨ p.mode = .ready ∨ p.mode = .failed) && !p.feedback
  | .inlet => decide (s.act.inlet.mode = .closed)
  | .heater k => !(s.heater k).contactor && !(s.heater k).current

/-- The actuator of an established hold: owner HOLD, a pump or heater HELD; a seized inlet stays GUARD's (R58). -/
def State.takeHold (a : ActId) (s : State) : State :=
  match a with
  | .pump k => s.modPump k fun p => { p with owner := .hold, mode := .held, offEnd := none, retryDl := none, stopDl := none }
  | .inlet => s.modInlet fun v => { v with owner := if v.owner = .guard then .guard else .hold }
  | .heater k => s.modHeater k fun p => { p with owner := .hold, mode := .held, retryDl := none }

/-- The HOLD_ACTUATOR that made a hold is reported DONE with its number, if it is still in flight (R58, R140). -/
def State.completeHold (h : Hold) (s : State) : State :=
  s.posts ((s.eng.inflight.filter fun e => decide (e.ref = h.ref ∧ e.code = .holdActuator ∧ e.target = h.act.code)).map
    fun e => .orderComplete e.ref .done .none (b1 h.number))

/-- A PENDING hold becomes ESTABLISHED (R58). -/
def State.establish (h : Hold) (s : State) : State :=
  let mark (x : Hold) : Hold := if x.number = h.number then { x with established := some s.now } else x
  let s1 := ({ s with act := { s.act with holds := s.act.holds.map mark } }).takeHold h.act
  (s1.make .hold s.now (some h.ref) (holdBody h 0 0)).completeHold h

/-- Every PENDING hold whose actuator is safe becomes ESTABLISHED (R58). -/
def State.establishHolds (s : State) : State :=
  overAll s.act.holds (fun h s => if h.established.isNone && s.safe h.act then s.establish h else s) s

/-- A hold leaves the table, and its number the actuator. -/
def State.freeHold (h : Hold) (s : State) : State :=
  ({ s with act := { s.act with holds := s.act.holds.filter fun x => decide (x.number ≠ h.number) } }).setHoldOf h.act none

/-- Whether the run-on of R45 is looked for: not in DARK (R61), not in LOCAL (R62). -/
def State.watchesRunOn (s : State) : Bool := decide (s.sys.power ≠ .dark ∧ s.eng.access ≠ .localControl)

/-- A pump that was not turning enters RESTING, which is the end of a STOP_PUMP (R54, R148); with `min_off` 0 it is over at
once. -/
def State.entersResting (k : Fin 4) (s : State) : State :=
  let s1 := s.completeOrder .stopPump k.val .done .none []
  if s.set.minOff = 0 then s1.post (.minOffExpiry k) else s1

/-- A pump with its contactor OFF rests out its `min_off`, with no failure kept; feedback still ON has it STOPPING first
(R45, R60). -/
def State.rest (k : Fin 4) (s : State) : State :=
  let on := (s.pump k).feedback && s.watchesRunOn
  let s1 := s.modPump k fun p => { p with
    mode := if on then .stopping else .resting
    tries := 0
    retryDl := none
    stopDl := if on then some (s.now + Config.stopConfirm) else none
    offEnd := if on then none else some (s.now + s.set.minOff) }
  if on then s1 else s1.entersResting k

/-- What waits for a turning pump still waits for it when the end of a hold makes its owner NONE (R50, R54). -/
def State.stillAwaited (k : Fin 4) (s : State) : State :=
  let own := s.ownersPump (s.pump k)
  if (s.pump k).turning && (own || (s.pump k).owner.isPlan) then
    s.modInlet fun v => { v with
      closeFor := if v.closeWait || v.openWait then k :: v.closeFor else v.closeFor
      goFor := if own && (v.releasing || v.leaving) then k :: v.goFor else v.goFor }
  else s

/-- The actuator of an ended hold goes to its safe state under owner NONE; a state it carried before the hold is not
restored (R60). -/
def State.letGo (a : ActId) (s : State) : State :=
  match a with
  | .pump k =>
    let s1 := (s.stillAwaited k).modPump k fun p => { p with owner := .none, request := .none }
    (match (s.pump k).mode with
    | .starting => s1.contactorOff k
    | .running => s1.contactorOff k
    | .stopping => s1
    | .stuckOn => s1
    | .resting => s1.releasePump k
    | .ready => (s1.rest k).releasePump k
    | .retryWait => (s1.rest k).releasePump k
    | .failed => (s1.rest k).releasePump k
    | .held => (s1.rest k).releasePump k).post (.pumpAvailable k)
  | .inlet =>
    if decide (s.act.inlet.owner = .guard) then s
    else ((s.modInlet fun v => { v with owner := .none }).closeNow).inletFreed
  | .heater k =>
    ((s.modHeater k fun p => { p with
      owner := .none, request := .none, contactor := false, mode := .ready, tries := 0, retryDl := none }).heaterRelease
        k).tellFrost k .usable

/-- A hold ends, RELEASED (way 1) or EXPIRED (way 2) (R60). -/
def State.endHold (h : Hold) (way : Nat) (ref : Option OrderRef) (s : State) : State :=
  ((s.freeHold h).letGo h.act).make .hold s.now ref (holdBody h 1 way)

/-- A PENDING hold is abandoned with its order's time limit; a pump stays commanded off (R58). -/
def State.abandonHold (h : Hold) (s : State) : State :=
  let s1 := s.freeHold h
  match h.act with
  | .pump k => ((s1.pumpDrop k).modPump k fun p => { p with owner := .none }).post (.pumpAvailable k)
  | .inlet =>
    if decide (s.act.inlet.owner = .guard) then s1 else (s1.modInlet fun v => { v with owner := .none }).inletFreed
  | .heater k => (s1.modHeater k fun p => { p with owner := .none }).tellFrost k .usable

/-- The number of the next hold (R57). -/
def State.nextHoldNumber (s : State) : Nat := nextNumber s.act.lastHold (s.act.holds.map Hold.number)

/-- A new hold enters the table, and its number the actuator (R57). -/
def State.enterHold (h : Hold) (s : State) : State :=
  ({ s with act := { s.act with holds := s.act.holds ++ [h], lastHold := h.number } }).setHoldOf h.act (some h.number)

/-- A PENDING hold is made, and its actuator goes to its safe state at once (R57). A pump that must first stop keeps its
owner until it confirms off (R44). -/
def State.makeHold (a : ActId) (ref : OrderRef) (s : State) : State :=
  let n := s.nextHoldNumber
  let h : Hold := ⟨n, a, s.now, none, s.now + 60 * s.set.holdLifetime, ref⟩
  match a with
  | .pump k => ((s.enterHold h).pumpDrop k).tellPumps (s.pump k).owner .lost
  | .inlet =>
    let o := s.act.inlet.owner
    let s1 := overAll (four.filter fun k => s.ownersPump (s.pump k)) State.pumpDrop s
    if decide (o = .guard) then s1.enterHold h
    else
      let s2 := (s1.modInlet fun v => { v with owner := .none, releasing := false, leaving := false }).enterHold h
      let s3 := s2.closeNow.tellPlan o .inletTaken
      if o = .none then s3 else s3.inletFreed
  | .heater k => (((s.enterHold h).modHeater k fun p => { p with owner := .none }).heaterStop k .none).tellFrost k .held

/-! ## Settling (R40, R50, R58) -/

/-- Every try whose conditions hold begins (R40, R51, log 13). -/
def State.startTries (s : State) : State :=
  overAll four (fun h s => if s.canTryHeater h then s.beginHeaterTry h else s)
    (overAll four (fun n s => if s.canTry n then s.beginTry n else s) s)

/-- What an event may have made possible in the controller: waiting valve travels, holds to establish, tries (log 13). -/
def State.settle (s : State) : State := s.inletProgress.establishHolds.startTries

/-! ## Stages and hand-over (R55, R56) -/

/-- The pump of a list that comes first by a strict order, ties to the earlier in the list. -/
def pickBy (better : Fin 4 → Fin 4 → Bool) (l : List (Fin 4)) : Option (Fin 4) :=
  l.foldl (fun best k =>
    match best with
    | none => some k
    | some b => if better k b then some k else some b) none

/-- Whether a pump can be added to a plan's stage (R55). -/
def State.choosable (s : State) (k : Fin 4) : Bool :=
  let p := s.pump k
  (s.pumpSet k).fitted && decide (p.mode = .ready) && decide (p.owner = .none) && p.hold.isNone

/-- The load of a pump under an owner new to it: claimed, or re-levelled where a claim or grant stands (R39, R56). -/
def State.levelPump (k : Fin 4) (s : State) : State :=
  if decide ((s.pump k).claim = .none) then s.claimPump k
  else s.post (.relevel (.pump k) (s.ownerLevel (s.pump k).owner) false)

/-- Pumps added one at a time, fewest run minutes first, until `more` are added or none is left (R55). -/
def State.raiseStage (n : Nat) : Nat → State → State
  | 0, s => s
  | more + 1, s =>
    match pickBy (fun a b => decide ((s.pump a).minutes < (s.pump b).minutes)) (four.filter s.choosable) with
    | none => s
    | some k =>
      State.raiseStage n more ((s.modPump k fun p => { p with owner := .plan n, request := .start }).levelPump k)

/-- Pumps dropped one at a time: not RUNNING first, most run minutes first, ties to the higher number (R55). -/
def State.lowerStage (n : Nat) : Nat → State → State
  | 0, s => s
  | fewer + 1, s =>
    let running (k : Fin 4) : Bool := decide ((s.pump k).mode = .running)
    let worse (a b : Fin 4) : Bool :=
      (running b && !running a) || ((running a == running b) && decide ((s.pump b).minutes ≤ (s.pump a).minutes))
    match pickBy worse (four.filter (s.isEngaged n)) with
    | none => s
    | some k => State.lowerStage n fewer (s.pumpStop k)

/-- A plan's stage count is applied, and the plan told which pumps are engaged (R55). -/
def State.applyStage (n count : Nat) (s : State) : State :=
  let now := (four.filter (s.isEngaged n)).length
  let s1 := if now < count then s.raiseStage n (count - now) else s.lowerStage n (now - count)
  s1.tellPumps (.plan n) .staged

/-- Whether a pump passes with the inlet from plan `m`: one that a hold or an unfitting has taken, its contactor commanded off,
does not (R56, R57, R63). -/
def State.passesOn (m : Nat) (s : State) (k : Fin 4) : Bool :=
  decide ((s.pump k).owner = .plan m) && (((s.pump k).hold.isNone && (s.pumpSet k).fitted) || (s.pump k).contactor)

/-- A pump that passes to plan `n`, its request START (R56). -/
def Pump.passed (n : Nat) (p : Pump) : Pump := { p with owner := .plan n, request := .start, stopWait := false }

/-- The inlet and the pumps of plan `m` pass to plan `n` (R56). -/
def State.passInlet (m n : Nat) (s : State) : State :=
  { s with act := { s.act with
    inlet := { s.act.inlet with owner := .plan n, leaving := false }
    pumps := Vector.ofFn fun k => if s.passesOn m k then (s.pump k).passed n else s.pump k } }

/-! ## The end of LOCAL and of DARK -/

/-- A pump found with its feedback ON and its contactor OFF starts the 10 s of R45; FAILED keeps its state. -/
def State.runOn (n : Fin 4) (s : State) : State :=
  let p := s.pump n
  let dl := some (s.now + Config.stopConfirm)
  if !p.feedback || p.contactor then s
  else match p.mode with
    | .ready => s.setPump n { p with mode := .stopping, stopDl := dl }
    | .resting => s.setPump n { p with mode := .stopping, stopDl := dl, offEnd := none, offWaived := false }
    | .retryWait => s.setPump n { p with mode := .stopping, stopDl := dl, retryDl := none }
    | .held => s.setPump n { p with mode := .stopping, stopDl := dl }
    | .failed => s.setPump n { p with stopDl := dl }
    | .starting => s
    | .running => s
    | .stopping => s
    | .stuckOn => s

end Sys2Proof.Machine
end

