-- ==== Sys2Proof/Machine/ActuatorRows.lean ====
section
/-! DEFINITION. The rows of the actuator controller (03), and its part in LOCAL, adoption and mains changes. -/

namespace Sys2Proof.Machine

/-! ## Tries and stops of pumps -/

/-- Whether a GUARD_TEST is complete: inlet CLOSED, every fitted pump's feedback OFF (R33). -/
def State.guardTestDone (s : State) : Bool :=
  decide (s.act.inlet.mode = .closed) && four.all fun n => !((s.pumpSet n).fitted && (s.pump n).feedback)

/-- A GUARD_TEST in flight completes once it is complete (R33). -/
def State.guardTestCheck (s : State) : State := if s.guardTestDone then s.completeOrder .guardTest 0 .done .none [] else s

/-- TRY_BEGIN (R41): the try of a pump or heater begins where R40 or R51 lets it. -/
def State.tryBegin (c : Load) (s : State) : State :=
  s.taking (.tryBegin c) fun s =>
    match c with
    | .pump n => if s.canTry n then s.beginTry n else s
    | .heater h => if s.canTryHeater h then s.beginHeaterTry h else s

/-- TRY_DEADLINE (R41). -/
def State.tryDeadline (n : Fin 4) (s : State) : State :=
  s.taking (.tryDeadline n) fun s =>
    let p := s.pump n
    if decide (p.mode = .starting) && s.due p.tryDl && !p.feedback then (s.tryFailed n).settle else s

/-- RETRY_DEADLINE (R41); a pump that returns to HELD ends a STOP_PUMP (R54). -/
def State.retryDeadline (n : Fin 4) (s : State) : State :=
  s.taking (.retryDeadline n) fun s =>
    let p := s.pump n
    if decide (p.mode = .retryWait) && s.due p.retryDl then
      let held := s.heldEstablished (.pump n)
      let s1 := (s.setPump n { p with
        mode := if held then .held else .ready
        retryDl := none
        tries := if p.request = .start then p.tries else 0 }).claimPump n
      (if held then s1.completeOrder .stopPump n.val .done .none [] else s1).settle
    else s

/-- The run feedback of a pump has turned ON (R41, R45). -/
def State.feedbackOn (n : Fin 4) (s : State) : State :=
  if decide ((s.pump n).mode = .starting) then s.pumpConfirmed n
  else if s.watchesRunOn then s.runOn n
  else s

/-- The run feedback of a pump has turned OFF (R43, R45). -/
def State.feedbackOff (n : Fin 4) (s : State) : State :=
  match (s.pump n).mode with
  | .running => (s.runStop n 1).tryFailed n
  | .stopping => s.confirmOff n
  | .stuckOn => s.confirmOff n
  | .failed => s.modPump n fun p => { p with stopDl := none }
  | .ready => s
  | .resting => s
  | .starting => s
  | .retryWait => s
  | .held => s

/-- RUN_FEEDBACK_CHANGE (R45). -/
def State.runFeedbackChange (n : Fin 4) (on : Bool) (s : State) : State :=
  s.taking (.runFeedbackChange n on) fun s =>
    if (s.pump n).feedback = on then s
    else
      let s1 := s.modPump n fun p => { p with feedback := on }
      (if on then s1.feedbackOn n else s1.feedbackOff n).guardTestCheck.settle

/-- MIN_RUN_ELAPSED (R44): a stop or a recall that waited is carried out. -/
def State.minRunElapsed (n : Fin 4) (s : State) : State :=
  s.taking (.minRunElapsed n) fun s =>
    let p := s.pump n
    if decide (p.mode = .running) && s.ranEnough n && (p.stopWait || decide (p.claim = .recalled)) then
      (s.contactorOff n).settle
    else s

/-- STOP_CONFIRM_EXPIRY (R45): feedback still ON after 10 s. -/
def State.stopConfirmExpiry (n : Fin 4) (s : State) : State :=
  s.taking (.stopConfirmExpiry n) fun s =>
    let p := s.pump n
    if s.due p.stopDl && p.feedback then
      ((s.setPump n { p with stopDl := none, mode := if p.mode = .stopping then .stuckOn else p.mode }).make .stuck s.now
        none (b1 n.val ++ b1 0 ++ rsv 2)).settle
    else s

/-- MIN_OFF_EXPIRY (R45): RESTING is over; a pump whose request is not START gives up its request and load (R39, log 18). -/
def State.minOffExpiry (n : Fin 4) (s : State) : State :=
  s.taking (.minOffExpiry n) fun s =>
    let p := s.pump n
    if decide (p.mode = .resting) && s.due p.offEnd then
      let s1 := s.setPump n { p with
        mode := if s.heldEstablished (.pump n) then .held else .ready, offEnd := none, request := p.offRequest }
      (if p.request = .start then s1 else s1.releasePump n).settle
    else s

/-- START_LIST_AGEING (R42): an entry has become 3 600 s old; the conditions of R40 are tested again. -/
def State.startListAgeing (n : Fin 4) (s : State) : State := s.taking (.startListAgeing n) (·.settle)

/-- A recall reaches a pump (R46): off at once while starting or idle, after `min_run` while running. -/
def State.recallPump (n : Fin 4) (s : State) : State :=
  let p := s.pump n
  if decide (p.claim = .granted) then
    let s1 := s.setPump n { p with claim := .recalled }
    (match p.mode with
    | .starting => s1.contactorOff n
    | .running => if s.ranEnough n then s1.contactorOff n else s1
    | .stopping => s1
    | .stuckOn => s1
    | .ready => s1.releasePump n
    | .resting => s1.releasePump n
    | .retryWait => s1.releasePump n
    | .failed => s1.releasePump n
    | .held => s1.releasePump n).tellPumps p.owner .recalled
  else s

/-- A recall reaches a heater (R52). -/
def State.recallHeater (h : Fin 4) (s : State) : State :=
  let p := s.heater h
  if decide (p.claim = .granted) then
    let s1 := (s.setHeater h { p with claim := .recalled }).tellFrost h .recalled
    if decide (p.mode = .starting ∨ p.mode = .on) then s1.heaterOff h .ready else s1.heaterRelease h
  else s

/-- RECALL (R46, R52). -/
def State.recall (c : Load) (s : State) : State :=
  s.taking (.recall c) fun s =>
    (match c with
    | .pump n => s.recallPump n
    | .heater h => s.recallHeater h).settle

/-! ## Plans' requests -/

/-- STAGE_REQUEST (R55); with `leaving` the plan's pumps are stopped and it leaves the inlet (R53, R89). -/
def State.stageRequest (n count : Nat) (leaving : Bool) (s : State) : State :=
  s.taking (.stageRequest n count leaving) fun s =>
    if s.act.inlet.owner = .plan n then
      if leaving then
        if (s.plan n).any fun p => decide (p.state = .active) then s
        else
          (overAll (four.filter fun k => decide ((s.pump k).owner = .plan n)) State.pumpStop
            (s.modInlet fun v => { v with leaving := true, goFor := if v.leaving then v.goFor else [] })).settle
      else if s.act.inlet.leaving then s
      else (s.applyStage n count).settle
    else s

/-- A plan becomes ACTIVE (R86). -/
def State.activate (n : Nat) (s : State) : State :=
  s.modPlan n fun p => { p with
    state := .active
    pause := none
    cleared := false
    startAt := none
    activeSince := some s.now
    activeLevel := some s.lastLevel
    firstActive := some (p.firstActive.getD s.now)
    actRun := 0 }

/-- The hand-over of the inlet from plan `m` to plan `n`, the pumps engaged keeping their order (R56, R83). -/
def State.handOver (m n : Nat) (s : State) : State :=
  let es := match s.plan m with
    | none => []
    | some q => q.engaged
  let s1 := (((s.pausePlan m .preempted).modPlan m fun p => { p with engaged := [] }).activate n).modPlan n fun p =>
    { p with engaged := es }
  let s2 := (s1.passInlet m n).command .opened
  let s3 := overAll (four.filter (s1.passesOn m)) State.levelPump s2
  match s3.plan n with
  | none => s3
  | some p => s3.applyStage n p.stage

/-- A plan that takes an inlet without an owner begins as R87 states. -/
def State.takeInlet (n : Nat) (s : State) : State :=
  let s1 := (s.activate n).modInlet fun v => { v with owner := .plan n, leaving := false }
  if decide (s.act.inlet.mode = .opened ∧ s.act.inlet.cmd = some .opened) then
    match s1.plan n with
    | none => s1
    | some p => s1.post (.stageRequest n p.stage false)
  else s1.post (.inletCommand (.plan n) .opened)

/-- PLAN_GRANT (R53): the request of a plan for the inlet is taken or withdrawn; readiness is tested as the request
arrives (log 29). -/
def State.planGrant (n : Nat) (s : State) : State :=
  s.taking (.planGrant n) fun s =>
    if s.plans.request = some n then
      let s1 := { s with plans := { s.plans with request := none } }
      match s1.plan n with
      | none => s1
      | some p =>
        if s1.ready p && s1.inletPassable p.kind.rank then
          match s1.act.inlet.owner with
          | .plan m => (s1.handOver m n).settle
          | .none => (s1.takeInlet n).settle
          | .manual => s1
          | .guard => s1
          | .frost => s1
          | .hold => s1
        else s1
    else s

/-! ## The inlet -/

/-- INLET_COMMAND (R48): a command of the inlet's owner; the guard's close waits for nothing. -/
def State.inletCommand (o : Owner) (d : Position) (s : State) : State :=
  s.taking (.inletCommand o d) fun s =>
    let v := s.act.inlet
    if decide (o ≠ .none ∧ v.owner = o) && !v.leaving then
      match o, d with
      | .guard, .closed => s.closeNow.settle
      | .guard, .opened => s
      | _, _ => (s.command d).settle
    else s

/-- The valve state after a change of the switches (R48, R49). -/
def valveAfter (m : InletMode) (wasOpen wasClosed openLs closedLs : Bool) : InletMode :=
  if openLs && closedLs then .midway
  else match m with
  | .opening => if openLs then .opened else .opening
  | .closing => if closedLs then .closed else .closing
  | .opened => if openLs then .opened else .midway
  | .closed => if closedLs then .closed else .midway
  | .midway => judged openLs closedLs
  | .stuck => if (openLs && !wasOpen) || (closedLs && !wasClosed) then judged openLs closedLs else .stuck

/-- Whether a valve state is a travel. -/
def InletMode.travelling (m : InletMode) : Bool := decide (m = .opening ∨ m = .closing)

/-- LIMIT_SWITCH_CHANGE (R49, R50): the switches as they now stand. -/
def State.limitSwitchChange (openLs closedLs : Bool) (s : State) : State :=
  s.taking (.limitSwitchChange openLs closedLs) fun s =>
    let v := s.act.inlet
    if v.openLs = openLs ∧ v.closedLs = closedLs then s
    else
      let m := valveAfter v.mode v.openLs v.closedLs openLs closedLs
      -- pumps against an inlet that is no longer OPEN
      let lost := decide (v.mode = .opened ∧ m ≠ .opened)
      let s0 := if lost then overAll four State.pumpCut s else s
      let s1 := s0.modInlet fun v => { v with
        openLs := openLs, closedLs := closedLs, mode := m, travelDl := if m = v.mode then v.travelDl else none }
      let s2 := if lost then s1.tellPlan v.owner .inletLost else s1
      -- a position reached
      let s3 := if decide (m = .opened ∧ v.mode ≠ .opened ∧ v.cmd = some .opened) then s2.inletConfirmed .opened
        else if decide (m = .closed ∧ v.mode ≠ .closed ∧ v.cmd = some .closed) then s2.inletConfirmed .closed else s2
      -- a travel end, or CLOSED left, goes to the guard
      let s4 := if decide (m ≠ v.mode) && (v.mode.travelling || decide (v.mode = .closed)) then
          s3.guardTestCheck.post .guardTravelEnd
        else s3
      (if decide (m = .midway) then s4.redrive else s4).settle

/-- TRAVEL_DEADLINE (R48): the travel has not reached its switch. -/
def State.travelDeadline (s : State) : State :=
  s.taking .travelDeadline fun s =>
    let v := s.act.inlet
    if v.mode.travelling && s.due v.travelDl then
      let up := decide (v.mode = .opening)
      let s1 := (s.modInlet fun v => { v with mode := .stuck, travelDl := none }).make .stuck s.now none
        (b1 4 ++ b1 (if up then 1 else 2) ++ rsv 2)
      let s2 := (s1.tellPlan v.owner .inletStuck).completeOrder (if up then .openInlet else .closeInlet) 0 .failed .stuck []
      (s2.guardTestCheck.post .guardTravelEnd).settle
    else s

/-! ## Heaters -/

/-- HEATER_START_REQUEST (R51): the frost unit asks for heat at a level. A heater that is not fitted, FAILED or under a
hold takes no request (R113). -/
def State.heaterStartRequest (h : Fin 4) (level : Nat) (urgent : Bool) (s : State) : State :=
  s.taking (.heaterStartRequest h level urgent) fun s =>
    let p := s.heater h
    if (s.zoneSet h).fitted && p.hold.isNone && decide (p.mode ≠ .failed ∧ p.mode ≠ .held) then
      let s1 := s.setHeater h { p with owner := .frost, request := .start, level := level, urgent := urgent }
      (if decide (p.claim = .none) then s1.claimHeater h else s1.post (.relevel (.heater h) level urgent)).settle
    else s

/-- HEATER_STOP_REQUEST (R52). -/
def State.heaterStopRequest (h : Fin 4) (s : State) : State :=
  s.taking (.heaterStopRequest h) fun s =>
    let p := s.heater h
    if decide (p.owner = .frost) && p.hold.isNone then (s.heaterStop h .stop).settle else s

/-- HEATER_CURRENT_CHANGE (R51, R52): a new period of current begins or ends. -/
def State.heaterCurrentChange (h : Fin 4) (on : Bool) (s : State) : State :=
  s.taking (.heaterCurrentChange h on) fun s =>
    let p := s.heater h
    if p.current = on then s
    else
      let s1 := s.setHeater h { p with current := on, stuckSaid := false }
      (if on then
        if decide (p.mode = .starting) then s1.heaterConfirmed h
        else if p.contactor then s1
        else s1.modHeater h fun p => { p with stuckDl := some (s.now + Config.stopConfirm) }
      else
        if decide (p.mode = .on) then s1.heaterTryFailed h
        else if p.contactor then s1
        else (s1.modHeater h fun p => { p with stuckDl := none }).heaterRelease h).settle

/-- HEATER_TRY_DEADLINE (R51). -/
def State.heaterTryDeadline (h : Fin 4) (s : State) : State :=
  s.taking (.heaterTryDeadline h) fun s =>
    let p := s.heater h
    if decide (p.mode = .starting) && s.due p.tryDl && !p.current then (s.heaterTryFailed h).settle else s

/-- HEATER_RETRY_END (R51): RETRY_WAIT is over; a withdrawn request leaves try count 0, as for pumps (R41). -/
def State.heaterRetryEnd (h : Fin 4) (s : State) : State :=
  s.taking (.heaterRetryEnd h) fun s =>
    let p := s.heater h
    if decide (p.mode = .retryWait) && s.due p.retryDl then
      ((s.setHeater h { p with mode := .ready, retryDl := none, tries := if p.request = .start then p.tries else 0 }).claimHeater
        h).settle
    else s

/-- HEATER_STUCK_EXPIRY (R52): current with the contactor OFF has lasted 10 s; once for each period of current. -/
def State.heaterStuckExpiry (h : Fin 4) (s : State) : State :=
  s.taking (.heaterStuckExpiry h) fun s =>
    let p := s.heater h
    if s.due p.stuckDl && p.current && !p.contactor && !p.stuckSaid then
      (s.setHeater h { p with stuckDl := none, stuckSaid := true }).make .stuck s.now none
        (b1 (ActId.heater h).code ++ b1 3 ++ rsv 2)
    else s

/-! ## Holds -/

/-- HOLD_DEADLINE (R60): a hold left unattended expires. -/
def State.holdDeadline (n : Nat) (s : State) : State :=
  s.taking (.holdDeadline n) fun s =>
    match s.act.holds.find? fun h => decide (h.number = n) with
    | none => s
    | some h => if h.deadline ≤ s.now then (s.endHold h 2 none).settle else s

/-! ## Mains (R61) -/

/-- A pump at mains loss. -/
def Pump.darkened (p : Pump) (held : Bool) : Pump :=
  { p with
    contactor := false
    request := .none
    owner := if p.owner = .hold then .hold else .none
    claim := .none
    tries := if p.mode = .failed then p.tries else 0
    mode := match p.mode with
      | .starting => if held then .held else .resting
      | .running => if held then .held else .resting
      | .stopping => if held then .held else .resting
      | .retryWait => if held then .held else .resting
      | .resting => .resting
      | .ready => .ready
      | .failed => .failed
      | .stuckOn => .stuckOn
      | .held => .held
    offWaived := decide (p.mode = .starting ∨ p.mode = .running ∨ p.mode = .stopping ∨ p.mode = .retryWait ∨ p.mode = .resting)
      && !held
    runSince := none
    tryDl := none
    retryDl := none
    stopDl := none
    offEnd := none
    stopWait := false }

/-- A heater at mains loss. -/
def Heater.darkened (p : Heater) (now : Time) : Heater :=
  { p with
    contactor := false
    request := .none
    claim := .none
    mode := match p.mode with
      | .starting => .ready
      | .on => .ready
      | .retryWait => .ready
      | .ready => .ready
      | .failed => .failed
      | .held => .held
    runSince := none
    tryDl := none
    retryDl := none
    stuckDl := if p.contactor then p.stuckFrom now else p.stuckDl }

/-- Whether an owner keeps the inlet where its outputs are released (R61, R62). -/
def keepsInlet (o : Owner) : Bool := decide (o = .guard ∨ o = .hold)

/-- The inlet where its outputs are released, `c` being its commanded position: a travel ends MIDWAY (log 24), marks and
waits are cleared, a plan or MANUAL loses it. `wait` says whether the closing travel of a start waits on. -/
def Inlet.released (c : Option Position) (wait : Bool) (v : Inlet) : Inlet :=
  { v with
    owner := if keepsInlet v.owner then v.owner else .none
    cmd := c
    mode := if v.mode.travelling then .midway else v.mode
    travelDl := none
    releasing := false
    leaving := false
    closeWait := false
    openWait := false
    driveWait := wait
    closeFor := []
    goFor := [] }

/-- The commanded position at mains loss: CLOSED under GUARD, HOLD or a PENDING hold, else none (R61). -/
def Inlet.darkCmd (v : Inlet) : Option Position := if keepsInlet v.owner || v.hold.isSome then some .closed else none

/-- The commanded position at entry to LOCAL: CLOSED under GUARD, HOLD or a PENDING hold, none where a plan or MANUAL
loses the inlet, else kept (R62). -/
def Inlet.localCmd (v : Inlet) : Option Position :=
  if keepsInlet v.owner || v.hold.isSome then some .closed
  else if v.owner.isPlan || decide (v.owner = .manual) then none else v.cmd

/-- The outputs of the inlet are released; an owner lost is NONE (R61, R62). -/
def State.releaseInlet (c : Option Position) (wait : Bool) (s : State) : State :=
  let s1 := s.modInlet (Inlet.released c wait)
  if decide (s.act.inlet.owner = .manual) || s.act.inlet.owner.isPlan then s1.inletFreed else s1

/-- In-flight orders of the given codes are reported ABORTED (R61). -/
def State.abortOrders (cs : List OrderCode) (rs : Reason) (s : State) : State :=
  s.posts ((s.eng.inflight.filter fun e => cs.contains e.code).map fun e => .orderComplete e.ref .aborted rs [])

/-- A pump at mains loss; the plan it leaves is told (R61, R89). -/
def State.darkPump (n : Fin 4) (s : State) : State :=
  (s.modPump n fun p => p.darkened (s.heldEstablished (.pump n))).tellPumps (s.pump n).owner .stopped

/-- ACTUATOR_MAINS_LOSS (R61). -/
def State.actuatorMainsLoss (s : State) : State :=
  s.taking .actuatorMainsLoss fun s =>
    let s1 := overAll (four.filter fun n => decide ((s.pump n).mode = .running)) (fun n s => s.runStop n 2) s
    let s2 := overAll four State.darkPump s1
    let s3 := overAll four (fun h s => (s.modHeater h fun p => p.darkened s.now).tellFrost h .mainsLoss) s2
    ((s3.releaseInlet s.act.inlet.darkCmd false).abortOrders [.startPump, .stopPump, .openInlet, .closeInlet, .holdActuator] .power).establishHolds

/-- ACTUATOR_MAINS_RESTORE (R61): the valve is judged from its switches, rested pumps wake, run-on is looked for. -/
def State.actuatorMainsRestore (s : State) : State :=
  s.taking .actuatorMainsRestore fun s =>
    let wake (p : Pump) : Pump := if p.mode = .resting ∧ p.offWaived = true then { p with mode := .ready, offWaived := false } else p
    let s1 := overAll four (fun n s => s.modPump n wake) s
    let s2 := if decide (s.eng.access = .localControl) then s1 else overAll four State.runOn s1
    let s3 := s2.modInlet fun v => if v.mode.travelling then v else { v with mode := judged v.openLs v.closedLs }
    (if s3.keptClosed then s3.drive .closed else s3).settle

/-! ## LOCAL (R62) -/

/-- A pump at entry to LOCAL; the plan it leaves is told (R62, R89). -/
def State.localPump (n : Fin 4) (s : State) : State :=
  let held := s.heldEstablished (.pump n)
  ((s.modPump n fun p => { p with
    contactor := false
    request := .none
    owner := if held then .hold else .none
    mode := if held then .held else if p.mode = .failed then .failed else .ready
    runSince := none
    tryDl := none
    retryDl := none
    stopDl := none
    offEnd := none
    offWaived := false
    stopWait := false }).releasePump n).tellPumps (s.pump n).owner .stopped

/-- The pump outputs are released to hand control (R62). -/
def State.localPumps (s : State) : State := overAll four State.localPump s

/-- The inlet drives are released to hand control (R62); the closing travel of a start waits on while its command stands (R64). -/
def State.localInlet (s : State) : State :=
  (s.releaseInlet s.act.inlet.localCmd (s.act.inlet.driveWait && s.act.inlet.localCmd.isSome)).establishHolds

/-- The controller takes the station back (R62): the guard or a hold re-drives the inlet, and the closing travel of a start that
waited begins (R64). -/
def State.stationBack (s : State) : State :=
  (if decide (s.sys.power = .dark) then s else overAll four State.runOn s).redriven

/-! ## Adoption (R63) and the end of what held outputs back (R64, R167) -/

/-- A pump that becomes unfitted (R63). -/
def State.unfitPump (n : Fin 4) (s : State) : State :=
  let o := (s.pump n).owner
  let s1 := match s.holdNaming (.pump n) with
    | none => s
    | some h => s.endHold h 1 none
  ((s1.pumpDrop n).modPump n fun p => if p.mode = .failed then { p with mode := .ready } else p).tellPumps o .lost

/-- A pump that becomes fitted (R63): READY with try count 0 and owner NONE, nothing of an earlier use left (log 51), and
available to plans (R90). -/
def State.fitPump (n : Fin 4) (s : State) : State :=
  ((s.modPump n fun p => { p with
    mode := .ready
    tries := 0
    owner := .none
    request := .none
    contactor := false
    runSince := none
    tryDl := none
    retryDl := none
    stopDl := none
    offEnd := none
    offWaived := false
    stopWait := false }).releasePump n).post (.pumpAvailable n)

/-- A heater that becomes unfitted (R63). -/
def State.unfitHeater (h : Fin 4) (s : State) : State :=
  let s1 := match s.holdNaming (.heater h) with
    | none => s
    | some x => s.endHold x 1 none
  (s1.heaterStop h .none).modHeater h fun p =>
    { p with owner := .none, mode := if p.mode = .failed then .ready else p.mode }

/-- A heater that becomes fitted (R63, log 51). -/
def State.fitHeater (h : Fin 4) (s : State) : State :=
  s.modHeater h fun p => { p with
    mode := .ready, tries := 0, owner := .none, request := .none, contactor := false, tryDl := none, retryDl := none }

/-- The controller takes new settings: `old` are those before (R63). -/
def State.actAdopt (old : Settings) (s : State) : State :=
  let pumpWas (n : Fin 4) : Bool := (old.pumps[n.val]'n.isLt).fitted
  let zoneWas (n : Fin 4) : Bool := (old.zones[n.val]'n.isLt).fitted
  let s1 := overAll four (fun n s =>
    if pumpWas n && !(s.pumpSet n).fitted then s.unfitPump n
    else if !pumpWas n && (s.pumpSet n).fitted then s.fitPump n else s) s
  overAll four (fun h s =>
    if zoneWas h && !(s.zoneSet h).fitted then s.unfitHeater h
    else if !zoneWas h && (s.zoneSet h).fitted then s.fitHeater h else s) s1

/-- What an adoption lets the outputs do: those that STANDBY held act as their conditions permit (R64, R167); in every case tries
begin whose conditions now hold (R40). -/
def State.outputsFreed (standby : Bool) (s : State) : State := (if standby then s.redriven else s).settle

end Sys2Proof.Machine
end

