-- ==== Sys2Proof/Machine/Arbiter.lean ====
section
/-! DEFINITION. The load arbiter (04, 4.4): claims, grants, the grant walk, recall and urgent preemption. -/

namespace Sys2Proof.Machine

/-- The units of all grants, GRANTED and RECALLED alike (R73). -/
def unitsOf (gs : List Grant) : Nat := (gs.map Grant.units).sum

/-- The units of the RECALLED grants. -/
def recalledUnits (gs : List Grant) : Nat := unitsOf (gs.filter Grant.recalled)

/-- Whether a claimant has a claim or a grant (R74). -/
def ArbState.has (a : ArbState) (l : Load) : Bool :=
  a.claims.any (fun c => decide (c.who = l)) || a.grants.any (fun g => decide (g.who = l))

/-- The place of a claim in the list: behind its level, or in front of it when urgent (R74). -/
def placeClaim (c : Claim) : List Claim → List Claim
  | [] => [c]
  | d :: l =>
    if (if c.urgent then decide (d.level ≤ c.level) else decide (d.level < c.level)) then c :: d :: l
    else d :: placeClaim c l

/-- A claim joins the list with the next join number (R74). -/
def ArbState.joins (a : ArbState) (l : Load) (units level : Nat) (urgent : Bool) : ArbState :=
  { a with claims := placeClaim ⟨l, units, level, urgent, a.join⟩ a.claims, join := (a.join + 1) % Config.wrap16 }

/-- What a walk leaves: the claims, the grants, the claimants granted in order, the urgent claim it stopped at. -/
structure WalkEnd where
  claims : List Claim
  grants : List Grant
  granted : List Load
  urgent : Option Claim

/-- The grant walk along the claim list (R76). -/
def walk (budget mask : Nat) : List Claim → List Grant → WalkEnd
  | [], gs => ⟨[], gs, [], none⟩
  | c :: cs, gs =>
    if c.level ≤ mask then
      let r := walk budget mask cs gs
      { r with claims := c :: r.claims }
    else if unitsOf gs + c.units ≤ budget then
      let r := walk budget mask cs (gs ++ [⟨c.who, c.units, c.level, c.urgent, c.join, false⟩])
      { r with granted := c.who :: r.granted }
    else ⟨c :: cs, gs, [], if c.urgent then some c else none⟩

/-- The grant preemption recalls next: the lowest level below 6, the most recently granted of it (R79). -/
def victim (gs : List Grant) : Option Grant :=
  (gs.filter fun g => !g.recalled && decide (g.level < 6)).foldl (fun best g =>
    match best with
    | none => some g
    | some b => if g.level ≤ b.level then some g else some b) none

/-- The grants with that of a claimant RECALLED. -/
def recallGrant (l : Load) (gs : List Grant) : List Grant :=
  gs.map fun g => if g.who = l then { g with recalled := true } else g

/-- Whether the free units and the units under recall cover a claim (R79). -/
def covered (budget : Nat) (c : Claim) (gs : List Grant) : Bool :=
  decide (c.units + unitsOf gs ≤ budget + recalledUnits gs)

/-- Recalls one at a time until the claim is covered; the grants and the claimants recalled (R79). -/
def preemptLoop (budget : Nat) (c : Claim) : Nat → List Grant → List Grant × List Load
  | 0, gs => (gs, [])
  | fuel + 1, gs =>
    if covered budget c gs then (gs, [])
    else match victim gs with
      | none => (gs, [])
      | some g =>
        let r := preemptLoop budget c fuel (recallGrant g.who gs)
        (r.1, g.who :: r.2)

/-- Urgent preemption (R79): nothing is recalled when recalling everything below level 6 would not cover the claim. -/
def preempt (budget : Nat) (c : Claim) (gs : List Grant) : List Grant × List Load :=
  let all := gs.map fun g => if g.level < 6 then { g with recalled := true } else g
  if covered budget c all then preemptLoop budget c gs.length gs else (gs, [])

/-- The notice of a grant: a claimant whose claim stands holds it, another gives it back (R39, R74). -/
def State.granted (l : Load) (s : State) : State :=
  match l with
  | .pump n =>
    if decide ((s.pump n).claim = .claimed) then s.modPump n fun p => { p with claim := .granted }
    else s.post (.grantRelease l)
  | .heater h =>
    if decide ((s.heater h).claim = .claimed) then
      s.modHeater h fun p => { p with claim := .granted }
    else s.post (.grantRelease l)

/-- What a walk with its preemption does to the arbiter: its state, the claimants granted in order, the claimants
recalled in order (R76, R79). -/
structure Walked where
  state : ArbState
  granted : List Load
  recalled : List Load

/-- The grant walk of the arbiter, and the preemption for an urgent claim that stops it. -/
def ArbState.walked (a : ArbState) : Walked :=
  let r := walk a.budget a.mask a.claims a.grants
  match r.urgent with
  | none => ⟨{ a with claims := r.claims, grants := r.grants }, r.granted, []⟩
  | some c =>
    let q := preempt a.budget c r.grants
    ⟨{ a with claims := r.claims, grants := q.1 }, r.granted, q.2⟩

/-- The list is walked; grants are told, and an urgent claim that stops the walk may preempt (R76, R79). -/
def State.arbWalk (s : State) : State :=
  let w := s.arb.walked
  ((overAll w.granted State.granted { s with arb := w.state }).posts (w.recalled.map Instr.recall)).settle

/-- CLAIM (R74). -/
def State.claimRow (l : Load) (units level : Nat) (urgent : Bool) (s : State) : State :=
  s.taking (.claim l units level urgent) fun s =>
    if s.arb.has l then s else { s with arb := s.arb.joins l units level urgent }.arbWalk

/-- WITHDRAWAL (R74). -/
def State.withdrawalRow (l : Load) (s : State) : State :=
  s.taking (.withdrawal l) fun s =>
    if s.arb.claims.any fun c => decide (c.who = l) then
      { s with arb := { s.arb with claims := s.arb.claims.filter fun c => decide (c.who ≠ l) } }.arbWalk
    else s

/-- GRANT_RELEASE (R77). -/
def State.grantReleaseRow (l : Load) (s : State) : State :=
  s.taking (.grantRelease l) fun s =>
    if s.arb.grants.any fun g => decide (g.who = l) then
      { s with arb := { s.arb with grants := s.arb.grants.filter fun g => decide (g.who ≠ l) } }.arbWalk
    else s

/-- The re-levelled claim of a claimant (R75). -/
def ArbState.reclaim (a : ArbState) (c : Claim) (level : Nat) (urgent : Bool) : ArbState :=
  { a with claims := a.claims.filter fun d => decide (d.who ≠ c.who) }.joins c.who c.units level urgent

/-- RELEVEL (R75). -/
def State.relevelRow (l : Load) (level : Nat) (urgent : Bool) (s : State) : State :=
  s.taking (.relevel l level urgent) fun s =>
    match s.arb.claims.find? (fun c => decide (c.who = l)), s.arb.grants.find? (fun g => decide (g.who = l)) with
    | some c, _ => { s with arb := s.arb.reclaim c level urgent }.arbWalk
    | none, some g =>
      let recalls := !g.recalled && decide (level ≤ s.arb.mask)
      let change (x : Grant) : Grant :=
        if x.who = l then { x with level := level, urgent := urgent, recalled := x.recalled || recalls } else x
      let s1 := { s with arb := { s.arb with grants := s.arb.grants.map change } }
      (if recalls then s1.post (.recall l) else s1).arbWalk
    | none, none => s

/-- MASK_CHANGE (R78). -/
def State.maskChangeRow (m : Nat) (s : State) : State :=
  s.taking (.maskChange m) fun s =>
    if m = s.arb.mask then s
    else
      let hit (g : Grant) : Bool := !g.recalled && decide (s.arb.mask < m ∧ g.level ≤ m)
      let change (g : Grant) : Grant := if hit g then { g with recalled := true } else g
      ({ s with arb := { s.arb with mask := m, grants := s.arb.grants.map change } }.posts
        ((s.arb.grants.filter hit).map fun (g : Grant) => Instr.recall g.who)).arbWalk

/-- A budget reaches the arbiter; one below the granted units is not taken (R80, log 26). -/
def State.setBudget (b : Nat) (s : State) : State :=
  if unitsOf s.arb.grants ≤ b then { s with arb := { s.arb with budget := b } }.arbWalk else s

/-- BUDGET_CHANGE (R80). -/
def State.budgetChangeRow (b : Nat) (s : State) : State := s.taking (.budgetChange b) (·.setBudget b)

/-- ARBITER_MAINS_LOSS (R81). -/
def State.arbiterMainsLossRow (s : State) : State :=
  s.taking .arbiterMainsLoss fun s => { s with arb := { s.arb with claims := [], grants := [] } }

end Sys2Proof.Machine
end

