-- ==== Sys2Proof/Machine/Guard.lean ====
section
/-! DEFINITION. The overflow guard (02): levels, trips, the seizure, release, GUARD_TEST and overflow episodes. -/

namespace Sys2Proof.Machine

/-- Whether the guard is TRIPPED or HELD. -/
def GuardMode.seizes (m : GuardMode) : Bool := decide (m = .tripped ∨ m = .held)

/-- The GTRIP output (R28). -/
def State.gtrip (s : State) : Bool := s.guard.mode.seizes

/-- The effective levels under a frost flag (R21). -/
def GuardState.withLevels (t : Settings) (g : GuardState) : GuardState :=
  { g with
    effWarn := if g.frostFlag then t.warnLevel - t.frostMargin else t.warnLevel
    effTrip := if g.frostFlag then t.tripLevel - t.frostMargin else t.tripLevel }

/-- Changes the guard's state. -/
def State.modGuard (f : GuardState → GuardState) (s : State) : State := { s with guard := f s.guard }

/-- FROST_STATE_CHANGE (R21). -/
def State.frostStateChangeRow (f : FrostState) (s : State) : State :=
  s.taking (.frostStateChange f) fun s =>
    s.modGuard fun g => GuardState.withLevels s.set { g with frostFlag := decide (f ≠ .none) }

/-- Whether a judgement has a numeric level (R8). -/
def Judgement.numeric (j : Judgement) : Bool := numericQuality j.quality

/-- The confirm count after a judgement (R22). The effective trip level is that in force, in HELD too, where R21 leaves open from
when a frost change counts (log 42). -/
def GuardState.confirmAfter (g : GuardState) (t : Settings) (j : Judgement) : Nat :=
  if numericQuality j.quality && decide (g.effTrip ≤ j.level) then
    if g.confirm < t.tripConfirm then g.confirm + 1 else g.confirm
  else 0

/-- Whether a trip cause is present, `confirm` being the count after R22 (Table 2-3). -/
def causePresent (t : Settings) (confirm : Nat) (j : Judgement) : Cause → Bool
  | .topFloat => j.floats.top
  | .overflowFlow => j.floats.opf
  | .blind => decide (j.quality = .none)
  | .highFloat => decide (j.quality = .floatsOnly) && j.floats.high
  | .level => decide (t.tripConfirm ≤ confirm)
  | .test => false

/-- The trip causes present, in table order. -/
def causesAt (t : Settings) (confirm : Nat) (j : Judgement) : List Cause := allCauses.filter (causePresent t confirm j)

/-- The judgement fields of guard records: quality, band and level, absent without a judgement. -/
def State.lastBand (s : State) : List Byte := b1o (s.survey.judgement.map fun j => Band.code j.band)

/-- The judgement a guard record describes: quality, band and level. -/
structure Seen where
  quality : List Byte
  band : List Byte
  level : Nat

/-- What is seen in a judgement. -/
def seenIn (j : Judgement) : Seen := ⟨b1 j.quality.code, b1 j.band.code, j.level⟩

/-- What is seen in the last judgement. -/
def State.seenLast (s : State) : Seen := ⟨s.lastQuality, s.lastBand, s.lastLevel⟩

/-- The body of GUARD_TRIP (Table 11-6), from the guard's state at the record and the state before entry. -/
def tripBody (g : GuardState) (before : GuardMode) (retrip : Bool) (x : Seen) : List Byte :=
  b1 (causeSet g.causes) ++ b1o (g.first.map Cause.code) ++ b1 (bits [retrip, g.frostFlag]) ++ b1 before.code ++ x.quality
    ++ x.band ++ b2 x.level ++ b2 g.effTrip ++ rsv 2

/-- A pump at the seizure: off without `min_run`, no try counted, its request discarded; orders the seizure ends are
ABORTED GUARD (R25, R46). A MANUAL or held pump that only waits keeps its request (log 23). -/
def State.seizePump (n : Fin 4) (s : State) : State :=
  let p := s.pump n
  if decide (p.mode = .starting ∨ p.mode = .running) then
    ((s.completeOrder .startPump n.val .aborted .guard []).completeOrder .stopPump n.val .aborted .guard []).pumpDrop n
  else if p.owner.isPlan then s.pumpDrop n
  else s

/-- The seizure of the inlet (R25, steps 1 to 4). -/
def State.seize (s : State) : State :=
  let s1 := (overAll four State.seizePump s).completeOrder .openInlet 0 .aborted .guard []
  let s2 := s1.modInlet fun v => { v with owner := .guard, releasing := false, leaving := false }
  s2.closeNow.post .inletSeized

/-- Entry to TRIPPED from CLEAR or WATCH (R23, R25). -/
def State.enterTrip (cs : List Cause) (t : Time) (ref : Option OrderRef) (x : Seen) (s : State) : State :=
  let before := s.guard.mode
  let s1 := s.seize.modGuard fun g => { g with
    mode := .tripped, causes := cs, first := cs.head?, tripTime := some t, tripSecs := 0, release := none }
  (s1.make .guardTrip t ref (tripBody s1.guard before false x)).settle

/-- The body of GUARD_CLEAR (Table 11-6); way 0 AUTO, 1 RESET_GUARD. -/
def clearBody (g : GuardState) (way : Nat) (x : Seen) : List Byte :=
  b1 way ++ b1 (causeSet g.causes) ++ b1o (g.first.map Cause.code) ++ x.quality ++ b2 x.level ++ rsv 2 ++ bto g.tripTime
    ++ b4 g.tripSecs

/-- The end of the seizure (R30, R32): the guard is CLEAR, the inlet's owner NONE, or HOLD under an ESTABLISHED hold; it leaves no
owner (R25 took its marks with it). -/
def State.clearGuard (way : Nat) (t : Time) (ref : Option OrderRef) (x : Seen) (s : State) : State :=
  let body := clearBody s.guard way x
  let held := s.heldEstablished .inlet
  let s1 := s.modInlet fun v => { v with owner := if held then .hold else .none, releasing := false, leaving := false }
  let s2 := (if held then s1 else s1.clearPauses .hostClose).post .inletFree
  let s3 := s2.modGuard fun g => { g with
    mode := .clear, causes := [], first := none, tripTime := none, release := none }
  (s3.make .guardClear t ref body).settle

/-- The release conditions (R29). -/
def releaseMet (t : Settings) (j : Judgement) : Bool :=
  decide (j.quality ≠ .none) && (!numericQuality j.quality || decide (j.level < t.releaseLevel))
    && (!decide (j.quality = .floatsOnly) || !j.floats.high) && !j.floats.top && !j.floats.opf

/-- The release count after a judgement (R29). -/
def releaseAfter (t : Settings) (j : Judgement) (r : Option Nat) : Option Nat :=
  if releaseMet t j then some (match r with
    | none => 0
    | some k => k + j.period)
  else none

/-- A judgement that finds the guard CLEAR or WATCH (R23, R24). -/
def State.judgeOpen (cs : List Cause) (j : Judgement) (s : State) : State :=
  match cs with
  | [] =>
    let m := if numericQuality j.quality && decide (s.guard.effWarn ≤ j.level) then .watch else .clear
    (s.modGuard fun g => { g with mode := m }).settle
  | _ :: _ => s.enterTrip cs j.time none (seenIn j)

/-- A judgement that finds the guard TRIPPED (R27, R29, R30). -/
def State.judgeTripped (j : Judgement) (s : State) : State :=
  let r := releaseAfter s.set j s.guard.release
  let s1 := s.modGuard fun g => { g with tripSecs := g.tripSecs + j.period, release := r }
  match r with
  | none => s1
  | some k =>
    if k < s.set.releaseDelay then s1
    else if s.set.releaseAck || s.guard.causes.contains .test then s1.modGuard fun g => { g with mode := .held, release := none }
    else s1.clearGuard 0 j.time none (seenIn j)

/-- A judgement that finds the guard HELD (R31). -/
def State.judgeHeld (cs : List Cause) (j : Judgement) (s : State) : State :=
  let s1 := s.modGuard fun g => { g with tripSecs := g.tripSecs + j.period }
  match cs with
  | [] => s1
  | _ :: _ =>
    let s2 := s1.modGuard fun g => { g with
      mode := .tripped, causes := allCauses.filter (fun c => g.causes.contains c || cs.contains c), release := none }
    s2.make .guardTrip j.time none (tripBody s2.guard .held true (seenIn j))

/-- The body of OVERFLOW (Table 11-6). -/
def overflowBody (mark : Nat) (m : GuardMode) (j : Judgement) (start : Time) (secs : Nat) : List Byte :=
  b1 mark ++ b1 j.quality.code ++ b1 m.code ++ rsv 1 ++ b2 j.level ++ rsv 2 ++ bt start ++ b4 secs

/-- The overflow episode at a judgement (R34). Both records carry the quality, guard state and level of their own judgement,
which Table 2-4 does not say of the end (log 43). -/
def State.episode (j : Judgement) (s : State) : State :=
  match j.floats.opf, s.guard.episode with
  | true, none =>
    (s.modGuard fun g => { g with episode := some ⟨j.time, 0⟩ }).make .overflow j.time none
      (overflowBody 0 s.guard.mode j j.time 0)
  | true, some e => s.modGuard fun g => { g with episode := some ⟨e.start, e.elapsed + j.period⟩ }
  | false, some e =>
    (s.modGuard fun g => { g with episode := none }).make .overflow j.time none
      (overflowBody 1 s.guard.mode j e.start e.elapsed)
  | false, none => s

/-- The guard takes a judgement (R22 to R34). -/
def State.guardJudges (j : Judgement) (s : State) : State :=
  let n := s.guard.confirmAfter s.set j
  let s1 := s.modGuard fun g => { g with confirm := n }
  let cs := causesAt s.set n j
  (match s.guard.mode with
  | .clear => s1.judgeOpen cs j
  | .watch => s1.judgeOpen cs j
  | .tripped => s1.judgeTripped j
  | .held => s1.judgeHeld cs j).episode j

/-- GUARD_JUDGEMENT (R23). -/
def State.guardJudgementRow (j : Judgement) (s : State) : State := s.taking (.guardJudgement j) (·.guardJudges j)

/-- The guard recloses an inlet that it holds and that is neither CLOSED nor on its way (R27). -/
def State.guardRecloses (s : State) : State :=
  if s.guard.mode.seizes && decide (s.act.inlet.mode ≠ .closed) then s.closeNow else s

/-- GUARD_TRAVEL_END (R27). -/
def State.guardTravelEndRow (s : State) : State := s.taking .guardTravelEnd fun s => s.guardRecloses.settle

/-- A GUARD_TEST reaches the guard (R33). -/
def State.guardTests (ref : OrderRef) (s : State) : State :=
  if s.guard.mode.seizes then
    s.modGuard fun g => { g with causes := allCauses.filter fun c => g.causes.contains c || decide (c = .test) }
  else s.enterTrip [.test] s.now (some ref) s.seenLast

/-- The guard takes new settings (R36). -/
def State.guardAdopt (s : State) : State := s.modGuard fun g => g.withLevels s.set

end Sys2Proof.Machine
end

