-- ==== Sys2Proof/Machine/Frost.lean ====
section
/-! DEFINITION. The frost unit (06): the frost state, heater zones, stagnation and the turnover request. -/

namespace Sys2Proof.Machine

/-- The frost state after a valid air temperature `a` (Table 6-2a). -/
def frostMove (t : Settings) (f : FrostState) (a : Int) : FrostState :=
  if a ≤ t.hardThreshold then .hard
  else if a ≤ t.frostThreshold then
    match f with
    | .none => .frost
    | .frost => .frost
    | .hard => if t.hardThreshold + t.frostHysteresis ≤ a then .frost else .hard
  else
    match f with
    | .none => .none
    | .frost => if t.frostThreshold + t.frostHysteresis ≤ a then .none else .frost
    | .hard => .frost

/-- The frost state after a judgement (R107). -/
def frostAfter (t : Settings) (f : FrostState) (air : Temp) : FrostState :=
  if air.valid then frostMove t f air.value else .frost

/-- A zone's record. -/
def State.zone (s : State) (h : Fin 4) : Zone := s.frost.zones[h.val]'h.isLt

/-- A zone's record changed. -/
def State.setZone (h : Fin 4) (z : Zone) (s : State) : State :=
  { s with frost := { s.frost with zones := s.frost.zones.set h.val z h.isLt } }

/-- The states whose entry and leaving make a ZONE record (R114). -/
def ZoneState.noted (z : ZoneState) : Bool := decide (z = .heating ∨ z = .duty ∨ z = .zoneFault)

/-- The body of ZONE (Table 11-6). -/
def zoneBody (h : Fin 4) (before after : ZoneState) (z : Zone) (f : FrostState) (m : HeaterMode) : List Byte :=
  b1 h.val ++ b1 before.code ++ b1 after.code ++ b1 (bits [z.temp.valid, z.urgent]) ++ b1 f.code ++ b1 m.code
    ++ bs2 z.temp.value

/-- A zone takes a new record at an event of time `t`; a change into or out of a noted state is recorded (R114). -/
def State.moveZone (h : Fin 4) (z : Zone) (t : Time) (s : State) : State :=
  let before := (s.zone h).state
  let s1 := s.setZone h z
  if decide (before ≠ z.state) && (before.noted || z.state.noted) then
    s1.make .zone t none (zoneBody h before z.state z s1.frost.state (s1.heater h).mode)
  else s1

/-- The want that follows a zone's state (R109). -/
def ZoneState.wants (z : ZoneState) : Bool := decide (z = .want ∨ z = .heating ∨ z = .shed)

/-- The urgent flag under a valid temperature (R110). -/
def urgentAt (c : ZoneSet) (was : Bool) (t : Int) : Bool :=
  if t ≤ c.hardTemp then true else if c.hardTemp + 10 ≤ t then false else was

/-- A zone's move under a valid temperature, `on` saying whether its heater is ON (Table 6-5, R112). -/
def zoneMove (c : ZoneSet) (z : ZoneState) (on : Bool) (t : Int) : ZoneState :=
  if c.offTemp ≤ t then .idle
  else if t ≤ c.onTemp then
    match z with
    | .idle => .want
    | .want => .want
    | .heating => .heating
    | .shed => .shed
    | .duty => if on then .heating else .want
    | .zoneFault => .zoneFault
    | .disabled => .disabled
  else
    match z with
    | .idle => .idle
    | .want => .want
    | .heating => .heating
    | .shed => .shed
    | .duty => if on then .heating else .idle
    | .zoneFault => .zoneFault
    | .disabled => .disabled

/-- A zone in DUTY at a judgement: the want is tested before the count advances (R112). -/
def dutyStep (c : ZoneSet) (count : Nat) (hard : Bool) (period : Nat) (temp : Temp) : Zone :=
  let n := count + period
  ⟨.duty, hard, decide (count < c.failDuty * 60), if Config.dutyCycle ≤ n then n - Config.dutyCycle else n, temp⟩

/-- A zone's record after a judgement (R109, R110, R112, R113). Outside DUTY the duty count has no meaning: it is 0 after a valid
temperature ends DUTY, and kept in ZONE_FAULT and DISABLED (log 49). -/
def zoneAfter (c : ZoneSet) (z : Zone) (on hard : Bool) (period : Nat) (temp : Temp) : Zone :=
  match z.state with
  | .zoneFault => { z with temp := temp, want := false }
  | .disabled => { z with temp := temp, want := false }
  | .duty =>
    if temp.valid then
      let st := zoneMove c .duty on temp.value
      ⟨st, urgentAt c z.urgent temp.value, st.wants, 0, temp⟩
    else dutyStep c z.duty hard period temp
  | st0 =>
    if temp.valid then
      let st := zoneMove c st0 on temp.value
      ⟨st, urgentAt c z.urgent temp.value, st.wants, z.duty, temp⟩
    else dutyStep c 0 hard period temp

/-- The level the frost unit gives with a request (06, 6.3). -/
def zoneLevel (c : ZoneSet) (urgent : Bool) : Nat := if urgent then 6 else c.level

/-- The level a zone gives now is passed on for a heater whose request is START, where the urgent flag is no longer `was` (R110). -/
def State.passLevel (h : Fin 4) (was : Bool) (s : State) : State :=
  let z := s.zone h
  let p := s.heater h
  let level := zoneLevel (s.zoneSet h) z.urgent
  if decide (p.request = .start ∧ z.urgent ≠ was) then
    let s1 := s.setHeater h { p with level := level, urgent := z.urgent }
    if decide (p.claim = .none) then s1 else s1.post (.relevel (.heater h) level z.urgent)
  else s

/-- A heater's request is brought into line with its zone (R109, R110); `was` is the urgent flag before the judgement. -/
def State.alignHeater (h : Fin 4) (was : Bool) (s : State) : State :=
  let z := s.zone h
  let p := s.heater h
  if decide (z.state = .zoneFault ∨ z.state = .disabled) then s
  else if z.want && decide (p.request ≠ .start) then
    s.post (.heaterStartRequest h (zoneLevel (s.zoneSet h) z.urgent) z.urgent)
  else if !z.want && decide (p.request = .start) then (s.passLevel h was).post (.heaterStopRequest h)
  else s.passLevel h was

/-- The body of FROST (Table 11-6). -/
def frostBody (before after : FrostState) (noAir : Bool) (air : Temp) : List Byte :=
  b1 before.code ++ b1 after.code ++ bb noAir ++ bb air.valid ++ bs2 air.value ++ rsv 2

/-- The frost state is judged, and passed on when it changes or is the first (R107, R108). -/
def State.judgeFrost (j : Judgement) (s : State) : State :=
  let before := s.frost.state
  let f := frostAfter s.set before j.air
  let s1 := { s with frost := { s.frost with state := f, noAir := !j.air.valid, first := false } }
  let s2 := if decide (f ≠ before) || s.frost.first then s1.post (.frostStateChange f) else s1
  if decide (f ≠ before) then s2.make .frost j.time none (frostBody before f (!j.air.valid) j.air) else s2

/-- The four zones are evaluated, then the requests of their heaters are aligned (R109 to R112). -/
def State.judgeZones (j : Judgement) (s : State) : State :=
  let hard := decide (s.frost.state = .hard)
  let s1 := overAll four (fun h s =>
    s.moveZone h (zoneAfter (s.zoneSet h) (s.zone h) (decide ((s.heater h).mode = .on)) hard j.period
      (j.zones[h.val]'h.isLt)) j.time) s
  overAll four (fun h x => x.alignHeater h (s.zone h).urgent) s1

/-- The stagnation timer and the turnover request (R115, R116). -/
def State.judgeStagnation (j : Judgement) (s : State) : State :=
  let runs := four.any fun n => (s.pumpSet n).fitted && (s.pump n).feedback
  let n := if runs then 0 else min Config.stagnationMax (s.frost.stagnation + j.period)
  let s1 := { s with frost := { s.frost with stagnation := n } }
  if decide (s.frost.state ≠ .none) && j.water.valid && decide (j.water.value ≤ s.set.turnoverTemp)
      && decide (s.set.stagnationLimit * 3600 ≤ n) then
    s1.post .turnoverRequest
  else s1

/-- The frost unit takes a judgement, in the order of R106. -/
def State.frostJudges (j : Judgement) (s : State) : State := ((s.judgeFrost j).judgeZones j).judgeStagnation j

/-- FROST_JUDGEMENT (R106). -/
def State.frostJudgementRow (j : Judgement) (s : State) : State := s.taking (.frostJudgement j) (·.frostJudges j)

/-- A zone's state after a notice about its heater (R111, R113). -/
def zoneNotice (fitted : Bool) (k : Notice) (z : ZoneState) : ZoneState :=
  match k, z with
  | .on, .want => .heating
  | .on, .shed => .heating
  | .failedTry, .heating => .want
  | .recalled, .heating => .shed
  | .recalled, .want => .shed
  | .failed, .disabled => .disabled
  | .failed, _ => .zoneFault
  | .held, _ => .disabled
  | .usable, .zoneFault => .idle
  | .usable, .disabled => if fitted then .idle else .disabled
  | .mainsLoss, .heating => .want
  | .mainsLoss, .shed => .want
  | _, z => z

/-- HEATER_NOTICE (R111). -/
def State.heaterNoticeRow (h : Fin 4) (k : Notice) (s : State) : State :=
  s.taking (.heaterNotice h k) fun s =>
    let z := s.zone h
    let st := zoneNotice (s.zoneSet h).fitted k z.state
    if st = z.state then s
    else s.moveZone h { z with state := st, want := if st = .duty then z.want else st.wants } s.now

/-- TURNOVER_CREATED (R115). -/
def State.turnoverCreatedRow (s : State) : State :=
  s.taking .turnoverCreated fun s => { s with frost := { s.frost with stagnation := 0 } }

/-- The frost unit takes new settings: `old` are those before (R118). -/
def State.frostAdopt (old : Settings) (s : State) : State :=
  overAll four (fun h s =>
    let was := (old.zones[h.val]'h.isLt).fitted
    let c := s.zoneSet h
    let z := s.zone h
    let s1 := s.modHeater h fun p => { p with level := zoneLevel c p.urgent }
    if was && !c.fitted then s1.moveZone h { z with state := .disabled, want := false, urgent := false } s.now
    else if !was && c.fitted then s1.moveZone h { z with state := .idle, want := false, urgent := false } s.now
    else s1) s

end Sys2Proof.Machine
end

