-- ==== Sys2Proof/Machine/Calendar.lean ====
section
/-! DEFINITION. The calendar (04, 4.1 to 4.3): the clock, the tariff evaluation, window events, SET_CLOCK and rollover. -/

namespace Sys2Proof.Machine

/-- The day number of a tower time (R65). -/
def dayOf (t : Time) : Int := t / Config.daySeconds
/-- The minute of the day (R65). -/
def minuteOf (t : Time) : Nat := (t % Config.daySeconds / 60).toNat
/-- The hour of the day (01, 1.8). -/
def hourOf (t : Time) : Fin 24 := Fin.ofNat 24 (t % Config.daySeconds / 3600).toNat
/-- The weekday of a day number, Monday 0 (R65). -/
def weekdayOf (d : Int) : Fin 7 := Fin.ofNat 7 ((d + 5) % 7).toNat

/-- Whether a slot covers a minute counted from the midnight of its day (R68). -/
def Slot.covers (w : Slot) (m : Nat) : Bool := decide (0 < w.length ∧ w.start ≤ m ∧ m < w.start + w.length)

/-- A slot of day `d` as a window (4.3). -/
def Slot.window (w : Slot) (cheap : Bool) (d : Int) (k : Nat) : Window :=
  ⟨cheap, ⟨d, k⟩, d * Config.daySeconds + ((w.start + w.length) * 60 : Nat)⟩

/-- The window of day `d` that covers minute `m` of that day. -/
def windowOfDay (t : Settings) (d : Int) (m : Nat) : Option Window :=
  let day := t.tariff[(weekdayOf d).val]'(weekdayOf d).isLt
  let cheap := (day.cheap.toList.zipIdx 1).filterMap fun x => if x.1.covers m then some (x.1.window true d x.2) else none
  let peak := (day.peak.toList.zipIdx 1).filterMap fun x => if x.1.covers m then some (x.1.window false d x.2) else none
  (cheap ++ peak).head?

/-- The window in force at a tower time: of that day, or a spill of the day before (R68); the day before day 0 is day -1
(log 58). -/
def windowAt (t : Settings) (x : Time) : Option Window :=
  match windowOfDay t (dayOf x) (minuteOf x) with
  | some w => some w
  | none => windowOfDay t (dayOf x - 1) (minuteOf x + 1440)

/-- The band of a window in force (R69). -/
def bandOf : Option Window → Tariff
  | none => .standard
  | some w => if w.cheap then .cheap else .peak

/-- The mask of a band (R69). -/
def maskOf (t : Settings) : Tariff → Nat
  | .cheap => t.cheapMask
  | .standard => t.standardMask
  | .peak => t.peakMask

/-- Whether two windows in force are the same cheap window (R70). -/
def sameCheap (a b : Option Window) : Bool :=
  match a, b with
  | some x, some y => x.cheap && y.cheap && decide (x.ident = y.ident)
  | _, _ => false

/-- The tariff evaluation (R70). -/
def State.evaluate (s : State) : State :=
  let w := if s.cal.set then windowAt s.set s.now else none
  let ends : List Instr := match s.cal.window with
    | some o => if o.cheap && !sameCheap (some o) w then [.cheapEnd o.ident] else []
    | none => []
  let begins := match w with
    | some n => n.cheap && decide (s.cal.lastBegun ≠ some n.ident)
    | none => false
  let starts : List Instr := match w with
    | some n => if begins then [.cheapStart n.ident n.endTime] else []
    | none => []
  let band := bandOf w
  let masks : List Instr := if s.cal.band = some band then [] else [.maskChange (maskOf s.set band)]
  { s with cal := { s.cal with
      band := some band
      window := w
      lastBegun := if begins then w.map Window.ident else s.cal.lastBegun } }.posts (ends ++ starts ++ masks)

/-- TARIFF_EVALUATION (R70): at a minute boundary of the clock, from the time the settings are loaded. -/
def State.tariffEvaluationRow (s : State) : State :=
  s.taking .tariffEvaluation fun s => if s.sys.started && decide (s.now % 60 = 0) then s.evaluate else s

/-- The mask of the band held; there is none while no band is (R69, R72). -/
def State.bandMask (t : Settings) (s : State) : List Nat := (s.cal.band.map (maskOf t)).toList

/-- The first evaluation of a start-up: the mask is passed whatever the band (R72, R82). -/
def State.firstEvaluation (s : State) : State :=
  let s1 := s.evaluate
  if s1.cal.band = s.cal.band then s1.posts ((s1.bandMask s1.set).map .maskChange) else s1

/-- The evaluation after an adoption, `old` being the settings before: within a band, a mask whose setting has changed, or that
differs from the one the arbiter holds, is passed (R69, R71). -/
def State.calAdopt (old : Settings) (s : State) : State :=
  let s1 := s.evaluate
  let due := (s1.bandMask s1.set).filter fun m => decide (m ≠ s1.arb.mask) || decide (s1.bandMask old ≠ [m])
  if s1.cal.band = s.cal.band then s1.posts (due.map .maskChange) else s1

/-- The body of CLOCK (Table 11-6); mark 0 SET, 1 ROLLOVER. -/
def clockBody (old new : Time) (wasSet : Bool) (mark : Nat) : List Byte := bt old ++ bt new ++ bb wasSet ++ b1 mark ++ rsv 2

/-- CLOCK_ROLLOVER (R65): the plans end RESET (R101), the clock is 0 and UNSET, and the tariff is evaluated. -/
def State.clockRolloverRow (s : State) : State :=
  s.taking .clockRollover fun s =>
    if s.cal.count = Config.lastSecond then
      let s1 := { s with cal := { s.cal with count := 0, set := false } }
      let s2 := s1.make .clock s1.now none (clockBody s.now 0 s.cal.set 1)
      let s3 := overAll (s2.planList.filter Plan.live) (fun p s => s.finishPlan p.number .reset s.now none) s2
      s3.contest.evaluate
    else s

/-! ## SET_CLOCK (R66, R67) -/

/-- A time moved with the clock. -/
def shift (d : Int) (t : Option Time) : Option Time := t.map (· + d)

/-- The timers of a pump moved. -/
def Pump.shifted (d : Int) (p : Pump) : Pump :=
  { p with
    tryDl := shift d p.tryDl, retryDl := shift d p.retryDl, stopDl := shift d p.stopDl, offEnd := shift d p.offEnd
    runSince := shift d p.runSince, offSince := shift d p.offSince }

/-- The timers of a heater moved. -/
def Heater.shifted (d : Int) (p : Heater) : Heater :=
  { p with
    tryDl := shift d p.tryDl, retryDl := shift d p.retryDl, stuckDl := shift d p.stuckDl
    runSince := shift d p.runSince, offSince := shift d p.offSince }

/-- The waits in progress are moved with the clock (R67). -/
def State.moveWaits (d : Int) (s : State) : State :=
  { s with
    act := { s.act with
      pumps := s.act.pumps.map (Pump.shifted d)
      heaters := s.act.heaters.map (Heater.shifted d)
      inlet := { s.act.inlet with travelDl := shift d s.act.inlet.travelDl }
      holds := s.act.holds.map fun h => { h with deadline := h.deadline + d } }
    eng := { s.eng with
      inflight := s.eng.inflight.map fun e => { e with entry := e.entry + d }
      serviceEnd := shift d s.eng.serviceEnd }
    jrn := { s.jrn with opened := s.jrn.opened.map fun o => { o with ageStart := shift d o.ageStart } }
    sys := { s.sys with stagger := shift d s.sys.stagger } }

/-- The clock is set, steps 1 to 4 of R66. The waits in progress are moved before the CLOCK record is placed, since what the
record itself begins, a page's age, begins under the new time (R67, R159). The survey unit seeks the next aligned boundary from
the new time on, so the jump ends no report interval (R16, log 27). -/
def State.clockSet (t : Time) (ref : OrderRef) (s : State) : State :=
  let old := s.now
  let s1 := ({ s with
    cal := { s.cal with count := t, set := true }
    survey := { s.survey with reportFrom := t } }).moveWaits (t - old)
  (s1.make .clock t (some ref) (clockBody old t s.cal.set 0)).post (.clockSetReport old t)

end Sys2Proof.Machine
end

