-- ==== Sys2Proof/Machine/Survey.lean ====
section
/-! DEFINITION. The survey unit (01): channels, floats, the judgement, volume, draw and level telemetry. -/

namespace Sys2Proof.Machine

/-! ## Channels (R2 to R4) -/

/-- Whether a raw code is in range (R2). -/
def inRange (c : BitVec 12) : Bool := decide (400 ≤ c.toNat ∧ c.toNat ≤ 3900)

/-- A quotient rounded to the nearest whole, halves away from zero (R2). -/
def roundDiv (n d : Int) : Int :=
  let n' := if d < 0 then -n else n
  let d' := if d < 0 then -d else d
  if 0 ≤ n' then (2 * n' + d') / (2 * d') else -((-2 * n' + d') / (2 * d'))

/-- A value held within bounds. -/
def clamp (lo hi x : Int) : Int := if x < lo then lo else if hi < x then hi else x

/-- The scaled value of an in-range code on channel `k` (R2). -/
def scaled (k : Nat) (c : Cal) (code : BitVec 12) : Int :=
  let d : Int := (c.code2 : Int) - c.code1
  let v := roundDiv (c.value1 * d + ((code.toNat : Int) - c.code1) * (c.value2 - c.value1)) d
  if k < 2 then clamp 0 40000 v else clamp (-400) 600 v

/-- A channel after a reading (R3, Table 1-2). -/
def Channel.next (k : Nat) (c : Cal) (code : BitVec 12) (x : Channel) : Channel :=
  if inRange code then
    if x.failed then
      if x.bad ≤ 1 then ⟨false, 0, some (scaled k c code)⟩ else ⟨true, x.bad - 1, some (scaled k c code)⟩
    else ⟨false, 0, some (scaled k c code)⟩
  else if x.failed then ⟨true, 3, x.held⟩
  else if 2 ≤ x.bad then ⟨true, 3, x.held⟩
  else ⟨false, x.bad + 1, x.held⟩

/-- The value a channel contributes (R3). -/
def Channel.contributes (x : Channel) : Option Int := if x.failed then none else x.held

/-- A contributed value as a temperature (R4). -/
def tempOf : Option Int → Temp
  | none => ⟨0, false⟩
  | some v => ⟨v, true⟩

/-! ## Floats (R5, R6) -/

/-- One debounced input (R5). -/
def debounce (deb prev now : Bool) : Bool := if now ≠ deb ∧ now = prev then now else deb

/-- The debounced states after a survey (R5). -/
def debounced (deb : Floats) (prev : Option Floats) (x : Floats) : Floats :=
  match prev with
  | none => x
  | some p => ⟨debounce deb.low p.low x.low, debounce deb.high p.high x.high, debounce deb.top p.top x.top,
      debounce deb.opf p.opf x.opf⟩

/-- Whether the floats are consistent (R6). -/
def Floats.consistent (f : Floats) : Bool := (!f.top || f.high) && (!f.high || f.low)

/-- Whether a transducer value is plausible (R6). -/
def plausible (t : Settings) (f : Floats) (v : Int) : Bool :=
  let wet (h : Nat) : Bool := decide ((h : Int) - t.floatBand ≤ v)
  Floats.consistent f && (f.low == wet t.floatLow) && (f.high == wet t.floatHigh) && (f.top == wet t.floatTop)

/-! ## The vote, the band and the volume (R7, R8, R11) -/

/-- The outcome of the vote: quality, the two flags, the level used. -/
structure Vote where
  quality : Quality
  disagree : Bool
  floatFault : Bool
  level : Nat

/-- The transducer vote (R7, Table 1-3). -/
def vote (t : Settings) (f : Floats) (a b : Option Int) : Vote :=
  let ok := Floats.consistent f
  let lone (v : Int) : Vote :=
    if !ok then ⟨.none, false, false, 0⟩
    else if plausible t f v then ⟨.single, false, false, v.toNat⟩ else ⟨.floatsOnly, false, false, 0⟩
  match a, b with
  | some x, some y =>
    if (x - y).natAbs ≤ t.abTolerance then ⟨.good, false, !ok, ((x + y) / 2).toNat⟩
    else if !ok then ⟨.none, true, false, 0⟩
    else
      match plausible t f x, plausible t f y with
      | true, false => ⟨.single, true, false, x.toNat⟩
      | false, true => ⟨.single, true, false, y.toNat⟩
      | true, true => ⟨.floatsOnly, true, false, 0⟩
      | false, false => ⟨.floatsOnly, true, false, 0⟩
  | some x, none => lone x
  | none, some y => lone y
  | none, none => if ok then ⟨.floatsOnly, false, false, 0⟩ else ⟨.none, false, false, 0⟩

/-- The band of a numeric level (R8). -/
def bandOfLevel (t : Settings) (l : Nat) : Band :=
  if l < t.floatLow then .belowLow
  else if l < t.floatHigh then .lowToHigh
  else if l < t.floatTop then .highToTop
  else .aboveTop

/-- The band of the highest wet float (R8). -/
def bandOfFloats (f : Floats) : Band :=
  if f.top then .aboveTop else if f.high then .highToTop else if f.low then .lowToHigh else .belowLow

/-- The lower edge of a band (R8). -/
def lowerEdge (t : Settings) : Band → Nat
  | .belowLow => 0
  | .lowToHigh => t.floatLow
  | .highToTop => t.floatHigh
  | .aboveTop => t.floatTop

/-- The band of a judgement (R8). -/
def Vote.band (t : Settings) (f : Floats) (v : Vote) : Band :=
  if numericQuality v.quality then bandOfLevel t v.level else bandOfFloats f

/-- The level field of a judgement (R8). -/
def Vote.field (t : Settings) (f : Floats) (v : Vote) : Nat :=
  match v.quality with
  | .good => v.level
  | .single => v.level
  | .floatsOnly => lowerEdge t (bandOfFloats f)
  | .none => Config.noLevel

/-- The inflow rate (R12). -/
def State.inflow (s : State) : Nat :=
  (four.map fun n => if (s.pumpSet n).fitted && (s.pump n).feedback then (s.pumpSet n).flow else 0).sum

/-! ## Draw (R13, R14) -/

/-- The draws of the qualified minutes of a minute list, oldest first; a minute not qualified gives none (R13). -/
def minuteDraws : List MinuteSample → List (Option Nat)
  | [] => []
  | [_] => []
  | a :: b :: l =>
    (if numericQuality a.quality && numericQuality b.quality then
      some ((b.inflow : Int) - ((b.volume : Int) - a.volume)).toNat
    else none) :: minuteDraws (b :: l)

/-- A minute sample is taken and the draw rate recomputed (R13). -/
def SurveyState.minute (x : SurveyState) (volume : Nat) (q : Quality) : SurveyState :=
  let l := x.minutes ++ [⟨volume, q, x.minAcc / 60⟩]
  let l' := l.drop (l.length - 6)
  let ds := (minuteDraws l').filterMap id
  { x with
    minutes := l'
    minAcc := x.minAcc % 60
    draw := if 3 ≤ ds.length then ds.sum / ds.length else 0
    drawValid := decide (3 ≤ ds.length) }

/-- The draw of the minute just ended, when it is qualified (R13). -/
def SurveyState.lastDraw (x : SurveyState) : Option Nat := ((minuteDraws x.minutes).getLast?).join

/-- A draw added to an hour accumulator (R14, step 3). -/
def HourAcc.add (a : HourAcc) (d : Option Nat) : HourAcc :=
  match d with
  | none => a
  | some v => if a.count < 60 then ⟨a.hour, a.sum + v, a.count + 1⟩ else a

/-- The entry an ended hour leaves (R14, step 1). -/
def HourAcc.entry (a : HourAcc) : HourEntry := ⟨a.sum / a.count, a.count, decide (30 ≤ a.count)⟩

/-- The hour accumulator at a minute boundary with the clock SET (R14). -/
def SurveyState.hourly (x : SurveyState) (hour : Fin 24) : SurveyState :=
  match x.hourAcc with
  | none => { x with hourAcc := some ((HourAcc.mk hour.val 0 0).add x.lastDraw) }
  | some a =>
    if a.hour = hour.val then { x with hourAcc := some (a.add x.lastDraw) }
    else { x with
      hours := x.hours.setIfInBounds a.hour a.entry
      hourAcc := some ((HourAcc.mk hour.val 0 0).add x.lastDraw) }

/-! ## Telemetry (R16 to R18) -/

/-- The last aligned boundary at or before a time (R16). -/
def lastAligned (t : Settings) (x : Time) : Time :=
  dayOf x * Config.daySeconds + ((minuteOf x / t.reportInterval * t.reportInterval * 60 : Nat) : Int)

/-- The worse of two qualities. -/
def worse (a b : Quality) : Quality := if a.code < b.code then b else a

/-- A report interval that begins (R16). -/
def Interval.begin (start : Time) (volume : Nat) : Interval := ⟨start, 65535, 0, 0, 0, .good, volume, 0⟩

/-- A report interval with one more survey (R16). -/
def Interval.add (i : Interval) (j : Judgement) (minute : Bool) : Interval :=
  let n := numericQuality j.quality
  { i with
    least := if n then min i.least j.level else i.least
    most := if n then max i.most j.level else i.most
    sum := if n then i.sum + j.level else i.sum
    count := if n then i.count + 1 else i.count
    worst := worse i.worst j.quality
    minutes := if minute then i.minutes + 1 else i.minutes }

/-- The body of LEVEL_FRAME (R17, Table 11-6). -/
def frameBody (i : Interval) (endVolume inflow : Nat) : List Byte :=
  let none? := decide (i.count = 0)
  bt i.start ++ b2 (if none? then 65535 else i.least) ++ b2 (if none? then 65535 else i.most)
    ++ b2 (if none? then 65535 else i.sum / i.count) ++ b2 i.count ++ b1 i.worst.code ++ rsv 3 ++ b4 i.startVolume
    ++ b4 endVolume ++ b4 inflow ++ b4 ((inflow : Int) - ((endVolume : Int) - i.startVolume)).toNat

/-- Changes the survey unit's state. -/
def State.modSurvey (f : SurveyState → SurveyState) (s : State) : State := { s with survey := f s.survey }

/-- Whether the report interval ends at a survey of time `t` (R16). -/
def State.intervalEnds (s : State) (i : Interval) (minute : Bool) (t : Time) : Bool :=
  if s.cal.set then decide (s.survey.reportFrom < lastAligned s.set t)
  else minute && decide (s.set.reportInterval ≤ i.minutes)

/-- The report interval at a survey (R16, R17). The first one begins with no remainder to keep, so the inflow of its first survey
is not in it (log 27). -/
def State.reportStep (j : Judgement) (s : State) : State :=
  match s.survey.report with
  | none => s.modSurvey fun x => { x with report := some (Interval.begin j.time j.volume), reportFrom := j.time, startVolDue := false, intAcc := 0 }
  | some i0 =>
    let i1 := if s.survey.startVolDue then { i0 with startVolume := j.volume } else i0
    let i := i1.add j j.minute
    let s1 := s.modSurvey fun x => { x with report := some i, startVolDue := false }
    (if s.intervalEnds i j.minute j.time then
      (s1.make .levelFrame j.time none (frameBody i j.volume (s.survey.intAcc / 60))).modSurvey fun x => { x with
        report := some (Interval.begin j.time j.volume)
        intAcc := x.intAcc % 60
        stepRef := if numericQuality j.quality then some j.level else x.stepRef }
    else s1).modSurvey fun x => { x with reportFrom := j.time }

/-- The step check (R18). The spacing count rises before the comparison of its survey, which R18 does not say (log 55). -/
def State.stepCheck (j : Judgement) (s : State) : State :=
  let spacing := min 10 (s.survey.spacing + 1)
  let s1 := s.modSurvey fun x => { x with spacing := spacing }
  if numericQuality j.quality then
    match s.survey.stepRef with
    | none => s1.modSurvey fun x => { x with stepRef := some j.level }
    | some r =>
      if decide (s.set.stepDeadband ≤ ((j.level : Int) - r).natAbs ∧ spacing = 10) then
        (s1.make .levelStep j.time none (b2 j.level ++ b2 r ++ b1 j.quality.code ++ rsv 3)).modSurvey fun x =>
          { x with stepRef := some j.level, spacing := 0 }
      else s1
  else s1

/-! ## The survey (R1) -/

/-- The survey period of the present power state (R1). -/
def State.period (s : State) : Nat :=
  match s.sys.power with
  | .run => 1
  | .dark => 10
  | .start => if s.sys.mains then 1 else 10

/-- The body of QUALITY (R10, Table 11-6). -/
def qualityBody (before : Option Quality) (j : Judgement) : List Byte :=
  b1o (before.map Quality.code) ++ b1 j.quality.code ++ b1 (bits [j.disagree, j.floatFault, j.floats.opf])
    ++ bb (j.chans[0]).failed ++ bb (j.chans[1]).failed ++ rsv 1 ++ b2 j.level

/-- The channels after the conversions of a survey (R3). -/
def State.converted (s : State) (x : Sample) : Vector Channel 8 :=
  Vector.ofFn fun k : Fin 8 => (s.survey.chans[k.val]'k.isLt).next k.val (s.set.cal[k.val]'k.isLt) (x.codes[k.val]'k.isLt)

/-- The judgement of a survey (R4 to R9), before its draw rate is known. -/
def State.judge (s : State) (chans : Vector Channel 8) (deb : Floats) (period : Nat) (minute : Bool) : Judgement :=
  let t := s.set
  let v := vote t deb (chans[0]).contributes (chans[1]).contributes
  let level := v.field t deb
  let value (k : Fin 8) : Temp := tempOf (chans[k.val]'k.isLt).contributes
  { level := level
    band := v.band t deb
    quality := v.quality
    disagree := v.disagree
    floatFault := v.floatFault
    volume := match v.quality with
      | .none => (s.survey.judgement.map Judgement.volume).getD 0
      | .good => volumeAt t.straps level
      | .single => volumeAt t.straps level
      | .floatsOnly => volumeAt t.straps level
    inflow := s.inflow
    draw := s.survey.draw
    drawValid := s.survey.drawValid
    air := value 2
    water := match t.waterChannel with
      | none => ⟨0, false⟩
      | some k => value k
    zones := t.zones.map fun z => if z.fitted then value z.channel else ⟨0, false⟩
    floats := deb
    chans := chans.map fun c => ⟨c.failed, c.bad⟩
    time := s.now
    period := period
    minute := minute }

/-- One survey, all but the delivery of its judgement (R1, steps 1 to 7). The elapsed period is that of the interval in
progress (log 11). -/
def State.doSurvey (x : Sample) (s : State) : State :=
  let period := s.survey.interval.getD s.period
  let chans := s.converted x
  let deb := debounced s.survey.deb s.survey.prev x.floats
  let secs := s.survey.seconds + period
  let minute := decide (s.survey.seconds / 60 < secs / 60)
  let j0 := s.judge chans deb period minute
  let before := s.survey.judgement.map Judgement.quality
  let s1 := if decide (before = some j0.quality) then s else s.make .quality j0.time none (qualityBody before j0)
  let s2 := s1.modSurvey fun u => { u with
    chans := chans, deb := deb, prev := some x.floats, seconds := secs
    minAcc := u.minAcc + j0.inflow * period, intAcc := u.intAcc + j0.inflow * period }
  let s3 := if minute then s2.modSurvey fun u => u.minute j0.volume j0.quality else s2
  let s4 := if minute && s.cal.set then s3.modSurvey fun u => u.hourly (hourOf s.now) else s3
  let j := { j0 with draw := s4.survey.draw, drawValid := s4.survey.drawValid }
  ((s4.reportStep j).stepCheck j).modSurvey fun u => { u with judgement := some j, interval := some s.period }

/-- The delivery of the judgement to the guard, the plan controller and the frost unit (R1, step 7). -/
def State.deliver (s : State) : State :=
  match s.survey.judgement with
  | none => s
  | some j => s.posts [.guardJudgement j, .planJudgement j, .frostJudgement j]

/-- SURVEY (R1). -/
def State.surveyRow (x : Sample) (s : State) : State := s.alive fun s => (s.doSurvey x).deliver

/-- CLOCK_SET_REPORT (R15): a difference above 300 s clears the hourly draw table and empties the accumulator. -/
def State.clockSetReportRow (old new : Time) (s : State) : State :=
  s.taking (.clockSetReport old new) fun s =>
    if 300 < (new - old).natAbs then
      s.modSurvey fun x => { x with hours := Vector.replicate 24 ⟨0, 0, false⟩, hourAcc := none }
    else s

/-- The survey unit takes new settings: `old` are those before (R19). -/
def State.surveyAdopt (old : Settings) (s : State) : State :=
  if old.straps = s.set.straps then s
  else s.modSurvey fun x => { x with minutes := [], draw := 0, drawValid := false, startVolDue := true }

end Sys2Proof.Machine
end

