-- ==== Sys2Proof/Machine/Plan.lean ====
section
/-! DEFINITION. The plan controller (05): the four kinds of plan, their judgements, re-plans, pauses and orders. -/

namespace Sys2Proof.Machine

/-! ## The night fill's arithmetic (R93, R94) -/

/-- The rate list of plan `n` as flows: its available pumps by fewest run minutes (R93). -/
def State.rates (s : State) (n : Nat) : List Nat :=
  (s.byMinutes (four.filter (s.available n))).map fun k => (s.pumpSet k).flow

/-- The rate at `n` pumps of a rate list (R93). -/
def rateAt (l : List Nat) (n : Nat) : Nat := (l.take n).sum

/-- The draw predicted for a minute that begins at `t` (R93). -/
def State.drawAt (s : State) (t : Time) : Nat :=
  let e := s.survey.hours[(hourOf t).val]'(hourOf t).isLt
  if e.valid then e.mean else s.set.defaultDraw

/-- The minutes left to a deadline, M (R93). -/
def minutesLeft (now : Time) (deadline : Option Time) : Nat :=
  match deadline with
  | none => 0
  | some d => ((d - now) / 60).toNat

/-- The predicted draw over `m` minutes from `now`, D (R93). -/
def State.predicted (s : State) (m : Nat) : Nat :=
  (List.range m).foldl (fun (acc k : Nat) => acc + s.drawAt (s.now + ((60 * k : Nat) : Int))) 0

/-- The volume of the latest judgement, V(now). -/
def State.volumeNow (s : State) : Nat := (s.survey.judgement.map Judgement.volume).getD 0

/-- What R93 computes for a night fill. -/
structure NightPlan where
  needed : Int
  stage : Nat
  latest : Time
  startAt : Time

/-- The computation of R93. -/
def State.computeNight (s : State) (p : Plan) : NightPlan :=
  let m := minutesLeft s.now p.deadline
  let pump := m - s.set.fillMargin
  let needed : Int := (p.targetVolume : Int) - s.volumeNow + s.predicted m
  let l := s.rates p.number
  match (List.range l.length).find? fun k => decide (needed ≤ ((rateAt l (k + 1) * pump : Nat) : Int)) with
  | none => ⟨needed, l.length, s.now, s.now⟩
  | some k =>
    let rate := rateAt l (k + 1)
    let mins := s.set.fillMargin + (needed.toNat + rate - 1) / rate
    let latest := p.deadline.getD s.now - 60 * mins
    ⟨needed, k + 1, latest, max s.now latest⟩

/-- The shortfall test of R94: the stage count after it. -/
def State.shortfall (s : State) (p : Plan) : Nat :=
  let m := minutesLeft s.now p.deadline
  let l := s.rates p.number
  let projected : Int := (s.volumeNow : Int) + (rateAt l p.stage * (m - s.set.fillMargin) : Nat) - s.predicted m
  if projected < p.targetVolume ∧ p.stage < l.length then p.stage + 1 else p.stage

/-- Quality of the latest judgement, NONE when there is none. -/
def State.qualityNow (s : State) : Quality := (s.survey.judgement.map Judgement.quality).getD .none

/-! ## Re-plans (R88, R94) -/

/-- A WAITING night fill with what R93 gave it from a numeric level. -/
def Plan.withNight (p : Plan) (r : NightPlan) : Plan :=
  { p with stage := r.stage, latest := some r.latest, startAt := some r.startAt, floatsComputed := false, early := false }

/-- A night fill that has run is re-planned on a numeric level (R94): computed afresh at the first minute boundary after
FLOATS_ONLY or NONE, else tested for its shortfall. -/
def State.nightOnward (p : Plan) (minute : Bool) (s : State) : State :=
  if !p.floatsComputed then s.modPlan p.number fun x => { x with stage := s.shortfall p }
  else if minute then s.modPlan p.number fun x => { x with stage := (s.computeNight p).stage, floatsComputed := false }
  else s

/-- A night fill is re-planned at an event of time `t`, which may be a minute boundary (R94, R102). -/
def State.replanNight (p : Plan) (t : Time) (minute : Bool) (s : State) : State :=
  let q := s.qualityNow
  match p.state with
  | .waiting =>
    if numericQuality q then
      let r := s.computeNight p
      if r.needed ≤ 0 then s.finishPlan p.number .notNeeded t none else s.modPlan p.number fun p => p.withNight r
    else s
  | .ended => s
  | _ =>
    if numericQuality q then s.nightOnward p minute
    else if q = .floatsOnly then
      s.modPlan p.number fun p => { p with stage := (s.rates p.number).length, floatsComputed := true }
    else s

/-- Whether plan `p` is ACTIVE and holds the inlet. -/
def State.holdsInlet (s : State) (p : Plan) : Bool := decide (p.state = .active ∧ s.act.inlet.owner = .plan p.number)

/-- An ACTIVE plan whose stage count is no longer `before` asks for it (R88). -/
def State.askStage (n before : Nat) (s : State) : State :=
  match s.plan n with
  | none => s
  | some p =>
    if s.holdsInlet p && decide (s.act.inlet.mode = .opened ∧ p.stage ≠ before) then s.post (.stageRequest n p.stage false)
    else s

/-- An ACTIVE plan asks again at a re-plan (R87, R88): OPEN where the inlet has stopped short of it, and its stage count where
it changed from `before` or is not fully engaged. -/
def State.askAgain (n before : Nat) (s : State) : State :=
  match s.plan n with
  | none => s
  | some p =>
    if s.holdsInlet p then
      if decide (s.act.inlet.mode = .stuck ∨ s.act.inlet.mode = .midway ∨ s.act.inlet.mode = .closed) then
        s.post (.inletCommand (.plan n) .opened)
      else if decide (s.act.inlet.mode = .opened) && (decide (p.stage ≠ before) || decide (p.engaged.length < p.stage)) then
        s.post (.stageRequest n p.stage false)
      else s
    else s

/-- One plan is re-planned at an event of time `t`, which may be a minute boundary (R88). -/
def State.replan (n : Nat) (t : Time) (minute : Bool) (s : State) : State :=
  match s.plan n with
  | none => s
  | some p =>
    if p.live then
      (match p.kind with
      | .nightFill => s.replanNight p t minute
      | .dayTopup => s
      | .hostFill => s
      | .turnover => s).askAgain n p.stage
    else s

/-- Every plan is re-planned (R88). -/
def State.replanAll (t : Time) (minute : Bool) (s : State) : State :=
  overAll (s.planList.map Plan.number) (fun n s => s.replan n t minute) s

/-- A day top-up's stage rule at a minute boundary (R97). -/
def State.topupStage (j : Judgement) (s : State) : State :=
  match s.livePlan .dayTopup with
  | none => s
  | some p =>
    let low := match j.quality with
      | .floatsOnly => !j.floats.low
      | .none => false
      | _ => decide (j.level < p.activeLevel.getD 0)
    if decide (p.state = .active ∧ 600 ≤ p.actRun ∧ p.stage < 2) && low then
      (s.modPlan p.number fun p => { p with stage := 2 }).askAgain p.number p.stage
    else s

/-! ## Creation by kind -/

/-- The number a plan ended or not has reached ACTIVE: the end cause of a target reached (R95). -/
def Plan.reached (p : Plan) : EndCause := if p.firstActive.isSome then .targetReached else .notNeeded

/-- A night fill as its window begins (R92, R93, R102); one that needs nothing takes neither stage nor times (R93, step 1). -/
def State.nightPlan (w : WindowId) (endTime : Time) (s : State) : Plan :=
  let base := s.blankPlan .nightFill .calendar (s.plans.override.getD s.set.nightTarget) (some s.now)
  let p := { base with window := some w, deadline := some endTime }
  if numericQuality s.qualityNow then
    if (s.computeNight p).needed ≤ 0 then { p with startAt := none } else p.withNight (s.computeNight p)
  else { p with latest := some s.now, stage := (s.rates p.number).length, floatsComputed := true }

/-- A turnover (R99): WAITING in DRAW. -/
def State.turnoverPlan (o : Origin) (ref : Option OrderRef) (s : State) : Plan :=
  { s.blankPlan .turnover o s.lastLevel none with
    draw := true, startLevel := some s.lastLevel, depth := some s.set.turnoverDepth, ref := ref }

/-- A turnover is created and the frost unit told (R99, R115). -/
def State.createTurnover (o : Origin) (ref : Option OrderRef) (s : State) : State :=
  ((s.addPlan (s.turnoverPlan o ref) s.now).post .turnoverCreated).contest

/-! ## The judgement (R83, R94 to R102) -/

/-- The flow of the pumps a plan owns whose feedback is ON (R83). -/
def State.planFlow (s : State) (n : Nat) : Nat :=
  (four.map fun k => if decide ((s.pump k).owner = .plan n) && (s.pump k).feedback then (s.pumpSet k).flow else 0).sum

/-- The float run-on of a day top-up after a judgement (R102). -/
def Plan.runOnAfter (p : Plan) (j : Judgement) : Option Nat :=
  if numericQuality j.quality then none
  else if j.quality = .floatsOnly ∧ j.floats.low = false then none
  else match p.runOn with
    | some k => some (k + j.period)
    | none => if j.quality = .floatsOnly then some 0 else none

/-- A plan's form and counts after a judgement; `flow` is that of its own pumps (R83, R99, R102). -/
def Plan.counted (p : Plan) (j : Judgement) (flow : Nat) : Plan :=
  if p.live then
    let act := decide (p.state = .active)
    { p with
      floats := !numericQuality j.quality
      volAcc := if act then p.volAcc + flow * j.period else p.volAcc
      runTime := if act then p.runTime + j.period else p.runTime
      actRun := if act then p.actRun + j.period else p.actRun
      drawSecs := if p.draw then p.drawSecs + j.period else p.drawSecs
      runOn := if p.kind = .dayTopup then p.runOnAfter j else p.runOn }
  else p

/-- Whether a plan's target is reached at a judgement (R95, R97, R98, R100, R102). -/
def State.targetMet (s : State) (p : Plan) (j : Judgement) : Bool :=
  match j.quality with
  | .none => false
  | .floatsOnly =>
    match p.kind with
    | .nightFill => j.floats.high
    | .hostFill => j.floats.high
    | .dayTopup =>
      match p.runOn with
      | none => false
      | some k => decide (s.set.topupMinutes * 60 ≤ k)
    | .turnover => !p.draw && (decide (p.startLevel.getD 0 ≤ j.level) || j.floats.high)
  | _ =>
    match p.kind with
    | .nightFill => decide (p.target ≤ j.level)
    | .hostFill => decide (p.target ≤ j.level)
    | .dayTopup => decide (p.target ≤ j.level)
    | .turnover => !p.draw && decide (p.startLevel.getD 0 ≤ j.level)

/-- A plan's ending tests at a judgement: the target, then a host fill's deadline. -/
def State.endTest (j : Judgement) (n : Nat) (s : State) : State :=
  match s.plan n with
  | none => s
  | some p =>
    if p.live then
      if s.targetMet p j then s.finishPlan n p.reached j.time none
      else if decide (p.kind = .hostFill) && (match p.deadline with
          | none => false
          | some d => decide (d ≤ j.time)) then
        s.finishPlan n .deadline j.time none
      else s
    else s

/-- A night fill that has run takes every available pump as FLOATS_ONLY begins (R102). -/
def State.floatStage (j : Judgement) (s : State) : State :=
  match s.livePlan .nightFill with
  | none => s
  | some p =>
    if decide (j.quality = .floatsOnly ∧ p.state ≠ .waiting) && !p.floatsComputed then
      (s.modPlan p.number fun x => { x with stage := (s.rates p.number).length, floatsComputed := true }).askStage p.number
        p.stage
    else s

/-- The early start of a WAITING night fill (R94). -/
def State.earlyStart (j : Judgement) (s : State) : State :=
  match s.livePlan .nightFill with
  | none => s
  | some p =>
    if numericQuality j.quality && decide (j.level < s.set.dayFloor ∧ p.state = .waiting) then
      s.modPlan p.number fun p => { p with startAt := some s.now, early := true }
    else s

/-- The top-up inhibit at a judgement (R97). -/
def inhibitAfter (t : Settings) (was : Bool) (j : Judgement) : Bool :=
  match j.quality with
  | .none => was
  | .floatsOnly => was && !j.floats.low
  | _ => was && decide (j.level < t.dayFloor)

/-- A day top-up is created where R97 asks for one. -/
def State.createTopup (j : Judgement) (s : State) : State :=
  let low := match j.quality with
    | .none => false
    | .floatsOnly => !j.floats.low
    | _ => decide (j.level < s.set.dayFloor)
  if (s.livePlan .dayTopup).isNone && decide (s.cal.band ≠ some .cheap) && !s.plans.topupInhibit && low then
    s.addPlan { s.blankPlan .dayTopup .level (s.set.dayFloor + s.set.topupMargin) (some s.now) with stage := 1 } j.time
  else s

/-- The plan controller takes a judgement: forms and counts, endings, re-plans at a minute boundary, early start, the
end of DRAW, a day top-up, the contest (R83 to R102; log 33). -/
def State.planJudges (j : Judgement) (s : State) : State :=
  let s1 := { s with plans := { s.plans with
    slots := s.plans.slots.map fun o => o.map fun p => p.counted j (s.planFlow p.number) } }
  let s2 := overAll (s1.planList.map Plan.number) (State.endTest j) s1
  let s3 := s2.floatStage j
  let s4 := if j.minute then (s3.replanAll j.time true).topupStage j else s3
  let s5 := (s4.earlyStart j).drawCheck (some j) j.time
  let s6 := { s5 with plans := { s5.plans with topupInhibit := inhibitAfter s5.set s5.plans.topupInhibit j } }
  (s6.createTopup j).contestAt j.time

/-- PLAN_JUDGEMENT (R86). -/
def State.planJudgementRow (j : Judgement) (s : State) : State := s.taking (.planJudgement j) (·.planJudges j)

/-! ## Window events (R92) -/

/-- A cheap window begins: a night fill is created, or takes the new window (R92). One that ends at its own creation absorbs
no turnover (log 47). -/
def State.cheapStarts (w : WindowId) (endTime : Time) (s : State) : State :=
  match s.livePlan .nightFill with
  | some p =>
    ((s.modPlan p.number fun p => { p with window := some w, deadline := some endTime }).replan p.number s.now false).contest
  | none =>
    let p := s.nightPlan w endTime
    let full := numericQuality s.qualityNow && decide ((s.computeNight p).needed ≤ 0)
    let s1 := { s with plans := { s.plans with override := none } }.addPlan p s.now
    let s2 := if full then s1.finishPlan p.number .notNeeded s.now none else s1
    let s3 := match s2.livePlan .turnover, s2.livePlan .nightFill with
      | some tr, some _ => if tr.draw then s2 else (s2.finishPlan tr.number .absorbed s.now none).nightStartNow
      | _, _ => s2
    s3.contest

/-- CHEAP_START (R92). -/
def State.cheapStartRow (w : WindowId) (endTime : Time) (s : State) : State :=
  s.taking (.cheapStart w endTime) (·.cheapStarts w endTime)

/-- CHEAP_END (R92). -/
def State.cheapEndRow (w : WindowId) (s : State) : State :=
  s.taking (.cheapEnd w) fun s =>
    match s.livePlan .nightFill with
    | none => s
    | some p => if p.window = some w then s.endPlan p.number .deadline s.now none else s

/-! ## Events of the inlet and the pumps -/

/-- START_AT_PASSES (R86). -/
def State.startAtPassesRow (n : Nat) (s : State) : State :=
  s.taking (.startAtPasses n) (·.contest)

/-- INLET_SEIZED (R25, R89): the ACTIVE plan that has lost the inlet is PAUSED; its cause has cleared already where the
guard's release came first. -/
def State.inletSeizedRow (s : State) : State :=
  s.taking .inletSeized fun s =>
    match s.activePlan with
    | none => s
    | some p =>
      if s.act.inlet.owner = .plan p.number then s
      else
        let s1 := s.pausePlan p.number .guard
        if s.guard.mode.seizes then s1 else (s1.clearPauses .guard).contest

/-- INLET_FREE (R30). -/
def State.inletFreeRow (s : State) : State := s.taking .inletFree fun s => (s.clearPauses .guard).contest

/-- An ACTIVE plan with no pump engaged and none available is PAUSED NO_PUMPS and leaves the inlet (R87, R89). -/
def State.noPumpsCheck (n : Nat) (s : State) : State :=
  match s.plan n with
  | none => s
  | some p =>
    if decide (p.state = .active ∧ p.engaged = []) && !four.any (s.available n) then
      ((s.pausePlan n .noPumps).post (.stageRequest n 0 true)).contest
    else s

/-- A report reaches a plan that is not ENDED (R87 to R89): what concerns the inlet acts on an ACTIVE one, and a pump that failed,
was recalled or was lost re-plans a PAUSED one too (R88). -/
def State.reported (n : Nat) (r : Report) (p : Plan) (s : State) : State :=
  match r with
  | .inletOpen => if s.holdsInlet p then s.post (.stageRequest n p.stage false) else s
  | .inletStuck => s
  | .inletLost => if p.state = .active then s.replan n s.now false else s
  | .inletTaken => s.pausePlan n .hostClose
  | .left => s
  | .pumps _ c =>
    match c with
    | .staged => s.noPumpsCheck n
    | .running => s
    | .stopped => s
    | .failed => (s.replan n s.now false).noPumpsCheck n
    | .recalled => s.replan n s.now false
    | .lost => (s.replan n s.now false).noPumpsCheck n

/-- The engaged list after a report of the pumps `l`: those that stay keep their order, the new ones join behind (R83, R87). -/
def engagedAfter (old l : List (Fin 4)) : List (Fin 4) := old.filter l.contains ++ l.filter fun k => !old.contains k

/-- The pumps of a report that are the plan's still: one that a hand-over has passed on meanwhile is not (R89). -/
def State.stillOwned (s : State) (n : Nat) (l : List (Fin 4)) : List (Fin 4) := l.filter fun k => decide ((s.pump k).owner = .plan n)

/-- ACTUATOR_REPORT (R87): the engaged list follows every report, and is empty once the plan has left the inlet (R89); a plan
that is not ENDED acts on the report; the contest is run. -/
def State.actuatorReportRow (n : Nat) (r : Report) (s : State) : State :=
  s.taking (.actuatorReport n r) fun s =>
    let s1 := match r with
      | .pumps l _ => s.modPlan n fun p => { p with engaged := engagedAfter p.engaged (s.stillOwned n l) }
      | .inletOpen => s
      | .inletStuck => s
      | .inletLost => s
      | .inletTaken => s
      | .left => s.modPlan n fun p => { p with engaged := [] }
    (match s1.plan n with
    | none => s1
    | some p => if p.live then s1.reported n r p else s1).contest

/-- PUMP_AVAILABLE (R90). -/
def State.pumpAvailableRow (n : Fin 4) (s : State) : State :=
  s.taking (.pumpAvailable n) fun s => (s.clearPauses .noPumps).contest

/-- TURNOVER_REQUEST (R99). -/
def State.turnoverRequestRow (s : State) : State :=
  s.taking .turnoverRequest fun s =>
    if numericQuality s.qualityNow && (s.livePlan .turnover).isNone then s.createTurnover .frost none else s

/-- The ACTIVE plan, its inlet and pumps already gone, is PAUSED (R89). -/
def State.pauseStopped (c : Pause) (s : State) : State :=
  match s.activePlan with
  | none => s
  | some p => (s.pausePlan p.number c).modPlan p.number fun p => { p with engaged := [] }

/-- PLAN_MAINS_LOSS (R91): POWER has cleared already where mains and stagger were over first. -/
def State.planMainsLossRow (s : State) : State :=
  s.taking .planMainsLoss fun s =>
    let s1 := s.pauseStopped .power
    if decide (s.sys.power = .run) && s.sys.stagger.isNone then (s1.clearPauses .power).contest else s1

/-! ## Orders (R96, R98, R99, R101, R147) -/

/-- Whether a target level lies in `day_floor` to `warn_level` − 100 (R96). -/
def targetOk (t : Settings) (l : Nat) : Bool := decide (t.dayFloor ≤ l ∧ l + 100 ≤ t.warnLevel)

/-- SET_TARGET (R96). -/
def State.orderSetTarget (level : Nat) (s : State) : Handed :=
  if targetOk s.set level then
    match s.livePlan .nightFill with
    | some p =>
      .done (b1 1) (((s.modPlan p.number fun p => { p with
        target := level, targetVolume := volumeAt s.set.straps level }).replan p.number s.now false).contest)
    | none => .done (b1 0) { s with plans := { s.plans with override := some level } }
  else .refused .badArgument s

/-- FILL_NOW (R98). -/
def State.orderFillNow (ref : OrderRef) (target count deadline : Nat) (s : State) : Handed :=
  if (s.livePlan .hostFill).isSome then .refused .busy s
  else if !targetOk s.set target || !decide (1 ≤ count ∧ count ≤ 4) then .refused .badArgument s
  else if decide (deadline ≠ 0 ∧ (deadline : Int) ≤ s.now) then .refused .badArgument s
  else if decide (deadline ≠ 0) && !s.cal.set then .refused .clockUnset s
  else
    let p := { s.blankPlan .hostFill .order target (some s.now) with
      stage := count, deadline := if deadline = 0 then none else some (deadline : Int), ref := some ref }
    .done (b1 p.number) (s.addPlan p s.now).contest

/-- TURNOVER_NOW (R99). Where a TURNOVER exists and no numeric level does either, R99 gives two answers, and the model refuses
(log 59). -/
def State.orderTurnoverNow (ref : OrderRef) (s : State) : Handed :=
  if (s.livePlan .turnover).isSome then .refused .busy s
  else if numericQuality s.qualityNow then .done (b1 s.nextPlanNumber) (s.createTurnover .order (some ref))
  else .retry .busy s

/-- CANCEL_PLAN (R101, R97). -/
def State.orderCancelPlan (ref : OrderRef) (n : Nat) (s : State) : Handed :=
  match s.plan n with
  | none => .refused .noSuchPlan s
  | some p =>
    if p.live then
      let s1 := if p.kind = .dayTopup then { s with plans := { s.plans with topupInhibit := true } } else s
      .done (b4 p.delivered) (s1.endPlan n .cancelled s.now (some ref))
    else .refused .noSuchPlan s

/-- READ_PLAN (R147). -/
def State.orderReadPlan (n : Nat) (s : State) : Handed :=
  match s.plan n with
  | none => .refused .noSuchPlan s
  | some p => .done p.result s

/-! ## Adoption (R104) -/

/-- The target a plan takes at an adoption, and whether it must end SETTINGS (R104). -/
def Plan.adopted (t : Settings) (p : Plan) : Plan :=
  let target := match p.kind with
    | .nightFill => t.nightTarget
    | .dayTopup => t.dayFloor + t.topupMargin
    | .hostFill => p.target
    | .turnover => p.target
  if p.live then { p with target := target, targetVolume := volumeAt t.straps target } else p

/-- The plan controller takes new settings (R104). -/
def State.planAdopt (s : State) : State :=
  let s1 := { s with plans := { s.plans with
    override := none, slots := s.plans.slots.map fun o => o.map (Plan.adopted s.set) } }
  let s2 := overAll (s1.planList.filter fun p => p.live && decide (p.kind = .hostFill) && !targetOk s1.set p.target)
    (fun p s => s.finishPlan p.number .settings s.now none) s1
  let s3 := if s2.anyPumpFitted then s2
    else overAll (s2.planList.filter Plan.live) (fun p s => s.finishPlan p.number .noPumps s.now none) s2
  (s3.replanAll s.now false).contest

end Sys2Proof.Machine
end

