-- ==== Sys2Proof/Machine/SettingsUnit.lean ====
section
/-! DEFINITION. The settings image (11.5), its validation (R164) and its adoption (R165). -/

namespace Sys2Proof.Machine

/-! ## Reading the image -/

/-- Byte `i` of the settings image: pages 2 and 3 (11.5). -/
def State.imgByte (s : State) (i : Nat) : Byte := s.mem.read (2 * Config.pageBytes + i)

/-- The unsigned number of `w` bytes at offset `i` of the image. -/
def State.imgNum (s : State) (i : Nat) : Nat → Nat
  | 0 => 0
  | w + 1 => (s.imgByte i).toNat + 256 * s.imgNum (i + 1) w

/-- A body field (Table 11-7): offset, width, whether signed, and its range. -/
structure Field where
  off : Nat
  width : Nat
  signed : Bool
  lo : Int
  hi : Int

/-- A two-byte field. -/
def f2 (off : Nat) (lo hi : Int) : Field := ⟨off, 2, false, lo, hi⟩
/-- A one-byte field. -/
def f1 (off : Nat) (lo hi : Int) : Field := ⟨off, 1, false, lo, hi⟩
/-- A signed two-byte field in tenths of a degree (Table 0-2). -/
def ft (off : Nat) : Field := ⟨off, 2, true, -400, 600⟩

/-- The value of a field in the image. -/
def State.field (s : State) (f : Field) : Int :=
  if f.signed then signed16 (s.imgNum f.off f.width) else (s.imgNum f.off f.width : Nat)

/-- Fields 1 to 3: identity and the strapping point count. -/
def fieldsHead : List Field := [f2 8 0 65535, f2 10 0 65535, f2 12 2 16]
/-- Fields 4 to 35: the strapping points. -/
def fieldsStrap : List Field := (List.range 16).flatMap fun k => [f2 (14 + 6 * k) 0 40000, ⟨16 + 6 * k, 4, false, 0, 4000000⟩]
/-- Fields 36 to 39: the floats. -/
def fieldsFloat : List Field := [f2 110 0 40000, f2 112 0 40000, f2 114 0 40000, f2 116 20 200]
/-- Fields 40 to 71: the channels. -/
def fieldsCal : List Field := (List.range 8).flatMap fun c =>
  let value (o : Nat) : Field := if c < 2 then f2 o 0 40000 else ft o
  [f2 (118 + 8 * c) 0 4095, value (120 + 8 * c), f2 (122 + 8 * c) 0 4095, value (124 + 8 * c)]
/-- Fields 72 to 79: `ab_tolerance` and the guard. -/
def fieldsGuard : List Field :=
  [f2 182 10 2000, f2 184 0 40000, f2 186 0 40000, f2 188 0 40000, f2 190 0 5000, f2 192 1 5, f2 194 0 1, f2 196 0 600]
/-- Fields 80 to 100: pumps, inlet and heaters. -/
def fieldsPlant : List Field :=
  ((List.range 4).flatMap fun n => [f2 (198 + 6 * n) 0 1, f2 (200 + 6 * n) 0 20000, f2 (202 + 6 * n) 1 250])
    ++ [f2 222 2 60, f2 224 1 7, f2 226 10 600, f2 228 1 12, f2 230 0 3600, f2 232 0 3600, f2 234 10 300, f2 236 2 30, f2 238 1 7]
/-- Fields 101 to 140: frost and zones. Field 106 is `water_channel`, whose range has the value 0xFFFF beside 3 to 7. -/
def fieldsFrost : List Field :=
  [ft 240, ft 242, f2 244 5 100, ft 246, f2 248 1 24, f2 250 3 7, f2 252 100 5000, f2 254 1 12]
    ++ (List.range 4).flatMap fun n =>
      [f1 (256 + 12 * n) 0 1, f1 (257 + 12 * n) 3 7, f1 (258 + 12 * n) 1 5, f1 (259 + 12 * n) 0 10, ft (260 + 12 * n),
        ft (262 + 12 * n), ft (264 + 12 * n), f2 (266 + 12 * n) 1 250]
/-- Fields 141 to 210: the tariff table. -/
def fieldsTariff : List Field := (List.range 7).flatMap fun d => (List.range 5).flatMap fun k =>
  [f2 (304 + 20 * d + 4 * k) 0 1439, f2 (306 + 20 * d + 4 * k) 0 720]
/-- Fields 211 to 225: masks, budget, filling, telemetry and holds. -/
def fieldsTail : List Field :=
  [f1 444 0 5, f1 445 0 5, f1 446 0 5, f2 448 0 250, f2 450 0 40000, f2 452 0 40000, f2 454 100 5000, f2 456 1 120,
    f2 458 0 240, f2 460 0 20000, f2 462 0 600, f2 464 1 60, f2 466 10 5000, f2 468 1 60, f2 470 10 480]

/-- Every body field in index order; the field of index `i` stands at place `i - 1`. -/
def fields : List Field :=
  fieldsHead ++ fieldsStrap ++ fieldsFloat ++ fieldsCal ++ fieldsGuard ++ fieldsPlant ++ fieldsFrost ++ fieldsTariff ++ fieldsTail

/-! ## The settings an image holds -/

/-- A number of the image as a natural. -/
def State.img2 (s : State) (i : Nat) : Nat := s.imgNum i 2
/-- A signed number of the image. -/
def State.imgT (s : State) (i : Nat) : Int := signed16 (s.imgNum i 2)

/-- The calibration of a channel in the image. -/
def State.imgCal (s : State) (c : Nat) : Cal :=
  let value (o : Nat) : Int := if c < 2 then (s.img2 o : Nat) else s.imgT o
  ⟨s.img2 (118 + 8 * c), value (120 + 8 * c), s.img2 (122 + 8 * c), value (124 + 8 * c)⟩

/-- A zone's settings in the image. -/
def State.imgZone (s : State) (n : Nat) : ZoneSet :=
  let o := 256 + 12 * n
  ⟨decide (s.imgNum o 1 = 1), Fin.ofNat 8 (s.imgNum (o + 1) 1), s.imgNum (o + 2) 1, s.imgNum (o + 3) 1, s.imgT (o + 4),
    s.imgT (o + 6), s.imgT (o + 8), s.img2 (o + 10)⟩

/-- A weekday's slots in the image. -/
def State.imgDay (s : State) (d : Nat) : DayTariff :=
  let slot (k : Nat) : Slot := ⟨s.img2 (304 + 20 * d + 4 * k), s.img2 (306 + 20 * d + 4 * k)⟩
  ⟨#v[slot 0, slot 1, slot 2], #v[slot 3, slot 4]⟩

/-- The settings the image's body holds (Table 11-7). -/
def State.imgSettings (s : State) : Settings where
  siteNumber := s.img2 8
  siteCode := s.img2 10
  straps := (List.range (s.img2 12)).map fun k => ⟨s.img2 (14 + 6 * k), s.imgNum (16 + 6 * k) 4⟩
  floatLow := s.img2 110
  floatHigh := s.img2 112
  floatTop := s.img2 114
  floatBand := s.img2 116
  cal := Vector.ofFn fun c : Fin 8 => s.imgCal c.val
  abTolerance := s.img2 182
  warnLevel := s.img2 184
  tripLevel := s.img2 186
  releaseLevel := s.img2 188
  frostMargin := s.img2 190
  tripConfirm := s.img2 192
  releaseAck := decide (s.img2 194 = 1)
  releaseDelay := s.img2 196
  pumps := Vector.ofFn fun n : Fin 4 =>
    ⟨decide (s.img2 (198 + 6 * n.val) = 1), s.img2 (200 + 6 * n.val), s.img2 (202 + 6 * n.val)⟩
  confirmTime := s.img2 222
  startTryLimit := s.img2 224
  restartInterval := s.img2 226
  startsPerHour := s.img2 228
  minRun := s.img2 230
  minOff := s.img2 232
  travelLimit := s.img2 234
  heaterConfirm := s.img2 236
  heaterTryLimit := s.img2 238
  frostThreshold := s.imgT 240
  hardThreshold := s.imgT 242
  frostHysteresis := s.img2 244
  turnoverTemp := s.imgT 246
  stagnationLimit := s.img2 248
  waterChannel := if s.img2 250 = 65535 then none else some (Fin.ofNat 8 (s.img2 250))
  turnoverDepth := s.img2 252
  drawLimit := s.img2 254
  zones := Vector.ofFn fun n : Fin 4 => s.imgZone n.val
  tariff := Vector.ofFn fun d : Fin 7 => s.imgDay d.val
  cheapMask := s.imgNum 444 1
  standardMask := s.imgNum 445 1
  peakMask := s.imgNum 446 1
  loadBudget := s.img2 448
  nightTarget := s.img2 450
  dayFloor := s.img2 452
  topupMargin := s.img2 454
  topupMinutes := s.img2 456
  fillMargin := s.img2 458
  defaultDraw := s.img2 460
  restartStagger := s.img2 462
  reportInterval := s.img2 464
  stepDeadband := s.img2 466
  journalAge := s.img2 468
  holdLifetime := s.img2 470

/-! ## Validation (R164) -/

/-- One bit of the CRC-16: polynomial 0x1021, no reflection. -/
def crcBit (c : BitVec 16) : BitVec 16 := if c.msb then (c <<< 1) ^^^ 0x1021#16 else c <<< 1

/-- One byte of the CRC-16. -/
def crcByte (c : BitVec 16) (b : Byte) : BitVec 16 :=
  crcBit (crcBit (crcBit (crcBit (crcBit (crcBit (crcBit (crcBit (c ^^^ (b.setWidth 16 <<< 8)))))))))

/-- The CRC-16 of bytes, initial value 0xFFFF, no final inversion. -/
def crc16 (bs : List Byte) : BitVec 16 := bs.foldl crcByte 0xFFFF#16

/-- Stage 1: format code, length and check word. -/
def State.headerOk (s : State) : Bool :=
  decide (s.img2 0 = 1) && decide (s.img2 4 = 504)
    && decide (s.img2 6 = (crc16 ((List.range 504).map fun i => s.imgByte (8 + i))).toNat)

/-- Whether the field of an index is exempt from its range: a strapping point not in use (11.5), and `water_channel` at
none. -/
def State.exempt (s : State) (i : Nat) : Bool :=
  (decide (4 ≤ i ∧ i ≤ 35) && decide (s.img2 12 ≤ (i - 4) / 2))
    || (decide (i = 106) && decide (s.img2 250 = 65535))

/-- Stage 2: the index of the first field out of its range. -/
def State.badRange (s : State) : Option Nat :=
  ((fields.zipIdx 1).find? fun x => !s.exempt x.2 && !decide (x.1.lo ≤ s.field x.1 ∧ s.field x.1 ≤ x.1.hi)).map (·.2)

/-- The strapping relations: level and volume of each adjacent pair in use are one relation, which names the later point's volume
last (log 62). -/
def strapRelations : Nat → List Strap → List (Bool × Nat)
  | _, [] => []
  | _, [_] => []
  | i, a :: b :: l => (decide (a.level < b.level ∧ a.volume ≤ b.volume), i + 3) :: strapRelations (i + 2) (b :: l)

/-- The relations of stage 3, each with the highest index among the fields it names. -/
def relations (t : Settings) : List (Bool × Nat) :=
  strapRelations 4 t.straps
    ++ (t.cal.toList.zipIdx.map fun x => (decide (x.1.code1 ≠ x.1.code2), 42 + 4 * x.2))
    ++ [(decide (t.floatLow < t.floatHigh ∧ t.floatHigh < t.floatTop), 38),
      (decide (t.releaseLevel + t.frostMargin < t.warnLevel ∧ t.warnLevel < t.tripLevel
        ∧ t.tripLevel < t.floatTop + t.frostMargin), 76),
      (decide (t.dayFloor < t.nightTarget ∧ t.nightTarget + 100 < t.warnLevel), 216),
      (decide (t.hardThreshold < t.frostThreshold), 102)]
    ++ (t.zones.toList.zipIdx.map fun x =>
      (!x.1.fitted || decide (x.1.hardTemp < x.1.onTemp ∧ x.1.onTemp < x.1.offTemp), 115 + 8 * x.2))

/-- Stage 3: the lowest index a failing relation gives (log 15). -/
def badOrder (t : Settings) : Option Nat := (((relations t).filter fun r => !r.1).map (·.2)).min?

/-- The slots of the tariff table in index order: first minute of the week, length, index of the start field. -/
def slotsOf (t : Settings) : List (Nat × Nat × Nat) :=
  (t.tariff.toList.zipIdx.flatMap fun d =>
    ((d.1.cheap.toList ++ d.1.peak.toList).zipIdx.map fun k =>
      (1440 * d.2 + k.1.start, k.1.length, 141 + 10 * d.2 + 2 * k.2)))

/-- Whether two slots cover a common minute of the week (R68). -/
def slotsOverlap (a b : Nat × Nat × Nat) : Bool :=
  decide (0 < a.2.1 ∧ 0 < b.2.1)
    && decide ((b.1 + 10080 - a.1) % 10080 < a.2.1 ∨ (a.1 + 10080 - b.1) % 10080 < b.2.1)

/-- Stage 4: the start field of the first slot that overlaps an earlier one (R68, log 16). -/
def badWindow (t : Settings) : Option Nat :=
  ((slotsOf t).find? fun b => (slotsOf t).any fun a => decide (a.2.2 < b.2.2) && slotsOverlap a b).map fun b => b.2.2

/-- Stages 1 to 4: the settings of a sound image, or the index the first failure gives. -/
def State.validate (s : State) : Except Nat Settings :=
  if !s.headerOk then .error 0
  else match s.badRange with
    | some i => .error i
    | none =>
      match badOrder s.imgSettings with
      | some i => .error i
      | none =>
        match badWindow s.imgSettings with
        | some i => .error i
        | none => .ok s.imgSettings

/-! ## Adoption (R165, Table 10-2) -/

/-- The settings number in the image's header. -/
def State.imgNumber (s : State) : Nat := s.img2 2

/-- The body of SETTINGS (Table 11-6). -/
def settingsBody (old new : Nat) : List Byte := b2 old ++ b2 new

/-- Each block takes new working settings; `old` are those before, and `standby` the mark that the adoption clears (R167). -/
def State.blocksAdopt (old : Settings) (standby : Bool) (s : State) : State :=
  let s1 := (((s.surveyAdopt old).guardAdopt).actAdopt old).calAdopt old
  ((((s1.setBudget s1.set.loadBudget).planAdopt).frostAdopt old).ageCheck).outputsFreed standby

/-- A sound image is taken into use (R165). -/
def State.adopt (t : Settings) (n : Nat) (ref : OrderRef) (s : State) : State :=
  let s1 := { s with sys := { s.sys with settings := t, number := n, standby := false } }
  (s1.make .settings s.now (some ref) (settingsBody s.sys.number n)).blocksAdopt s.sys.settings s.sys.standby

/-- ADOPT_SETTINGS (R165, R146). -/
def State.orderAdoptSettings (ref : OrderRef) (s : State) : Handed :=
  match s.validate with
  | .error i => ⟨s, .refused, .settingsInvalid, some (b2 i)⟩
  | .ok t =>
    if t.loadBudget < unitsOf s.arb.grants then .refused .busy s
    else .done (b2 s.imgNumber) (s.adopt t s.imgNumber ref)

end Sys2Proof.Machine
end

