-- ==== Sys2Proof/Machine/Orders.lean ====
section
/-! DEFINITION. The twenty orders (08): the engine's checks (Table 8-2, steps 4 to 8), the handing to the owning block,
and what each order ends with. Pages and access states stand in Engine.lean. -/

namespace Sys2Proof.Machine

/-! ## The catalogue (Table 8-1) -/

/-- Restricted orders (Table 8-1). -/
def OrderCode.restricted (c : OrderCode) : Bool :=
  [OrderCode.adoptSettings, .startPump, .stopPump, .openInlet, .holdActuator, .releaseHold, .clearFailure, .guardTest].contains c

/-- Delayed orders (Table 8-1). -/
def OrderCode.delayed (c : OrderCode) : Bool :=
  [OrderCode.startPump, .stopPump, .openInlet, .closeInlet, .holdActuator, .guardTest, .flushJournal].contains c

/-- The six delayed plant orders (R152). -/
def plantOrders : List OrderCode := [.startPump, .stopPump, .openInlet, .closeInlet, .holdActuator, .guardTest]

/-- The actuator an order names, its target being `t` (Table 8-1). -/
def OrderCode.names (c : OrderCode) (t : Nat) : Option ActId :=
  match c with
  | .readActuator => ActId.ofCode t
  | .startPump => ActId.ofCode t
  | .stopPump => ActId.ofCode t
  | .openInlet => some .inlet
  | .closeInlet => some .inlet
  | .releaseManual => some .inlet
  | .holdActuator => ActId.ofCode t
  | .clearFailure => ActId.ofCode t
  | _ => none

/-- Whether an order is a station order (8.3): of the pumps or of INLET, in the hands of the booster station. -/
def OrderCode.station (c : OrderCode) (t : Nat) : Bool :=
  match c with
  | .startPump => true
  | .stopPump => true
  | .openInlet => true
  | .closeInlet => true
  | .releaseManual => true
  | .holdActuator => decide (t ≤ 4)
  | _ => false

/-- An order as the engine checks it: code, reference, target (0 where the catalogue gives none), whether target and
arguments are in their ranges, and the hold number it carries (0 for none). -/
structure OrderReq where
  code : OrderCode
  ref : OrderRef
  target : Nat
  ok : Bool
  hold : Nat

/-! ## The engine's checks (Table 8-2, R139, R152) -/

/-- An order that carries a hold's number puts the hold's deadline `hold_lifetime` ahead, accepted or not (R59); the
number 0 is no hold's. -/
def State.touchHold (n : Nat) (s : State) : State :=
  let touch (h : Hold) : Hold :=
    if h.number = n ∧ n ≠ 0 then { h with deadline := s.now + 60 * s.set.holdLifetime } else h
  { s with act := { s.act with holds := s.act.holds.map touch } }

/-- SERVICE is entered or renewed: its expiry is 30 minutes ahead (R143). -/
def State.renewService (s : State) : State :=
  { s with eng := { s.eng with serviceEnd := some (s.now + Config.serviceTime) } }

/-- Whether an order names an actuator with a PENDING hold; READ_ACTUATOR is not subject to the check (R148). -/
def State.pendingNamed (q : OrderReq) (s : State) : Bool :=
  decide (q.code ≠ .readActuator) && (q.code.names q.target).any s.heldPending

/-- Whether power or STANDBY keeps an order from being handed (R152). -/
def State.plantBarred (c : OrderCode) (s : State) : Bool :=
  plantOrders.contains c && (decide (s.sys.power ≠ .run) || (s.sys.standby && decide (c ≠ .guardTest)))

/-- Whether the same order, or a station order that names the same actuator, is in flight (R139). -/
def State.sameInFlight (q : OrderReq) (s : State) : Bool :=
  s.eng.inflight.any fun e =>
    decide (e.code = q.code ∧ e.target = q.target)
      || (q.code.station q.target && decide (q.code ≠ .releaseManual) && e.code.station e.target
        && decide (e.code.names e.target = q.code.names q.target))

/-- The checks of a delayed order after step 7, then its handing (R139, R152). -/
def State.delayedCheck (q : OrderReq) (hand : State → Handed) (s : State) : Handed :=
  if s.plantBarred q.code then .retry .busy s
  else if s.sameInFlight q then .retry .busy s
  else if Config.inflightMax ≤ s.eng.inflight.length then .retry .tableFull s
  else hand s

/-- Steps 6 to 8 of Table 8-2. -/
def State.argumentCheck (q : OrderReq) (hand : State → Handed) (s : State) : Handed :=
  if !q.ok then .refused .badArgument s
  else if s.pendingNamed q then .retry .holdPending s
  else if q.code.delayed then s.delayedCheck q hand
  else hand s

/-- Steps 4 to 8 of Table 8-2. A restricted order that passes step 5 renews SERVICE (R143). -/
def State.accessCheck (q : OrderReq) (hand : State → Handed) (s : State) : Handed :=
  if q.code.station q.target && decide (s.eng.access = .localControl) then .refused .localControl s
  else if q.code.restricted then
    if s.eng.access = .service then s.renewService.argumentCheck q hand else .refused .restricted s
  else s.argumentCheck q hand

/-- An order goes through the engine from step 4 on. -/
def State.engine (q : OrderReq) (hand : State → Handed) (s : State) : Handed := (s.touchHold q.hold).accessCheck q hand

/-! ## Writing the outcome (R137 to R140, R174) -/

/-- Whether a page is TAKEN. -/
def State.isTaken (p : Page) (s : State) : Bool := s.eng.taken.any fun t => decide (t.page = p)

/-- An order becomes final: status, reason, and the result area where one is given. A reference to a page that is not
TAKEN writes nothing (log 17). -/
def State.finish (r : OrderRef) (st : Status) (rs : Reason) (res : Option (List Byte)) (s : State) : State :=
  if s.isTaken r.page then
    match res with
    | none => s.writeStatus r st rs
    | some bs => (s.writeStatus r st rs).writeResult r bs
  else s

/-- An accepted order enters the in-flight table, which has a free entry by R139's test, and IN_FLIGHT its status byte
(R139, R174). -/
def State.enterFlight (c : OrderCode) (r : OrderRef) (target : Nat) (s : State) : State :=
  if s.isTaken r.page ∧ s.eng.inflight.length < Config.inflightMax then
    { s with eng := { s.eng with inflight := s.eng.inflight ++ [(⟨r, c, target, s.now⟩ : InFlight)] } }.poke r.page
      (slotOffset r.slot.val + 2) (b1 Status.inFlight.code)
  else s

/-- What the handing gave is written. -/
def State.conclude (q : OrderReq) (h : Handed) : State :=
  if h.status = .inFlight then h.state.enterFlight q.code q.ref q.target
  else h.state.finish q.ref h.status h.reason h.result

/-- An order is checked, handed and concluded. -/
def State.runOrder (q : OrderReq) (hand : State → Handed) (s : State) : State := State.conclude q (s.engine q hand)

/-! ## Clock, settings and plan orders (R146, R147) -/

/-- SET_CLOCK reaches the calendar (R66); the plan controller recomputes its times (R67, R88). -/
def State.orderSetClock (ref : OrderRef) (t : Nat) (s : State) : Handed :=
  .done (bt s.now) (((((s.clockSet t ref).replanAll (t : Int) false).contest).evaluate).settle)

/-- SET_CLOCK. -/
def State.setClockOrder (r : OrderRef) (t : BitVec 32) (s : State) : State :=
  s.runOrder ⟨.setClock, r, 0, decide ((t.toNat : Int) ≤ Config.lastSecond), 0⟩ (·.orderSetClock r t.toNat)

/-- ADOPT_SETTINGS. -/
def State.adoptSettingsOrder (r : OrderRef) (s : State) : State :=
  s.runOrder ⟨.adoptSettings, r, 0, true, 0⟩ (·.orderAdoptSettings r)

/-- SET_TARGET. -/
def State.setTargetOrder (r : OrderRef) (level : Word) (s : State) : State :=
  s.runOrder ⟨.setTarget, r, 0, decide (level.toNat ≤ 40000), 0⟩ (·.orderSetTarget level.toNat)

/-- FILL_NOW. -/
def State.fillNowOrder (r : OrderRef) (target count : Word) (deadline : BitVec 32) (s : State) : State :=
  s.runOrder ⟨.fillNow, r, target.toNat,
    decide (target.toNat ≤ 40000 ∧ count.toNat ≤ 255 ∧ (deadline.toNat : Int) ≤ Config.lastSecond), 0⟩
    (·.orderFillNow r target.toNat count.toNat deadline.toNat)

/-- TURNOVER_NOW. -/
def State.turnoverNowOrder (r : OrderRef) (s : State) : State :=
  s.runOrder ⟨.turnoverNow, r, 0, true, 0⟩ (·.orderTurnoverNow r)

/-- Whether a target is a plan number or hold number. -/
def numberIn (n : Word) : Bool := decide (1 ≤ n.toNat ∧ n.toNat ≤ 255)

/-- CANCEL_PLAN. -/
def State.cancelPlanOrder (r : OrderRef) (n : Word) (s : State) : State :=
  s.runOrder ⟨.cancelPlan, r, n.toNat, numberIn n, 0⟩ (·.orderCancelPlan r n.toNat)

/-- READ_PLAN. -/
def State.readPlanOrder (r : OrderRef) (n : Word) (s : State) : State :=
  s.runOrder ⟨.readPlan, r, n.toNat, numberIn n, 0⟩ (·.orderReadPlan n.toNat)

/-! ## Pump orders (R148, R54, R59) -/

/-- READ_ACTUATOR reads the entry as it stands. -/
def State.orderReadActuator (t : Nat) (s : State) : Handed :=
  match ActId.ofCode t with
  | none => .refused .badArgument s
  | some a => .done (s.summary a).result s

/-- READ_ACTUATOR. -/
def State.readActuatorOrder (r : OrderRef) (t : Word) (s : State) : State :=
  s.runOrder ⟨.readActuator, r, t.toNat, decide (t.toNat ≤ 8), 0⟩ (·.orderReadActuator t.toNat)

/-- Whether a hold names actuator `a` and an order carrying hold number `n` does not match it, or comes outside SERVICE
(R59, R148). -/
def State.heldNamed (a : ActId) (n : Nat) (s : State) : Bool :=
  match s.holdNaming a with
  | none => false
  | some h => decide (h.number ≠ n) || decide (s.eng.access ≠ .service)

/-- Whether an order for actuator `a` carrying hold number `n` is refused HELD, also where `n` names a hold of another
actuator: START_PUMP and the inlet orders (R148, R149). -/
def State.heldAgainst (a : ActId) (n : Nat) (s : State) : Bool :=
  s.heldNamed a n || s.act.holds.any fun h => decide (h.number = n ∧ h.act ≠ a)

/-- Whether an actuator is under a hold, which the order's number then matches. -/
def State.matchedHold (a : ActId) (s : State) : Bool := (s.holdNaming a).isSome

/-- A start request of a host: owner MANUAL, or HOLD for a held pump (R54). -/
def State.hostStart (n : Fin 4) (s : State) : State :=
  let o : Owner := if s.matchedHold (.pump n) then .hold else .manual
  let p := s.pump n
  let s1 := s.setPump n { p with owner := o, request := .start, stopWait := false }
  (if decide (p.claim = .none) then s1.claimPump n
    else if decide (p.owner ≠ o) then s1.post (.relevel (.pump n) 5 false) else s1).settle

/-- Whether a host may start a pump of this owner (R54). -/
def hostOwns (o : Owner) (matched : Bool) : Bool := decide (o = .manual) || (matched && decide (o = .hold))

/-- START_PUMP: its own checks, then the actuator controller's (R148). -/
def State.orderStartPump (n : Fin 4) (hold : Nat) (s : State) : Handed :=
  let a : ActId := .pump n
  if !s.fitted a then .refused .notFitted s
  else if (s.pump n).mode = .failed then .refused .failedActuator s
  else if s.heldAgainst a hold then .refused .held s
  else if s.guard.mode.seizes then .refused .guard s
  else if s.act.inlet.owner ≠ .manual ∨ s.act.inlet.releasing = true then .refused .busy s
  else if !(decide ((s.pump n).owner = .none) || hostOwns (s.pump n).owner (s.matchedHold a)) then .refused .busy s
  else
    let s1 := s.hostStart n
    if (s1.pump n).mode = .running then .done [] s1 else .accepted s1

/-- START_PUMP. -/
def State.startPumpOrder (r : OrderRef) (t hold : Word) (s : State) : State :=
  s.runOrder ⟨.startPump, r, t.toNat, decide (t.toNat ≤ 3), hold.toNat⟩ (·.orderStartPump (Fin.ofNat 4 t.toNat) hold.toNat)

/-- STOP_PUMP (R148). -/
def State.orderStopPump (n : Fin 4) (hold : Nat) (s : State) : Handed :=
  let a : ActId := .pump n
  if !s.fitted a then .refused .notFitted s
  else if s.heldNamed a hold then .refused .held s
  else if !hostOwns (s.pump n).owner (s.matchedHold a) then .refused .busy s
  else
    let s1 := (s.pumpStop n).settle
    if (s1.pump n).contactor = false ∧ (s1.pump n).feedback = false then .done [] s1 else .accepted s1

/-- STOP_PUMP. -/
def State.stopPumpOrder (r : OrderRef) (t hold : Word) (s : State) : State :=
  s.runOrder ⟨.stopPump, r, t.toNat, decide (t.toNat ≤ 3), hold.toNat⟩ (·.orderStopPump (Fin.ofNat 4 t.toNat) hold.toNat)

/-! ## Inlet orders (R149, R54, R50) -/

/-- The inlet passes to MANUAL; a plan that owned it loses it, its pumps off without `min_run` (R54). An inlet under a
matched hold stays HOLD (R149). -/
def State.takeManual (s : State) : State :=
  let o := s.act.inlet.owner
  if s.matchedHold .inlet then s
  else match o with
  | .hold => s
  | .manual => s
  | .none => s.modInlet fun v => { v with owner := .manual, leaving := false }
  | .guard => s
  | .frost => s
  | .plan n =>
    ((overAll (four.filter fun k => decide ((s.pump k).owner = .plan n)) State.pumpDrop s).modInlet fun v =>
      { v with owner := .manual, leaving := false }).tellPlan o .inletTaken

/-- The valve is commanded OPEN by a host; it waits for a plan's pumps to be off (R54). -/
def State.hostOpen (s : State) : State :=
  let s1 := s.takeManual
  if four.any fun k => (s1.pump k).turning && (s1.pump k).owner.isPlan then
    s1.modInlet fun v => { v with cmd := some .opened, closeWait := false, openWait := true, closeFor := [] }
  else s1.command .opened

/-- The checks OPEN_INLET and CLOSE_INLET share (R149). -/
def State.inletCheck (hold : Nat) (hand : State → Handed) (s : State) : Handed :=
  if s.heldAgainst .inlet hold then .refused .held s
  else if s.act.inlet.owner = .guard then .refused .guard s
  else if s.act.inlet.owner = .manual ∧ s.act.inlet.releasing = true then .refused .busy s
  else hand s

/-- OPEN_INLET (R149); an inlet already OPEN completes at the handing (R48, log 21). -/
def State.orderOpenInlet (hold : Nat) (s : State) : Handed :=
  s.inletCheck hold fun s =>
    let s1 := s.hostOpen.settle
    if s1.act.inlet.mode = .opened ∧ s1.act.inlet.openWait = false then .done [] s1 else .accepted s1

/-- OPEN_INLET. -/
def State.openInletOrder (r : OrderRef) (hold : Word) (s : State) : State :=
  s.runOrder ⟨.openInlet, r, 0, true, hold.toNat⟩ (·.orderOpenInlet hold.toNat)

/-- CLOSE_INLET (R149). -/
def State.orderCloseInlet (hold : Nat) (s : State) : Handed :=
  s.inletCheck hold fun s =>
    let s1 := (s.takeManual.command .closed).settle
    if s1.act.inlet.mode = .closed then .done [] s1 else .accepted s1

/-- CLOSE_INLET. -/
def State.closeInletOrder (r : OrderRef) (hold : Word) (s : State) : State :=
  s.runOrder ⟨.closeInlet, r, 0, true, hold.toNat⟩ (·.orderCloseInlet hold.toNat)

/-- The MANUAL plant is let go: its pumps stop under `min_run`, the inlet is releasing until they are off (R54). -/
def State.letManualGo (s : State) : State :=
  let s1 := overAll (four.filter fun k => decide ((s.pump k).owner = .manual ∨ (s.pump k).owner = .hold)) State.pumpStop s
  if s.act.inlet.owner = .manual then
    s1.modInlet fun v => { v with releasing := true, goFor := if v.releasing then v.goFor else [] }
  else s1

/-- RELEASE_MANUAL (R149). -/
def State.orderReleaseManual (s : State) : Handed :=
  if s.act.inlet.owner = .manual then .done [] s.letManualGo.settle else .refused .busy s

/-- RELEASE_MANUAL. -/
def State.releaseManualOrder (r : OrderRef) (s : State) : State :=
  s.runOrder ⟨.releaseManual, r, 0, true, 0⟩ (·.orderReleaseManual)

/-! ## Holds and failures (R150, R57, R47) -/

/-- A message that reported an order's completion during its own handing is taken out of those on their way. -/
def State.unpost (m : Instr) (s : State) : State := { s with transit := s.transit.erase m }

/-- The established hold that an order has made, if it is established. -/
def State.madeHold (r : OrderRef) (a : ActId) (s : State) : Option Hold :=
  match s.holdNaming a with
  | none => none
  | some h => if h.ref = r ∧ h.established.isSome = true then some h else none

/-- HOLD_ACTUATOR (R57, R58); an actuator already safe completes it at the handing (log 21). -/
def State.orderHoldActuator (r : OrderRef) (a : ActId) (s : State) : Handed :=
  if !s.fitted a then .refused .notFitted s
  else if (s.holdNaming a).isSome then .refused .held s
  else if s.eng.inflight.any fun e => decide (e.code.names e.target = some a) then .refused .busy s
  else if a = .inlet ∧ s.guard.mode.seizes = true then .refused .guard s
  else if a.code ≤ 4 ∧ s.eng.access = .localControl then .refused .localControl s
  else if Config.holdsMax ≤ s.act.holds.length then .retry .tableFull s
  else
    let s1 := (s.makeHold a r).settle
    match s1.madeHold r a with
    | none => .accepted s1
    | some h => .done (b1 h.number) s1

/-- HOLD_ACTUATOR. -/
def State.holdActuatorOrder (r : OrderRef) (t : Word) (s : State) : State :=
  s.runOrder ⟨.holdActuator, r, t.toNat, decide (t.toNat ≤ 8), 0⟩ fun s =>
    match ActId.ofCode t.toNat with
    | none => .refused .badArgument s
    | some a => s.orderHoldActuator r a

/-- RELEASE_HOLD (R150, R60). -/
def State.orderReleaseHold (r : OrderRef) (n : Nat) (s : State) : Handed :=
  match s.act.holds.find? fun h => decide (h.number = n) with
  | none => .refused .noSuchHold s
  | some h => .done [] (s.endHold h 1 (some r)).settle

/-- RELEASE_HOLD. -/
def State.releaseHoldOrder (r : OrderRef) (n : Word) (s : State) : State :=
  s.runOrder ⟨.releaseHold, r, n.toNat, numberIn n, n.toNat⟩ (·.orderReleaseHold r n.toNat)

/-- A FAILED pump is cleared (R47): RESTING, and again one a plan may choose later (R90). -/
def State.clearPump (n : Fin 4) (s : State) : State :=
  let p := s.pump n
  if p.mode = .failed then
    ((s.setPump n { p with
      mode := .resting, offSince := some s.now, offEnd := some (s.now + s.set.minOff), tries := 0 }).post
        (.pumpAvailable n)).entersResting n
  else s

/-- A FAILED heater is cleared (R47). -/
def State.clearHeater (h : Fin 4) (s : State) : State :=
  let p := s.heater h
  if p.mode = .failed then (s.setHeater h { p with mode := .ready, tries := 0 }).tellFrost h .usable else s

/-- An inlet in STUCK is judged afresh and not re-driven (R47, R49). -/
def State.clearInlet (s : State) : State :=
  s.modInlet fun v => if v.mode = .stuck then { v with mode := judged v.openLs v.closedLs } else v

/-- CLEAR_FAILURE on an actuator (R47). -/
def State.clearFailureOf (a : ActId) (s : State) : State :=
  (match a with
  | .pump n => s.clearPump n
  | .inlet => s.clearInlet
  | .heater h => s.clearHeater h).settle

/-- CLEAR_FAILURE (R150). -/
def State.orderClearFailure (a : ActId) (s : State) : Handed :=
  if !s.fitted a then .refused .notFitted s
  else
    let s1 := s.clearFailureOf a
    .done (b1 (s1.summary a).machine) s1

/-- CLEAR_FAILURE. -/
def State.clearFailureOrder (r : OrderRef) (t : Word) (s : State) : State :=
  s.runOrder ⟨.clearFailure, r, t.toNat, decide (t.toNat ≤ 8), 0⟩ fun s =>
    match ActId.ofCode t.toNat with
    | none => .refused .badArgument s
    | some a => s.orderClearFailure a

/-! ## Guard and journal orders (R151) -/

/-- RESET_GUARD (R32). -/
def State.orderResetGuard (r : OrderRef) (s : State) : Handed :=
  if s.guard.mode = .held then .done [] (s.clearGuard 1 s.now (some r) s.seenLast) else .refused .notClear s

/-- RESET_GUARD. -/
def State.resetGuardOrder (r : OrderRef) (s : State) : State :=
  s.runOrder ⟨.resetGuard, r, 0, true, 0⟩ (·.orderResetGuard r)

/-- GUARD_TEST (R33): complete at its arrival when both of its conditions hold. -/
def State.orderGuardTest (r : OrderRef) (s : State) : Handed :=
  let s1 := s.guardTests r
  if s1.guardTestDone then .done [] s1 else .accepted s1

/-- GUARD_TEST. -/
def State.guardTestOrder (r : OrderRef) (s : State) : State :=
  s.runOrder ⟨.guardTest, r, 0, true, 0⟩ (·.orderGuardTest r)

/-- JOURNAL_MARK: the result area stays as the host wrote it (R151). -/
def State.orderJournalMark (r : OrderRef) (host : List Byte) (s : State) : Handed :=
  ⟨s.make .mark s.now (some r) host, .done, .none, none⟩

/-- JOURNAL_MARK. -/
def State.journalMarkOrder (r : OrderRef) (host : Vector Byte 16) (s : State) : State :=
  s.runOrder ⟨.journalMark, r, 0, true, 0⟩ (·.orderJournalMark r host.toList)

/-- The result a flush has reported for an order, if it has. -/
def flushResult (r : OrderRef) : Instr → Option (List Byte)
  | .orderComplete r' .done .none res => if r' = r then some res else none
  | _ => none

/-- FLUSH_JOURNAL (R151, R160). -/
def State.orderFlushJournal (r : OrderRef) (s : State) : Handed :=
  if s.jrn.opened = none ∧ s.jrn.queue = [] then .done (b1 0) s
  else
    let s1 := s.flushRequest r
    match s1.transit.findSome? (flushResult r) with
    | none => .accepted s1
    | some res => .done res (s1.unpost (.orderComplete r .done .none res))

/-- FLUSH_JOURNAL. -/
def State.flushJournalOrder (r : OrderRef) (s : State) : State :=
  s.runOrder ⟨.flushJournal, r, 0, true, 0⟩ (·.orderFlushJournal r)

end Sys2Proof.Machine
end

