-- ==== Sys2Proof/Machine/Engine.lean ====
section
/-! DEFINITION. The order engine's pages and access states (08): taking, running and answering pages, in-flight orders,
SERVICE and LOCAL, and the commands of its rows. -/

namespace Sys2Proof.Machine

/-! ## Running a page (R137, R141) -/

/-- The 32-bit number in argument words `w` and `w + 1`, low word first. -/
def State.orderLong (s : State) (p : Page) (k w : Nat) : BitVec 32 :=
  BitVec.ofNat 32 (s.orderArg p k w + 65536 * s.orderArg p k (w + 1))

/-- The target word of a slot. -/
def State.targetWord (s : State) (p : Page) (k : Nat) : Word := BitVec.ofNat 16 (s.orderTarget p k)

/-- An argument word of a slot. -/
def State.argWord (s : State) (p : Page) (k w : Nat) : Word := BitVec.ofNat 16 (s.orderArg p k w)

/-- The 16 host bytes of a JOURNAL_MARK: offsets 6 to 21 of the record (R151). -/
def State.hostBytes (s : State) (p : Page) (k : Nat) : Vector Byte 16 :=
  Vector.ofFn fun i : Fin 16 => s.mem.read (addr p (slotOffset k + 6 + i.val))

/-- The order of a slot runs from step 4 on, its fields read from the page (Table 11-4). -/
def State.handSlot (c : OrderCode) (r : OrderRef) (s : State) : State :=
  let p := r.page
  let k := r.slot.val
  match c with
  | .setClock => s.setClockOrder r (s.orderLong p k 1)
  | .adoptSettings => s.adoptSettingsOrder r
  | .setTarget => s.setTargetOrder r (s.argWord p k 1)
  | .fillNow => s.fillNowOrder r (s.targetWord p k) (s.argWord p k 1) (s.orderLong p k 2)
  | .turnoverNow => s.turnoverNowOrder r
  | .cancelPlan => s.cancelPlanOrder r (s.targetWord p k)
  | .readPlan => s.readPlanOrder r (s.targetWord p k)
  | .readActuator => s.readActuatorOrder r (s.targetWord p k)
  | .startPump => s.startPumpOrder r (s.targetWord p k) (s.argWord p k 1)
  | .stopPump => s.stopPumpOrder r (s.targetWord p k) (s.argWord p k 1)
  | .openInlet => s.openInletOrder r (s.argWord p k 1)
  | .closeInlet => s.closeInletOrder r (s.argWord p k 1)
  | .releaseManual => s.releaseManualOrder r
  | .holdActuator => s.holdActuatorOrder r (s.targetWord p k)
  | .releaseHold => s.releaseHoldOrder r (s.targetWord p k)
  | .clearFailure => s.clearFailureOrder r (s.targetWord p k)
  | .resetGuard => s.resetGuardOrder r
  | .guardTest => s.guardTestOrder r
  | .journalMark => s.journalMarkOrder r (s.hostBytes p k)
  | .flushJournal => s.flushJournalOrder r

/-- A taken page's entry changed. -/
def State.modTaken (p : Page) (f : TakenPage → TakenPage) (s : State) : State :=
  { s with eng := { s.eng with taken := s.eng.taken.map fun t => if t.page = p then f t else t } }

/-- The entry of a taken page. -/
def State.takenEntry (s : State) (p : Page) : Option TakenPage := s.eng.taken.find? fun t => decide (t.page = p)

/-- What the CHAIN test finds (R141). -/
inductive Chain where
  | go | notRun | park
  deriving DecidableEq, Repr

/-- The CHAIN test of slot `k`. -/
def State.chainTest (s : State) (p : Page) (k : Nat) : Chain :=
  let st := (List.range k).map (s.orderStatus p)
  if !s.orderChain p k || st.all (fun n => decide (n = Status.done.code)) then .go
  else if st.any fun n => finalStatus n && decide (n ≠ Status.done.code) then .notRun
  else .park

/-- One slot of a page: steps 1 to 3 of Table 8-2, then the rest. -/
def State.runSlot (r : OrderRef) (s : State) : State :=
  let p := r.page
  let k := r.slot.val
  let s1 := s.modTaken p fun t => { t with next := k + 1 }
  if s.orderStatus p k ≠ Status.new.code then s1.writeStatus r .notRun .none
  else match OrderCode.ofCode (s.orderCode p k) with
    | none => s1.writeStatus r .refused .unknownOrder
    | some c =>
      match s.chainTest p k with
      | .go => s1.handSlot c r
      | .notRun => s1.writeStatus r .notRun .none
      | .park => s.modTaken p fun t => { t with next := k, parked := true }

/-- A page runs from its next slot on, until it parks or every slot has been reached; a page has at most seven slots. -/
def State.runSlots : Nat → Page → State → State
  | 0, _, s => s
  | fuel + 1, p, s =>
    match s.takenEntry p with
    | none => s
    | some t =>
      if t.parked then s
      else if h : t.next < 7 then
        if s.orderCount p ≤ t.next then s else State.runSlots fuel p (s.runSlot ⟨p, ⟨t.next, h⟩⟩)
      else s

/-- A page runs, and its answer sets out when its conditions hold (R142). -/
def State.runPage (p : Page) (s : State) : State := (s.runSlots 8 p).checkAnswer p

/-- An order of a page has become final outside its running: a parked page resumes, and the answer is tested (R141,
R142). -/
def State.orderEnded (p : Page) (s : State) : State :=
  match s.takenEntry p with
  | none => s
  | some t => if t.parked then (s.modTaken p fun t => { t with parked := false }).runPage p else s.checkAnswer p

/-- An order commanded by its row runs from step 4 on (log 17). -/
def State.orderRow (r : OrderRef) (f : State → State) (s : State) : State := s.alive fun s => (f s).orderEnded r.page

/-! ## Taking and answering (R136, R142) -/

/-- Whether the head of the submission list can be taken. -/
def State.takeable (s : State) : Bool :=
  !s.eng.submitted.isEmpty && decide (s.eng.taken.length < Config.takenMax) && s.sys.started

/-- A take sets out where one is possible (R136). -/
def State.wantTake (s : State) : State :=
  if s.takeable && !s.transit.contains .pageTake then s.post .pageTake else s

/-- Page status codes (Table 11-3): OK and BAD_HEADER. -/
def pageOk : Nat := 1
/-- BAD_HEADER. -/
def pageBad : Nat := 2

/-- A page becomes ANSWERED: page status, answer time, map entry, ANSWER (R142). -/
def State.answerAs (p : Page) (status : Nat) (s : State) : State :=
  ((s.poke p 3 (b1 status ++ bt s.now)).setPageState p .answered).raise .answer p.val

/-- Every slot of a page, in order. -/
def allSlots : List (Fin 7) := [0, 1, 2, 3, 4, 5, 6]

/-- A page with a bad order count: every order NOT_RUN, then the answer (R136). -/
def State.badHeader (p : Page) (s : State) : State :=
  (overAll allSlots (fun k s => s.writeStatus ⟨p, k⟩ .notRun .none) s).answerAs p pageBad

/-- Whether an order count is in 1 to 7. -/
def countOk (n : Nat) : Bool := decide (1 ≤ n ∧ n ≤ 7)

/-- A page leaves the submission list TAKEN, its sequence byte the last taken one (R136, steps 1 and 2). -/
def State.enterTaken (p : Page) (s : State) : State :=
  { s.setPageState p .taken with
    eng := { s.eng with submitted := s.eng.submitted.erase p, lastTaken := (s.entry p).seq } }

/-- A page with a good order count joins the taken pages and runs (R136, step 4). -/
def State.runTaken (p : Page) (s : State) : State :=
  { s with eng := { s.eng with taken := s.eng.taken ++ [(⟨p, 0, false, 0⟩ : TakenPage)] } }.runPage p

/-- The head of the submission list is taken where it can be; a page with a bad order count is answered at once, and the next
head taken at that answer (R136, R142). Each round takes a page off the list. -/
def State.takeRound : Nat → State → State
  | 0, s => s
  | fuel + 1, s =>
    match s.eng.submitted with
    | [] => s
    | p :: _ =>
      if s.takeable then
        if countOk (s.orderCount p) then ((s.enterTaken p).runTaken p).wantTake
        else State.takeRound fuel ((s.enterTaken p).badHeader p)
      else s

/-- The head of the list is taken where it can be. -/
def State.takeNext (s : State) : State := s.takeRound s.eng.submitted.length

/-- PAGE_TAKE (R136). -/
def State.pageTakeRow (s : State) : State := s.taking .pageTake (·.takeNext)

/-- A page is answered OK and leaves the taken pages; the next head is taken at the same event (R142). -/
def State.answerPage (p : Page) (s : State) : State :=
  ({ s with eng := { s.eng with taken := s.eng.taken.filter fun t => decide (t.page ≠ p) } }.answerAs p pageOk).takeNext

/-- PAGE_ANSWER (R142): the conditions are tested as the answer is made. -/
def State.pageAnswerRow (p : Page) (s : State) : State :=
  s.taking (.pageAnswer p) fun s => if s.pageDone p then s.answerPage p else s

/-- A page joins the submission list (R122, R135). -/
def State.submitPage (p : Page) (s : State) : State :=
  { s with eng := { s.eng with submitted := s.eng.submitted ++ [p] } }.wantTake

/-- A page is withdrawn from the submission list (R122, R136). -/
def State.withdrawPage (p : Page) (s : State) : State :=
  { s with eng := { s.eng with submitted := s.eng.submitted.erase p } }.wantTake

/-! ## In-flight orders (R140) -/

/-- Whether a message reports the end of the order `r`. -/
def reportsOn (r : OrderRef) : Instr → Bool
  | .orderComplete r' _ _ _ => decide (r' = r)
  | _ => false

/-- An in-flight entry is freed; what still reports on its order then finds no order (R140). -/
def State.dropFlight (r : OrderRef) (s : State) : State :=
  { s with
    eng := { s.eng with inflight := s.eng.inflight.filter fun e => decide (e.ref ≠ r) }
    transit := s.transit.filter fun m => !reportsOn r m }

/-- The in-flight entry of an order. -/
def State.flight (s : State) (r : OrderRef) : Option InFlight := s.eng.inflight.find? fun e => decide (e.ref = r)

/-- ORDER_COMPLETE (R140): the result area is written only for DONE (R137). -/
def State.orderCompleteRow (r : OrderRef) (st : Status) (rs : Reason) (res : List Byte) (s : State) : State :=
  s.taking (.orderComplete r st rs res) fun s =>
    match s.flight r with
    | none => s
    | some _ =>
      ((s.dropFlight r).finish r st rs (if st = .done then some res else none)).orderEnded r.page

/-- The engine withdraws a timed-out order's request from its block (R140). -/
def State.withdrawRequest (e : InFlight) (s : State) : State :=
  match e.code, ActId.ofCode e.target with
  | .startPump, some (.pump n) =>
    if (s.pump n).owner = .manual ∨ (s.pump n).owner = .hold then (s.pumpStop n).settle else s
  | .holdActuator, some a =>
    match s.holdNaming a with
    | none => s
    | some h => if h.ref = e.ref ∧ h.established = none then (s.abandonHold h).settle else s
  | .flushJournal, _ => { s with jrn := { s.jrn with flush := none } }
  | _, _ => s

/-- ORDER_TIME_LIMIT (R140): 600 s after the entry. -/
def State.orderTimeLimitRow (r : OrderRef) (s : State) : State :=
  s.taking (.orderTimeLimit r) fun s =>
    match s.flight r with
    | none => s
    | some e =>
      if e.entry + Config.orderLimit ≤ s.now then
        (((s.dropFlight r).finish r .failed .timeLimit none).withdrawRequest e).orderEnded r.page
      else s

/-- The in-flight orders of a kind, in table order. -/
def State.flights (f : InFlight → Bool) (s : State) : List InFlight := s.eng.inflight.filter f

/-- In-flight orders are answered ABORTED with a reason (R140). Their pages resume at the end of the event. -/
def State.abortFlights (es : List InFlight) (rs : Reason) (s : State) : State :=
  overAll es (fun e s => (s.dropFlight e.ref).finish e.ref .aborted rs none) s

/-- The pages of orders that an event has ended resume or are answered. -/
def State.ordersEnded (es : List InFlight) (s : State) : State :=
  overAll (es.map fun e => e.ref.page).eraseDups State.orderEnded s

/-- The body of SERVICE (Table 11-6); way KEY 0, EXPIRED 1, LOCAL 2. -/
def serviceBody (old new : Access) (way : Nat) : List Byte := b1 old.code ++ b1 new.code ++ b1 way ++ rsv 1

/-- A change of the access state with its SERVICE record (R143, R145). -/
def State.serviceRecord (old new : Access) (way : Nat) (s : State) : State :=
  s.make .service s.now none (serviceBody old new way)

/-! ## SERVICE (R143, R144) -/

/-- The orders the end of SERVICE aborts (R144). -/
def serviceOrders : List OrderCode := [.startPump, .stopPump, .openInlet, .closeInlet, .holdActuator]

/-- The access state changes. -/
def State.setAccess (a : Access) (s : State) : State :=
  { s with eng := { s.eng with access := a, serviceEnd := if a = .service then s.eng.serviceEnd else none } }

/-- SERVICE ends (R144) by KEY or by its expiry. -/
def State.endService (way : Nat) (s : State) : State :=
  let es := s.flights fun e => serviceOrders.contains e.code
  (((((s.setAccess .normal).abortFlights es .serviceEnd).letManualGo).serviceRecord .service .normal way).settle).ordersEnded es

/-- SERVICE_EXPIRY (R144). -/
def State.serviceExpiryRow (s : State) : State :=
  s.taking .serviceExpiry fun s =>
    if decide (s.eng.access = .service) && s.due s.eng.serviceEnd then s.endService 1 else s

/-- Whether a KEY value opens SERVICE (R143). -/
def State.keyFits (v : Word) (s : State) : Bool := decide (s.set.siteCode = 0) || decide (v.toNat = s.set.siteCode)

/-- A KEY write reaches the engine (R143). -/
def State.keyed (v : Word) (s : State) : State :=
  match s.eng.access with
  | .normal => if s.keyFits v then ((s.setAccess .service).renewService).serviceRecord .normal .service 0 else s
  | .service => if v = 0 then s.endService 0 else if s.keyFits v then s.renewService else s
  | .localControl => s

/-- KEY (R143): a register access, which acts while the part is held in reset too (R126). -/
def State.keyRow (v : Word) (s : State) : State := s.keyed v

/-! ## LOCAL (R145) -/

/-- Entry to LOCAL (R145): station orders ABORTED LOCAL, SERVICE ends, the station is released, the ACTIVE plan paused. -/
def State.enterLocal (s : State) : State :=
  let old := s.eng.access
  let es := s.flights fun e => e.code.station e.target
  let rest := if old = .service then s.flights fun e => serviceOrders.contains e.code && !e.code.station e.target else []
  let s1 := ((s.localPumps.setAccess .localControl).abortFlights es .localControl).abortFlights rest .serviceEnd
  let s2 := s1.localInlet.pauseStopped .localControl
  ((s2.serviceRecord old .localControl 2).settle).ordersEnded (es ++ rest)

/-- LOCAL_ENTRY (R145). -/
def State.localEntryRow (s : State) : State :=
  s.taking .localEntry fun s =>
    let s1 := { s with sys := { s.sys with localIn := true } }
    if s.eng.access = .localControl then s1 else s1.enterLocal

/-- The end of LOCAL (R145, R62, R27, R91). -/
def State.leaveLocal (s : State) : State :=
  let s1 := (s.setAccess .normal).serviceRecord .localControl .normal 2
  ((((s1.stationBack).guardRecloses).clearPauses .localControl).contest).settle

/-- LOCAL_EXIT (R145). -/
def State.localExitRow (s : State) : State :=
  s.taking .localExit fun s =>
    let s1 := { s with sys := { s.sys with localIn := false } }
    if s.eng.access = .localControl then s1.leaveLocal else s1

/-! ## Mains loss (R152) -/

/-- ORDER_MAINS_LOSS (R152): the plant orders in flight are answered ABORTED POWER. -/
def State.orderMainsLossRow (s : State) : State :=
  s.taking .orderMainsLoss fun s =>
    let es := s.flights fun e => plantOrders.contains e.code
    (s.abortFlights es .power).ordersEnded es

end Sys2Proof.Machine
end

