-- ==== Sys2Proof/Machine/Port.lean ====
section
/-! DEFINITION. The memory port (07): the checks of host writes, the registers, the board copy, and what a read returns. -/

namespace Sys2Proof.Machine

/-! ## Writes to tower memory (R120 to R127) -/

/-- The listed host transitions (Table 7-3). -/
def hostMove : PageState → PageState → Bool
  | .free, .orderDraft => true
  | .free, .journalGiven => true
  | .orderDraft, .free => true
  | .orderDraft, .submitted => true
  | .submitted, .orderDraft => true
  | .answered, .free => true
  | .answered, .orderDraft => true
  | .journalGiven, .free => true
  | .journalFull, .free => true
  | .journalFull, .journalGiven => true
  | _, _ => false

/-- The low byte of a word. -/
def lowByte (v : Word) : Byte := v.setWidth 8
/-- The high byte of a word. -/
def highByte (v : Word) : Byte := (v >>> 8).setWidth 8

/-- What a host transition passes to the block Table 7-3 names. -/
def State.passMove (p : Page) (old new : PageState) (s : State) : State :=
  match new with
  | .journalGiven => s.givePage p
  | .submitted => s.submitPage p
  | .orderDraft => if old = .submitted then s.withdrawPage p else s
  | .free => if old = .journalGiven then s.ungivePage p else s
  | _ => s

/-- Whether the port takes host writes to tower memory: not while the part is held in reset, nor before the page map is
ready (R126, log 8). -/
def State.mapOpen (s : State) : Bool := s.port.mapReady && !s.sys.held

/-- A host write to the entry of a page (R122). -/
def State.entryWrite (p : Page) (v : Word) (s : State) : State :=
  if s.mapOpen then
    let old := (s.entry p).state
    match PageState.ofCode (lowByte v).toNat with
    | none => s.dropWrite p.val v .mapTransition
    | some new =>
      if hostMove old new then (s.setEntry p ⟨new, highByte v⟩).passMove p old new else s.dropWrite p.val v .mapTransition
  else s.dropWrite p.val v .starting

/-- MAP_ENTRY_WRITE (R122). -/
def State.mapEntryWriteRow (p : Page) (v : Word) (s : State) : State := s.entryWrite p v

/-- The page a word address of tower memory falls in (R120). -/
def pageOfWord (a : BitVec 14) : Page := Fin.ofNat 128 (a.toNat / 128)

/-- Whether the host owns a page in a state (Table 7-2). -/
def PageState.hostOwned (p : PageState) : Bool :=
  decide (p = .free ∨ p = .orderDraft ∨ p = .answered ∨ p = .journalFull)

/-- The outcome of the write check of Table 7-5: the cause of a drop, or none. -/
def State.contentCheck (p : Page) (s : State) : Option ProtectCause :=
  if !s.mapOpen then some .starting
  else if p.val = 1 then some .board
  else if p.val < 4 then if s.eng.access = .service then none else some .settingsLocked
  else if (s.entry p).state.hostOwned then none else some .owned

/-- The word stored at a word address: the lower-numbered byte is the low half (R120). -/
def State.storeWord (a : Nat) (v : Word) (s : State) : State := { s with mem := s.mem.writes (2 * a) [lowByte v, highByte v] }

/-- A host write to a word of tower memory; a word of page 0 is a map entry (R120, R122, R125). -/
def State.contentWriteRow (a : BitVec 14) (v : Word) (s : State) : State :=
  let p := pageOfWord a
  if p.val = 0 then s.entryWrite (Fin.ofNat 128 a.toNat) v
  else match s.contentCheck p with
    | none => s.storeWord a.toNat v
    | some c => s.dropWrite a.toNat v c

/-! ## Registers (7.5) -/

/-- ATTN_WRITE (R128). -/
def State.attnWriteRow (v : Word) (s : State) : State := s.clearAttn v

/-- ATTN_EN_WRITE (R130). -/
def State.attnEnWriteRow (v : Word) (s : State) : State := { s with port := { s.port with attnEn := v.setWidth 6 } }

/-- IGNORED_WRITE (R120): PART_ID and the addresses where nothing answers. -/
def State.ignoredWriteRow (_a : BitVec 15) (_v : Word) (s : State) : State := s

/-- Whole minutes left before SERVICE expires, rounded up; 0 outside SERVICE (R132). -/
def State.minutesLeft (s : State) : Nat :=
  match s.eng.access, s.eng.serviceEnd with
  | .service, some t => max 1 ((t - s.now + 59) / 60).toNat
  | _, _ => 0

/-! ## The board copy (R131, 11.2) -/

/-- The nine actuators, in table order. -/
def nine : List ActId := [.pump 0, .pump 1, .pump 2, .pump 3, .inlet, .heater 0, .heater 1, .heater 2, .heater 3]

/-- How many records of a class wait in the queue. -/
def State.queuedOf (s : State) (c : Fin 3) : Nat := (s.jrn.queue.filter fun r => decide (r.kind.cls = c)).length

/-- The copy of every block's state (R131), the copy count being `n`. -/
def State.copyBoard (n : Nat) (s : State) : BoardCopy where
  count := n
  time := s.now
  judgement := s.survey.judgement
  guard := s.guard
  frost := s.frost
  zoneSets := s.set.zones
  cal := s.cal
  arb := s.arb
  acts := nine.map s.summary
  plans := s.plans.slots
  holds := s.act.holds
  submitted := s.eng.submitted.length
  taken := s.eng.taken.map TakenPage.page
  inflight := s.eng.inflight
  queued := [s.queuedOf 0, s.queuedOf 1, s.queuedOf 2]
  gaps := s.jrn.gaps
  openPage := s.jrn.opened.map OpenPage.page
  given := s.jrn.given.length
  access := s.eng.access
  minutesLeft := s.minutesLeft
  power := s.sys.power
  number := s.sys.number
  source := s.sys.source
  standby := s.sys.standby

/-- A temperature with its valid flag. -/
def tempBytes (t : Temp) : List Byte := bs2 t.value ++ bb t.valid

/-- The judgement record (R9), behind a mark that it exists. -/
def judgementBytes : Option Judgement → List Byte
  | none => b1 0
  | some j =>
    b1 1 ++ b2 j.level ++ b1 j.band.code ++ b1 j.quality.code ++ b1 (bits [j.disagree, j.floatFault, j.floats.opf])
      ++ b4 j.volume ++ b4 j.inflow ++ b4 j.draw ++ bb j.drawValid ++ tempBytes j.air ++ tempBytes j.water
      ++ j.zones.toList.flatMap tempBytes ++ b1 (bits [j.floats.low, j.floats.high, j.floats.top, j.floats.opf])
      ++ j.chans.toList.flatMap (fun c => bb c.failed ++ b1 c.bad) ++ bt j.time

/-- The guard's state (Table 2-1). -/
def guardBytes (g : GuardState) : List Byte :=
  b1 g.mode.code ++ bb g.frostFlag ++ b2 g.effWarn ++ b2 g.effTrip ++ b1 g.confirm ++ b1 (causeSet g.causes)
    ++ b1o (g.first.map Cause.code) ++ bto g.tripTime ++ b4 g.tripSecs ++ b2o g.release ++ bb g.episode.isSome
    ++ bto (g.episode.map Episode.start) ++ b4o (g.episode.map Episode.elapsed) ++ bb g.mode.seizes

/-- A zone record (Table 6-3). -/
def zoneBytes (n : Nat) (c : ZoneSet) (z : Zone) : List Byte :=
  b1 n ++ bb c.fitted ++ b1 c.channel.val ++ bs2 c.onTemp ++ bs2 c.offTemp ++ bs2 c.hardTemp ++ b2 c.units ++ b1 c.level
    ++ b1 c.failDuty ++ b1 z.state.code ++ bb z.urgent ++ bb z.want ++ b2 z.duty ++ tempBytes z.temp

/-- The frost unit's state (Table 6-1) with the zone records. -/
def frostBytes (f : FrostCtl) (cs : Vector ZoneSet 4) : List Byte :=
  b1 f.state.code ++ bb f.noAir
    ++ (List.range 4).flatMap (fun n => match f.zones[n]?, cs[n]? with
      | some z, some c => zoneBytes n c z
      | _, _ => [])
    ++ b4 f.stagnation ++ bb f.first

/-- The calendar's state (Table 4-2); a window of the day before day 0 has day number 0 (log 58). -/
def calBytes (c : CalState) : List Byte :=
  bt c.count ++ bb c.set ++ b1o (c.band.map Tariff.code) ++ b1o (c.window.map fun w => if w.cheap then 0 else 1)
    ++ b2o (c.window.map fun w => w.ident.day.toNat) ++ b1o (c.window.map fun w => w.ident.slot)
    ++ bto (c.window.map Window.endTime) ++ b2o (c.lastBegun.map fun w => w.day.toNat) ++ b1o (c.lastBegun.map WindowId.slot)

/-- The arbiter's budget, mask, claim list and grant table (Table 4-3). -/
def arbBytes (a : ArbState) : List Byte :=
  b2 a.budget ++ b1 a.mask ++ b1 a.claims.length
    ++ a.claims.flatMap (fun c => b1 c.who.act.code ++ b2 c.units ++ b1 c.level ++ bb c.urgent ++ b2 c.join)
    ++ b1 a.grants.length
    ++ a.grants.flatMap (fun g => b1 g.who.act.code ++ b2 g.units ++ b1 g.level ++ bb g.urgent ++ b2 g.join ++ bb g.recalled)

/-- The summary of an actuator entry; run minutes and recent tries for the pumps, the first four. -/
def summaryBytes (pump : Bool) (a : ActSummary) : List Byte :=
  b1 a.ownerKind ++ b1 a.plan ++ b1 a.request ++ b1 a.commanded ++ b1 a.sensed ++ b1 a.machine ++ b1 a.tries ++ b1 a.claim
    ++ b1 a.hold ++ (if pump then b4 a.minutes ++ b1 a.recentStarts else [])

/-- An order reference, absent as 0xFF. -/
def refBytes (r : Option OrderRef) : List Byte := b1o (r.map fun r => r.page.val) ++ b1o (r.map fun r => r.slot.val)

/-- A plan record (Table 5-2). -/
def planBytes (p : Plan) : List Byte :=
  b1 p.number ++ b1 p.kind.code ++ b1 p.origin.code ++ b1 p.state.code ++ b1o (p.pause.map Pause.code) ++ b2 p.target
    ++ b4 p.targetVolume ++ bb p.floats ++ bto p.deadline ++ b2o (p.window.map fun w => w.day.toNat)
    ++ b1o (p.window.map WindowId.slot) ++ bto p.latest ++ bto p.startAt ++ b1 p.stage
    ++ b1 p.engaged.length ++ p.engaged.flatMap (fun k => b1 k.val) ++ b4 p.delivered ++ b4 p.runTime ++ bto p.firstActive
    ++ bto p.activeSince ++ b2o p.activeLevel ++ b1o (if p.kind = .turnover then some (if p.draw then 0 else 1) else none)
    ++ b2o p.startLevel ++ b2o p.depth ++ b4o (if p.kind = .turnover then some p.drawSecs else none) ++ b4o p.runOn
    ++ bt p.created ++ b1o (p.endCause.map EndCause.code) ++ refBytes p.ref

/-- The plan table: the slots that hold a plan. -/
def plansBytes (v : Vector (Option Plan) 6) : List Byte :=
  let ps := v.toList.filterMap id
  b1 ps.length ++ ps.flatMap planBytes

/-- A hold record (Table 3-6). -/
def holdBytes (h : Hold) : List Byte :=
  b1 h.number ++ b1 h.act.code ++ bb h.established.isSome ++ bt h.requested ++ bto h.established ++ bt h.deadline
    ++ b1 h.ref.page.val ++ b1 h.ref.slot.val

/-- The engine's counts and in-flight table. -/
def engineBytes (c : BoardCopy) : List Byte :=
  b1 c.submitted ++ b1 c.taken.length ++ c.taken.flatMap (fun p => b1 p.val) ++ b1 c.inflight.length
    ++ c.inflight.flatMap fun e => b1 e.ref.page.val ++ b1 e.ref.slot.val ++ b1 e.code.code ++ b2 e.target ++ bt e.entry

/-- The writer's queue by class, gap counts and times, open page and given list. -/
def journalBytes (c : BoardCopy) : List Byte :=
  c.queued.flatMap b1 ++ c.gaps.toList.flatMap (fun g => b2 g.count ++ bt g.first ++ bt g.last)
    ++ b1o (c.openPage.map fun p => p.val) ++ b1 c.given

/-- The copy area: from offset 64, the items in the order of R131. -/
def BoardCopy.bytes (c : BoardCopy) : List Byte :=
  b2 c.count ++ bt c.time ++ judgementBytes c.judgement ++ guardBytes c.guard ++ frostBytes c.frost c.zoneSets ++ calBytes c.cal
    ++ arbBytes c.arb ++ c.acts.zipIdx.flatMap (fun a => summaryBytes (decide (a.2 < 4)) a.1) ++ plansBytes c.plans
    ++ b1 c.holds.length ++ c.holds.flatMap holdBytes ++ engineBytes c ++ journalBytes c ++ b1 c.access.code
    ++ b1 c.minutesLeft ++ b1 c.power.code ++ b2 c.number ++ b1 c.source.code ++ bb c.standby

/-- Where the copy area begins on the board page, and how many bytes the page has from there on. -/
def copyOffset : Nat := 64

/-- A board copy is made (R131). What passes the end of the board page is not stored there (log 14). -/
def State.latchRow (_v : Word) (s : State) : State :=
  let n := (s.port.copies + 1) % Config.wrap16
  let c := s.copyBoard n
  { s with port := { s.port with copies := n, board := some c } }.poke boardPage copyOffset
    (c.bytes.take (Config.pageBytes - copyOffset))

/-! ## What a host read returns (R120, Table 7-1) -/

/-- The word of tower memory at a word address. -/
def State.wordAt (s : State) (a : Nat) : Word := BitVec.ofNat 16 ((s.mem.read (2 * a)).toNat + 256 * (s.mem.read (2 * a + 1)).toNat)

/-- What a read of a word address returns. Reads change nothing, so they are no command. -/
def State.portRead (s : State) (a : BitVec 15) : Word :=
  if a.toNat < 16384 then s.wordAt a.toNat
  else if a.toNat = 16384 then Config.partId
  else if a.toNat = 16385 then s.port.attn.setWidth 16
  else if a.toNat = 16386 then s.port.attnEn.setWidth 16
  else if a.toNat = 16387 then BitVec.ofNat 16 s.port.copies
  else if a.toNat = 16388 then BitVec.ofNat 16 (s.eng.access.code + 256 * s.minutesLeft)
  else 0

end Sys2Proof.Machine
end

