-- ==== Sys2Proof/Machine/Start.lean ====
section
/-! DEFINITION. Power states and start-up (10): mains loss and restore, the stagger, resets, the format check, the
repair of the page map, and the start-up of R169. -/

namespace Sys2Proof.Machine

/-! ## Mains (R168, R171) -/

/-- The part becomes DARK: a POWER record, a stagger abandoned, and the loss passed to the blocks (R168). -/
def State.goDark (s : State) : State :=
  (({ s with sys := { s.sys with power := .dark, stagger := none } }).make .power s.now none (b1 0 ++ rsv 3)).posts
    [.actuatorMainsLoss, .arbiterMainsLoss, .planMainsLoss, .orderMainsLoss]

/-- MAINS_LOSS (R168): an event in RUN; otherwise the input is only noted. -/
def State.mainsLossRow (s : State) : State :=
  s.alive fun s =>
    let s1 := { s with sys := { s.sys with mains := false } }
    if s.sys.power = .run then s1.goDark else s1

/-- The stagger is over: causes POWER clear, the contest is run, waiting tries begin (R168, R40, R91). -/
def State.staggerOver (s : State) : State :=
  ((({ s with sys := { s.sys with stagger := none } }).clearPauses .power).contest).settle

/-- STAGGER_END (R168). -/
def State.staggerEndRow (s : State) : State :=
  s.taking .staggerEnd fun s => if s.due s.sys.stagger then s.staggerOver else s

/-- The stagger begins as the part comes to RUN; with `restart_stagger` 0 it ends at once (R168). -/
def State.beginStagger (s : State) : State :=
  if s.set.restartStagger = 0 then s.staggerOver
  else { s with sys := { s.sys with stagger := some (s.now + s.set.restartStagger) } }

/-- The body of START (Table 11-6); cause COLD 0, PIN 1, MAINS 2; memory KEPT 0, INITIALIZED 1. -/
def startBody (cause : Nat) (src : Source) (memory repaired site : Nat) : List Byte :=
  b1 cause ++ b1 src.code ++ b1 memory ++ b1 repaired ++ b2 site ++ rsv 2

/-- The START record and RESTART (R169 steps 5 and 6, R171). -/
def State.announce (cause memory repaired : Nat) (s : State) : State :=
  (s.make .start s.now none (startBody cause s.sys.source memory repaired s.set.siteNumber)).raise .restart cause

/-- The mains-present input as it now stands. -/
def State.setMains (on : Bool) (s : State) : State := { s with sys := { s.sys with mains := on } }

/-- Whether the mains-present input has already fallen again (R171): its loss is the command that waits next (log 54). -/
def State.mainsFallen (s : State) : Bool := match s.pending with
  | .mainsLoss :: _ => true
  | _ => false

/-- MAINS_RESTORE (R171): the mains-restore start-up of a DARK part, which ends in RUN, or in DARK again where the input is no
longer active at its end. -/
def State.mainsRestoreRow (s : State) : State :=
  s.alive fun s =>
    if s.sys.power = .dark then
      let s1 := (s.setMains !s.mainsFallen).announce 2 0 0
      if s.mainsFallen then s1.goDark
      else (({ s1 with sys := { s1.sys with power := .run } }).post .actuatorMainsRestore).beginStagger
    else s.setMains true

/-! ## Resets (the "after each start" tables) -/

/-- The bytes of the board page that a reset clears: protect record and attention detail (Table 7-8). -/
def State.clearBoardRecords (s : State) : State :=
  s.poke boardPage 2 (Protect.initial.bytes ++ rsv 2 ++ rsv 48)

/-- A record lost with the queue at a pin reset is counted in its class (R155, R162). -/
def State.loseQueue (s : State) : State := overAll s.jrn.queue (fun r s => s.lose r.kind.cls) s

/-- What a pump keeps at a pin reset: its feedback and its run minutes (Table 3-7). -/
def Pump.afterReset (p : Pump) : Pump := { Pump.initial with feedback := p.feedback, minutes := p.minutes }

/-- The controller after a pin reset. -/
def ActState.afterReset (a : ActState) : ActState where
  pumps := a.pumps.map Pump.afterReset
  inlet := { Inlet.initial with
    openLs := a.inlet.openLs, closedLs := a.inlet.closedLs, mode := judged a.inlet.openLs a.inlet.closedLs }
  heaters := a.heaters.map fun h => { Heater.initial with current := h.current }
  holds := []
  lastHold := 0

/-- A pin reset: everything but tower memory, the battery domain (Table 10-5) and the pins returns to its start, and the
messages on their way are lost. The part is then held in reset, its power state START already (log 63). The records lost with the
queue have the time of the assertion as their drop time (log 61). -/
def State.resetAssert (s : State) : State :=
  let s1 := s.loseQueue
  ({ s1 with
    port := { PortState.initial with board := s.port.board }
    survey := { SurveyState.initial with hours := s.survey.hours }
    guard := GuardState.initial s.set
    act := s.act.afterReset
    cal := { CalState.initial with count := s.cal.count, set := s.cal.set, band := none }
    arb := ArbState.initial s.set
    plans := PlanCtl.initial
    frost := FrostCtl.initial s.set
    eng := { EngState.initial with
      lastTaken := s.eng.lastTaken, access := if s.sys.localIn then .localControl else .normal }
    jrn := { JrnState.initial with seq := s.jrn.seq, fill := s.jrn.fill, gaps := s1.jrn.gaps, resetMark := true }
    sys := { s.sys with power := .start, standby := false, stagger := none, started := false, held := true }
    transit := [] }).clearBoardRecords

/-- RESET_INPUT_ASSERTED (R28, R37); a second assertion finds the part held already. -/
def State.resetInputRow (s : State) : State := s.alive (·.resetAssert)

/-- A cold start: power applied with the battery domain lost; tower memory and the queue of commands stand. -/
def State.coldState (s : State) : State :=
  ({ State.reset with
    mem := s.mem, pending := s.pending, port := { PortState.initial with board := s.port.board } }).clearBoardRecords

/-! ## Step 1: the format (R133) -/

/-- Every page, in order. -/
def allPages : List Page := List.finRange 128

/-- Whether page 1 begins with the format word. -/
def State.formatted (s : State) : Bool := decide (s.wordAt 128 = Config.formatWord)

/-- The entry of a page as page 0 holds it, and whether it must be corrected (R133). -/
def State.storedEntry (s : State) (p : Page) : MapEntry × Bool :=
  let seq := s.mem.read (2 * p.val + 1)
  match PageState.ofCode (s.mem.read (2 * p.val)).toNat with
  | none => if p.val < 4 then (⟨.fixed, 0⟩, true) else (⟨.free, 0⟩, true)
  | some st =>
    if p.val < 4 then if st = .fixed then (⟨.fixed, seq⟩, false) else (⟨.fixed, 0⟩, true)
    else if st = .fixed then (⟨.free, 0⟩, true)
    else (⟨st, seq⟩, false)

/-- The shadow is loaded from page 0; a corrected entry is written back (R133). -/
def State.loadEntry (p : Page) (s : State) : State :=
  let e := s.storedEntry p
  if e.2 then s.setEntry p e.1 else { s with port := { s.port with shadow := s.port.shadow.set p.val e.1 p.isLt } }

/-- How many entries the load corrects. -/
def State.corrections (s : State) : Nat := (allPages.filter fun p => (s.storedEntry p).2).length

/-- A blank or damaged memory is initialized: no copy, the protect record ARMED, every detail line 0 (R133). -/
def State.initializeMemory (s : State) : State :=
  let s1 := overAll allPages (fun p s => s.setEntry p ⟨if p.val < 4 then .fixed else .free, 0⟩) s
  { s1 with port := { s1.port with
      board := none, protect := Protect.initial, detail := Vector.replicate 6 ⟨0, 0, 0⟩ } }.poke boardPage 0 (b2 Config.formatWord.toNat ++ rsv 254)

/-! ## Step 2: the settings (R167) -/

/-- Working settings, settings number, source and STANDBY by the STARTSEL straps (Table 10-4). -/
def State.chooseSettings (sel : Nat) (s : State) : Settings × Nat × Source × Bool :=
  match sel with
  | 0 =>
    match s.validate with
    | .ok t => (t, s.imgNumber, .image, false)
    | .error _ => (factory, 0, .defaultsAfterFault, false)
  | 1 => (factory, 0, .defaults, false)
  | _ => (factory, 0, .standby, true)

/-- The blocks take the settings of a start-up (R37, R82, Table 6-6). -/
def State.loadSettings (sel : Nat) (s : State) : State :=
  let (t, n, src, standby) := s.chooseSettings sel
  { s with
    sys := { s.sys with settings := t, number := n, source := src, standby := standby }
    guard := GuardState.initial t
    arb := ArbState.initial t
    frost := FrostCtl.initial t }

/-- A heater as its current is found at the start: with current ON and the contactor OFF the 10 s of R52 begin. -/
def Heater.found (c : Bool) (now : Time) (p : Heater) : Heater :=
  { p with current := c, stuckDl := if c then some (now + Config.stopConfirm) else none }

/-- The access state at the start: LOCAL by its input, else what a KEY write has made of NORMAL since the reset (Table 8-5). -/
def Access.found (localIn : Bool) (a : Access) : Access :=
  if localIn then .localControl else if a = .localControl then .normal else a

/-- The inputs found at the start; every pump contactor is OFF through it, and the map is not ready (R64, R126, R168, Table 3-7). -/
def State.takeInputs (x : StartInputs) (s : State) : State :=
  let pumps := s.act.pumps.zipWith (fun p f => { p with contactor := false, feedback := f }) x.feedback
  let heaters := s.act.heaters.zipWith (fun p c => p.found c s.now) x.current
  { s with
    act := { s.act with
      pumps := pumps
      heaters := heaters
      inlet := { s.act.inlet with openLs := x.openLs, closedLs := x.closedLs, mode := judged x.openLs x.closedLs } }
    eng := { s.eng with
      access := s.eng.access.found x.localIn, serviceEnd := if x.localIn then none else s.eng.serviceEnd }
    sys := { s.sys with power := .start, held := false, mains := x.mains, localIn := x.localIn }
    port := { s.port with mapReady := false } }

/-- The judgement of the first survey reaches the guard, the plan controller and the frost unit within the start-up
(log 28). -/
def State.firstJudgement (s : State) : State :=
  match s.survey.judgement with
  | none => s
  | some j => ((s.guardJudges j).planJudges j).frostJudges j

/-- The cheap start of the first evaluation reaches the plan controller within the start-up (R72, log 28). -/
def State.firstCheapStart (s : State) : State :=
  match s.transit.find? fun m => match m with
    | .cheapStart _ _ => true
    | _ => false with
  | some (.cheapStart w e) => (s.unpost (.cheapStart w e)).cheapStarts w e
  | _ => s

/-- Step 2 of R169. -/
def State.startStep2 (x : StartInputs) (s : State) : State :=
  ((((s.loadSettings x.startsel.val).doSurvey x.sample).firstEvaluation).firstJudgement).firstCheapStart

/-! ## Step 3: the repair (R170) -/

/-- An order found NEW or IN_FLIGHT in a TAKEN page. -/
def State.repairOrder (p : Page) (k : Fin 7) (s : State) : State :=
  if s.orderStatus p k.val ≤ 1 then s.writeStatus ⟨p, k⟩ .aborted .reset else s

/-- A TAKEN page is answered. -/
def State.repairTaken (p : Page) (s : State) : State :=
  let n := s.orderCount p
  if countOk n then (overAll (allSlots.filter fun k => decide (k.val < n)) (State.repairOrder p) s).answerAs p pageOk
  else s.badHeader p

/-- A JOURNAL_OPEN page is closed RESET_CLOSED (R162). -/
def State.repairOpen (p : Page) (s : State) : State :=
  ((s.poke p 6 [s.mem.read (addr p 6) ||| 8]).setPageState p .journalFull).raise .journal p.val

/-- A page joins a rebuilt submission list by the distance of its sequence byte from the last taken one. -/
def placePage (d : Page → Nat) (p : Page) : List Page → List Page
  | [] => [p]
  | q :: l => if d p < d q then p :: q :: l else q :: placePage d p l

/-- The distance of a page's sequence byte (R170). -/
def State.distance (s : State) (p : Page) : Nat := ((s.entry p).seq - s.eng.lastTaken).toNat

/-- A page's entry is repaired. -/
def State.repairPage (p : Page) (s : State) : State :=
  match (s.entry p).state with
  | .taken => s.repairTaken p
  | .journalOpen => s.repairOpen p
  | .submitted => { s with eng := { s.eng with submitted := placePage s.distance p s.eng.submitted } }
  | .journalGiven => { s with jrn := { s.jrn with given := s.jrn.given ++ [p] } }
  | _ => s

/-- How many pages the repair answers or closes. -/
def State.repairs (s : State) : Nat :=
  (allPages.filter fun p => decide ((s.entry p).state = .taken ∨ (s.entry p).state = .journalOpen)).length

/-- Step 3 of R169: the repair of a KEPT memory, which would find nothing in one just initialized, then the map ready and the
writer at work (R126, R162). -/
def State.startStep3 (s : State) : State :=
  let s1 := overAll allPages State.repairPage s
  ({ s1 with
    port := { s1.port with mapReady := true }
    jrn := { s1.jrn with starting := false } }).writer

/-! ## The end of start-up (R169, R64) -/

/-- The power state at the end of start-up; `pin` where the stagger is due. -/
def State.startPower (pin : Bool) (s : State) : State :=
  if s.sys.mains then
    let s1 := { s with sys := { s.sys with power := .run } }
    let s2 := if s1.eng.access = .localControl then s1 else overAll four State.runOn s1
    let s3 := s2.driveHeld
    (if pin then s3.beginStagger else s3.contest).settle
  else s.goDark

/-- The end of start-up: the power state, and the order engine may take pages (R168, R136). -/
def State.startEnd (pin : Bool) (s : State) : State :=
  let s1 := s.startPower pin
  ({ s1 with sys := { s1.sys with started := true } }).wantTake

/-- Start-up (R169); cause COLD 0 or PIN 1. A pin reset that cuts it short leaves what the steps before it have done to tower
memory and the battery domain, and the part held in reset (log 53). -/
def State.startUp (cause : Nat) (x : StartInputs) (s : State) : State :=
  let s0 := s.takeInputs x
  let kept := s0.formatted
  let fixes := if kept then s0.corrections else 0
  let s1 := if kept then overAll allPages State.loadEntry s0 else s0.initializeMemory
  let s2 := s1.startStep2 x
  let repaired := if kept then fixes + s2.repairs else 0
  let s3 := s2.startStep3.announce cause (if kept then 0 else 1) repaired
  match x.cut with
  | none => s3.startEnd (decide (cause = 1))
  | some .format => s1.resetAssert
  | some .settings => s2.resetAssert
  | some (.repair n) => (if kept then overAll (allPages.take n.val) State.repairPage s2 else s2).resetAssert
  | some .record => s3.resetAssert

/-- COLD_START (R169). -/
def State.coldStartRow (x : StartInputs) (s : State) : State := s.coldState.startUp 0 x

/-- PIN_RESET (R169): the reset input is released; a part not yet held has its reset first. -/
def State.pinResetRow (x : StartInputs) (s : State) : State := (if s.sys.held then s else s.resetAssert).startUp 1 x

end Sys2Proof.Machine
end

