-- ==== Sys2Proof/Machine/Rows.lean ====
section
/-! DEFINITION. The meanings: one definition for each command, each the next state its block leaves. -/

namespace Sys2Proof.Machine

/-- SURVEY (R1). -/
def execSurvey (x : Sample) (s : State) : Host.Outcome State Fault Refusal := .next (s.surveyRow x)
/-- CLOCK_SET_REPORT (R15). -/
def execClockSetReport (old : Time) (new : Time) (s : State) : Host.Outcome State Fault Refusal :=
  .next (s.clockSetReportRow old new)
/-- GUARD_JUDGEMENT (R23). -/
def execGuardJudgement (j : Judgement) (s : State) : Host.Outcome State Fault Refusal := .next (s.guardJudgementRow j)
/-- FROST_STATE_CHANGE (R21). -/
def execFrostStateChange (f : FrostState) (s : State) : Host.Outcome State Fault Refusal := .next (s.frostStateChangeRow f)
/-- GUARD_TRAVEL_END (R27). -/
def execGuardTravelEnd (s : State) : Host.Outcome State Fault Refusal := .next (s.guardTravelEndRow)
/-- CLAIM (R74). -/
def execClaim (c : Load) (units : Nat) (level : Nat) (urgent : Bool) (s : State) : Host.Outcome State Fault Refusal :=
  .next (s.claimRow c units level urgent)
/-- WITHDRAWAL (R74). -/
def execWithdrawal (c : Load) (s : State) : Host.Outcome State Fault Refusal := .next (s.withdrawalRow c)
/-- GRANT_RELEASE (R77). -/
def execGrantRelease (c : Load) (s : State) : Host.Outcome State Fault Refusal := .next (s.grantReleaseRow c)
/-- RELEVEL (R75). -/
def execRelevel (c : Load) (level : Nat) (urgent : Bool) (s : State) : Host.Outcome State Fault Refusal :=
  .next (s.relevelRow c level urgent)
/-- MASK_CHANGE (R78). -/
def execMaskChange (mask : Nat) (s : State) : Host.Outcome State Fault Refusal := .next (s.maskChangeRow mask)
/-- BUDGET_CHANGE (R80). -/
def execBudgetChange (budget : Nat) (s : State) : Host.Outcome State Fault Refusal := .next (s.budgetChangeRow budget)
/-- ARBITER_MAINS_LOSS (R81). -/
def execArbiterMainsLoss (s : State) : Host.Outcome State Fault Refusal := .next (s.arbiterMainsLossRow)
/-- TRY_BEGIN (R41). -/
def execTryBegin (c : Load) (s : State) : Host.Outcome State Fault Refusal := .next (s.tryBegin c)
/-- TRY_DEADLINE (R41). -/
def execTryDeadline (n : Fin 4) (s : State) : Host.Outcome State Fault Refusal := .next (s.tryDeadline n)
/-- RETRY_DEADLINE (R41). -/
def execRetryDeadline (n : Fin 4) (s : State) : Host.Outcome State Fault Refusal := .next (s.retryDeadline n)
/-- RUN_FEEDBACK_CHANGE (R45). -/
def execRunFeedbackChange (n : Fin 4) (on : Bool) (s : State) : Host.Outcome State Fault Refusal :=
  .next (s.runFeedbackChange n on)
/-- MIN_RUN_ELAPSED (R44). -/
def execMinRunElapsed (n : Fin 4) (s : State) : Host.Outcome State Fault Refusal := .next (s.minRunElapsed n)
/-- STOP_CONFIRM_EXPIRY (R45). -/
def execStopConfirmExpiry (n : Fin 4) (s : State) : Host.Outcome State Fault Refusal := .next (s.stopConfirmExpiry n)
/-- MIN_OFF_EXPIRY (R45). -/
def execMinOffExpiry (n : Fin 4) (s : State) : Host.Outcome State Fault Refusal := .next (s.minOffExpiry n)
/-- START_LIST_AGEING (R42). -/
def execStartListAgeing (n : Fin 4) (s : State) : Host.Outcome State Fault Refusal := .next (s.startListAgeing n)
/-- RECALL (R46). -/
def execRecall (c : Load) (s : State) : Host.Outcome State Fault Refusal := .next (s.recall c)
/-- STAGE_REQUEST (R55). -/
def execStageRequest (plan : Nat) (count : Nat) (leaving : Bool) (s : State) : Host.Outcome State Fault Refusal :=
  .next (s.stageRequest plan count leaving)
/-- PLAN_GRANT (R53). -/
def execPlanGrant (plan : Nat) (s : State) : Host.Outcome State Fault Refusal := .next (s.planGrant plan)
/-- INLET_COMMAND (R48). -/
def execInletCommand (owner : Owner) (pos : Position) (s : State) : Host.Outcome State Fault Refusal :=
  .next (s.inletCommand owner pos)
/-- LIMIT_SWITCH_CHANGE (R49). -/
def execLimitSwitchChange (openLs : Bool) (closedLs : Bool) (s : State) : Host.Outcome State Fault Refusal :=
  .next (s.limitSwitchChange openLs closedLs)
/-- TRAVEL_DEADLINE (R48). -/
def execTravelDeadline (s : State) : Host.Outcome State Fault Refusal := .next (s.travelDeadline)
/-- HEATER_START_REQUEST (R51). -/
def execHeaterStartRequest (h : Fin 4) (level : Nat) (urgent : Bool) (s : State) : Host.Outcome State Fault Refusal :=
  .next (s.heaterStartRequest h level urgent)
/-- HEATER_STOP_REQUEST (R52). -/
def execHeaterStopRequest (h : Fin 4) (s : State) : Host.Outcome State Fault Refusal := .next (s.heaterStopRequest h)
/-- HEATER_CURRENT_CHANGE (R51). -/
def execHeaterCurrentChange (h : Fin 4) (on : Bool) (s : State) : Host.Outcome State Fault Refusal :=
  .next (s.heaterCurrentChange h on)
/-- HEATER_TRY_DEADLINE (R51). -/
def execHeaterTryDeadline (h : Fin 4) (s : State) : Host.Outcome State Fault Refusal := .next (s.heaterTryDeadline h)
/-- HEATER_RETRY_END (R51). -/
def execHeaterRetryEnd (h : Fin 4) (s : State) : Host.Outcome State Fault Refusal := .next (s.heaterRetryEnd h)
/-- HEATER_STUCK_EXPIRY (R52). -/
def execHeaterStuckExpiry (h : Fin 4) (s : State) : Host.Outcome State Fault Refusal := .next (s.heaterStuckExpiry h)
/-- HOLD_DEADLINE (R60). -/
def execHoldDeadline (number : Nat) (s : State) : Host.Outcome State Fault Refusal := .next (s.holdDeadline number)
/-- ACTUATOR_MAINS_LOSS (R61). -/
def execActuatorMainsLoss (s : State) : Host.Outcome State Fault Refusal := .next (s.actuatorMainsLoss)
/-- ACTUATOR_MAINS_RESTORE (R61). -/
def execActuatorMainsRestore (s : State) : Host.Outcome State Fault Refusal := .next (s.actuatorMainsRestore)
/-- TARIFF_EVALUATION (R70). -/
def execTariffEvaluation (s : State) : Host.Outcome State Fault Refusal := .next (s.tariffEvaluationRow)
/-- CLOCK_ROLLOVER (R65). -/
def execClockRollover (s : State) : Host.Outcome State Fault Refusal := .next (s.clockRolloverRow)
/-- CHEAP_START (R92). -/
def execCheapStart (w : WindowId) (endTime : Time) (s : State) : Host.Outcome State Fault Refusal :=
  .next (s.cheapStartRow w endTime)
/-- CHEAP_END (R92). -/
def execCheapEnd (w : WindowId) (s : State) : Host.Outcome State Fault Refusal := .next (s.cheapEndRow w)
/-- PLAN_JUDGEMENT (R86). -/
def execPlanJudgement (j : Judgement) (s : State) : Host.Outcome State Fault Refusal := .next (s.planJudgementRow j)
/-- START_AT_PASSES (R86). -/
def execStartAtPasses (plan : Nat) (s : State) : Host.Outcome State Fault Refusal := .next (s.startAtPassesRow plan)
/-- INLET_SEIZED (R25). -/
def execInletSeized (s : State) : Host.Outcome State Fault Refusal := .next (s.inletSeizedRow)
/-- INLET_FREE (R30). -/
def execInletFree (s : State) : Host.Outcome State Fault Refusal := .next (s.inletFreeRow)
/-- ACTUATOR_REPORT (R87). -/
def execActuatorReport (plan : Nat) (r : Report) (s : State) : Host.Outcome State Fault Refusal :=
  .next (s.actuatorReportRow plan r)
/-- PUMP_AVAILABLE (R90). -/
def execPumpAvailable (n : Fin 4) (s : State) : Host.Outcome State Fault Refusal := .next (s.pumpAvailableRow n)
/-- TURNOVER_REQUEST (R99). -/
def execTurnoverRequest (s : State) : Host.Outcome State Fault Refusal := .next (s.turnoverRequestRow)
/-- PLAN_MAINS_LOSS (R91). -/
def execPlanMainsLoss (s : State) : Host.Outcome State Fault Refusal := .next (s.planMainsLossRow)
/-- FROST_JUDGEMENT (R106). -/
def execFrostJudgement (j : Judgement) (s : State) : Host.Outcome State Fault Refusal := .next (s.frostJudgementRow j)
/-- HEATER_NOTICE (R111). -/
def execHeaterNotice (h : Fin 4) (k : Notice) (s : State) : Host.Outcome State Fault Refusal := .next (s.heaterNoticeRow h k)
/-- TURNOVER_CREATED (R115). -/
def execTurnoverCreated (s : State) : Host.Outcome State Fault Refusal := .next (s.turnoverCreatedRow)
/-- MAP_ENTRY_WRITE (R122). -/
def execMapEntryWrite (p : Page) (v : Word) (s : State) : Host.Outcome State Fault Refusal := .next (s.mapEntryWriteRow p v)
/-- CONTENT_WRITE (R125). -/
def execContentWrite (a : BitVec 14) (v : Word) (s : State) : Host.Outcome State Fault Refusal :=
  .next (s.contentWriteRow a v)
/-- ATTN_WRITE (R128). -/
def execAttnWrite (v : Word) (s : State) : Host.Outcome State Fault Refusal := .next (s.attnWriteRow v)
/-- ATTN_EN_WRITE (R130). -/
def execAttnEnWrite (v : Word) (s : State) : Host.Outcome State Fault Refusal := .next (s.attnEnWriteRow v)
/-- LATCH (R131). -/
def execLatch (v : Word) (s : State) : Host.Outcome State Fault Refusal := .next (s.latchRow v)
/-- KEY (R143). -/
def execKey (v : Word) (s : State) : Host.Outcome State Fault Refusal := .next (s.keyRow v)
/-- IGNORED_WRITE (R120). -/
def execIgnoredWrite (a : BitVec 15) (v : Word) (s : State) : Host.Outcome State Fault Refusal :=
  .next (s.ignoredWriteRow a v)
/-- PAGE_TAKE (R136). -/
def execPageTake (s : State) : Host.Outcome State Fault Refusal := .next (s.pageTakeRow)
/-- SET_CLOCK (R66). -/
def execSetClock (r : OrderRef) (t : BitVec 32) (s : State) : Host.Outcome State Fault Refusal :=
  .next (s.orderRow r (·.setClockOrder r t))
/-- ADOPT_SETTINGS (R165). -/
def execAdoptSettings (r : OrderRef) (s : State) : Host.Outcome State Fault Refusal :=
  .next (s.orderRow r (·.adoptSettingsOrder r))
/-- SET_TARGET (R96). -/
def execSetTarget (r : OrderRef) (level : Word) (s : State) : Host.Outcome State Fault Refusal :=
  .next (s.orderRow r (·.setTargetOrder r level))
/-- FILL_NOW (R98). -/
def execFillNow (r : OrderRef) (target : Word) (count : Word) (deadline : BitVec 32) (s : State) : Host.Outcome State Fault Refusal :=
  .next (s.orderRow r (·.fillNowOrder r target count deadline))
/-- TURNOVER_NOW (R99). -/
def execTurnoverNow (r : OrderRef) (s : State) : Host.Outcome State Fault Refusal :=
  .next (s.orderRow r (·.turnoverNowOrder r))
/-- CANCEL_PLAN (R101). -/
def execCancelPlan (r : OrderRef) (plan : Word) (s : State) : Host.Outcome State Fault Refusal :=
  .next (s.orderRow r (·.cancelPlanOrder r plan))
/-- READ_PLAN (R147). -/
def execReadPlan (r : OrderRef) (plan : Word) (s : State) : Host.Outcome State Fault Refusal :=
  .next (s.orderRow r (·.readPlanOrder r plan))
/-- READ_ACTUATOR (R148). -/
def execReadActuator (r : OrderRef) (act : Word) (s : State) : Host.Outcome State Fault Refusal :=
  .next (s.orderRow r (·.readActuatorOrder r act))
/-- START_PUMP (R148). -/
def execStartPump (r : OrderRef) (pump : Word) (hold : Word) (s : State) : Host.Outcome State Fault Refusal :=
  .next (s.orderRow r (·.startPumpOrder r pump hold))
/-- STOP_PUMP (R148). -/
def execStopPump (r : OrderRef) (pump : Word) (hold : Word) (s : State) : Host.Outcome State Fault Refusal :=
  .next (s.orderRow r (·.stopPumpOrder r pump hold))
/-- OPEN_INLET (R149). -/
def execOpenInlet (r : OrderRef) (hold : Word) (s : State) : Host.Outcome State Fault Refusal :=
  .next (s.orderRow r (·.openInletOrder r hold))
/-- CLOSE_INLET (R149). -/
def execCloseInlet (r : OrderRef) (hold : Word) (s : State) : Host.Outcome State Fault Refusal :=
  .next (s.orderRow r (·.closeInletOrder r hold))
/-- RELEASE_MANUAL (R54). -/
def execReleaseManual (r : OrderRef) (s : State) : Host.Outcome State Fault Refusal :=
  .next (s.orderRow r (·.releaseManualOrder r))
/-- HOLD_ACTUATOR (R57). -/
def execHoldActuator (r : OrderRef) (act : Word) (s : State) : Host.Outcome State Fault Refusal :=
  .next (s.orderRow r (·.holdActuatorOrder r act))
/-- RELEASE_HOLD (R60). -/
def execReleaseHold (r : OrderRef) (hold : Word) (s : State) : Host.Outcome State Fault Refusal :=
  .next (s.orderRow r (·.releaseHoldOrder r hold))
/-- CLEAR_FAILURE (R47). -/
def execClearFailure (r : OrderRef) (act : Word) (s : State) : Host.Outcome State Fault Refusal :=
  .next (s.orderRow r (·.clearFailureOrder r act))
/-- RESET_GUARD (R32). -/
def execResetGuard (r : OrderRef) (s : State) : Host.Outcome State Fault Refusal :=
  .next (s.orderRow r (·.resetGuardOrder r))
/-- GUARD_TEST (R33). -/
def execGuardTest (r : OrderRef) (s : State) : Host.Outcome State Fault Refusal := .next (s.orderRow r (·.guardTestOrder r))
/-- JOURNAL_MARK (R151). -/
def execJournalMark (r : OrderRef) (host : Vector Byte 16) (s : State) : Host.Outcome State Fault Refusal :=
  .next (s.orderRow r (·.journalMarkOrder r host))
/-- FLUSH_JOURNAL (R160). -/
def execFlushJournal (r : OrderRef) (s : State) : Host.Outcome State Fault Refusal :=
  .next (s.orderRow r (·.flushJournalOrder r))
/-- ORDER_COMPLETE (R140). -/
def execOrderComplete (r : OrderRef) (st : Status) (rs : Reason) (result : List Byte) (s : State) : Host.Outcome State Fault Refusal :=
  .next (s.orderCompleteRow r st rs result)
/-- ORDER_TIME_LIMIT (R140). -/
def execOrderTimeLimit (r : OrderRef) (s : State) : Host.Outcome State Fault Refusal := .next (s.orderTimeLimitRow r)
/-- PAGE_ANSWER (R142). -/
def execPageAnswer (p : Page) (s : State) : Host.Outcome State Fault Refusal := .next (s.pageAnswerRow p)
/-- SERVICE_EXPIRY (R144). -/
def execServiceExpiry (s : State) : Host.Outcome State Fault Refusal := .next (s.serviceExpiryRow)
/-- LOCAL_ENTRY (R145). -/
def execLocalEntry (s : State) : Host.Outcome State Fault Refusal := .next (s.localEntryRow)
/-- LOCAL_EXIT (R145). -/
def execLocalExit (s : State) : Host.Outcome State Fault Refusal := .next (s.localExitRow)
/-- ORDER_MAINS_LOSS (R152). -/
def execOrderMainsLoss (s : State) : Host.Outcome State Fault Refusal := .next (s.orderMainsLossRow)
/-- RECORD_ARRIVAL (R154). -/
def execRecordArrival (r : Rec) (s : State) : Host.Outcome State Fault Refusal := .next (s.recordArrival r)
/-- PAGE_OPEN (R156). -/
def execPageOpen (s : State) : Host.Outcome State Fault Refusal := .next (s.pageOpen)
/-- JOURNAL_AGE_EXPIRY (R159). -/
def execJournalAgeExpiry (s : State) : Host.Outcome State Fault Refusal := .next (s.taking .journalAgeExpiry (·.ageCheck))
/-- MAINS_LOSS (R168). -/
def execMainsLoss (s : State) : Host.Outcome State Fault Refusal := .next (s.mainsLossRow)
/-- MAINS_RESTORE (R171). -/
def execMainsRestore (s : State) : Host.Outcome State Fault Refusal := .next (s.mainsRestoreRow)
/-- STAGGER_END (R168). -/
def execStaggerEnd (s : State) : Host.Outcome State Fault Refusal := .next (s.staggerEndRow)
/-- COLD_START (R169). -/
def execColdStart (x : StartInputs) (s : State) : Host.Outcome State Fault Refusal := .next (s.coldStartRow x)
/-- PIN_RESET (R169). -/
def execPinReset (x : StartInputs) (s : State) : Host.Outcome State Fault Refusal := .next (s.pinResetRow x)
/-- RESET_INPUT_ASSERTED (R28). -/
def execResetInputAsserted (s : State) : Host.Outcome State Fault Refusal := .next (s.resetInputRow)

end Sys2Proof.Machine
end

