-- ==== Sys2Proof/Machine/Dispatch.lean ====
section
/-! DEFINITION. One arm per command. -/

namespace Sys2Proof.Machine

def exec (i : Instr) (s : State) : Host.Outcome State Fault Refusal :=
  match i with
  | .survey x => Sys2Proof.Machine.execSurvey x s
  | .clockSetReport old new => Sys2Proof.Machine.execClockSetReport old new s
  | .guardJudgement j => Sys2Proof.Machine.execGuardJudgement j s
  | .frostStateChange f => Sys2Proof.Machine.execFrostStateChange f s
  | .guardTravelEnd => Sys2Proof.Machine.execGuardTravelEnd s
  | .claim c units level urgent => Sys2Proof.Machine.execClaim c units level urgent s
  | .withdrawal c => Sys2Proof.Machine.execWithdrawal c s
  | .grantRelease c => Sys2Proof.Machine.execGrantRelease c s
  | .relevel c level urgent => Sys2Proof.Machine.execRelevel c level urgent s
  | .maskChange mask => Sys2Proof.Machine.execMaskChange mask s
  | .budgetChange budget => Sys2Proof.Machine.execBudgetChange budget s
  | .arbiterMainsLoss => Sys2Proof.Machine.execArbiterMainsLoss s
  | .tryBegin c => Sys2Proof.Machine.execTryBegin c s
  | .tryDeadline n => Sys2Proof.Machine.execTryDeadline n s
  | .retryDeadline n => Sys2Proof.Machine.execRetryDeadline n s
  | .runFeedbackChange n on => Sys2Proof.Machine.execRunFeedbackChange n on s
  | .minRunElapsed n => Sys2Proof.Machine.execMinRunElapsed n s
  | .stopConfirmExpiry n => Sys2Proof.Machine.execStopConfirmExpiry n s
  | .minOffExpiry n => Sys2Proof.Machine.execMinOffExpiry n s
  | .startListAgeing n => Sys2Proof.Machine.execStartListAgeing n s
  | .recall c => Sys2Proof.Machine.execRecall c s
  | .stageRequest plan count leaving => Sys2Proof.Machine.execStageRequest plan count leaving s
  | .planGrant plan => Sys2Proof.Machine.execPlanGrant plan s
  | .inletCommand owner pos => Sys2Proof.Machine.execInletCommand owner pos s
  | .limitSwitchChange openLs closedLs => Sys2Proof.Machine.execLimitSwitchChange openLs closedLs s
  | .travelDeadline => Sys2Proof.Machine.execTravelDeadline s
  | .heaterStartRequest h level urgent => Sys2Proof.Machine.execHeaterStartRequest h level urgent s
  | .heaterStopRequest h => Sys2Proof.Machine.execHeaterStopRequest h s
  | .heaterCurrentChange h on => Sys2Proof.Machine.execHeaterCurrentChange h on s
  | .heaterTryDeadline h => Sys2Proof.Machine.execHeaterTryDeadline h s
  | .heaterRetryEnd h => Sys2Proof.Machine.execHeaterRetryEnd h s
  | .heaterStuckExpiry h => Sys2Proof.Machine.execHeaterStuckExpiry h s
  | .holdDeadline number => Sys2Proof.Machine.execHoldDeadline number s
  | .actuatorMainsLoss => Sys2Proof.Machine.execActuatorMainsLoss s
  | .actuatorMainsRestore => Sys2Proof.Machine.execActuatorMainsRestore s
  | .tariffEvaluation => Sys2Proof.Machine.execTariffEvaluation s
  | .clockRollover => Sys2Proof.Machine.execClockRollover s
  | .cheapStart w endTime => Sys2Proof.Machine.execCheapStart w endTime s
  | .cheapEnd w => Sys2Proof.Machine.execCheapEnd w s
  | .planJudgement j => Sys2Proof.Machine.execPlanJudgement j s
  | .startAtPasses plan => Sys2Proof.Machine.execStartAtPasses plan s
  | .inletSeized => Sys2Proof.Machine.execInletSeized s
  | .inletFree => Sys2Proof.Machine.execInletFree s
  | .actuatorReport plan r => Sys2Proof.Machine.execActuatorReport plan r s
  | .pumpAvailable n => Sys2Proof.Machine.execPumpAvailable n s
  | .turnoverRequest => Sys2Proof.Machine.execTurnoverRequest s
  | .planMainsLoss => Sys2Proof.Machine.execPlanMainsLoss s
  | .frostJudgement j => Sys2Proof.Machine.execFrostJudgement j s
  | .heaterNotice h k => Sys2Proof.Machine.execHeaterNotice h k s
  | .turnoverCreated => Sys2Proof.Machine.execTurnoverCreated s
  | .mapEntryWrite p v => Sys2Proof.Machine.execMapEntryWrite p v s
  | .contentWrite a v => Sys2Proof.Machine.execContentWrite a v s
  | .attnWrite v => Sys2Proof.Machine.execAttnWrite v s
  | .attnEnWrite v => Sys2Proof.Machine.execAttnEnWrite v s
  | .latch v => Sys2Proof.Machine.execLatch v s
  | .key v => Sys2Proof.Machine.execKey v s
  | .ignoredWrite a v => Sys2Proof.Machine.execIgnoredWrite a v s
  | .pageTake => Sys2Proof.Machine.execPageTake s
  | .setClock r t => Sys2Proof.Machine.execSetClock r t s
  | .adoptSettings r => Sys2Proof.Machine.execAdoptSettings r s
  | .setTarget r level => Sys2Proof.Machine.execSetTarget r level s
  | .fillNow r target count deadline => Sys2Proof.Machine.execFillNow r target count deadline s
  | .turnoverNow r => Sys2Proof.Machine.execTurnoverNow r s
  | .cancelPlan r plan => Sys2Proof.Machine.execCancelPlan r plan s
  | .readPlan r plan => Sys2Proof.Machine.execReadPlan r plan s
  | .readActuator r act => Sys2Proof.Machine.execReadActuator r act s
  | .startPump r pump hold => Sys2Proof.Machine.execStartPump r pump hold s
  | .stopPump r pump hold => Sys2Proof.Machine.execStopPump r pump hold s
  | .openInlet r hold => Sys2Proof.Machine.execOpenInlet r hold s
  | .closeInlet r hold => Sys2Proof.Machine.execCloseInlet r hold s
  | .releaseManual r => Sys2Proof.Machine.execReleaseManual r s
  | .holdActuator r act => Sys2Proof.Machine.execHoldActuator r act s
  | .releaseHold r hold => Sys2Proof.Machine.execReleaseHold r hold s
  | .clearFailure r act => Sys2Proof.Machine.execClearFailure r act s
  | .resetGuard r => Sys2Proof.Machine.execResetGuard r s
  | .guardTest r => Sys2Proof.Machine.execGuardTest r s
  | .journalMark r host => Sys2Proof.Machine.execJournalMark r host s
  | .flushJournal r => Sys2Proof.Machine.execFlushJournal r s
  | .orderComplete r st rs result => Sys2Proof.Machine.execOrderComplete r st rs result s
  | .orderTimeLimit r => Sys2Proof.Machine.execOrderTimeLimit r s
  | .pageAnswer p => Sys2Proof.Machine.execPageAnswer p s
  | .serviceExpiry => Sys2Proof.Machine.execServiceExpiry s
  | .localEntry => Sys2Proof.Machine.execLocalEntry s
  | .localExit => Sys2Proof.Machine.execLocalExit s
  | .orderMainsLoss => Sys2Proof.Machine.execOrderMainsLoss s
  | .recordArrival r => Sys2Proof.Machine.execRecordArrival r s
  | .pageOpen => Sys2Proof.Machine.execPageOpen s
  | .journalAgeExpiry => Sys2Proof.Machine.execJournalAgeExpiry s
  | .mainsLoss => Sys2Proof.Machine.execMainsLoss s
  | .mainsRestore => Sys2Proof.Machine.execMainsRestore s
  | .staggerEnd => Sys2Proof.Machine.execStaggerEnd s
  | .coldStart x => Sys2Proof.Machine.execColdStart x s
  | .pinReset x => Sys2Proof.Machine.execPinReset x s
  | .resetInputAsserted => Sys2Proof.Machine.execResetInputAsserted s

end Sys2Proof.Machine
end

