-- ==== Sys2Proof/Machine/Tick.lean ====
section
/-! DEFINITION. One second of the clock (R65): run minutes accrue, and the timers that have run out become the commands
of their rows (log 5, log 7). -/

namespace Sys2Proof.Machine

/-- One second of run feedback (R43). Run minutes run on from 4 294 967 295 to 0, which R43 leaves open (log 44). -/
def Pump.accrue (p : Pump) : Pump :=
  if p.feedback then
    if p.seconds = 59 then { p with seconds := 0, minutes := (p.minutes + 1) % 4294967296 } else { p with seconds := p.seconds + 1 }
  else p

/-- The commands a pump's timers have made due. -/
def State.pumpTimers (s : State) (n : Fin 4) : List Instr :=
  let p := s.pump n
  (if decide (p.mode = .starting) && s.due p.tryDl && !p.feedback then [.tryDeadline n] else [])
    ++ (if decide (p.mode = .retryWait) && s.due p.retryDl then [.retryDeadline n] else [])
    ++ (if s.due p.stopDl && p.feedback then [.stopConfirmExpiry n] else [])
    ++ (if decide (p.mode = .resting) && s.due p.offEnd then [.minOffExpiry n] else [])
    ++ (if decide (p.mode = .running) && s.ranEnough n && (p.stopWait || decide (p.claim = .recalled)) then
        [.minRunElapsed n] else [])
    ++ (if p.starts.any fun t => decide (t + Config.startSpan = s.now) then [.startListAgeing n] else [])

/-- The commands a heater's timers have made due. -/
def State.heaterTimers (s : State) (h : Fin 4) : List Instr :=
  let p := s.heater h
  (if decide (p.mode = .starting) && s.due p.tryDl && !p.current then [.heaterTryDeadline h] else [])
    ++ (if decide (p.mode = .retryWait) && s.due p.retryDl then [.heaterRetryEnd h] else [])
    ++ (if s.due p.stuckDl && p.current && !p.contactor && !p.stuckSaid then [.heaterStuckExpiry h] else [])

/-- The commands the timers of the other blocks have made due. -/
def State.otherTimers (s : State) : List Instr :=
  (if s.act.inlet.mode.travelling && s.due s.act.inlet.travelDl then [.travelDeadline] else [])
    ++ (s.act.holds.filter fun h => decide (h.deadline ≤ s.now)).map (fun h => .holdDeadline h.number)
    ++ (s.eng.inflight.filter fun e => decide (e.entry + Config.orderLimit ≤ s.now)).map (fun e => .orderTimeLimit e.ref)
    ++ (if decide (s.eng.access = .service) && s.due s.eng.serviceEnd then [.serviceExpiry] else [])
    ++ (if s.jrn.opened.any s.pageAged then [.journalAgeExpiry] else [])
    ++ (if s.due s.sys.stagger then [.staggerEnd] else [])
    ++ (s.planList.filter fun p => decide (p.state = .waiting ∧ p.startAt = some s.now)).map fun p => .startAtPasses p.number

/-- The commands that have come due at the present second. -/
def State.timers (s : State) : List Instr :=
  (if s.sys.started && decide (s.now % 60 = 0) then [.tariffEvaluation] else [])
    ++ four.flatMap s.pumpTimers ++ four.flatMap s.heaterTimers ++ s.otherTimers

/-- The clock at the next second (R65). -/
def State.clockSecond (s : State) : State :=
  if s.cal.count = Config.lastSecond then s.clockRolloverRow
  else { s with cal := { s.cal with count := s.cal.count + 1 } }

/-- The clock of a part held in reset goes on counting (R65). -/
def State.heldSecond (s : State) : State :=
  { s with cal := { s.cal with
      count := if s.cal.count = Config.lastSecond then 0 else s.cal.count + 1
      set := s.cal.set && decide (s.cal.count ≠ Config.lastSecond) } }

/-- One second passes. -/
def State.second (s : State) : State :=
  if s.sys.held then s.heldSecond
  else
    let s1 := ({ s with act := { s.act with pumps := s.act.pumps.map Pump.accrue } }).clockSecond
    s1.posts s1.timers

end Sys2Proof.Machine
end

