-- ==== Sys2Proof/Machine/Idle.lean ====
section
/-! DEFINITION. What an empty queue does: the oldest message on its way arrives, else one second passes (log 4, log 5). -/

namespace Sys2Proof.Machine

/-- The step on an empty queue. -/
def State.idle (s : State) : Host.Outcome State Fault Refusal :=
  if s.sys.held then .next s.second
  else match s.transit with
    | [] => .next s.second
    | m :: _ => exec m s

end Sys2Proof.Machine
end

