-- ==== Sys2Proof/Safety.lean ====
section
/-! DEFINITION. What it means for the NZ418 to be safe: conditions on a state that every command keeps. -/

namespace Sys2Proof.Machine

/-- A contactor that is commanded on belongs to a pump in STARTING or RUNNING that holds a grant (Table 3-3, R46). -/
def Pump.contactorOk (p : Pump) : Prop :=
  p.contactor = true → (p.mode = .starting ∨ p.mode = .running) ∧ (p.claim = .granted ∨ p.claim = .recalled)

/-- Every pump's contactor agrees with its machine state and its standing with the load arbiter. -/
def State.pumpsOk (s : State) : Prop := ∀ n, (s.pump n).contactorOk

/-- A heater's contactor that is commanded on belongs to a heater in STARTING or ON (R51). -/
def Heater.contactorOk (p : Heater) : Prop := p.contactor = true → p.mode = .starting ∨ p.mode = .on

/-- Every heater's contactor agrees with its machine state. -/
def State.heatersOk (s : State) : Prop := ∀ h, (s.heater h).contactorOk

/-- Every pump's contactor is commanded off. -/
def State.pumpsOff (s : State) : Prop := ∀ n, (s.pump n).contactor = false

/-- The two conditions of R46 that change in one event with the contactors: no contactor is on while the guard is
TRIPPED or HELD, nor while the access state is LOCAL. -/
def State.pumpsGuarded (s : State) : Prop :=
  s.pumpsOk ∧ (s.guard.mode.seizes = true → s.pumpsOff) ∧ (s.eng.access = .localControl → s.pumpsOff)

/-- The inlet serves a pump of owner `o`: it is owned by MANUAL for a pump of MANUAL or an exercised held pump, by the pump's own
plan else (R53). -/
def Inlet.serves (v : Inlet) (o : Owner) : Prop :=
  (o = .manual ∨ o = .hold) ∧ v.owner = .manual ∨ ∃ m, o = .plan m ∧ v.owner = .plan m

/-- The inlet is owned by a plan or by MANUAL. -/
def Inlet.filling (v : Inlet) : Prop := v.owner = .manual ∨ ∃ m, v.owner = .plan m

/-- The inlet is on its way from its owner (R53). -/
def Inlet.going (v : Inlet) : Prop := v.leaving = true ∨ v.releasing = true

/-- The inlet guards the pumps (R46, R50, R53): a pump runs only against an inlet that is OPEN and that serves it, and a close
that is commanded under it waits. The rest is what keeps it so: OPEN is what the switches show, and each actuator has one hold, of a
number of its own, which an inlet's owner agrees with. -/
structure ActState.inletGuards (a : ActState) : Prop where
  pumps : ∀ n : Fin 4, (a.pumps[n.val]'n.isLt).contactor = true →
    a.inlet.mode = .opened ∧ a.inlet.serves (a.pumps[n.val]'n.isLt).owner ∧ (a.inlet.cmd = some .opened ∨ a.inlet.closeWait = true)
  switches : a.inlet.mode = .opened → a.inlet.openLs = true ∧ a.inlet.closedLs = false
  room : a.holds.length ≤ Config.holdsMax
  numbers : (a.holds.map Hold.number).Nodup
  acts : (a.holds.map Hold.act).Nodup
  pending : ∀ h ∈ a.holds, h.act = .inlet → h.established = none → a.inlet.owner = .none ∨ a.inlet.owner = .guard
  held : ∀ h ∈ a.holds, h.act = .inlet → h.established.isSome = true → a.inlet.owner = .hold ∨ a.inlet.owner = .guard
  going : a.inlet.going → a.inlet.filling

/-- The pumps are guarded by the guard and the access state, and by the inlet (R46, R53). -/
def State.guarded (s : State) : Prop := s.pumpsGuarded ∧ s.act.inletGuards

/-- Every order in flight belongs to a taken page (R139). -/
def EngState.flightsTaken (e : EngState) : Prop := ∀ f ∈ e.inflight, ∃ t ∈ e.taken, t.page = f.ref.page

/-- Once the map is ready, the pages JOURNAL_OPEN are those the journal writer has open: at most one (R139). -/
def State.openAgrees (s : State) : Prop :=
  s.port.mapReady = true → ∀ p, (s.entry p).state = .journalOpen → ∃ o, s.jrn.opened = some o ∧ o.page = p

/-- A part held in reset has no journal page and its map is not ready (R126, R162). -/
def State.heldShut (s : State) : Prop :=
  s.sys.held = true → s.jrn.given = [] ∧ s.jrn.opened = none ∧ s.jrn.starting = true ∧ s.port.mapReady = false

/-- The claimants of a claim list and a grant table together. -/
def ArbState.claimants (a : ArbState) : List Load := a.claims.map Claim.who ++ a.grants.map Grant.who

/-- The load arbiter is sound: the units granted are within the budget, and no claimant appears twice (R73, R76). -/
def ArbState.sound (a : ArbState) : Prop := unitsOf a.grants ≤ a.budget ∧ a.claimants.Nodup

/-- The tables of fixed size hold no more than they have room for (R135, R139, R154, Table 3-6, R42). -/
def State.withinRoom (s : State) : Prop :=
  s.jrn.queue.length ≤ Config.queueMax ∧ s.eng.taken.length ≤ Config.takenMax ∧ s.eng.inflight.length ≤ Config.inflightMax
    ∧ s.act.holds.length ≤ Config.holdsMax ∧ ∀ n, (s.pump n).starts.length ≤ Config.startsMax

/-- The pages the part writes to: the journal pages of the writer, the taken pages, the pages submitted. -/
def State.ownPage (s : State) (p : Page) : Prop :=
  (∃ o, s.jrn.opened = some o ∧ o.page = p) ∨ p ∈ s.jrn.given ∨ (∃ t ∈ s.eng.taken, t.page = p) ∨ p ∈ s.eng.submitted

/-- The commands that reach bytes of tower memory which no block owned before: the host's writes and the two starts. -/
def reachesOut : Instr → Bool
  | .mapEntryWrite _ _ => true
  | .contentWrite _ _ => true
  | .coldStart _ => true
  | .pinReset _ => true
  | _ => false

/-! ## The words of the statements -/

/-- The command runs to a next state `t` with `P t`. -/
def Completes (c : Instr) (s : State) (P : State → Prop) : Prop := ∃ t, exec c s = .next t ∧ P t

/-- No hold names the actuator. -/
def State.unheld (s : State) (a : ActId) : Prop := ∀ h ∈ s.act.holds, h.act ≠ a

/-- No PENDING hold names the actuator. -/
def State.unpending (s : State) (a : ActId) : Prop := ∀ h ∈ s.act.holds, h.established.isSome = true ∨ h.act ≠ a

/-- Every hold is ESTABLISHED. -/
def State.allEstablished (s : State) : Prop := ∀ h ∈ s.act.holds, h.established.isSome = true

/-- Nothing of the inlet waits for pumps (R50, R53, R54). -/
def Inlet.calm (v : Inlet) : Prop := v.closeWait = false ∧ v.openWait = false ∧ v.leaving = false ∧ v.releasing = false

/-- What R40 asks of a try of a pump; an inlet that waits to open counts as not yet open for it (R54). -/
structure State.mayTry (s : State) (n : Fin 4) : Prop where
  fitted : (s.pumpSet n).fitted = true
  mode : (s.pump n).mode = .ready ∨ ((s.pump n).mode = .held ∧ (s.pump n).owner = .hold)
  request : (s.pump n).request = .start
  granted : (s.pump n).claim = .granted
  isOpen : s.act.inlet.mode = .opened ∧ s.act.inlet.cmd = some .opened ∧ s.act.inlet.openWait = false
  served : s.act.inlet.serves (s.pump n).owner
  guard : s.guard.mode = .clear
  access : s.eng.access ≠ .localControl
  power : s.sys.power = .run ∧ s.sys.stagger = none ∧ s.sys.standby = false
  starts : recentStarts s.now (s.pump n).starts < s.set.startsPerHour

/-- What R51 asks of a try of a heater. -/
structure State.mayHeat (s : State) (h : Fin 4) : Prop where
  fitted : (s.zoneSet h).fitted = true
  mode : (s.heater h).mode = .ready
  owner : (s.heater h).owner = .frost
  request : (s.heater h).request = .start
  granted : (s.heater h).claim = .granted
  power : s.sys.power = .run ∧ s.sys.standby = false

/-- A pump with a grant and a request, in a state where a try may begin. -/
def Pump.waits (p : Pump) : Bool :=
  decide (p.request = .start ∧ p.claim = .granted) && (decide (p.mode = .ready) || decide (p.mode = .held ∧ p.owner = .hold))

/-- A heater with a grant and a request, in the state where a try may begin. -/
def Heater.waits (p : Heater) : Bool := decide (p.request = .start ∧ p.claim = .granted ∧ p.mode = .ready ∧ p.owner = .frost)

/-- The order engine but for the record counts of its taken pages. -/
structure EngState.sameButRecords (x y : EngState) : Prop where
  submitted : x.submitted = y.submitted
  taken : x.taken.map (fun t => (t.page, t.next, t.parked)) = y.taken.map fun t => (t.page, t.next, t.parked)
  inflight : x.inflight = y.inflight
  lastTaken : x.lastTaken = y.lastTaken
  access : x.access = y.access
  serviceEnd : x.serviceEnd = y.serviceEnd

/-- The reference of an order in a taken page that is not parked, while the part is not held in reset. -/
def State.orderReady (s : State) (r : OrderRef) : Prop :=
  s.sys.held = false ∧ ∃ e, s.takenEntry r.page = some e ∧ e.parked = false

/-- The status and reason bytes of an order record (Table 11-4). -/
def State.orderReads (s : State) (r : OrderRef) (st : Status) (rs : Reason) : Prop :=
  s.orderStatus r.page r.slot.val = st.code ∧ s.byte r.page (slotOffset r.slot.val + 3) = rs.code

/-- The order has just entered the in-flight table, and its status byte is IN_FLIGHT (R139, R174). -/
def State.inFlightNow (s t : State) (c : OrderCode) (r : OrderRef) (target : Nat) : Prop :=
  t.eng.inflight = s.eng.inflight ++ [(⟨r, c, target, s.now⟩ : InFlight)]
    ∧ t.orderStatus r.page r.slot.val = Status.inFlight.code

/-- The result area of an order record: the result, then zeros to 12 bytes (R174). -/
def State.resultReads (s : State) (r : OrderRef) (res : List Byte) : Prop :=
  ∀ i (h : i < (resultArea res).length), s.mem.read (addr r.page (slotOffset r.slot.val + 12 + i)) = (resultArea res)[i]

/-- The header of a journal page in tower memory (Table 11-5): fill number, record count, bytes used, first sequence, flags. -/
def State.headReads (s : State) (p : Page) (fill records used first flags : Nat) : Prop :=
  s.half p 0 = fill % 65536 ∧ s.byte p 2 = records % 256 ∧ s.byte p 3 = used % 256 ∧ s.half p 4 = first % 65536 ∧ s.byte p 6 = flags

/-- No taken page waits at a CHAIN order (R141). -/
def State.unparked (s : State) : Prop := ∀ e ∈ s.eng.taken, e.parked = false

/-- A page of tower memory that the writer does not write to. -/
def State.apart (s : State) (p : Page) : Prop := 4 ≤ p.val ∧ (∀ o, s.jrn.opened = some o → o.page ≠ p) ∧ p ∉ s.jrn.given

/-- A hold number handles an actuator: the holds that name it are those of the number, and none of them is PENDING (R59). -/
def State.handles (s : State) (a : ActId) (k : Nat) : Prop := (∀ h ∈ s.act.holds, h.act = a ↔ h.number = k) ∧ s.unpending a

/-- What the engine asks of an order with good arguments before it is handed (Table 8-2, R139, R152). -/
structure State.passes (s : State) (q : OrderReq) : Prop where
  restricted : q.code.restricted = true → s.eng.access = .service
  station : q.code.station q.target = true → s.eng.access ≠ .localControl
  unpending : s.pendingNamed q = false
  power : s.plantBarred q.code = false
  fresh : q.code.delayed = true → s.sameInFlight q = false
  room : q.code.delayed = true → s.eng.inflight.length < Config.inflightMax

/-- The plan wins the contest for the inlet: it is ready, no other ready plan stands as high, and the inlet may pass (R86). -/
structure State.wins (s : State) (p : Plan) : Prop where
  present : p ∈ s.planList
  isReady : s.ready p = true
  first : ∀ q ∈ s.planList, s.ready q = true → q = p ∨ q.kind.rank < p.kind.rank
  passable : s.inletPassable p.kind.rank = true

/-! ## Words of the survey's rules (01) -/

/-- A numeric quality, GOOD or SINGLE (R8). -/
abbrev numericQ (q : Quality) : Prop := q = .good ∨ q = .single

/-- The floats are consistent (R6). -/
abbrev floatsAgree (f : Floats) : Prop := (f.top = true → f.high = true) ∧ (f.high = true → f.low = true)

/-- A transducer value is plausible: the floats are consistent, and each is wet just where the value is at or above its height less
`float_band` (R6). -/
abbrev fitsFloats (t : Settings) (f : Floats) (v : Int) : Prop :=
  floatsAgree f ∧ (f.low = true ↔ (t.floatLow : Int) ≤ v + t.floatBand) ∧ (f.high = true ↔ (t.floatHigh : Int) ≤ v + t.floatBand)
    ∧ (f.top = true ↔ (t.floatTop : Int) ≤ v + t.floatBand)

/-- The vote over one usable transducer of value `v` (Table 1-3). -/
abbrev votedAlone (t : Settings) (f : Floats) (v : Int) (j : Judgement) : Prop :=
  j.disagree = false ∧ j.floatFault = false ∧ (¬floatsAgree f → j.quality = .none) ∧
    (fitsFloats t f v → j.quality = .single ∧ j.level = v.toNat) ∧
    (floatsAgree f → ¬fitsFloats t f v → j.quality = .floatsOnly)

/-- A temperature as it is read from a channel: the value contributed, else 0 and not valid (R4). -/
abbrev readFrom (c : Channel) (x : Temp) : Prop :=
  (∀ v, c.contributes = some v → x = ⟨v, true⟩) ∧ (c.contributes = none → x = ⟨0, false⟩)

/-- The draw of the minute between two samples; none where it is not qualified (R13). -/
def minuteDraw (a b : MinuteSample) : Option Nat :=
  if numericQ a.quality ∧ numericQ b.quality then some ((b.inflow : Int) - ((b.volume : Int) - a.volume)).toNat else none

/-- The draws of the minutes a list of samples ends, oldest first (R13). -/
def drawsOf (l : List MinuteSample) : List (Option Nat) := (l.zip l.tail).map fun x => minuteDraw x.1 x.2

/-- Records wait in the queue, with room for `k` more: no page is open and none is given (R154, R161). -/
def State.recordsWait (s : State) (k : Nat) : Prop := s.jrn.opened = none ∧ s.jrn.given = [] ∧ s.jrn.queue.length + k ≤ 24

/-! ## Words of the tariff's rules (04, 4.2) -/

/-- The slots of a day number, with kind and slot number; day 0 is a Saturday, and Monday's slots stand first in the table (R65, R68). -/
def daySlots (t : Settings) (d : Int) : List (Bool × Nat × Slot) :=
  match t.tariff[((d + 5) % 7).toNat]? with
  | none => []
  | some x => [(true, 1, x.cheap[0]), (true, 2, x.cheap[1]), (true, 3, x.cheap[2]), (false, 1, x.peak[0]), (false, 2, x.peak[1])]

/-- A slot of day `d` holds a window that covers the present minute (R68). -/
abbrev Slot.stands (w : Slot) (d : Int) (now : Time) : Prop :=
  0 < w.length ∧ d * 86400 + 60 * w.start ≤ now ∧ now < d * 86400 + 60 * (w.start + w.length)

/-! ## Words of the night fill's rules (05, 5.5) -/

/-- Pumps by fewest run minutes, ties to the lower number (R55, R93). -/
def State.fewestFirst (s : State) (l : List (Fin 4)) : Prop :=
  l.Pairwise fun a b => (s.pump a).minutes < (s.pump b).minutes ∨ ((s.pump a).minutes = (s.pump b).minutes ∧ a < b)

/-- The rate list of a plan (R93). -/
def State.rateList (s : State) (n : Nat) (l : List (Fin 4)) : Prop := (∀ k, k ∈ l ↔ s.available n k = true) ∧ s.fewestFirst l

/-- The rate of the first `n` pumps of a list (R93). -/
def State.rateOf (s : State) (l : List (Fin 4)) (n : Nat) : Nat := ((l.take n).map fun k => (s.pumpSet k).flow).sum

/-- The draw predicted over the `m` minutes from now on (R93). -/
def State.drawAhead (s : State) (m : Nat) : Nat :=
  ((List.range m).map fun (k : Nat) =>
    match s.survey.hours[((s.now + ((60 * k : Nat) : Int)) % 86400 / 3600).toNat]? with
    | none => 0
    | some e => if e.valid then e.mean else s.set.defaultDraw).sum

/-- What R93's steps 2 and 3 give a night fill of deadline `e` that needs `needed` litres and has `pump` minutes to pump. -/
def State.nightHolds (s : State) (l : List (Fin 4)) (needed pump : Nat) (e : Time) (q : Plan) : Prop :=
  (∀ n, 1 ≤ n → n ≤ l.length → needed ≤ s.rateOf l n * pump → (∀ m, 1 ≤ m → m < n → s.rateOf l m * pump < needed) →
    q.stage = n ∧ ∃ mins : Nat, needed ≤ s.rateOf l n * mins ∧ s.rateOf l n * mins < needed + s.rateOf l n ∧
      q.latest = some (e - 60 * ((s.set.fillMargin : Int) + mins)) ∧
      q.startAt = some (max s.now (e - 60 * ((s.set.fillMargin : Int) + mins)))) ∧
  ((∀ n, 1 ≤ n → n ≤ l.length → s.rateOf l n * pump < needed) →
    q.stage = l.length ∧ q.latest = some s.now ∧ q.startAt = some s.now)

/-! ## Words of the order engine's rules (08) -/

/-- The row of an order, with the operands that its record in the page gives it (Table 11-4). -/
def State.orderCommand (s : State) (r : OrderRef) (c : OrderCode) : Instr :=
  let p := r.page
  let k := r.slot.val
  match c with
  | .setClock => .setClock r (s.orderLong p k 1)
  | .adoptSettings => .adoptSettings r
  | .setTarget => .setTarget r (s.argWord p k 1)
  | .fillNow => .fillNow r (s.targetWord p k) (s.argWord p k 1) (s.orderLong p k 2)
  | .turnoverNow => .turnoverNow r
  | .cancelPlan => .cancelPlan r (s.targetWord p k)
  | .readPlan => .readPlan r (s.targetWord p k)
  | .readActuator => .readActuator r (s.targetWord p k)
  | .startPump => .startPump r (s.targetWord p k) (s.argWord p k 1)
  | .stopPump => .stopPump r (s.targetWord p k) (s.argWord p k 1)
  | .openInlet => .openInlet r (s.argWord p k 1)
  | .closeInlet => .closeInlet r (s.argWord p k 1)
  | .releaseManual => .releaseManual r
  | .holdActuator => .holdActuator r (s.targetWord p k)
  | .releaseHold => .releaseHold r (s.targetWord p k)
  | .clearFailure => .clearFailure r (s.targetWord p k)
  | .resetGuard => .resetGuard r
  | .guardTest => .guardTest r
  | .journalMark => .journalMark r (s.hostBytes p k)
  | .flushJournal => .flushJournal r

/-- The order count of a page in the header is good (R136). -/
abbrev State.countGood (s : State) (p : Page) : Prop := 1 ≤ s.orderCount p ∧ s.orderCount p ≤ 7

/-! ## Words of the settings' rules (10) -/

/-- The order relations among the settings (R164, stage 3). -/
structure Settings.ordered (t : Settings) : Prop where
  straps : ∀ k a b, t.straps[k]? = some a → t.straps[k + 1]? = some b → a.level < b.level ∧ a.volume ≤ b.volume
  codes : ∀ k : Fin 8, (t.cal[k.val]'k.isLt).code1 ≠ (t.cal[k.val]'k.isLt).code2
  floats : t.floatLow < t.floatHigh ∧ t.floatHigh < t.floatTop
  guard : (t.releaseLevel : Int) < (t.warnLevel : Int) - t.frostMargin ∧ (t.warnLevel : Int) - t.frostMargin < (t.tripLevel : Int) - t.frostMargin
    ∧ (t.tripLevel : Int) - t.frostMargin < t.floatTop
  fill : (t.dayFloor : Int) < t.nightTarget ∧ (t.nightTarget : Int) < (t.warnLevel : Int) - 100
  frost : t.hardThreshold < t.frostThreshold
  zones : ∀ h : Fin 4, (t.zones[h.val]'h.isLt).fitted = true →
    (t.zones[h.val]'h.isLt).hardTemp < (t.zones[h.val]'h.isLt).onTemp ∧ (t.zones[h.val]'h.isLt).onTemp < (t.zones[h.val]'h.isLt).offTemp

/-- A slot, given by its first minute of the week and its length, covers a minute of the week (R68). -/
abbrev coversMinute (x : Nat × Nat × Nat) (m : Nat) : Prop := (m + 10080 - x.1) % 10080 < x.2.1

/-- No two slots of the tariff table cover a common minute of the week (R68). -/
def Settings.windowsApart (t : Settings) : Prop :=
  ∀ a ∈ slotsOf t, ∀ b ∈ slotsOf t, a.2.2 < b.2.2 → ∀ m, m < 10080 → ¬(coversMinute a m ∧ coversMinute b m)

/-- Every field of the image lies in its range (R164, stage 2; the strapping points past the count have none, 11.5, and `water_channel`
may be none). -/
def State.inRanges (s : State) : Prop :=
  ∀ x ∈ fields.zipIdx 1, s.exempt x.2 = true ∨ (x.1.lo ≤ s.field x.1 ∧ s.field x.1 ≤ x.1.hi)

/-! ## Words of the plan table's rules (05) -/

/-- The request of a plan for the inlet has set out (R86). -/
def State.asksFor (t : State) (p : Plan) : Prop := t.plans.request = some p.number ∧ .planGrant p.number ∈ t.transit

end Sys2Proof.Machine
end

