-- ==== Sys2Proof/Certificates/Slice0/Obligations.lean ====
section
/-! DEFINITION. The statements for the provers, family by family. A statement about an event in the plant says what the event
itself does; what follows of it in the same event (a try that may begin, a hold that is established) is left to the block's own
statements. -/

section

open Sys2Proof Sys2Proof.Machine

/-! ## The queue, and what every command keeps -/

/-- A step takes the command at the front of the queue and runs it on the rest (the queue is the model's own, log 4). -/
def Obligations.FrontCommandRuns : Prop :=
  ∀ (c : Instr) (rest : List Instr) (s : State), s.pending = c :: rest → step s = exec c { s with pending := rest }

/-- The model's choice (logs 4, 5 and 8): on an empty queue the oldest message on its way arrives, and with none one second passes;
a part held in reset only counts the second, and there a command other than a host write, a port register and the two starts changes
nothing. A second advances the clock by one, and after the last second of 2099 it is 0 and UNSET (R65). -/
def Obligations.EmptyQueueStep : Prop :=
  (∀ s : State, s.pending = [] →
     (s.sys.held = true → step s = .next s.heldSecond) ∧
     (s.sys.held = false → s.transit = [] → step s = .next s.second) ∧
     (∀ m l, s.sys.held = false → s.transit = m :: l → step s = exec m s)) ∧
  (∀ s : State,
     (s.cal.count ≠ Config.lastSecond → s.second.cal.count = s.cal.count + 1 ∧ s.second.cal.set = s.cal.set) ∧
     (s.cal.count = Config.lastSecond → s.second.cal.count = 0 ∧ s.second.cal.set = false)) ∧
  (∀ (c : Instr) (s : State), s.sys.held = true → reachesOut c = false → (∀ v, c ≠ .attnWrite v) → (∀ v, c ≠ .attnEnWrite v) →
    (∀ v, c ≠ .latch v) → (∀ v, c ≠ .key v) → exec c s = .next s)

/-- Every command completes in every state, the spec naming no event that stops the part; none touches the queue, which the step alone
shortens. -/
def Obligations.EveryCommandCompletes : Prop := ∀ (c : Instr) (s : State), ∃ t, exec c s = .next t ∧ t.pending = s.pending

/-- The canonical form of tower memory is kept by every step. -/
def Obligations.MemoryFormKept : Prop := ∀ s t : State, step s = .next t → s.mem.wf = true → t.mem.wf = true

/-- R46 and R53, kept by every step. Of R46 by themselves: every contactor that is on belongs to a pump in STARTING or RUNNING that holds
a grant, GRANTED or RECALLED, and no contactor is on while the guard is TRIPPED or HELD nor while the access state is LOCAL. With the
inlet (`State.guarded`): a contactor that is on finds the inlet confirmed OPEN by its switches, commanded OPEN or with a close that waits,
and owned by the pump's own owner, or by MANUAL for an exercised held pump (R53, R59). And of R51: a heater's contactor that is on belongs
to a heater in STARTING or ON. -/
def Obligations.ContactorsGuardedKept : Prop :=
  ∀ s t : State, step s = .next t →
    (s.pumpsGuarded → t.pumpsGuarded) ∧
    (s.guarded → t.guarded ∧ ∀ n, (t.pump n).contactor = true → t.act.inlet.mode = .opened ∧ t.act.inlet.serves (t.pump n).owner) ∧
    (s.heatersOk → t.heatersOk)

/-- The load arbiter is kept sound by every step: the units of all grants never exceed the budget, and no claimant appears twice. -/
def Obligations.LoadWithinBudgetKept : Prop := ∀ s t : State, step s = .next t → s.arb.sound → t.arb.sound

/-- The tables are kept sound by every step. Those of fixed size keep within their room: 24 waiting records, 4 taken pages, 8 orders in
flight, 3 holds, 12 starts remembered of each pump. Each order in flight belongs to a taken page (R139). Once the map is ready, the
pages JOURNAL_OPEN are those the journal writer has open, so at most one page is (R139). And a part held in reset has no journal page, its
writer waiting and its map not ready (R126, R162). -/
def Obligations.TablesWithinRoomKept : Prop :=
  ∀ s t : State, step s = .next t →
    (s.withinRoom → t.withinRoom) ∧ (s.eng.flightsTaken → t.eng.flightsTaken) ∧
    (s.openAgrees → t.openAgrees ∧ (t.port.mapReady = true → ∀ p q : Page,
      (t.entry p).state = .journalOpen → (t.entry q).state = .journalOpen → p = q)) ∧
    (s.heldShut → t.heldShut)

/-- The invariants hold at reset. And what reset leaves, where the spec gives the value: the clock at 0 and UNSET in the
STANDARD band (R72), guard CLEAR with its levels from the working settings (R37), every pump READY and off (R64), no claim, no grant
(R82), no plan (R105), access NORMAL, no page taken, no order in flight (R135), an empty queue of records (R155), ATTN and its enables
clear, protect record ARMED (R134). -/
def Obligations.ResetLeaves : Prop :=
  (State.reset.mem.wf = true ∧ State.reset.pumpsGuarded ∧ State.reset.guarded ∧ State.reset.heatersOk ∧ State.reset.arb.sound
    ∧ State.reset.withinRoom ∧ State.reset.eng.flightsTaken ∧ State.reset.openAgrees ∧ State.reset.heldShut) ∧
  let s := State.reset
  s.cal.count = 0 ∧ s.cal.set = false ∧ s.cal.band = some .standard ∧ s.cal.window = none
    ∧ s.guard.mode = .clear ∧ s.guard.confirm = 0 ∧ s.guard.causes = [] ∧ s.gtrip = false
    ∧ (∀ n, (s.pump n).mode = .ready ∧ (s.pump n).contactor = false ∧ (s.pump n).owner = .none ∧ (s.pump n).starts = [])
    ∧ (∀ h, (s.heater h).mode = .ready ∧ (s.heater h).contactor = false)
    ∧ s.act.inlet.owner = .none ∧ s.act.holds = [] ∧ s.arb.claims = [] ∧ s.arb.grants = [] ∧ s.planList = []
    ∧ s.frost.state = .none ∧ s.frost.stagnation = 0 ∧ s.survey.judgement = none ∧ s.survey.prev = none
    ∧ s.eng.access = .normal ∧ s.eng.taken = [] ∧ s.eng.inflight = [] ∧ s.jrn.queue = [] ∧ s.jrn.opened = none
    ∧ s.jrn.seq = 0 ∧ s.port.mapReady = false ∧ s.port.attn = 0 ∧ s.port.attnEn = 0 ∧ s.port.copies = 0
    ∧ s.port.protect.captured = false ∧ s.pending = []

/-! ## The survey unit -/

/-- SURVEY (R1, R5, R9, R12): channels and floats move, the judgement is replaced and delivered to the guard, the plan controller
and the frost unit, and no other block moves; records of the survey may pass through the journal. CLOCK_SET_REPORT (R15): a time moved
by more than 300 s either way clears the hourly draw table and empties the hour accumulator; a smaller move leaves both; nothing else
moves. -/
def Obligations.SurveyRuns : Prop :=
  (∀ (x : Sample) (s : State), s.sys.held = false → Completes (.survey x) s fun t =>
    t.survey.chans = s.converted x ∧ t.survey.deb = debounced s.survey.deb s.survey.prev x.floats
      ∧ t.survey.interval = some s.period
      ∧ (∃ j l, t.survey.judgement = some j ∧ t.transit = l ++ [.guardJudgement j, .planJudgement j, .frostJudgement j]
        ∧ j.time = s.now ∧ j.floats = t.survey.deb
        ∧ j.quality = (vote s.set t.survey.deb (t.survey.chans[0]).contributes (t.survey.chans[1]).contributes).quality
        ∧ j.inflow = (if (s.pumpSet 0).fitted && (s.pump 0).feedback then (s.pumpSet 0).flow else 0)
          + (if (s.pumpSet 1).fitted && (s.pump 1).feedback then (s.pumpSet 1).flow else 0)
          + (if (s.pumpSet 2).fitted && (s.pump 2).feedback then (s.pumpSet 2).flow else 0)
          + (if (s.pumpSet 3).fitted && (s.pump 3).feedback then (s.pumpSet 3).flow else 0))
      ∧ t.guard = s.guard ∧ t.act = s.act ∧ t.cal = s.cal ∧ t.arb = s.arb ∧ t.plans = s.plans ∧ t.frost = s.frost
      ∧ t.eng.sameButRecords s.eng ∧ t.sys = s.sys) ∧
  (∀ (old new : Time) (s : State), s.sys.held = false → Completes (.clockSetReport old new) s fun t =>
    (300 < (new - old).natAbs → t.survey = { s.survey with hours := Vector.replicate 24 ⟨0, 0, false⟩, hourAcc := none }) ∧
    ((new - old).natAbs ≤ 300 → t.survey = s.survey) ∧
    t = { s with survey := t.survey, transit := s.transit.erase (.clockSetReport old new) })

/-- R5: each of LOW, HIGH, TOP and OPF takes the sampled value when it differs from the debounced state and equals the sample of the
previous survey, and is otherwise unchanged; with no previous sample, as after a cold start or a pin reset, it takes the sample; the
judgement carries the debounced states. -/
def Obligations.FloatsDebounced : Prop :=
  (∀ (x : Sample) (s : State), s.sys.held = false → Completes (.survey x) s fun t =>
    (s.survey.prev = none → t.survey.deb = x.floats) ∧
    (∀ p, s.survey.prev = some p →
      t.survey.deb.low = (if x.floats.low ≠ s.survey.deb.low ∧ x.floats.low = p.low then x.floats.low else s.survey.deb.low) ∧
      t.survey.deb.high = (if x.floats.high ≠ s.survey.deb.high ∧ x.floats.high = p.high then x.floats.high else s.survey.deb.high) ∧
      t.survey.deb.top = (if x.floats.top ≠ s.survey.deb.top ∧ x.floats.top = p.top then x.floats.top else s.survey.deb.top) ∧
      t.survey.deb.opf = (if x.floats.opf ≠ s.survey.deb.opf ∧ x.floats.opf = p.opf then x.floats.opf else s.survey.deb.opf)) ∧
    t.survey.prev = some x.floats ∧ ∃ j, t.survey.judgement = some j ∧ j.floats = t.survey.deb) ∧
  (∀ s : State, s.coldState.survey.prev = none ∧ s.resetAssert.survey.prev = none)

/-- Table 1-2 (R3): an OK channel becomes FAILED at its third bad reading in a row and a FAILED one OK when its count of 3 has come
down to 0, one for each good reading; a bad reading sets a FAILED channel's count to 3; a FAILED channel contributes nothing. -/
def Obligations.ChannelStates : Prop :=
  ∀ (k : Nat) (c : Cal) (code : BitVec 12) (x : Channel),
    (inRange code = false → x.failed = false → x.bad < 2 → (x.next k c code).failed = false ∧ (x.next k c code).bad = x.bad + 1) ∧
    (inRange code = false → x.failed = false → 2 ≤ x.bad → (x.next k c code).failed = true ∧ (x.next k c code).bad = 3) ∧
    (inRange code = false → x.failed = true → (x.next k c code).failed = true ∧ (x.next k c code).bad = 3) ∧
    (inRange code = true → x.failed = false → (x.next k c code).failed = false ∧ (x.next k c code).bad = 0) ∧
    (inRange code = true → x.failed = true → x.bad ≤ 1 → (x.next k c code).failed = false ∧ (x.next k c code).bad = 0) ∧
    (inRange code = true → x.failed = true → 1 < x.bad → (x.next k c code).failed = true ∧ (x.next k c code).bad = x.bad - 1) ∧
    (inRange code = true → (x.next k c code).held = some (scaled k c code)) ∧
    (inRange code = false → (x.next k c code).held = x.held) ∧
    (x.failed = true → x.contributes = none) ∧ (x.failed = false → x.contributes = x.held)

/-- SURVEY: the judgement (R3, R4, R6 to R9, R11). Every channel takes its reading. Two usable transducers within `ab_tolerance` give GOOD and
their mean, with FLOAT_FAULT just where the floats are inconsistent; two that disagree, DISAGREE, and SINGLE with the one that alone is
plausible, FLOATS_ONLY where both or neither is, NONE where the floats are inconsistent; one usable, SINGLE where it is plausible; none,
FLOATS_ONLY. The band of a numeric level is that of the level; else it is that of the highest wet float, the level field its lower edge
or, in NONE, 65 535. The volume is that of the strapping table: the first and the last point's outside, between two points in proportion,
rounded down; in NONE that of the judgement before, or 0. Air, water and zones read the channels of their roles. -/
def Obligations.LevelsAreJudged : Prop :=
  ∀ (x : Sample) (s : State), s.sys.held = false → Completes (.survey x) s fun t => ∃ j, t.survey.judgement = some j ∧
    (∀ k : Fin 8, t.survey.chans[k.val]'k.isLt
      = (s.survey.chans[k.val]'k.isLt).next k.val (s.set.cal[k.val]'k.isLt) (x.codes[k.val]'k.isLt)) ∧
    (∀ v, (t.survey.chans[0]).contributes = some v → ∀ w, (t.survey.chans[1]).contributes = some w →
      ((v - w).natAbs ≤ s.set.abTolerance → j.quality = .good ∧ j.level = ((v + w) / 2).toNat ∧ j.disagree = false
        ∧ (j.floatFault = true ↔ ¬floatsAgree t.survey.deb)) ∧
      (s.set.abTolerance < (v - w).natAbs → j.disagree = true ∧ j.floatFault = false ∧
        (¬floatsAgree t.survey.deb → j.quality = .none) ∧
        (fitsFloats s.set t.survey.deb v → ¬fitsFloats s.set t.survey.deb w → j.quality = .single ∧ j.level = v.toNat) ∧
        (fitsFloats s.set t.survey.deb w → ¬fitsFloats s.set t.survey.deb v → j.quality = .single ∧ j.level = w.toNat) ∧
        (floatsAgree t.survey.deb → (fitsFloats s.set t.survey.deb v ↔ fitsFloats s.set t.survey.deb w) →
          j.quality = .floatsOnly))) ∧
    (∀ v, (t.survey.chans[0]).contributes = some v → (t.survey.chans[1]).contributes = none → votedAlone s.set t.survey.deb v j) ∧
    (∀ v, (t.survey.chans[1]).contributes = some v → (t.survey.chans[0]).contributes = none → votedAlone s.set t.survey.deb v j) ∧
    ((t.survey.chans[0]).contributes = none → (t.survey.chans[1]).contributes = none → j.disagree = false ∧ j.floatFault = false ∧
      (floatsAgree t.survey.deb → j.quality = .floatsOnly) ∧ (¬floatsAgree t.survey.deb → j.quality = .none)) ∧
    (numericQ j.quality → (j.level < s.set.floatLow → j.band = .belowLow) ∧
      (s.set.floatLow ≤ j.level → j.level < s.set.floatHigh → j.band = .lowToHigh) ∧
      (s.set.floatLow ≤ j.level → s.set.floatHigh ≤ j.level → j.level < s.set.floatTop → j.band = .highToTop) ∧
      (s.set.floatLow ≤ j.level → s.set.floatHigh ≤ j.level → s.set.floatTop ≤ j.level → j.band = .aboveTop)) ∧
    (¬numericQ j.quality → (j.quality = .none → j.level = 65535) ∧
      (t.survey.deb.top = true → j.band = .aboveTop ∧ (j.quality = .floatsOnly → j.level = s.set.floatTop)) ∧
      (t.survey.deb.top = false → t.survey.deb.high = true → j.band = .highToTop
        ∧ (j.quality = .floatsOnly → j.level = s.set.floatHigh)) ∧
      (t.survey.deb.top = false → t.survey.deb.high = false → t.survey.deb.low = true → j.band = .lowToHigh
        ∧ (j.quality = .floatsOnly → j.level = s.set.floatLow)) ∧
      (t.survey.deb.top = false → t.survey.deb.high = false → t.survey.deb.low = false → j.band = .belowLow
        ∧ (j.quality = .floatsOnly → j.level = 0))) ∧
    (j.quality = .none → (∀ p, s.survey.judgement = some p → j.volume = p.volume) ∧ (s.survey.judgement = none → j.volume = 0)) ∧
    (j.quality ≠ .none → s.set.straps.Pairwise (fun a b => a.level < b.level) →
      (∀ a, s.set.straps.head? = some a → j.level ≤ a.level → j.volume = a.volume) ∧
      (∀ a, s.set.straps.getLast? = some a → a.level ≤ j.level → j.volume = a.volume) ∧
      (∀ k a, s.set.straps[k]? = some a → ∀ b, s.set.straps[k + 1]? = some b → a.level ≤ j.level → j.level < b.level →
        j.volume = a.volume + (j.level - a.level) * (b.volume - a.volume) / (b.level - a.level))) ∧
    readFrom (t.survey.chans[2]) j.air ∧
    (s.set.waterChannel = none → j.water = ⟨0, false⟩) ∧
    (∀ k, s.set.waterChannel = some k → readFrom (t.survey.chans[k.val]'k.isLt) j.water) ∧
    (∀ h : Fin 4, ((s.zoneSet h).fitted = false → j.zones[h.val]'h.isLt = ⟨0, false⟩) ∧
      ((s.zoneSet h).fitted = true → readFrom (t.survey.chans[(s.zoneSet h).channel.val]'(s.zoneSet h).channel.isLt) (j.zones[h.val]'h.isLt)))

/-- SURVEY: minutes, draw rate and hourly table (R1, R12 to R14). A survey counts the period of the interval in progress, and the next is 1 s
in RUN and 10 s in DARK; the first survey counts the period of the power state then, the model's choice (log 11); it is a minute boundary
where the count passes a multiple of 60. The minute accumulator takes inflow times period. At a boundary a sample of volume, quality and
whole litres joins the list, of which the last six stay, and the remainder is kept; the draw rate is the mean of the qualified minutes'
draws, rounded down, valid from three on, else 0. With the clock SET the boundary's hour is gathered: an accumulator of another hour
leaves its mean, its count and, from 30 on, its valid flag in the table and begins anew; a qualified minute's draw is added up to 60.
Without a boundary, and for the table with the clock UNSET, nothing moves. -/
def Obligations.MinutesAndHours : Prop :=
  ∀ (x : Sample) (s : State), s.sys.held = false → Completes (.survey x) s fun t => ∃ j, t.survey.judgement = some j ∧
    j.period = s.survey.interval.getD s.period ∧ t.survey.seconds = s.survey.seconds + j.period ∧
    (s.sys.power = .run → t.survey.interval = some 1) ∧ (s.sys.power = .dark → t.survey.interval = some 10) ∧
    (j.minute = true ↔ s.survey.seconds / 60 < t.survey.seconds / 60) ∧
    j.draw = t.survey.draw ∧ j.drawValid = t.survey.drawValid ∧
    (j.minute = false → t.survey.minAcc = s.survey.minAcc + j.inflow * j.period ∧ t.survey.minutes = s.survey.minutes
      ∧ t.survey.draw = s.survey.draw ∧ t.survey.drawValid = s.survey.drawValid ∧ t.survey.hours = s.survey.hours
      ∧ t.survey.hourAcc = s.survey.hourAcc) ∧
    (j.minute = true → t.survey.minAcc = (s.survey.minAcc + j.inflow * j.period) % 60 ∧
      (∃ old, (s.survey.minutes ++ [(⟨j.volume, j.quality, (s.survey.minAcc + j.inflow * j.period) / 60⟩ : MinuteSample)])
        = old ++ t.survey.minutes ∧ t.survey.minutes.length = min 6 (s.survey.minutes.length + 1)) ∧
      (3 ≤ ((drawsOf t.survey.minutes).filterMap id).length → t.survey.drawValid = true ∧
        t.survey.draw = ((drawsOf t.survey.minutes).filterMap id).sum / ((drawsOf t.survey.minutes).filterMap id).length) ∧
      (((drawsOf t.survey.minutes).filterMap id).length < 3 → t.survey.drawValid = false ∧ t.survey.draw = 0)) ∧
    (j.minute = true → s.cal.set = false → t.survey.hours = s.survey.hours ∧ t.survey.hourAcc = s.survey.hourAcc) ∧
    (j.minute = true → s.cal.set = true →
      (∀ base : HourAcc, base.hour = (s.now % 86400 / 3600).toNat →
        s.survey.hourAcc = some base ∨ (base.sum = 0 ∧ base.count = 0 ∧ ∀ a, s.survey.hourAcc = some a → a.hour ≠ base.hour) →
        (∀ d, (drawsOf t.survey.minutes).getLast?.join = some d → base.count < 60 →
          t.survey.hourAcc = some ⟨base.hour, base.sum + d, base.count + 1⟩) ∧
        ((drawsOf t.survey.minutes).getLast?.join = none ∨ 60 ≤ base.count → t.survey.hourAcc = some base)) ∧
      (∀ a, s.survey.hourAcc = some a → a.hour ≠ (s.now % 86400 / 3600).toNat → ∀ h : Fin 24, t.survey.hours[h.val]'h.isLt =
        if h.val = a.hour then ⟨if a.count = 0 then 0 else a.sum / a.count, a.count, decide (30 ≤ a.count)⟩
        else s.survey.hours[h.val]'h.isLt) ∧
      ((∀ a, s.survey.hourAcc = some a → a.hour = (s.now % 86400 / 3600).toNat) → t.survey.hours = s.survey.hours))

/-- SURVEY: its records, seen where they wait in the queue (R10, R16 to R18), where the model settles four points: the last survey, or the new
time of a SET_CLOCK, from which the next boundary is sought, and the first survey's inflow, which no interval counts (log 27); QUALITY in
front of LEVEL_FRAME and LEVEL_STEP (log 12); and the spacing count that rises before a survey's own comparison (log 55). A quality other
than that of the judgement before, or the first, makes QUALITY. The report interval gathers minimum, maximum, sum and count of the numeric
levels and the worst quality; it ends, with the clock SET, where an aligned boundary has been passed, else at the minute boundary that
completes `report_interval` minutes; then LEVEL_FRAME follows with its mean, volumes, inflow and draw, a new interval begins, the
remainder of the inflow is kept, and a numeric level is the step reference. A numeric level at least `step_deadband` from the reference,
ten surveys after the last LEVEL_STEP, makes one and is the reference; the spacing count rises to 10. -/
def Obligations.SurveyRecords : Prop :=
  ∀ (x : Sample) (s : State), s.sys.held = false → s.recordsWait 3 → 1 ≤ s.set.reportInterval → Completes (.survey x) s fun t =>
    ∃ j, t.survey.judgement = some j ∧
    let quality : List Rec := if s.survey.judgement.map Judgement.quality = some j.quality then [] else
      [⟨.quality, s.now, none, b1 ((s.survey.judgement.map fun p => p.quality.code).getD 255) ++ b1 j.quality.code
        ++ b1 ((if j.disagree then 1 else 0) + (if j.floatFault then 2 else 0) + (if j.floats.opf then 4 else 0))
        ++ b1 (if (t.survey.chans[0]).failed then 1 else 0) ++ b1 (if (t.survey.chans[1]).failed then 1 else 0) ++ [0] ++ b2 j.level⟩]
    let total := s.survey.intAcc + j.inflow * j.period
    let step (ref : Option Nat) : List Rec := match ref with
      | none => []
      | some r => if numericQ j.quality ∧ s.set.stepDeadband ≤ ((j.level : Int) - r).natAbs ∧ 9 ≤ s.survey.spacing then
          [⟨.levelStep, s.now, none, b2 j.level ++ b2 r ++ b1 j.quality.code ++ [0, 0, 0]⟩] else []
    let stepped (ref : Option Nat) : Prop :=
      (step ref = [] → t.survey.spacing = min 10 (s.survey.spacing + 1) ∧
        t.survey.stepRef = if numericQ j.quality ∧ ref = none then some j.level else ref) ∧
      (step ref ≠ [] → t.survey.spacing = 0 ∧ t.survey.stepRef = some j.level)
    let fresh : Interval := ⟨s.now, 65535, 0, 0, 0, .good, j.volume, 0⟩
    t.survey.reportFrom = s.now ∧
    (s.survey.report = none → t.jrn.queue = s.jrn.queue ++ quality ++ step s.survey.stepRef ∧ t.survey.report = some fresh
      ∧ t.survey.intAcc = 0 ∧ stepped s.survey.stepRef) ∧
    ∀ i, s.survey.report = some i →
      let k : Interval := { i with
        startVolume := if s.survey.startVolDue then j.volume else i.startVolume
        least := if numericQ j.quality then min i.least j.level else i.least
        most := if numericQ j.quality then max i.most j.level else i.most
        sum := if numericQ j.quality then i.sum + j.level else i.sum
        count := if numericQ j.quality then i.count + 1 else i.count
        worst := if i.worst.code < j.quality.code then j.quality else i.worst
        minutes := if j.minute then i.minutes + 1 else i.minutes }
      let ended : Prop := (s.cal.set = true ∧ ∃ b : Time, s.survey.reportFrom < b ∧ b ≤ s.now ∧ b % 60 = 0
          ∧ (b % 86400 / 60) % (s.set.reportInterval : Int) = 0) ∨
        (s.cal.set = false ∧ j.minute = true ∧ s.set.reportInterval ≤ k.minutes)
      (¬ended → t.jrn.queue = s.jrn.queue ++ quality ++ step s.survey.stepRef ∧ t.survey.report = some k
        ∧ t.survey.intAcc = total ∧ stepped s.survey.stepRef) ∧
      (ended → t.survey.report = some fresh ∧ t.survey.intAcc = total % 60 ∧
        let ref := if numericQ j.quality then some j.level else s.survey.stepRef
        stepped ref ∧ t.jrn.queue = s.jrn.queue ++ quality ++ [(⟨.levelFrame, s.now, none,
          bt k.start ++ b2 (if k.count = 0 then 65535 else k.least) ++ b2 (if k.count = 0 then 65535 else k.most)
            ++ b2 (if k.count = 0 then 65535 else k.sum / k.count) ++ b2 k.count ++ b1 k.worst.code ++ [0, 0, 0] ++ b4 k.startVolume
            ++ b4 j.volume ++ b4 (total / 60) ++ b4 (((total / 60 : Nat) : Int) - ((j.volume : Int) - k.startVolume)).toNat⟩ : Rec)]
          ++ step ref)

/-! ## The overflow guard -/

/-- R22: at each judgement the confirm count rises by one, to no more than `trip_confirm`, when the quality is GOOD or SINGLE and the
level field is at or above the effective trip level, and is otherwise 0, in all four guard states; the LEVEL cause is present at the
judgement exactly when the count is at or above the `trip_confirm` then in force. -/
def Obligations.GuardConfirmCount : Prop :=
  ∀ (j : Judgement) (s : State), s.sys.held = false → Completes (.guardJudgement j) s fun t =>
    (((j.quality = .good ∨ j.quality = .single) ∧ s.guard.effTrip ≤ j.level) →
      t.guard.confirm = if s.guard.confirm < s.set.tripConfirm then s.guard.confirm + 1 else s.guard.confirm) ∧
    (¬((j.quality = .good ∨ j.quality = .single) ∧ s.guard.effTrip ≤ j.level) → t.guard.confirm = 0) ∧
    (Cause.level ∈ causesAt s.set t.guard.confirm j ↔ s.set.tripConfirm ≤ t.guard.confirm)

/-- R23 to R25: a judgement that finds the guard CLEAR or WATCH. With a trip cause present it trips: the causes, the first of them, the trip
time; INLET is owned by GUARD and commanded CLOSED, GTRIP asserted, and every pump contactor off (given that the contactors agreed with
the machine states before). Without one it is WATCH exactly when the quality is numeric and the level at or above the effective warn
level, else CLEAR; of the guard only its confirm count and its episode move besides.
R27, R29 to R31: a judgement that finds the guard TRIPPED. The release count is absent while a release condition fails, starts at 0 and
grows by the survey period while they hold; below `release_delay` the guard stays TRIPPED; at it, it is HELD where an acknowledgement is
asked for or the trip was a test, else CLEAR without causes. One that finds it HELD keeps it HELD without a trip cause, and with one makes
it TRIPPED again, the causes added to those it had, the first cause and the trip time kept. The trip duration is 0 at a trip and grows by
the survey period while TRIPPED or HELD. At the release to CLEAR the inlet's owner is NONE, or HOLD under a hold, the plan controller is
told INLET_FREE, and the valve stays where it is.
R34, R35: a judgement with overflow begins an episode of 0 s, or lets the one that lasts grow by the survey period; one without ends it.
The records, where they wait in the queue: GUARD_TRIP at a trip and a re-trip, GUARD_CLEAR at the release, OVERFLOW at the start and the
end of an episode, which carries its own judgement's fields (log 43). -/
def Obligations.GuardJudges : Prop :=
  (∀ (j : Judgement) (s : State), s.sys.held = false → (s.guard.mode = .clear ∨ s.guard.mode = .watch) → s.pumpsGuarded →
     causesAt s.set (s.guard.confirmAfter s.set j) j ≠ [] → Completes (.guardJudgement j) s fun t =>
       t.guard.mode = .tripped ∧ t.guard.causes = causesAt s.set (s.guard.confirmAfter s.set j) j
         ∧ t.guard.first = t.guard.causes.head? ∧ t.guard.tripTime = some j.time ∧ t.gtrip = true
         ∧ t.guard.tripSecs = 0 ∧ t.guard.release = none ∧ t.act.inlet.owner = .guard ∧ t.act.inlet.cmd = some .closed ∧ t.pumpsOff) ∧
  (∀ (j : Judgement) (s : State), s.sys.held = false → (s.guard.mode = .clear ∨ s.guard.mode = .watch) →
     causesAt s.set (s.guard.confirmAfter s.set j) j = [] → Completes (.guardJudgement j) s fun t =>
       (t.guard.mode = .watch ↔ (j.quality = .good ∨ j.quality = .single) ∧ s.guard.effWarn ≤ j.level)
         ∧ (t.guard.mode = .clear ↔ ¬((j.quality = .good ∨ j.quality = .single) ∧ s.guard.effWarn ≤ j.level))
         ∧ t.guard = { s.guard with mode := t.guard.mode, confirm := t.guard.confirm, episode := t.guard.episode }) ∧
  (∀ (j : Judgement) (s : State), s.sys.held = false → s.guard.mode = .tripped → Completes (.guardJudgement j) s fun t =>
     t.guard.tripSecs = s.guard.tripSecs + j.period ∧
     (releaseMet s.set j = false → t.guard.mode = .tripped ∧ t.guard.release = none) ∧
     (∀ k, releaseMet s.set j = true → (s.guard.release = none → k = 0) → (∀ m, s.guard.release = some m → k = m + j.period) →
       (k < s.set.releaseDelay → t.guard.mode = .tripped ∧ t.guard.release = some k) ∧
       (s.set.releaseDelay ≤ k → (s.set.releaseAck = true ∨ Cause.test ∈ s.guard.causes) →
         t.guard.mode = .held ∧ t.guard.causes = s.guard.causes) ∧
       (s.set.releaseDelay ≤ k → s.set.releaseAck = false → Cause.test ∉ s.guard.causes →
         t.guard.mode = .clear ∧ t.guard.causes = [] ∧ t.guard.first = none ∧ t.guard.tripTime = none ∧ t.guard.release = none
           ∧ t.gtrip = false ∧ .inletFree ∈ t.transit ∧ (s.unheld .inlet → t.act.inlet.owner = .none)
           ∧ (s.unpending .inlet → ¬s.unheld .inlet → t.act.inlet.owner = .hold)
           ∧ (s.act.inlet.calm → s.unpending .inlet → t.act.inlet.mode = s.act.inlet.mode ∧ t.act.inlet.cmd = s.act.inlet.cmd
             ∧ t.act.inlet.travelDl = s.act.inlet.travelDl)))) ∧
  (∀ (j : Judgement) (s : State), s.sys.held = false → s.guard.mode = .held → Completes (.guardJudgement j) s fun t =>
     (causesAt s.set (s.guard.confirmAfter s.set j) j = [] → t.guard.mode = .held ∧ t.guard.causes = s.guard.causes) ∧
     (causesAt s.set (s.guard.confirmAfter s.set j) j ≠ [] → t.guard.mode = .tripped
       ∧ ∀ c, c ∈ t.guard.causes ↔ c ∈ s.guard.causes ∨ c ∈ causesAt s.set (s.guard.confirmAfter s.set j) j) ∧
     t.guard.first = s.guard.first ∧ t.guard.tripTime = s.guard.tripTime ∧ t.guard.tripSecs = s.guard.tripSecs + j.period) ∧
  (∀ (j : Judgement) (s : State), s.sys.held = false → s.recordsWait 7 → s.allEstablished → Completes (.guardJudgement j) s fun t =>
     (j.floats.opf = true → (s.guard.episode = none → t.guard.episode = some ⟨j.time, 0⟩) ∧
       ∀ e, s.guard.episode = some e → t.guard.episode = some ⟨e.start, e.elapsed + j.period⟩) ∧
     (j.floats.opf = false → t.guard.episode = none) ∧
     let causes := causesAt s.set (s.guard.confirmAfter s.set j) j
     let trip : Rec := ⟨.guardTrip, j.time, none, b1 (causeSet t.guard.causes) ++ b1o (t.guard.first.map Cause.code)
       ++ b1 ((if s.guard.mode = .held then 1 else 0) + (if s.guard.frostFlag then 2 else 0)) ++ b1 s.guard.mode.code
       ++ b1 j.quality.code ++ b1 j.band.code ++ b2 j.level ++ b2 s.guard.effTrip ++ [0, 0]⟩
     let clear : Rec := ⟨.guardClear, j.time, none, b1 0 ++ b1 (causeSet s.guard.causes) ++ b1o (s.guard.first.map Cause.code)
       ++ b1 j.quality.code ++ b2 j.level ++ [0, 0] ++ bto s.guard.tripTime ++ b4 (s.guard.tripSecs + j.period)⟩
     let main : List Rec := if causes ≠ [] ∧ s.guard.mode ≠ .tripped then [trip]
       else if s.guard.mode = .tripped ∧ t.guard.mode = .clear then [clear] else []
     let flow (mark : Nat) (start : Time) (secs : Nat) : Rec := ⟨.overflow, j.time, none, b1 mark ++ b1 j.quality.code
       ++ b1 t.guard.mode.code ++ [0] ++ b2 j.level ++ [0, 0] ++ bt start ++ b4 secs⟩
     ∃ l, t.jrn.queue = s.jrn.queue ++ l ∧ l.filter (fun r => decide (r.kind ≠ .run ∧ r.kind ≠ .planEnd)) = main ++
       match j.floats.opf, s.guard.episode with
       | true, none => [flow 0 j.time 0]
       | false, some e => [flow 1 e.start e.elapsed]
       | true, some _ => []
       | false, none => [])

/-- R21: a frost state change sets or clears the frost flag and the effective levels, and nothing else; an adoption recomputes the
levels under the flag held. GUARD_TRAVEL_END (R27): a guard that keeps the seizure recloses an inlet that stands elsewhere than
CLOSED and is not on its way: a fresh travel toward CLOSED with its deadline `travel_limit` ahead. A travel begins though its own switch
is made already (the model's choice, log 56). -/
def Obligations.GuardIsTold : Prop :=
  ((∀ (f : FrostState) (s : State), s.sys.held = false → Completes (.frostStateChange f) s fun t =>
     t = { s with
       transit := s.transit.erase (.frostStateChange f)
       guard := { s.guard with
         frostFlag := decide (f = .frost ∨ f = .hard)
         effWarn := if f = .none then s.set.warnLevel else s.set.warnLevel - s.set.frostMargin
         effTrip := if f = .none then s.set.tripLevel else s.set.tripLevel - s.set.frostMargin } }) ∧
   (∀ s : State, s.guardAdopt.guard = { s.guard with
     effWarn := if s.guard.frostFlag then s.set.warnLevel - s.set.frostMargin else s.set.warnLevel
     effTrip := if s.guard.frostFlag then s.set.tripLevel - s.set.frostMargin else s.set.tripLevel })) ∧
  (∀ s : State, s.sys.held = false → s.guard.mode.seizes = true → s.drives = true → s.act.inlet.leaving = false →
     s.act.inlet.releasing = false → (s.act.inlet.mode = .opened ∨ s.act.inlet.mode = .midway ∨ s.act.inlet.mode = .stuck
       ∨ s.act.inlet.mode = .opening) → Completes .guardTravelEnd s fun t =>
       t.act.inlet.cmd = some .closed ∧ t.act.inlet.mode = .closing ∧ t.act.inlet.travelDl = some (s.now + s.set.travelLimit)
         ∧ t.guard = s.guard)

/-! ## The load arbiter -/

/-- CLAIM, WITHDRAWAL and GRANT_RELEASE (R74, R76, R77): a claimant without claim or grant joins the list and the list is walked; a
claim is taken out, or a grant, and the list is walked; where there is none to take out, or the claimant has an entry already, the
arbiter stays as it is. RELEVEL (R75): a claim is placed anew with its level, flag and a new join number; a grant keeps its place and
takes level and flag, and is RECALLED when the level is at or below the mask; the list is walked.
MASK_CHANGE (R78): a mask that rises makes every GRANTED grant at or below it RECALLED, one that falls recalls nothing; the list is
walked; an equal mask changes nothing. BUDGET_CHANGE (R80): a budget that covers the units granted is taken and the list walked; one
below them is not taken (the model's choice, log 26). -/
def Obligations.ArbiterEvents : Prop :=
  (∀ (l : Load) (s : State), s.sys.held = false →
     (∀ units level urgent, Completes (.claim l units level urgent) s fun t =>
       (s.arb.has l = false → t.arb = (s.arb.joins l units level urgent).walked.state) ∧ (s.arb.has l = true → t.arb = s.arb)) ∧
     Completes (.withdrawal l) s (fun t =>
       ((∃ c ∈ s.arb.claims, c.who = l) →
         t.arb = { s.arb with claims := s.arb.claims.filter fun c => decide (c.who ≠ l) }.walked.state) ∧
       ((∀ c ∈ s.arb.claims, c.who ≠ l) → t.arb = s.arb)) ∧
     Completes (.grantRelease l) s (fun t =>
       ((∃ g ∈ s.arb.grants, g.who = l) →
         t.arb = { s.arb with grants := s.arb.grants.filter fun g => decide (g.who ≠ l) }.walked.state) ∧
       ((∀ g ∈ s.arb.grants, g.who ≠ l) → t.arb = s.arb))) ∧
  (∀ (l : Load) (level : Nat) (urgent : Bool) (s : State), s.sys.held = false → Completes (.relevel l level urgent) s fun t =>
     (∀ c, s.arb.claims.find? (fun c => decide (c.who = l)) = some c →
       t.arb = ({ s.arb with claims := s.arb.claims.filter fun d => decide (d.who ≠ c.who) }.joins c.who c.units level urgent).walked.state) ∧
     ((∀ c ∈ s.arb.claims, c.who ≠ l) → ∀ g, s.arb.grants.find? (fun g => decide (g.who = l)) = some g →
       t.arb = ({ s.arb with grants := s.arb.grants.map fun x => if x.who = l then
         { x with level := level, urgent := urgent, recalled := x.recalled || (!g.recalled && decide (level ≤ s.arb.mask)) }
         else x } : ArbState).walked.state) ∧
     (s.arb.has l = false → t.arb = s.arb)) ∧
  (∀ s : State, s.sys.held = false →
    (∀ m, Completes (.maskChange m) s fun t =>
      (s.arb.mask < m → t.arb = ({ s.arb with
        mask := m, grants := s.arb.grants.map fun g => { g with recalled := g.recalled || decide (g.level ≤ m) } } :
          ArbState).walked.state) ∧
      (m < s.arb.mask → t.arb = ({ s.arb with mask := m } : ArbState).walked.state) ∧ (m = s.arb.mask → t.arb = s.arb)) ∧
    (∀ b, Completes (.budgetChange b) s fun t =>
      (unitsOf s.arb.grants ≤ b → t.arb = ({ s.arb with budget := b } : ArbState).walked.state) ∧
      (b < unitsOf s.arb.grants → t.arb = s.arb)))

/-- R81: at mains loss the arbiter empties its claim list and its grant table together, without recalls, and keeps budget and mask; and the
actuator controller sets every claim state to none. Through DARK claims join, the list is walked and masks are taken. No heater or pump
is driven until the power state is RUN: no command that finds and leaves the part outside RUN turns a contactor on. At the restore the
arbiter holds whatever claims and grants DARK has left it. -/
def Obligations.MainsLossFreesAllLoad : Prop :=
  (∀ s : State, s.sys.held = false →
    Completes .arbiterMainsLoss s (fun t => t = { s with
      transit := s.transit.erase .arbiterMainsLoss, arb := { s.arb with claims := [], grants := [] } }) ∧
    Completes .actuatorMainsLoss s (fun t => (∀ n, (t.pump n).claim = .none) ∧ (∀ h, (t.heater h).claim = .none)) ∧
    (s.sys.power = .dark → ∀ l units level urgent m,
      Completes (.claim l units level urgent) s (fun t => s.arb.has l = false → t.arb = (s.arb.joins l units level urgent).walked.state) ∧
      Completes (.maskChange m) s fun t => t.arb.mask = m) ∧
    (s.sys.power = .dark → Completes .mainsRestore s fun t => t.arb = s.arb)) ∧
  ∀ (c : Instr) (s t : State), exec c s = .next t → s.sys.power ≠ .run → t.sys.power ≠ .run →
    (∀ n, (s.pump n).contactor = false → (t.pump n).contactor = false) ∧
    ∀ h, (s.heater h).contactor = false → (t.heater h).contactor = false

/-- R74: a joining claim stands behind every claim of its level or above, in front of every lower one; an urgent claim in front of every claim
of its level; the claims already there keep their order; join numbers run on from 65 535 to 0. R76: the walk never grants past the budget,
grants only unmasked claims, leaves the grants it found as they stand and adds the new ones behind them, and overtakes nothing: a claim
left in the list that is not masked has nothing granted from behind it, and is the urgent claim the walk stops at where it is urgent. A
new grant has the units, level, flag and join number of its claim.
R79: urgent preemption recalls only grants of a level below 6, keeps every grant in its place with its units, recalls nothing where even
all of them would not cover the claim, and covers the claim where it recalls anything. It recalls in one order, the lowest level first and
of one level the nearest to the tail first, and stops as soon as the claim is covered. -/
def Obligations.ClaimListAndWalk : Prop :=
  (∀ (c : Claim) (l : List Claim), l.Pairwise (fun x y => y.level ≤ x.level) → ∃ a b, l = a ++ b ∧ placeClaim c l = a ++ c :: b ∧
     (c.urgent = false → (∀ x ∈ a, c.level ≤ x.level) ∧ ∀ x ∈ b, x.level < c.level) ∧
     (c.urgent = true → (∀ x ∈ a, c.level < x.level) ∧ ∀ x ∈ b, x.level ≤ c.level)) ∧
  (∀ (budget mask : Nat) (cs : List Claim) (gs : List Grant), unitsOf gs ≤ budget →
     ∃ new rest, (walk budget mask cs gs).grants = gs ++ new ∧ unitsOf (gs ++ new) ≤ budget
       ∧ (∃ front, cs = front ++ rest
         ∧ new = (front.filter fun c => decide (mask < c.level)).map (fun c => ⟨c.who, c.units, c.level, c.urgent, c.join, false⟩)
         ∧ (walk budget mask cs gs).granted = new.map Grant.who
         ∧ (rest = [] → (walk budget mask cs gs).urgent = none)
         ∧ (∀ c l, rest = c :: l → (walk budget mask cs gs).urgent = if c.urgent then some c else none)
         ∧ (walk budget mask cs gs).claims = (front.filter fun c => decide (c.level ≤ mask)) ++ rest
         ∧ ∀ c l, rest = c :: l → mask < c.level ∧ budget < unitsOf (gs ++ new) + c.units)) ∧
  (∀ (a : ArbState) (l : Load) (units level : Nat) (urgent : Bool),
     (a.joins l units level urgent).claims = placeClaim ⟨l, units, level, urgent, a.join⟩ a.claims ∧
     (a.join < 65535 → (a.joins l units level urgent).join = a.join + 1) ∧
     (a.join = 65535 → (a.joins l units level urgent).join = 0) ∧
     a.joins l units level urgent = { a with
       claims := (a.joins l units level urgent).claims, join := (a.joins l units level urgent).join }) ∧
  (∀ (a : ArbState), let w := walk a.budget a.mask a.claims a.grants
     a.walked.state = { a with claims := w.claims, grants := a.walked.state.grants } ∧ a.walked.granted = w.granted ∧
     (w.urgent = none → a.walked.state.grants = w.grants ∧ a.walked.recalled = []) ∧
     (∀ c, w.urgent = some c → (a.walked.state.grants, a.walked.recalled) = preempt a.budget c w.grants)) ∧
  (∀ (budget : Nat) (c : Claim) (gs : List Grant), (gs.map Grant.who).Nodup →
    let q := preempt budget c gs
    q.1.map (fun g => (g.who, g.units, g.level, g.urgent, g.join)) = gs.map (fun g => (g.who, g.units, g.level, g.urgent, g.join))
      ∧ (∀ g ∈ gs, 6 ≤ g.level → g ∈ q.1) ∧ (∀ g ∈ gs, g.recalled = true → g ∈ q.1)
      ∧ (covered budget c (gs.map fun g => if g.level < 6 then { g with recalled := true } else g) = false → q = (gs, []))
      ∧ (covered budget c (gs.map fun g => if g.level < 6 then { g with recalled := true } else g) = true →
        covered budget c q.1 = true)
      ∧ (covered budget c gs = true → q = (gs, []))
      ∧ (∃ (l : List Grant) (k : Nat), l.Perm (gs.filter fun g => !g.recalled && decide (g.level < 6)) ∧
        l.Pairwise (fun g h => g.level < h.level ∨ (g.level = h.level ∧ gs.idxOf h < gs.idxOf g)) ∧
        q.2 = (l.take k).map Grant.who ∧
        q.1 = gs.map (fun g => { g with recalled := g.recalled || decide (g ∈ l.take k) }) ∧
        ∀ i, i < k → i < l.length →
          covered budget c (gs.map fun g => { g with recalled := g.recalled || decide (g ∈ l.take i) }) = false))

/-! ## The actuator controller: pumps -/

/-- TRY_BEGIN (R40, R41, R42, R51): where every condition holds the contactor is commanded ON, the time joins the start list, and
STARTING begins with its deadline; a feedback or current already ON confirms the try at once (the model's choice, log 20). Where a
condition is false nothing but the message goes. No other entry moves. START_LIST_AGEING (R42): the conditions are tested again, and
a pump that waited for the limit alone begins its try; where a condition is still false the pump stays as it is. -/
def Obligations.TriesBegin : Prop :=
  (∀ s : State, s.sys.held = false →
     (∀ n, Completes (.tryBegin (.pump n)) s fun t =>
       (s.mayTry n → (t.pump n).contactor = true ∧ (t.pump n).starts.getLast? = some s.now
         ∧ (t.pump n).starts.length = min Config.startsMax ((s.pump n).starts.length + 1)
         ∧ ((s.pump n).feedback = false → (t.pump n).mode = .starting ∧ (t.pump n).tries = (s.pump n).tries
           ∧ (t.pump n).tryDl = some (s.now + s.set.confirmTime))
         ∧ ((s.pump n).feedback = true → (t.pump n).mode = .running ∧ (t.pump n).tries = 0 ∧ (t.pump n).runSince = some s.now)
         ∧ (∀ m, m ≠ n → t.pump m = s.pump m) ∧ t.act.heaters = s.act.heaters ∧ t.act.inlet = s.act.inlet
         ∧ t.act.holds = s.act.holds) ∧
       (¬s.mayTry n → t = { s with transit := s.transit.erase (.tryBegin (.pump n)) })) ∧
     (∀ h, Completes (.tryBegin (.heater h)) s fun t =>
       (s.mayHeat h → (t.heater h).contactor = true
         ∧ ((s.heater h).current = false → (t.heater h).mode = .starting ∧ (t.heater h).tries = (s.heater h).tries
           ∧ (t.heater h).tryDl = some (s.now + s.set.heaterConfirm))
         ∧ ((s.heater h).current = true → (t.heater h).mode = .on ∧ (t.heater h).tries = 0)
         ∧ (∀ m, m ≠ h → t.heater m = s.heater m) ∧ t.act.pumps = s.act.pumps ∧ t.act.inlet = s.act.inlet
         ∧ t.act.holds = s.act.holds) ∧
       (¬s.mayHeat h → t = { s with transit := s.transit.erase (.tryBegin (.heater h)) }))) ∧
  (∀ (n : Fin 4) (s : State), s.sys.held = false → s.act.inlet.calm → s.allEstablished → Completes (.startListAgeing n) s fun t =>
     (s.mayTry n → (t.pump n).contactor = true ∧ (t.pump n).starts.getLast? = some s.now
       ∧ ((t.pump n).mode = .starting ∨ (t.pump n).mode = .running)) ∧
     (¬s.mayTry n → t.pump n = s.pump n))

/-- TRY_DEADLINE and RETRY_DEADLINE (R41): a try whose deadline has passed with the feedback OFF is failed; below `start_try_limit`
RETRY_WAIT with its deadline ahead and the request kept, at it FAILED without request, owner and load, a held pump back in HELD with
count 0 (R59). RETRY_WAIT over, the pump is READY, its count kept for a standing request and 0 for a withdrawn one, and a standing
request without load claims. -/
def Obligations.TriesFail : Prop :=
  ∀ (n : Fin 4) (s : State), s.sys.held = false → s.unpending (.pump n) →
    ((s.pump n).mode = .starting → s.due (s.pump n).tryDl = true → (s.pump n).feedback = false →
      Completes (.tryDeadline n) s fun t =>
        (t.pump n).contactor = false ∧
        ((s.pump n).tries + 1 < s.set.startTryLimit → (s.pump n).request = .start → (s.pump n).claim ≠ .recalled →
          (t.pump n).mode = .retryWait ∧ (t.pump n).tries = (s.pump n).tries + 1 ∧ (t.pump n).request = .start
            ∧ (t.pump n).claim = (s.pump n).claim ∧ (t.pump n).retryDl = some (s.now + s.set.restartInterval)) ∧
        (s.set.startTryLimit ≤ (s.pump n).tries + 1 → (s.pump n).owner ≠ .hold →
          (t.pump n).mode = .failed ∧ (t.pump n).tries = (s.pump n).tries + 1 ∧ (t.pump n).request = .none
            ∧ (t.pump n).owner = .none ∧ (t.pump n).claim = .none) ∧
        (s.set.startTryLimit ≤ (s.pump n).tries + 1 → (s.pump n).owner = .hold →
          (t.pump n).mode = .held ∧ (t.pump n).tries = 0 ∧ (t.pump n).request = .none ∧ (t.pump n).owner = .hold)) ∧
    ((s.pump n).mode = .retryWait → s.due (s.pump n).retryDl = true → s.unheld (.pump n) →
      Completes (.retryDeadline n) s fun t =>
        ((s.pump n).request ≠ .start → (t.pump n).mode = .ready ∧ (t.pump n).tries = 0 ∧ (t.pump n).retryDl = none) ∧
        ((s.pump n).request = .start → (s.pump n).claim = .none → (t.pump n).mode = .ready
          ∧ (t.pump n).tries = (s.pump n).tries ∧ (t.pump n).claim = .claimed) ∧
        ((s.pump n).request = .start → (s.pump n).claim ≠ .none → (s.pump n).claim ≠ .granted → (t.pump n).mode = .ready
          ∧ (t.pump n).tries = (s.pump n).tries ∧ (t.pump n).claim = (s.pump n).claim) ∧
        ((s.pump n).request = .start → (s.pump n).claim = .granted →
          (t.pump n).mode = .ready ∨ ((t.pump n).contactor = true ∧ ((t.pump n).mode = .starting ∨ (t.pump n).mode = .running))))

/-- RUN_FEEDBACK_CHANGE (R41, R43, R45, R59). To ON: a pump in STARTING runs, its count 0; one with its contactor OFF outside LOCAL and DARK
starts the 10 s, STOPPING from READY, RESTING, RETRY_WAIT and HELD, unchanged from FAILED; in LOCAL or DARK its state stays. To OFF: a
RUNNING pump has failed a try, its contactor OFF, FAILED at the limit, an exercised held pump back in HELD with count 0; a pump in STOPPING
or STUCK_ON confirms off, RESTING for `min_off` from now, or HELD under an ESTABLISHED hold, and a request that is not START is then none
(the model's choice, log 45); a FAILED pump drops its timer. An input that has not changed is no event. -/
def Obligations.FeedbackChanges : Prop :=
  (∀ (n : Fin 4) (s : State), s.sys.held = false → s.unpending (.pump n) → (s.pump n).feedback = false →
     Completes (.runFeedbackChange n true) s fun t =>
       (t.pump n).feedback = true ∧
       ((s.pump n).mode = .starting → (t.pump n).mode = .running ∧ (t.pump n).tries = 0 ∧ (t.pump n).runSince = some s.now
         ∧ (t.pump n).tryDl = none) ∧
       (s.sys.power ≠ .dark → s.eng.access ≠ .localControl → (s.pump n).contactor = false →
         ((s.pump n).mode = .ready ∨ (s.pump n).mode = .resting ∨ (s.pump n).mode = .retryWait ∨ (s.pump n).mode = .held →
           (t.pump n).mode = .stopping ∧ (t.pump n).stopDl = some (s.now + 10)) ∧
         ((s.pump n).mode = .failed → (t.pump n).mode = .failed ∧ (t.pump n).stopDl = some (s.now + 10))) ∧
       ((s.sys.power = .dark ∨ s.eng.access = .localControl) → (s.pump n).mode ≠ .starting → (t.pump n).mode = (s.pump n).mode)) ∧
  (∀ (n : Fin 4) (s : State), s.sys.held = false → s.unpending (.pump n) →
     ((s.pump n).feedback = true → Completes (.runFeedbackChange n false) s fun t =>
       (t.pump n).feedback = false ∧
       ((s.pump n).mode = .running → (t.pump n).contactor = false ∧ (t.pump n).runSince = none ∧
         ((s.pump n).tries + 1 < s.set.startTryLimit → (t.pump n).mode = .retryWait ∧ (t.pump n).tries = (s.pump n).tries + 1) ∧
         (s.set.startTryLimit ≤ (s.pump n).tries + 1 → (s.pump n).owner ≠ .hold →
           (t.pump n).mode = .failed ∧ (t.pump n).request = .none ∧ (t.pump n).owner = .none ∧ (t.pump n).claim = .none) ∧
         (s.set.startTryLimit ≤ (s.pump n).tries + 1 → (s.pump n).owner = .hold →
           (t.pump n).mode = .held ∧ (t.pump n).tries = 0 ∧ (t.pump n).request = .none ∧ (t.pump n).owner = .hold
             ∧ (t.pump n).claim = .none)) ∧
       ((s.pump n).mode = .stopping ∨ (s.pump n).mode = .stuckOn →
         (t.pump n).offSince = some s.now ∧ (t.pump n).stopDl = none ∧
         (s.unheld (.pump n) → (t.pump n).mode = .resting ∧ (t.pump n).offEnd = some (s.now + s.set.minOff) ∧
           ((s.pump n).request ≠ .start → (s.pump n).owner ≠ .hold → (t.pump n).owner = .none ∧ (t.pump n).request = .none
             ∧ (t.pump n).claim = .none)) ∧
         (s.heldEstablished (.pump n) = true → (t.pump n).mode = .held)) ∧
       ((s.pump n).mode = .failed → (t.pump n).mode = .failed ∧ (t.pump n).stopDl = none)) ∧
     (∀ on, (s.pump n).feedback = on →
       Completes (.runFeedbackChange n on) s fun t => t = { s with transit := s.transit.erase (.runFeedbackChange n on) }))

/-- MIN_RUN_ELAPSED (R44, R46): a stop or a recall that waited for `min_run` takes the contactor OFF once the pump has run for it, and not
before (log 7). STOP_CONFIRM_EXPIRY (R45): feedback still ON makes a pump in STOPPING STUCK_ON with its load kept, and leaves the state of
another. MIN_OFF_EXPIRY (R45): a pump in RESTING is READY, one without a request START then giving up its request and load (log 18). -/
def Obligations.PumpStops : Prop :=
  ∀ (n : Fin 4) (s : State), s.sys.held = false → s.unpending (.pump n) →
    (∀ t0, (s.pump n).mode = .running → (s.pump n).runSince = some t0 → (s.pump n).stopWait = true ∨ (s.pump n).claim = .recalled →
      Completes (.minRunElapsed n) s fun t =>
        (t0 + s.set.minRun ≤ s.now → (t.pump n).contactor = false ∧
          ((s.pump n).feedback = true → (t.pump n).mode = .stopping ∧ (t.pump n).stopDl = some (s.now + 10))) ∧
        (s.now < t0 + s.set.minRun → t = { s with transit := s.transit.erase (.minRunElapsed n) })) ∧
    (s.due (s.pump n).stopDl = true → (s.pump n).feedback = true → (s.pump n).waits = false →
      Completes (.stopConfirmExpiry n) s fun t =>
        ((s.pump n).mode = .stopping → (t.pump n).mode = .stuckOn) ∧
        ((s.pump n).mode ≠ .stopping → (t.pump n).mode = (s.pump n).mode) ∧
        (t.pump n).stopDl = none ∧ (t.pump n).claim = (s.pump n).claim ∧ (t.pump n).owner = (s.pump n).owner) ∧
    ((s.pump n).mode = .resting → s.due (s.pump n).offEnd = true → s.unheld (.pump n) → Completes (.minOffExpiry n) s fun t =>
      ((s.pump n).request ≠ .start ∨ (s.pump n).claim ≠ .granted → (t.pump n).mode = .ready ∧ (t.pump n).offEnd = none) ∧
      ((s.pump n).request ≠ .start → (t.pump n).request = .none ∧ (t.pump n).claim = .none) ∧
      ((s.pump n).request = .start → (s.pump n).claim = .granted →
        (t.pump n).mode = .ready ∨ ((t.pump n).contactor = true ∧ ((t.pump n).mode = .starting ∨ (t.pump n).mode = .running))))

/-- RECALL (R39, R46, R52): a pump in STARTING goes off at once, one RUNNING when it has run for `min_run`, and keeps its request; a grant
with contactor and feedback OFF is released at once, and a standing request claims anew: a pump in READY, RESTING or RETRY_WAIT, or an
exercised one waiting in HELD. A heater goes off at once and keeps its
grant while current flows. A recall that finds no grant moves nothing of a pump or heater. -/
def Obligations.Recalls : Prop :=
  ∀ s : State, s.sys.held = false →
    (∀ n, s.unpending (.pump n) → Completes (.recall (.pump n)) s fun t =>
      ((s.pump n).claim = .granted →
        (t.pump n).claim ≠ .granted ∧
        ((s.pump n).mode = .starting → (t.pump n).contactor = false ∧ (t.pump n).tries = (s.pump n).tries) ∧
        ((s.pump n).mode = .running → s.ranEnough n = true → (t.pump n).contactor = false) ∧
        ((s.pump n).mode = .running → s.ranEnough n = false → (t.pump n).mode = .running ∧ (t.pump n).claim = .recalled
          ∧ (t.pump n).contactor = (s.pump n).contactor) ∧
        ((s.pump n).mode = .stopping ∨ (s.pump n).mode = .stuckOn → (t.pump n).claim = .recalled) ∧
        ((s.pump n).feedback = false → (s.pump n).mode = .ready ∨ (s.pump n).mode = .resting ∨ (s.pump n).mode = .retryWait
            ∨ ((s.pump n).mode = .held ∧ (s.pump n).owner = .hold) →
          (t.pump n).mode = (s.pump n).mode ∧ (t.pump n).owner = (s.pump n).owner ∧ (t.pump n).request = (s.pump n).request
            ∧ (t.pump n).claim = if (s.pump n).request = .start then .claimed else .none)) ∧
      ((s.pump n).claim ≠ .granted → t.pump n = s.pump n)) ∧
    (∀ h, s.unpending (.heater h) → Completes (.recall (.heater h)) s fun t =>
      ((s.heater h).claim = .granted →
        ((s.heater h).mode = .starting ∨ (s.heater h).mode = .on → (t.heater h).contactor = false ∧ (t.heater h).mode = .ready) ∧
        ((s.heater h).current = true → (t.heater h).claim = .recalled) ∧
        ((s.heater h).current = false → (t.heater h).claim = .none ∨ ((s.heater h).request = .start ∧ (t.heater h).claim = .claimed))) ∧
      ((s.heater h).claim ≠ .granted → t.heater h = s.heater h))

/-! ## The actuator controller: plans' requests and the inlet -/

/-- STAGE_REQUEST (R55, R53): from no engaged pump to one, the pump chosen is the choosable one with the fewest run minutes, the lowest
number first, and claims for the plan; to none, no pump of the plan is left with a request START; a plan that leaves the inlet keeps
it while a pump of its own runs out `min_run`, and without a turning pump is no longer its owner, the valve commanded CLOSED. A
request of a plan that does not own the inlet does nothing. -/
def Obligations.StagesOfAPlan : Prop :=
  ∀ (p : Nat) (s : State), s.sys.held = false →
    (s.act.inlet.owner = .plan p → s.act.inlet.leaving = false →
      (∀ k, (∀ j, s.isEngaged p j = false) → s.unpending (.pump k) → s.choosable k = true → (s.pump k).claim = .none →
        (∀ j, s.choosable j = true → (s.pump k).minutes < (s.pump j).minutes ∨ ((s.pump k).minutes = (s.pump j).minutes ∧ k ≤ j)) →
        Completes (.stageRequest p 1 false) s fun t =>
          (t.pump k).owner = .plan p ∧ (t.pump k).request = .start ∧ (t.pump k).claim = .claimed) ∧
      Completes (.stageRequest p 0 false) s fun t => ∀ k, ¬((t.pump k).owner = .plan p ∧ (t.pump k).request = .start)) ∧
    (s.act.inlet.owner = .plan p → (∀ q, s.plan p = some q → q.state ≠ .active) → s.unpending .inlet →
      Completes (.stageRequest p 0 true) s fun t =>
        ((∃ k, (s.pump k).owner = .plan p ∧ (s.pump k).mode = .running ∧ s.ranEnough k = false) →
          t.act.inlet.owner = .plan p ∧ t.act.inlet.leaving = true) ∧
        ((∀ k, (s.pump k).turning = false) →
          t.act.inlet.owner = .none ∧ t.act.inlet.leaving = false ∧ t.act.inlet.cmd = some .closed)) ∧
    (∀ count leaving, s.act.inlet.owner ≠ .plan p → Completes (.stageRequest p count leaving) s fun t =>
      t = { s with transit := s.transit.erase (.stageRequest p count leaving) })

/-- STAGE_REQUEST (R55, R39). A raised count adds the choosable pumps (fitted, READY, without owner and hold) with the fewest run minutes,
ties to the lower number, one after another until the count is met or none is left: each takes the plan as owner and the request START and
has a claim or a grant; the others stay. A lowered count drops pumps that are not RUNNING first, then those with the most run minutes,
ties to the higher number: each loses its request START, the others keep it. Either way the plan is told which pumps are engaged: those of
a request START, with those still on their way off; of the dropped ones none but a pump that was STARTING, RUNNING or STOPPING. -/
def Obligations.StagesByMinutes : Prop :=
  ∀ (p count : Nat) (l : List (Fin 4)) (s : State), s.sys.held = false → s.act.inlet.owner = .plan p → s.act.inlet.leaving = false →
    s.allEstablished →
    let now := (four.filter fun k => decide ((s.pump k).owner = .plan p ∧ (s.pump k).request = .start)).length
    (now < count → (∀ k, k ∈ l ↔ (s.pumpSet k).fitted = true ∧ (s.pump k).mode = .ready ∧ (s.pump k).owner = .none ∧ (s.pump k).hold = none) →
      s.fewestFirst l → Completes (.stageRequest p count false) s fun t =>
        (∀ k, k ∈ l.take (count - now) → (t.pump k).owner = .plan p ∧ (t.pump k).request = .start ∧ (t.pump k).claim ≠ .none) ∧
        (∀ k, k ∈ l.drop (count - now) → t.pump k = s.pump k) ∧
        (∀ k, (s.pump k).owner = .plan p → (s.pump k).request = .start → (t.pump k).owner = .plan p ∧ (t.pump k).request = .start) ∧
        ∃ m, m.Perm (four.filter fun k => s.isListed p k || (l.take (count - now)).contains k) ∧
          .actuatorReport p (.pumps m .staged) ∈ t.transit) ∧
    (count < now → (∀ k, k ∈ l ↔ (s.pump k).owner = .plan p ∧ (s.pump k).request = .start) →
      l.Pairwise (fun a b => ((s.pump a).mode ≠ .running ∧ (s.pump b).mode = .running) ∨
        (((s.pump a).mode = .running ↔ (s.pump b).mode = .running) ∧ ((s.pump b).minutes < (s.pump a).minutes
          ∨ ((s.pump b).minutes = (s.pump a).minutes ∧ b < a)))) → Completes (.stageRequest p count false) s fun t =>
        (∀ k, k ∈ l.take (now - count) → (t.pump k).request ≠ .start) ∧
        (∀ k, k ∈ l.drop (now - count) → (t.pump k).owner = .plan p ∧ (t.pump k).request = .start) ∧
        ∃ m, m.Perm (four.filter fun k => t.isListed p k) ∧ (∀ k ∈ l.drop (now - count), k ∈ m) ∧
          (∀ k ∈ l.take (now - count), k ∈ m → (s.pump k).turning = true) ∧ .actuatorReport p (.pumps m .staged) ∈ t.transit)

/-- PLAN_GRANT (R53, R56, R86): a ready plan takes an inlet without owner, or from a plan that is leaving it or of lower rank, which is then
PAUSED PREEMPTED; an inlet of GUARD, MANUAL or HOLD is not taken. The request is over either way. The inlet of another plan passes with its
pumps even where that plan is leaving it: the mark goes, the valve is commanded OPEN, a close that waits is cancelled and one on its way
reversed; each pump of the plan, but one that a hold or an unfitting has taken, passes with a request START, its claim or grant kept under
the new plan's level, or claiming anew (R39); and the engaged pumps pass in their order to the new plan's list. A travel begins though its
own switch is made already (the model's choice, log 56). -/
def Obligations.InletPassesToAPlan : Prop :=
  ∀ (n : Nat) (p : Plan) (s : State), s.sys.held = false → s.plans.request = some n → s.plan n = some p → s.ready p = true →
    Completes (.planGrant n) s fun t =>
      (s.inletPassable p.kind.rank = true → s.act.inlet.calm → s.unpending .inlet →
        t.act.inlet.owner = .plan n ∧ t.plans.request = none ∧ (∃ q, t.plan n = some q ∧ q.state = .active ∧ q.pause = none) ∧
        (∀ m q, m ≠ n → s.act.inlet.owner = .plan m → s.plan m = some q → q.state = .active →
          ∃ q', t.plan m = some q' ∧ q'.state = .paused ∧ q'.pause = some .preempted)) ∧
      (∀ m, s.inletPassable p.kind.rank = true → s.act.inlet.owner = .plan m → s.act.inlet.openWait = false → s.act.inlet.releasing = false →
        s.allEstablished →
        t.act.inlet.owner = .plan n ∧ t.act.inlet.leaving = false ∧ t.act.inlet.cmd = some .opened ∧ t.act.inlet.closeWait = false ∧
        (s.drives = true →
          (s.act.inlet.mode = .closing ∨ s.act.inlet.mode = .closed ∨ s.act.inlet.mode = .midway ∨ s.act.inlet.mode = .stuck →
            t.act.inlet.mode = .opening ∧ t.act.inlet.travelDl = some (s.now + s.set.travelLimit)) ∧
          (s.act.inlet.mode = .opened ∨ s.act.inlet.mode = .opening → t.act.inlet.mode = s.act.inlet.mode)) ∧
        ((four.filter fun k => s.passesOn m k || s.isEngaged n k).length ≤ p.stage → ∀ k, (s.pump k).owner = .plan m →
          ((s.pump k).hold = none ∧ (s.pumpSet k).fitted = true) ∨ (s.pump k).contactor = true →
          (t.pump k).owner = .plan n ∧ (t.pump k).request = .start ∧
          ((s.pump k).claim ≠ .none → (t.pump k).claim = (s.pump k).claim ∧ .relevel (.pump k) p.kind.level false ∈ t.transit) ∧
          ((s.pump k).claim = .none → (s.pump k).mode = .ready ∨ (s.pump k).mode = .resting ∨ (s.pump k).mode = .retryWait →
            (t.pump k).claim = .claimed ∧ .claim (.pump k) (s.pumpSet k).units p.kind.level false ∈ t.transit)) ∧
        (∀ q, s.plan m = some q → (∃ q', t.plan n = some q' ∧ q'.engaged = q.engaged) ∧
          (m ≠ n → ∃ q', t.plan m = some q' ∧ q'.engaged = []))) ∧
      (s.act.inlet.owner = .guard ∨ s.act.inlet.owner = .manual ∨ s.act.inlet.owner = .hold →
        t = { s with transit := s.transit.erase (.planGrant n), plans := { s.plans with request := none } })

/-- INLET_COMMAND (R48, R50): an OPEN from the owner starts a travel with a fresh deadline, is confirmed at once in OPEN, and leaves a travel
toward OPEN alone; a CLOSE leaves no pump of the owner with a request START; that of a valve in OPEN, OPENING, MIDWAY or STUCK starts at
once with no pump turning, and waits, commanded CLOSED, while a pump of the owner runs, a valve in OPENING travelling on meanwhile (the
model's choice, log 57); one in CLOSED or CLOSING stays so; the guard's CLOSE waits for nothing; a command of another than the owner does
nothing. LIMIT_SWITCH_CHANGE (R48, R49, R50): a travel's own switch ends it; OPEN lost takes every pump in STARTING or RUNNING off and the
valve is driven toward its commanded position again; both switches made at once are MIDWAY. TRAVEL_DEADLINE (R48): a travel past its
deadline is STUCK. A travel begins though its own switch is made already (the model's choice, log 56). -/
def Obligations.InletMoves : Prop :=
  (∀ (o : Owner) (s : State), s.sys.held = false →
    (s.act.inlet.owner = o → o ≠ .none → s.act.inlet.calm → s.unpending .inlet → s.drives = true →
      (o ≠ .guard → Completes (.inletCommand o .opened) s fun t => t.act.inlet.cmd = some .opened ∧
        (s.act.inlet.mode = .closed ∨ s.act.inlet.mode = .closing ∨ s.act.inlet.mode = .midway ∨ s.act.inlet.mode = .stuck →
          t.act.inlet.mode = .opening ∧ t.act.inlet.travelDl = some (s.now + s.set.travelLimit)) ∧
        (s.act.inlet.mode = .opened ∨ s.act.inlet.mode = .opening →
          t.act.inlet.mode = s.act.inlet.mode ∧ t.act.inlet.travelDl = s.act.inlet.travelDl)) ∧
      (o ≠ .guard → Completes (.inletCommand o .closed) s fun t => t.act.inlet.cmd = some .closed ∧
        ∀ k, (s.pump k).owner = o ∨ (o = .manual ∧ (s.pump k).owner = .hold) → (t.pump k).request ≠ .start) ∧
      (o ≠ .guard → s.act.inlet.mode ≠ .closed → s.act.inlet.mode ≠ .closing → Completes (.inletCommand o .closed) s fun t =>
        t.act.inlet.cmd = some .closed ∧
        ((∀ k, (s.pump k).turning = false) →
          t.act.inlet.mode = .closing ∧ t.act.inlet.travelDl = some (s.now + s.set.travelLimit)) ∧
        ((∃ k, s.ownersPump (s.pump k) = true ∧ (s.pump k).mode = .running ∧ s.ranEnough k = false) →
          t.act.inlet.mode = s.act.inlet.mode ∧ t.act.inlet.travelDl = s.act.inlet.travelDl ∧ t.act.inlet.closeWait = true)) ∧
      (o ≠ .guard → s.act.inlet.mode = .closed ∨ s.act.inlet.mode = .closing → Completes (.inletCommand o .closed) s fun t =>
        t.act.inlet.cmd = some .closed ∧ t.act.inlet.mode = s.act.inlet.mode ∧ t.act.inlet.travelDl = s.act.inlet.travelDl) ∧
      (o = .guard → s.act.inlet.mode ≠ .closed → s.act.inlet.mode ≠ .closing → Completes (.inletCommand o .closed) s fun t =>
        t.act.inlet.cmd = some .closed ∧ t.act.inlet.mode = .closing
          ∧ t.act.inlet.travelDl = some (s.now + s.set.travelLimit))) ∧
    (∀ d, s.act.inlet.owner ≠ o → Completes (.inletCommand o d) s fun t =>
      t = { s with transit := s.transit.erase (.inletCommand o d) })) ∧
  (∀ s : State, s.sys.held = false → s.act.inlet.calm → s.unpending .inlet →
    (s.act.inlet.openLs = false → s.act.inlet.mode = .opening → Completes (.limitSwitchChange true false) s fun t =>
      t.act.inlet.mode = .opened ∧ t.act.inlet.travelDl = none ∧ t.act.inlet.openLs = true ∧ t.act.inlet.cmd = s.act.inlet.cmd) ∧
    (s.act.inlet.closedLs = false → s.act.inlet.mode = .closing → Completes (.limitSwitchChange false true) s fun t =>
      t.act.inlet.mode = .closed ∧ t.act.inlet.travelDl = none ∧ t.act.inlet.closedLs = true) ∧
    (s.act.inlet.openLs = true → s.act.inlet.mode = .opened → Completes (.limitSwitchChange false false) s fun t =>
      (∀ n, (s.pump n).mode = .starting ∨ (s.pump n).mode = .running → (t.pump n).contactor = false
        ∧ (t.pump n).tries = (s.pump n).tries) ∧
      (s.act.inlet.cmd = some .opened → s.drives = true → t.act.inlet.mode = .opening
        ∧ t.act.inlet.travelDl = some (s.now + s.set.travelLimit)) ∧
      (s.act.inlet.cmd = none ∨ s.drives = false → t.act.inlet.mode = .midway)) ∧
    (¬(s.act.inlet.openLs = true ∧ s.act.inlet.closedLs = true) → s.act.inlet.cmd = none →
      Completes (.limitSwitchChange true true) s fun t => t.act.inlet.mode = .midway) ∧
    (s.act.inlet.mode = .opening ∨ s.act.inlet.mode = .closing → s.due s.act.inlet.travelDl = true →
      Completes .travelDeadline s fun t => t.act.inlet.mode = .stuck ∧ t.act.inlet.travelDl = none
        ∧ t.act.inlet.cmd = s.act.inlet.cmd))

/-! ## The actuator controller: heaters, holds, mains -/

/-- HEATER_START_REQUEST and HEATER_STOP_REQUEST (R39, R51, R52): a usable heater takes owner FROST, request START, level and flag, and a
heater without load claims; one that is not fitted, carries a hold, or is FAILED or HELD takes none. A stop takes the contactor OFF, and
the load goes with it when no current flows.
HEATER_CURRENT_CHANGE, HEATER_TRY_DEADLINE, HEATER_RETRY_END and HEATER_STUCK_EXPIRY (R51, R52): current confirms a try; current lost
while ON and a deadline without current are failed tries, RETRY_WAIT for 60 s below the limit, FAILED without request and load at it;
RETRY_WAIT over is READY, a withdrawn request leaving count 0 (log 35); current with the contactor OFF runs 10 s and is said once, and the
state stays. -/
def Obligations.HeaterEvents : Prop :=
  (∀ (h : Fin 4) (s : State), s.sys.held = false → s.unpending (.heater h) →
    (∀ level urgent, Completes (.heaterStartRequest h level urgent) s fun t =>
      ((s.zoneSet h).fitted = true → (s.heater h).hold = none → (s.heater h).mode ≠ .failed → (s.heater h).mode ≠ .held →
        (t.heater h).owner = .frost ∧ (t.heater h).request = .start ∧ (t.heater h).level = level ∧ (t.heater h).urgent = urgent ∧
        ((s.heater h).claim = .none → (s.heater h).mode = .ready ∨ (s.heater h).mode = .retryWait →
          (t.heater h).claim = .claimed ∧ (t.heater h).mode = (s.heater h).mode)) ∧
      ((s.zoneSet h).fitted = false ∨ (s.heater h).hold ≠ none ∨ (s.heater h).mode = .failed ∨ (s.heater h).mode = .held →
        t = { s with transit := s.transit.erase (.heaterStartRequest h level urgent) })) ∧
    ((s.heater h).owner = .frost → (s.heater h).hold = none → Completes (.heaterStopRequest h) s fun t =>
      (t.heater h).request = .stop ∧
      ((s.heater h).mode = .starting ∨ (s.heater h).mode = .on →
        (t.heater h).contactor = false ∧ (t.heater h).mode = .ready ∧ (t.heater h).tries = (s.heater h).tries) ∧
      ((s.heater h).mode ≠ .starting → (s.heater h).mode ≠ .on → (t.heater h).mode = (s.heater h).mode) ∧
      ((s.heater h).current = false → (t.heater h).claim = .none) ∧
      ((s.heater h).claim = .claimed → (t.heater h).claim = .none) ∧
      ((s.heater h).current = true → (s.heater h).claim = .granted ∨ (s.heater h).claim = .recalled →
        (t.heater h).claim = (s.heater h).claim))) ∧
  (∀ (h : Fin 4) (s : State), s.sys.held = false → s.unpending (.heater h) →
    ((s.heater h).current = false → Completes (.heaterCurrentChange h true) s fun t => (t.heater h).current = true ∧
      ((s.heater h).mode = .starting → (t.heater h).mode = .on ∧ (t.heater h).tries = 0) ∧
      ((s.heater h).mode ≠ .starting → (s.heater h).contactor = false → (s.heater h).waits = false →
        (t.heater h).mode = (s.heater h).mode ∧ (t.heater h).stuckDl = some (s.now + 10) ∧ (t.heater h).stuckSaid = false)) ∧
    ((s.heater h).current = true → (s.heater h).mode = .on → Completes (.heaterCurrentChange h false) s fun t =>
      (t.heater h).current = false ∧ (t.heater h).contactor = false ∧ (t.heater h).tries = (s.heater h).tries + 1 ∧
      ((s.heater h).tries + 1 < s.set.heaterTryLimit →
        (t.heater h).mode = .retryWait ∧ (t.heater h).retryDl = some (s.now + 60)) ∧
      (s.set.heaterTryLimit ≤ (s.heater h).tries + 1 →
        (t.heater h).mode = .failed ∧ (t.heater h).request = .none ∧ (t.heater h).claim = .none)) ∧
    ((s.heater h).mode = .starting → s.due (s.heater h).tryDl = true → (s.heater h).current = false →
      Completes (.heaterTryDeadline h) s fun t => (t.heater h).contactor = false ∧ (t.heater h).tries = (s.heater h).tries + 1 ∧
        ((s.heater h).tries + 1 < s.set.heaterTryLimit →
          (t.heater h).mode = .retryWait ∧ (t.heater h).retryDl = some (s.now + 60)) ∧
        (s.set.heaterTryLimit ≤ (s.heater h).tries + 1 →
          (t.heater h).mode = .failed ∧ (t.heater h).request = .none ∧ (t.heater h).claim = .none)) ∧
    ((s.heater h).mode = .retryWait → s.due (s.heater h).retryDl = true →
      (s.heater h).claim ≠ .granted ∨ (s.heater h).request ≠ .start → Completes (.heaterRetryEnd h) s fun t =>
        (t.heater h).mode = .ready ∧ (t.heater h).retryDl = none ∧
        ((s.heater h).request = .start → (t.heater h).tries = (s.heater h).tries) ∧
        ((s.heater h).request ≠ .start → (t.heater h).tries = 0)) ∧
    (s.due (s.heater h).stuckDl = true → (s.heater h).current = true → (s.heater h).contactor = false →
      Completes (.heaterStuckExpiry h) s fun t =>
        ((s.heater h).stuckSaid = false → (t.heater h).stuckSaid = true ∧ (t.heater h).mode = (s.heater h).mode
          ∧ (t.heater h).claim = (s.heater h).claim) ∧
        ((s.heater h).stuckSaid = true → t = { s with transit := s.transit.erase (.heaterStuckExpiry h) })))

/-- HOLD_DEADLINE (R60): a hold left unattended ends: it is out of the table, its actuator carries no hold number and goes to its safe
state under owner NONE: a pump in STARTING or RUNNING off, one in HELD, READY, RETRY_WAIT or FAILED RESTING for `min_off` with count 0, or
STOPPING where its feedback is ON; a heater off and READY; the inlet CLOSED, but for one of the guard, which stays. A command that comes
before the deadline does nothing (the model's choice, log 7). -/
def Obligations.HoldsExpire : Prop :=
  ∀ (h : Hold) (s : State), s.sys.held = false → s.act.holds.find? (fun x => decide (x.number = h.number)) = some h →
    (∀ x ∈ s.act.holds, x.number ≠ h.number → x.established.isSome = true ∧ x.act ≠ h.act) → Completes (.holdDeadline h.number) s fun t =>
      (h.deadline ≤ s.now → (∀ x ∈ t.act.holds, x.number ≠ h.number) ∧ t.holdOf h.act = none ∧
        (∀ k, h.act = .pump k → (t.pump k).owner = .none ∧ (t.pump k).request = .none ∧
          ((s.pump k).mode = .starting ∨ (s.pump k).mode = .running → (t.pump k).contactor = false) ∧
          ((s.pump k).mode = .held ∨ (s.pump k).mode = .ready ∨ (s.pump k).mode = .retryWait ∨ (s.pump k).mode = .failed →
            (t.pump k).tries = 0 ∧
            ((s.pump k).feedback = false → (t.pump k).mode = .resting ∧ (t.pump k).offEnd = some (s.now + s.set.minOff)) ∧
            ((s.pump k).feedback = true → s.sys.power ≠ .dark → s.eng.access ≠ .localControl →
              (t.pump k).mode = .stopping ∧ (t.pump k).stopDl = some (s.now + 10)))) ∧
        (∀ k, h.act = .heater k → (t.heater k).owner = .none ∧ (t.heater k).request = .none ∧ (t.heater k).contactor = false
          ∧ (t.heater k).mode = .ready) ∧
        (h.act = .inlet → s.act.inlet.calm → (s.act.inlet.owner = .guard → t.act.inlet.owner = .guard) ∧
          (s.act.inlet.owner ≠ .guard → t.act.inlet.owner = .none ∧ t.act.inlet.cmd = some .closed))) ∧
      (s.now < h.deadline → t = { s with transit := s.transit.erase (.holdDeadline h.number) })

/-- Frames of the families: what each leaves when it answers next. The arbiter's commands and the controller's leave survey, guard, calendar,
frost unit and settings unit, the controller's the arbiter too, and the order engine but for record counts; the plan controller's leave
the actuators too; the frost unit's, the calendar's and the guard's leave all but what they own, the actuators, the plans and the journal.
Tower memory: a command other than a host write or a start leaves every byte outside the page map, the board page and the pages the part
itself writes to (the open and the given journal pages, the pages taken and submitted).
The memory port: a command other than these and the writes of its registers leaves the enables, the protect record, the copies and the
mark that the map is ready, and clears no attention flag.
The pumps: an event at one pump leaves every other pump that no PENDING hold names and that no try waits for, and every heater likewise. -/
def Obligations.FamilyFrames : Prop :=
  (∀ (c : Instr) (s t : State), exec c s = .next t →
    ((∃ l u v g, c = .claim l u v g) ∨ (∃ l, c = .withdrawal l) ∨ (∃ l, c = .grantRelease l)
      ∨ (∃ l v g, c = .relevel l v g) ∨ (∃ m, c = .maskChange m) ∨ (∃ b, c = .budgetChange b) ∨ c = .arbiterMainsLoss →
      t.survey = s.survey ∧ t.guard = s.guard ∧ t.cal = s.cal ∧ t.frost = s.frost ∧ t.sys = s.sys
        ∧ t.eng.sameButRecords s.eng) ∧
    ((∃ n, c = .tryBegin n) ∨ (∃ n, c = .tryDeadline n) ∨ (∃ n, c = .retryDeadline n) ∨ (∃ n v, c = .runFeedbackChange n v)
      ∨ (∃ n, c = .minRunElapsed n) ∨ (∃ n, c = .stopConfirmExpiry n) ∨ (∃ n, c = .minOffExpiry n) ∨ (∃ n, c = .startListAgeing n)
      ∨ (∃ n, c = .recall n) ∨ (∃ p k l, c = .stageRequest p k l) ∨ (∃ p, c = .planGrant p) ∨ (∃ o d, c = .inletCommand o d)
      ∨ (∃ a b, c = .limitSwitchChange a b) ∨ c = .travelDeadline ∨ (∃ h l u, c = .heaterStartRequest h l u)
      ∨ (∃ h, c = .heaterStopRequest h) ∨ (∃ h v, c = .heaterCurrentChange h v) ∨ (∃ h, c = .heaterTryDeadline h)
      ∨ (∃ h, c = .heaterRetryEnd h) ∨ (∃ h, c = .heaterStuckExpiry h) ∨ (∃ k, c = .holdDeadline k) ∨ c = .actuatorMainsLoss
      ∨ c = .actuatorMainsRestore → t.survey = s.survey ∧ t.guard = s.guard ∧ t.cal = s.cal ∧ t.arb = s.arb ∧ t.frost = s.frost
        ∧ t.sys = s.sys ∧ t.eng.sameButRecords s.eng) ∧
    ((∃ w e, c = .cheapStart w e) ∨ (∃ w, c = .cheapEnd w) ∨ (∃ j, c = .planJudgement j) ∨ (∃ p, c = .startAtPasses p)
      ∨ c = .inletSeized ∨ c = .inletFree ∨ (∃ p r, c = .actuatorReport p r) ∨ (∃ n, c = .pumpAvailable n) ∨ c = .turnoverRequest
      ∨ c = .planMainsLoss → t.survey = s.survey ∧ t.guard = s.guard ∧ t.act = s.act ∧ t.cal = s.cal ∧ t.arb = s.arb
        ∧ t.frost = s.frost ∧ t.sys = s.sys ∧ t.eng.sameButRecords s.eng) ∧
    ((∃ j, c = .frostJudgement j) ∨ (∃ h k, c = .heaterNotice h k) ∨ c = .turnoverCreated → t.survey = s.survey ∧ t.guard = s.guard
      ∧ t.cal = s.cal ∧ t.arb = s.arb ∧ t.sys = s.sys ∧ t.eng.sameButRecords s.eng) ∧
    (c = .tariffEvaluation ∨ c = .clockRollover → t.survey = s.survey ∧ t.guard = s.guard ∧ t.act = s.act ∧ t.arb = s.arb
      ∧ t.frost = s.frost ∧ t.sys = s.sys ∧ t.eng.sameButRecords s.eng) ∧
    ((∃ j, c = .guardJudgement j) ∨ c = .guardTravelEnd → t.survey = s.survey ∧ t.cal = s.cal ∧ t.arb = s.arb ∧ t.frost = s.frost
      ∧ t.sys = s.sys ∧ t.eng.sameButRecords s.eng) ∧
    ((∃ r, c = .recordArrival r) ∨ c = .pageOpen ∨ c = .journalAgeExpiry → t.survey = s.survey ∧ t.guard = s.guard ∧ t.act = s.act
      ∧ t.cal = s.cal ∧ t.arb = s.arb ∧ t.plans = s.plans ∧ t.frost = s.frost ∧ t.sys = s.sys ∧ t.eng.sameButRecords s.eng) ∧
    ((∃ v, c = .attnWrite v) ∨ (∃ v, c = .attnEnWrite v) ∨ (∃ v, c = .latch v) → t.survey = s.survey ∧ t.guard = s.guard
      ∧ t.act = s.act ∧ t.cal = s.cal ∧ t.arb = s.arb ∧ t.plans = s.plans ∧ t.frost = s.frost ∧ t.sys = s.sys ∧ t.eng = s.eng
      ∧ t.jrn = s.jrn)) ∧
  (∀ (c : Instr) (s t : State), reachesOut c = false → exec c s = .next t → ∀ a, 512 ≤ a →
    (∀ p, s.ownPage p → a < addr p 0 ∨ addr p 256 ≤ a) → t.mem.read a = s.mem.read a) ∧
  (∀ (c : Instr) (s t : State), reachesOut c = false → (∀ v, c ≠ .attnWrite v) → (∀ v, c ≠ .attnEnWrite v) → (∀ v, c ≠ .latch v) →
    c ≠ .resetInputAsserted → exec c s = .next t →
      t.port.attnEn = s.port.attnEn ∧ t.port.protect = s.port.protect ∧ t.port.copies = s.port.copies ∧ t.port.board = s.port.board
        ∧ t.port.mapReady = s.port.mapReady ∧ ∀ i : Fin 6, s.port.attn.getLsbD i.val = true → t.port.attn.getLsbD i.val = true) ∧
  (∀ (n : Fin 4) (c : Instr) (s t : State), (c = .tryDeadline n ∨ c = .retryDeadline n ∨ (∃ on, c = .runFeedbackChange n on)
      ∨ c = .minRunElapsed n ∨ c = .stopConfirmExpiry n ∨ c = .minOffExpiry n ∨ c = .startListAgeing n ∨ c = .recall (.pump n)) →
    exec c s = .next t →
    (∀ m, m ≠ n → s.unpending (.pump m) → (s.pump m).waits = false → t.pump m = s.pump m) ∧
    (∀ h, s.unpending (.heater h) → (s.heater h).waits = false → t.heater h = s.heater h))

/-! ## The calendar and the plan controller -/

/-- TARIFF_EVALUATION (R68 to R70): at a minute boundary the window and the band follow the clock, a cheap window that begins or ends and
a band that changes are passed on, and nothing else moves; at another second nothing happens (log 7). CLOCK_ROLLOVER (R65, R101): after the
last second of 2099 the clock is 0 and UNSET, the band STANDARD, and every plan ends RESET; before it nothing happens (log 7). -/
def Obligations.CalendarEvents : Prop :=
  ∀ s : State, s.sys.held = false →
    (s.sys.started = true → s.now % 60 = 0 → Completes .tariffEvaluation s fun t =>
      t.cal.window = (if s.cal.set then windowAt s.set s.now else none) ∧ t.cal.band = some (bandOf t.cal.window)
        ∧ t.cal.count = s.cal.count ∧ t.cal.set = s.cal.set
        ∧ (t.cal.band ≠ s.cal.band → .maskChange (maskOf s.set (bandOf t.cal.window)) ∈ t.transit)
        ∧ (∀ w, t.cal.window = some w → w.cheap = true → s.cal.lastBegun ≠ some w.ident →
          t.cal.lastBegun = some w.ident ∧ .cheapStart w.ident w.endTime ∈ t.transit)
        ∧ (∀ w, s.cal.window = some w → w.cheap = true → sameCheap (some w) t.cal.window = false → .cheapEnd w.ident ∈ t.transit)
        ∧ t = { s with cal := t.cal, transit := t.transit }) ∧
    (s.now % 60 ≠ 0 → Completes .tariffEvaluation s fun t => t = { s with transit := s.transit.erase .tariffEvaluation }) ∧
    (s.cal.count = Config.lastSecond → Completes .clockRollover s fun t =>
      t.cal.count = 0 ∧ t.cal.set = false ∧ t.cal.band = some .standard ∧ t.cal.window = none
        ∧ ∀ p, s.plan p.number = some p → p.live = true →
          ∃ q, t.plan p.number = some q ∧ q.state = .ended ∧ q.endCause = some .reset) ∧
    (s.cal.count ≠ Config.lastSecond →
      Completes .clockRollover s fun t => t = { s with transit := s.transit.erase .clockRollover })

/-- TARIFF_EVALUATION at a minute boundary, from the time start-up has ended (R68 to R70). With the clock SET the window in force is one whose
slot, of the present day or of the day before, covers the minute, and it carries the kind, day, slot and end of that slot; where a slot of
the day covers the minute it is a window of the day, else where one of the day before does, of that day (a Sunday's spilling into Monday
alike), and where none does there is none; with the clock UNSET there is none. The band is CHEAP, PEAK or STANDARD by it, and a band that
changes passes its own mask to the arbiter. -/
def Obligations.WindowAndBand : Prop :=
  ∀ s : State, s.sys.held = false → s.sys.started = true → s.now % 60 = 0 → Completes .tariffEvaluation s fun t =>
    (s.cal.set = false → t.cal.window = none) ∧
    (s.cal.set = true →
      (∀ w, t.cal.window = some w → (w.ident.day = s.now / 86400 ∨ w.ident.day = s.now / 86400 - 1) ∧
        ∃ x ∈ daySlots s.set w.ident.day, x.1 = w.cheap ∧ x.2.1 = w.ident.slot ∧ x.2.2.stands w.ident.day s.now
          ∧ w.endTime = w.ident.day * 86400 + 60 * (x.2.2.start + x.2.2.length)) ∧
      (∀ x ∈ daySlots s.set (s.now / 86400), x.2.2.stands (s.now / 86400) s.now →
        ∃ w, t.cal.window = some w ∧ w.ident.day = s.now / 86400) ∧
      ((∀ x ∈ daySlots s.set (s.now / 86400), ¬x.2.2.stands (s.now / 86400) s.now) →
        (∀ x ∈ daySlots s.set (s.now / 86400 - 1), x.2.2.stands (s.now / 86400 - 1) s.now →
          ∃ w, t.cal.window = some w ∧ w.ident.day = s.now / 86400 - 1) ∧
        ((∀ x ∈ daySlots s.set (s.now / 86400 - 1), ¬x.2.2.stands (s.now / 86400 - 1) s.now) → t.cal.window = none))) ∧
    (t.cal.window = none → t.cal.band = some .standard) ∧
    (∀ w, t.cal.window = some w → (w.cheap = true → t.cal.band = some .cheap) ∧ (w.cheap = false → t.cal.band = some .peak)) ∧
    (t.cal.band = some .cheap → s.cal.band ≠ some .cheap → .maskChange s.set.cheapMask ∈ t.transit) ∧
    (t.cal.band = some .standard → s.cal.band ≠ some .standard → .maskChange s.set.standardMask ∈ t.transit) ∧
    (t.cal.band = some .peak → s.cal.band ≠ some .peak → .maskChange s.set.peakMask ∈ t.transit)

/-- CHEAP_START, CHEAP_END and TURNOVER_REQUEST (R84, R92, R99): a cheap window makes a night fill with the override or `night_target`, or
gives its window and deadline to the night fill that lives; its end ends the night fill of that window DEADLINE and no other; the frost
unit's request makes a turnover in DRAW from the present level, with a numeric level and no turnover alive, and is discarded else. -/
def Obligations.PlansAreMade : Prop :=
  ∀ s : State, s.sys.held = false →
    (∀ w e, Completes (.cheapStart w e) s fun t =>
      (s.livePlan .nightFill = none → t.plans.override = none ∧ t.plans.lastNumber = s.nextPlanNumber ∧
        ∃ q ∈ t.planList, q.number = s.nextPlanNumber ∧ q.kind = .nightFill ∧ q.window = some w ∧ q.deadline = some e
          ∧ q.target = s.plans.override.getD s.set.nightTarget ∧ q.created = s.now) ∧
      (∀ p, s.livePlan .nightFill = some p →
        (∃ q ∈ t.planList, q.number = p.number) ∧
        ∀ q ∈ t.planList, q.number = p.number → q.window = some w ∧ q.deadline = some e)) ∧
    (∀ w, Completes (.cheapEnd w) s fun t =>
      (∀ p, s.livePlan .nightFill = some p → s.plan p.number = some p → p.window = some w →
        ∃ q, t.plan p.number = some q ∧ q.state = .ended ∧ q.endCause = some .deadline) ∧
      ((∀ p, s.livePlan .nightFill = some p → p.window ≠ some w) → t = { s with transit := s.transit.erase (.cheapEnd w) })) ∧
    Completes .turnoverRequest s fun t =>
      (numericQuality s.qualityNow = true → s.livePlan .turnover = none → .turnoverCreated ∈ t.transit ∧
        ∃ q ∈ t.planList, q.number = s.nextPlanNumber ∧ q.kind = .turnover ∧ q.origin = .frost ∧ q.draw = true
          ∧ q.startLevel = some s.lastLevel ∧ q.depth = some s.set.turnoverDepth ∧ q.created = s.now) ∧
      (numericQuality s.qualityNow = false ∨ s.livePlan .turnover ≠ none →
        t = { s with transit := s.transit.erase .turnoverRequest })

/-- CHEAP_START (R84, R92 to R94, R102), no turnover being alive. With a numeric level the litres needed are target volume less the volume now
plus the draw predicted for the minutes left (of each minute's hour where the table holds it, else `default_draw`). A new night fill that
needs none ends NOT_NEEDED at once, with stage count 0 (R84). Else its stage count is the least whose rate covers the need in the minutes
left less `fill_margin`, its latest start the deadline less margin and the minutes rounded up, its start then or now; where no count
covers, every available pump, now; so too, without the arithmetic, where the level is not numeric. A WAITING night fill that gets the
window is computed again so; one that is ACTIVE or PAUSED raises its count by one where its projection falls short and a pump is left, and
never lowers it. -/
def Obligations.NightFillComputed : Prop :=
  ∀ (w : WindowId) (e : Time) (l : List (Fin 4)) (s : State), s.sys.held = false → s.livePlan .turnover = none → s.anyPumpFitted = true →
    let m := ((e - s.now) / 60).toNat
    (∀ (tv : Nat), s.livePlan .nightFill = none → tv = volumeAt s.set.straps (s.plans.override.getD s.set.nightTarget) →
      s.rateList s.nextPlanNumber l →
      (numericQ s.qualityNow → (tv : Int) + s.drawAhead m ≤ s.volumeNow → Completes (.cheapStart w e) s fun t =>
        ∃ q ∈ t.planList, q.number = s.nextPlanNumber ∧ q.state = .ended ∧ q.endCause = some .notNeeded ∧ q.stage = 0) ∧
      (∀ needed : Nat, numericQ s.qualityNow → 0 < needed → (tv : Int) + s.drawAhead m = s.volumeNow + needed →
        Completes (.cheapStart w e) s fun t => ∃ q ∈ t.planList, q.number = s.nextPlanNumber ∧ q.state = .waiting ∧ q.floats = false
          ∧ q.targetVolume = tv ∧ s.nightHolds l needed (m - s.set.fillMargin) e q) ∧
      (¬numericQ s.qualityNow → Completes (.cheapStart w e) s fun t => ∃ q ∈ t.planList, q.number = s.nextPlanNumber
        ∧ q.state = .waiting ∧ q.floats = true ∧ q.stage = l.length ∧ q.latest = some s.now ∧ q.startAt = some s.now)) ∧
    (∀ p, s.livePlan .nightFill = some p → s.plan p.number = some p → s.rateList p.number l →
      (∀ needed : Nat, p.state = .waiting → numericQ s.qualityNow → 0 < needed →
        (p.targetVolume : Int) + s.drawAhead m = s.volumeNow + needed → Completes (.cheapStart w e) s fun t =>
          ∃ q, t.plan p.number = some q ∧ q.state = .waiting ∧ q.targetVolume = p.targetVolume
            ∧ s.nightHolds l needed (m - s.set.fillMargin) e q) ∧
      (p.state = .waiting → numericQ s.qualityNow → (p.targetVolume : Int) + s.drawAhead m ≤ s.volumeNow →
        Completes (.cheapStart w e) s fun t => ∃ q, t.plan p.number = some q ∧ q.state = .ended ∧ q.endCause = some .notNeeded) ∧
      (p.state = .active ∨ p.state = .paused → numericQ s.qualityNow → p.floatsComputed = false → Completes (.cheapStart w e) s fun t =>
        ∃ q, t.plan p.number = some q ∧ q.state = p.state ∧ q.stage =
          if (s.volumeNow : Int) + (s.rateOf l p.stage * (m - s.set.fillMargin) : Nat) < p.targetVolume + s.drawAhead m ∧ p.stage < l.length
          then p.stage + 1 else p.stage))

/-- PLAN_JUDGEMENT (R95, R97): a fill whose target the level has reached ends, TARGET_REACHED when it was ever ACTIVE and NOT_NEEDED else;
the top-up inhibit ends when the level is back at `day_floor` or the low float is made; below `day_floor`, outside a cheap window and
without the inhibit, a day top-up with one pump is made. On floats
(R97, R102): HIGH wet ends the night and the host fill; LOW dry makes the day top-up; LOW wet starts its run-on at 0, which grows by the
survey period and ends it at `topup_minutes`; LOW dry or a numeric level ends the run-on.
With a free slot, so that no ENDED plan gives way to a new one (R83, R94, R97 to R100; of one judgement's effects in the order of log 33): an
ACTIVE plan's volume grows by the flow of its pumps with feedback, its run time by the survey period; a host fill short of its target ends
DEADLINE; a level below `day_floor` starts a WAITING night fill early; a day top-up's stage count rises to 2 at a minute boundary 600 s
after its activation, below its level then or with LOW dry; a turnover in REFILL ends at its start level. DRAW ends at `turnover_depth`, at
`draw_limit` or by a night fill that is due: ABSORBED with a night fill, which starts now, else REFILL with one pump; else DRAW lasts. -/
def Obligations.PlansFollowTheLevel : Prop :=
  ∀ (j : Judgement) (s : State), s.sys.held = false → Completes (.planJudgement j) s fun t =>
    (j.quality = .good ∨ j.quality = .single → t.plans.topupInhibit = (s.plans.topupInhibit && decide (j.level < s.set.dayFloor))) ∧
    (j.quality = .floatsOnly → t.plans.topupInhibit = (s.plans.topupInhibit && !j.floats.low)) ∧
    (j.quality = .none → t.plans.topupInhibit = s.plans.topupInhibit) ∧
    (∀ p, j.quality = .good ∨ j.quality = .single → s.set.dayFloor ≤ j.level → s.plan p.number = some p → p.live = true →
      p.kind ≠ .turnover → p.target ≤ j.level → ∃ q, t.plan p.number = some q ∧ q.state = .ended
        ∧ q.endCause = some (if p.firstActive.isSome then .targetReached else .notNeeded)) ∧
    (j.quality = .good ∨ j.quality = .single → j.level < s.set.dayFloor → s.cal.band ≠ some .cheap → s.plans.topupInhibit = false →
      s.livePlan .dayTopup = none → ∃ q ∈ t.planList, q.kind = .dayTopup ∧ q.origin = .level ∧ q.stage = 1
        ∧ q.target = s.set.dayFloor + s.set.topupMargin ∧ q.created = s.now
        ∧ (s.anyPumpFitted = true → s.livePlan .turnover = none → q.state = .waiting)) ∧
    (j.quality = .floatsOnly → j.floats.low = false → s.cal.band ≠ some .cheap → s.plans.topupInhibit = false →
      s.livePlan .dayTopup = none → ∃ q ∈ t.planList, q.kind = .dayTopup ∧ q.origin = .level ∧ q.stage = 1
        ∧ q.target = s.set.dayFloor + s.set.topupMargin ∧ q.created = s.now
        ∧ (s.anyPumpFitted = true → s.livePlan .turnover = none → q.state = .waiting)) ∧
    (∀ p, j.quality = .floatsOnly → j.floats.low = true → j.floats.high = true → s.plan p.number = some p → p.live = true →
      p.kind = .nightFill ∨ p.kind = .hostFill → ∃ q, t.plan p.number = some q ∧ q.state = .ended
        ∧ q.endCause = some (if p.firstActive.isSome then .targetReached else .notNeeded)) ∧
    (∀ p, s.livePlan .dayTopup = some p → s.plan p.number = some p →
      (j.quality = .good ∨ j.quality = .single → j.level < p.target → ∃ q, t.plan p.number = some q ∧ q.runOn = none) ∧
      (j.quality = .floatsOnly → j.floats.low = false → ∃ q, t.plan p.number = some q ∧ q.runOn = none) ∧
      (j.quality = .none → ∃ q, t.plan p.number = some q ∧ q.runOn = p.runOn.map (· + j.period)) ∧
      (j.quality = .floatsOnly → j.floats.low = true → p.runOn = none → ∃ q, t.plan p.number = some q ∧ q.runOn = some 0) ∧
      (∀ k, j.quality = .floatsOnly → j.floats.low = true → p.runOn = some k → ∃ q, t.plan p.number = some q
        ∧ q.runOn = some (k + j.period) ∧ (60 * s.set.topupMinutes ≤ k + j.period → q.state = .ended
          ∧ q.endCause = some (if p.firstActive.isSome then .targetReached else .notNeeded)) ∧
        (k + j.period < 60 * s.set.topupMinutes → s.livePlan .turnover = none → q.state = p.state))) ∧
    (none ∈ s.plans.slots.toList → let short (p : Plan) : Prop := j.quality = .none ∨ (numericQ j.quality ∧ j.level < p.target)
        ∨ (j.quality = .floatsOnly ∧ j.floats.high = false)
      (∀ p, s.plan p.number = some p → ∃ q, t.plan p.number = some q ∧
        (p.state = .active → q.volAcc = p.volAcc + ((List.finRange 4).map fun k => if (s.pump k).owner = .plan p.number
            ∧ (s.pump k).feedback = true then (s.pumpSet k).flow else 0).sum * j.period ∧ q.runTime = p.runTime + j.period) ∧
        (p.state ≠ .active → q.volAcc = p.volAcc ∧ q.runTime = p.runTime) ∧
        (∀ d, p.live = true → p.kind = .hostFill → p.deadline = some d → short p → d ≤ j.time →
          q.state = .ended ∧ q.endCause = some .deadline) ∧
        (p.kind = .dayTopup → s.livePlan .dayTopup = some p → q.stage = if p.state = .active ∧ p.stage < 2 ∧ j.minute = true
            ∧ 600 ≤ p.actRun + j.period ∧ ((numericQ j.quality ∧ j.level < p.target ∧ ∃ a, p.activeLevel = some a ∧ j.level < a)
              ∨ (j.quality = .floatsOnly ∧ j.floats.low = false)) then 2 else p.stage) ∧
        (q.stage ≠ p.stage → p.kind = .dayTopup → s.livePlan .dayTopup = some p → s.act.inlet.owner = .plan p.number →
          s.act.inlet.mode = .opened → .stageRequest p.number 2 false ∈ t.transit) ∧
        (∀ a, p.live = true → p.kind = .turnover → p.draw = false → p.startLevel = some a →
          (numericQ j.quality ∧ a ≤ j.level) ∨ (j.quality = .floatsOnly ∧ (a ≤ j.level ∨ j.floats.high = true)) →
          q.state = .ended ∧ q.endCause = some (if p.firstActive.isSome then .targetReached else .notNeeded))) ∧
      (∀ p, s.livePlan .nightFill = some p → s.plan p.number = some p → p.state = .waiting → short p → numericQ j.quality →
        j.level < s.set.dayFloor → ∃ q, t.plan p.number = some q ∧ (j.minute = false → q.state = .waiting) ∧
          (q.state = .waiting → q.startAt = some s.now ∧ q.early = true)) ∧
      ∀ tr, s.livePlan .turnover = some tr → s.plan tr.number = some tr → tr.state = .waiting → tr.draw = true →
        let ends : Prop := s.set.drawLimit * 3600 ≤ tr.drawSecs + j.period ∨
          (numericQ j.quality ∧ ∃ a, tr.startLevel = some a ∧ ∃ d, tr.depth = some d ∧ j.level + d ≤ a)
        ∃ q, t.plan tr.number = some q ∧ q.drawSecs = tr.drawSecs + j.period ∧
          (s.livePlan .nightFill = none → (¬ends → q.draw = true) ∧ (ends → q.draw = false ∧ q.stage = 1 ∧
            ((q.state = .waiting ∧ q.startAt = some s.now) ∨ (q.state = .ended ∧ q.endCause = some .absorbed)))) ∧
          ∀ p, s.livePlan .nightFill = some p → s.plan p.number = some p → j.minute = false → short p →
            (ends ∨ s.due p.latest = true ∨ (p.state = .waiting ∧ (p.early = true ∨ (numericQ j.quality ∧ j.level < s.set.dayFloor))) →
              q.state = .ended ∧ q.endCause = some .absorbed ∧
              (p.state = .waiting → ∃ u, t.plan p.number = some u ∧ u.state = .waiting ∧ u.startAt = some s.now)) ∧
            (¬ends → s.due p.latest = false → p.state = .waiting → p.early = false →
              (numericQ j.quality → s.set.dayFloor ≤ j.level) → q.draw = true))

/-- START_AT_PASSES, INLET_FREE, PUMP_AVAILABLE, INLET_SEIZED, ACTUATOR_REPORT and PLAN_MAINS_LOSS (R86 to R91): the contest is run, and the
plan that wins it asks for the inlet; INLET_FREE clears cause GUARD, PUMP_AVAILABLE cause NO_PUMPS; the ACTIVE plan that has lost the
inlet is PAUSED GUARD, one whose inlet a host has taken HOST_CLOSE, one without mains POWER with no pump engaged; the engaged list follows
every report, those that are the plan's still keeping their order, and is empty once the plan has left; an opened inlet is answered with
the stage count, one that was lost with another OPEN, and a stuck one changes no plan; an ACTIVE plan with no pump engaged and none
available is PAUSED NO_PUMPS and leaves the inlet. A plan is ready (R85) when it is WAITING and its start-at has come, or PAUSED and its
cause has cleared, PREEMPTED by no ACTIVE plan of higher rank owning the inlet; with the guard CLEAR, not LOCAL, in RUN with stagger and
STANDBY over; a WAITING night fill not before its latest start while a turnover is in DRAW, and a turnover not in DRAW. The inlet may pass
(R86) where no hold names it and its owner is NONE or a plan that is not ACTIVE or of lower rank. -/
def Obligations.PlanEvents : Prop :=
  (∀ (s : State) (p : Plan), s.ready p = true ↔
    ((p.state = .waiting ∧ ∃ a, p.startAt = some a ∧ a ≤ s.now) ∨
      (p.state = .paused ∧ (p.cleared = true ∨ (p.pause = some .preempted ∧
        ∀ m, s.act.inlet.owner = .plan m → ∀ q, s.plan m = some q → q.state = .active → ¬p.kind.rank < q.kind.rank)))) ∧
    s.guard.mode = .clear ∧ s.eng.access ≠ .localControl ∧ s.sys.power = .run ∧ s.sys.stagger = none ∧ s.sys.standby = false ∧
    (p.kind = .nightFill → p.state = .waiting → (∀ a, p.latest = some a → s.now < a) →
      ∀ q, s.livePlan .turnover = some q → q.draw = false) ∧
    (p.kind = .turnover → p.draw = false)) ∧
  (∀ (s : State) (r : Nat), s.inletPassable r = true ↔ s.unheld .inlet ∧ (s.act.inlet.owner = .none ∨
    ∃ m, s.act.inlet.owner = .plan m ∧ ∀ q, s.plan m = some q → q.state ≠ .active ∨ q.kind.rank < r)) ∧
  (PlanKind.rank .turnover < PlanKind.rank .nightFill ∧ PlanKind.rank .nightFill < PlanKind.rank .hostFill
    ∧ PlanKind.rank .hostFill < PlanKind.rank .dayTopup) ∧
  ∀ s : State, s.sys.held = false →
    (s.livePlan .turnover = none → s.plans.request = none →
      (∀ n p, s.wins p → Completes (.startAtPasses n) s fun t => t.asksFor p ∧ t.plans.slots = s.plans.slots) ∧
      (∀ p, (s.clearPauses .guard).wins p → Completes .inletFree s fun t => t.asksFor p) ∧
      (∀ n p, (s.clearPauses .noPumps).wins p → Completes (.pumpAvailable n) s fun t => t.asksFor p)) ∧
    (s.livePlan .turnover = none →
      (∀ n, s.plans.request ≠ none ∨ (∀ p ∈ s.planList, s.ready p = true → s.inletPassable p.kind.rank = false) →
        Completes (.startAtPasses n) s fun t => t.plans = s.plans) ∧
      Completes .inletFree s (fun t => t.plans.slots = (s.clearPauses .guard).plans.slots) ∧
      (∀ n, Completes (.pumpAvailable n) s fun t => t.plans.slots = (s.clearPauses .noPumps).plans.slots)) ∧
    (∀ p, s.activePlan = some p →
      (s.act.inlet.owner ≠ .plan p.number → s.guard.mode.seizes = true → Completes .inletSeized s fun t =>
        (∃ q ∈ t.planList, q.number = p.number ∧ q.state = .paused ∧ q.pause = some .guard) ∧
        ∀ q ∈ t.planList, q.number = p.number → q.state ≠ .active) ∧
      (s.act.inlet.owner = .plan p.number → Completes .inletSeized s fun t => t = { s with transit := s.transit.erase .inletSeized }) ∧
      (s.sys.power ≠ .run → Completes .planMainsLoss s fun t =>
        (∃ q ∈ t.planList, q.number = p.number ∧ q.state = .paused ∧ q.pause = some .power ∧ q.engaged = []) ∧
        ∀ q ∈ t.planList, q.number = p.number → q.state ≠ .active ∧ q.engaged = [])) ∧
    (∀ n p, s.plan n = some p →
      (∀ l c, Completes (.actuatorReport n (.pumps l c)) s fun t => ∃ q, t.plan n = some q ∧
        let own := l.filter fun k => decide ((s.pump k).owner = .plan n)
        q.engaged = p.engaged.filter own.contains ++ own.filter fun k => !p.engaged.contains k) ∧
      Completes (.actuatorReport n .left) s (fun t => ∃ q, t.plan n = some q ∧ q.engaged = []) ∧
      (s.livePlan .turnover = none → Completes (.actuatorReport n .inletStuck) s fun t => t.plans.slots = s.plans.slots) ∧
      (p.state = .active → s.act.inlet.owner = .plan n → s.act.inlet.mode = .stuck ∨ s.act.inlet.mode = .midway
          ∨ s.act.inlet.mode = .closed →
        Completes (.actuatorReport n .inletLost) s fun t => .inletCommand (.plan n) .opened ∈ t.transit) ∧
      (∀ l c, p.state = .active → s.livePlan .turnover = none → c = .staged ∨ c = .failed ∨ c = .lost →
        (∀ k ∈ l, (s.pump k).owner ≠ .plan n) →
        (∀ k, (s.pumpSet k).fitted = false ∨ (s.pump k).mode = .failed ∨ (s.pump k).mode = .stuckOn ∨ (s.pump k).hold ≠ none
          ∨ ((s.pump k).owner ≠ .none ∧ (s.pump k).owner ≠ .plan n)) →
        Completes (.actuatorReport n (.pumps l c)) s fun t => .stageRequest n 0 true ∈ t.transit ∧
          ∃ q ∈ t.planList, q.number = n ∧ q.state = .paused ∧ q.pause = some .noPumps) ∧
      (p.state = .active → s.act.inlet.owner = .plan n → Completes (.actuatorReport n .inletOpen) s fun t =>
        .stageRequest n p.stage false ∈ t.transit) ∧
      (p.state = .active → s.livePlan .turnover = none → Completes (.actuatorReport n .inletTaken) s fun t =>
        ∃ q ∈ t.planList, q.number = n ∧ q.state = .paused ∧ q.pause = some .hostClose))

/-! ## The frost unit -/

/-- FROST_JUDGEMENT (R107 to R116): the frost state, by Table 6-2a from a valid air temperature and FROST without one; a change, and the
first state, is passed to the guard; a zone that is not DUTY, ZONE_FAULT or DISABLED wants heat at or below its on temperature and
none from its off temperature on, and goes into DUTY without a valid temperature; a want without a request, and a request without a
want, goes to the actuator controller; the stagnation timer counts while no pump runs, and with the water cold asks for a turnover. -/
def Obligations.FrostUnitJudges : Prop :=
  ∀ (j : Judgement) (s : State), s.sys.held = false → Completes (.frostJudgement j) s fun t =>
    (j.air.valid = false → t.frost.state = .frost) ∧
    (j.air.valid = true → j.air.value ≤ s.set.hardThreshold → t.frost.state = .hard) ∧
    (j.air.valid = true → s.set.hardThreshold < j.air.value → j.air.value ≤ s.set.frostThreshold →
      (s.frost.state ≠ .hard → t.frost.state = .frost) ∧
      (s.frost.state = .hard → t.frost.state = if s.set.hardThreshold + s.set.frostHysteresis ≤ j.air.value then .frost else .hard)) ∧
    (j.air.valid = true → s.set.hardThreshold < j.air.value → s.set.frostThreshold < j.air.value →
      (s.frost.state = .none → t.frost.state = .none) ∧ (s.frost.state = .hard → t.frost.state = .frost) ∧
      (s.frost.state = .frost → t.frost.state = if s.set.frostThreshold + s.set.frostHysteresis ≤ j.air.value then .none else .frost)) ∧
    t.frost.noAir = !j.air.valid ∧ t.frost.first = false ∧
    (t.frost.state ≠ s.frost.state ∨ s.frost.first = true → .frostStateChange t.frost.state ∈ t.transit) ∧
    (∀ h : Fin 4, (s.zone h).state = .idle ∨ (s.zone h).state = .want ∨ (s.zone h).state = .heating ∨ (s.zone h).state = .shed →
      ((j.zones[h.val]).valid = true → (s.zoneSet h).offTemp ≤ (j.zones[h.val]).value →
        (t.zone h).state = .idle ∧ (t.zone h).want = false) ∧
      ((j.zones[h.val]).valid = true → (j.zones[h.val]).value < (s.zoneSet h).offTemp → (j.zones[h.val]).value ≤ (s.zoneSet h).onTemp →
        (t.zone h).want = true ∧ (t.zone h).state = if (s.zone h).state = .idle then .want else (s.zone h).state) ∧
      ((j.zones[h.val]).valid = true → (s.zoneSet h).onTemp < (j.zones[h.val]).value →
        (j.zones[h.val]).value < (s.zoneSet h).offTemp → (t.zone h).state = (s.zone h).state) ∧
      ((j.zones[h.val]).valid = false → (t.zone h).state = .duty ∧ (t.zone h).urgent = decide (t.frost.state = .hard)) ∧
      ((t.zone h).want = true → (s.heater h).request ≠ .start → .heaterStartRequest h
        (if (t.zone h).urgent then 6 else (s.zoneSet h).level) (t.zone h).urgent ∈ t.transit) ∧
      ((t.zone h).want = false → (s.heater h).request = .start → .heaterStopRequest h ∈ t.transit)) ∧
    (∀ h : Fin 4, (s.zone h).state = .zoneFault ∨ (s.zone h).state = .disabled →
      (t.zone h).state = (s.zone h).state ∧ (t.zone h).want = false) ∧
    ((∃ n, (s.pumpSet n).fitted = true ∧ (s.pump n).feedback = true) → t.frost.stagnation = 0) ∧
    ((∀ n, (s.pumpSet n).fitted = true → (s.pump n).feedback = false) →
      t.frost.stagnation = min Config.stagnationMax (s.frost.stagnation + j.period)) ∧
    (t.frost.state ≠ .none → j.water.valid = true → j.water.value ≤ s.set.turnoverTemp →
      s.set.stagnationLimit * 3600 ≤ t.frost.stagnation → .turnoverRequest ∈ t.transit)

/-- FROST_JUDGEMENT and HEATER_NOTICE: the urgent flag, DUTY and the records, seen where they wait in the queue (R108 to R114). With a valid
temperature the flag is set at `hard_temp`, cleared from `hard_temp` + 10 on, else kept; a flag that changes under a standing request goes
to the heater with its level, 6 or the zone's, and re-levels its load. In every such zone, DUTY too (R112), a want without a request sends
the start request, and a request without a want the stop request. In DUTY, and on entering it with count 0, the want is the count below
`fail_duty` minutes, the count then grows by the survey period within 600, and the flag follows HARD. A valid temperature ends DUTY: IDLE
from `off_temp` on, else HEATING with the heater ON, else WANT at or below `on_temp` and IDLE above it (the count 0 then: log 49). A
change of frost state makes FROST, a change of a zone into or out of HEATING, DUTY or ZONE_FAULT makes ZONE, at most one for each zone. -/
def Obligations.ZonesOnDuty : Prop :=
  (∀ (j : Judgement) (s : State), s.sys.held = false → s.recordsWait 5 → Completes (.frostJudgement j) s fun t =>
    (∀ h : Fin 4, (s.zone h).state ≠ .zoneFault → (s.zone h).state ≠ .disabled → (t.zone h).temp = j.zones[h.val]'h.isLt ∧
      ((j.zones[h.val]'h.isLt).valid = true →
        ((j.zones[h.val]'h.isLt).value ≤ (s.zoneSet h).hardTemp → (t.zone h).urgent = true) ∧
        ((s.zoneSet h).hardTemp + 10 ≤ (j.zones[h.val]'h.isLt).value → (t.zone h).urgent = false) ∧
        ((s.zoneSet h).hardTemp < (j.zones[h.val]'h.isLt).value → (j.zones[h.val]'h.isLt).value < (s.zoneSet h).hardTemp + 10 →
          (t.zone h).urgent = (s.zone h).urgent)) ∧
      ((t.zone h).urgent ≠ (s.zone h).urgent → (s.heater h).request = .start →
        (t.heater h).level = (if (t.zone h).urgent then 6 else (s.zoneSet h).level) ∧ (t.heater h).urgent = (t.zone h).urgent ∧
        ((s.heater h).claim ≠ .none →
          .relevel (.heater h) (if (t.zone h).urgent then 6 else (s.zoneSet h).level) (t.zone h).urgent ∈ t.transit)) ∧
      ((t.zone h).want = true → (s.heater h).request ≠ .start → .heaterStartRequest h
        (if (t.zone h).urgent then 6 else (s.zoneSet h).level) (t.zone h).urgent ∈ t.transit) ∧
      ((t.zone h).want = false → (s.heater h).request = .start → .heaterStopRequest h ∈ t.transit) ∧
      ((j.zones[h.val]'h.isLt).valid = false → (t.zone h).state = .duty ∧ (t.zone h).urgent = decide (t.frost.state = .hard) ∧
        ∀ c, (c = if (s.zone h).state = .duty then (s.zone h).duty else 0) → (t.zone h).want = decide (c < (s.zoneSet h).failDuty * 60) ∧
          (t.zone h).duty = if c + j.period < 600 then c + j.period else c + j.period - 600) ∧
      ((s.zone h).state = .duty → (j.zones[h.val]'h.isLt).valid = true → (t.zone h).duty = 0 ∧
        ((s.zoneSet h).offTemp ≤ (j.zones[h.val]'h.isLt).value → (t.zone h).state = .idle ∧ (t.zone h).want = false) ∧
        ((j.zones[h.val]'h.isLt).value < (s.zoneSet h).offTemp → (s.heater h).mode = .on →
          (t.zone h).state = .heating ∧ (t.zone h).want = true) ∧
        ((j.zones[h.val]'h.isLt).value < (s.zoneSet h).offTemp → (s.heater h).mode ≠ .on →
          ((j.zones[h.val]'h.isLt).value ≤ (s.zoneSet h).onTemp → (t.zone h).state = .want ∧ (t.zone h).want = true) ∧
          ((s.zoneSet h).onTemp < (j.zones[h.val]'h.isLt).value → (t.zone h).state = .idle ∧ (t.zone h).want = false)))) ∧
    t.jrn.queue = s.jrn.queue
      ++ (if t.frost.state = s.frost.state then [] else
        [(⟨.frost, j.time, none, b1 s.frost.state.code ++ b1 t.frost.state.code ++ b1 (if j.air.valid then 0 else 1)
          ++ b1 (if j.air.valid then 1 else 0) ++ bs2 j.air.value ++ [0, 0]⟩ : Rec)])
      ++ four.flatMap fun h => if (s.zone h).state ≠ (t.zone h).state ∧ ((s.zone h).state.noted = true ∨ (t.zone h).state.noted = true) then
        [(⟨.zone, j.time, none, b1 h.val ++ b1 (s.zone h).state.code ++ b1 (t.zone h).state.code
          ++ b1 ((if (t.zone h).temp.valid then 1 else 0) + if (t.zone h).urgent then 2 else 0) ++ b1 t.frost.state.code
          ++ b1 (s.heater h).mode.code ++ bs2 (t.zone h).temp.value⟩ : Rec)] else []) ∧
  ∀ (h : Fin 4) (k : Notice) (s : State), s.sys.held = false → s.recordsWait 1 → Completes (.heaterNotice h k) s fun t =>
    (t.zone h).urgent = (s.zone h).urgent ∧ (t.zone h).duty = (s.zone h).duty ∧ (t.zone h).temp = (s.zone h).temp ∧
    ((s.zone h).state = .duty → k ≠ .failed → k ≠ .held → t.zone h = s.zone h) ∧
    t.jrn.queue = s.jrn.queue
      ++ if (s.zone h).state ≠ (t.zone h).state ∧ ((s.zone h).state.noted = true ∨ (t.zone h).state.noted = true) then
        [(⟨.zone, s.now, none, b1 h.val ++ b1 (s.zone h).state.code ++ b1 (t.zone h).state.code
          ++ b1 ((if (s.zone h).temp.valid then 1 else 0) + if (s.zone h).urgent then 2 else 0) ++ b1 s.frost.state.code
          ++ b1 (s.heater h).mode.code ++ bs2 (s.zone h).temp.value⟩ : Rec)] else []

/-- HEATER_NOTICE (R111, R113, R117): the zone's move for each notice, the want following the state; a notice that moves nothing changes
nothing, and no other zone moves. TURNOVER_CREATED (R115) sets the stagnation timer to 0. -/
def Obligations.FrostUnitIsTold : Prop :=
  ∀ s : State, s.sys.held = false →
    (∀ h k, Completes (.heaterNotice h k) s fun t =>
      (k = .on → (s.zone h).state = .want ∨ (s.zone h).state = .shed → (t.zone h).state = .heating ∧ (t.zone h).want = true) ∧
      (k = .failedTry → (s.zone h).state = .heating → (t.zone h).state = .want ∧ (t.zone h).want = true) ∧
      (k = .recalled → (s.zone h).state = .heating ∨ (s.zone h).state = .want →
        (t.zone h).state = .shed ∧ (t.zone h).want = true) ∧
      (k = .failed → (s.zone h).state ≠ .disabled → (s.zone h).state ≠ .zoneFault →
        (t.zone h).state = .zoneFault ∧ (t.zone h).want = false) ∧
      (k = .held → (s.zone h).state ≠ .disabled → (t.zone h).state = .disabled ∧ (t.zone h).want = false) ∧
      (k = .usable → (s.zone h).state = .zoneFault → (t.zone h).state = .idle) ∧
      (k = .usable → (s.zone h).state = .disabled → (t.zone h).state = if (s.zoneSet h).fitted then .idle else .disabled) ∧
      (k = .mainsLoss → (s.zone h).state = .heating ∨ (s.zone h).state = .shed → (t.zone h).state = .want) ∧
      ((t.zone h).state = (s.zone h).state → t = { s with transit := s.transit.erase (.heaterNotice h k) }) ∧
      (∀ g, g ≠ h → t.zone g = s.zone g) ∧ t.frost.state = s.frost.state ∧ t.frost.stagnation = s.frost.stagnation) ∧
    Completes .turnoverCreated s fun t =>
      t = { s with transit := s.transit.erase .turnoverCreated, frost := { s.frost with stagnation := 0 } }

/-! ## The memory port -/

/-- ATTN_WRITE, ATTN_EN_WRITE, LATCH and IGNORED_WRITE (R120, R127, R128, R130, R131): flags written 1 are cleared, a 1 on PROTECT re-arms the
protect record; the enables take the low six bits, and the pin follows a flag with its enable; a copy of every block's state is made, the
copy count raised and its bytes stored from offset 64 of the board page as far as the page reaches (the model's choice, log 14); other
addresses take no write. The copy holds, item by item (R131): judgement, guard, frost unit and zones, clock and windows, budget, mask,
claims and grants, a summary of each of the nine actuators with the run minutes and the tries of the last 3 600 s of a pump, plan table,
hold table, submission list length, taken pages, in-flight table, record queue length by class, gap counts, open page, given list length,
access state and minutes left, power state, settings number, source and STANDBY. -/
def Obligations.PortRegisters : Prop :=
  ∀ (v : Word) (s : State),
    Completes (.attnWrite v) s (fun t => t.port = { s.port with
      attn := s.port.attn &&& ~~~(v.setWidth 6)
      protect := if v.getLsbD 3 then { s.port.protect with captured := false, further := 0 } else s.port.protect }) ∧
    Completes (.attnEnWrite v) s (fun t => t = { s with port := { s.port with attnEn := v.setWidth 6 } } ∧
      (t.attnPin = true ↔ ∃ i : Fin 6, s.port.attn.getLsbD i.val = true ∧ v.getLsbD i.val = true)) ∧
    Completes (.latch v) s (fun t => t.port.copies = (s.port.copies + 1) % 65536 ∧ t.port.board = some (s.copyBoard t.port.copies) ∧
      (∀ i (h : i < ((s.copyBoard t.port.copies).bytes.take 192).length), t.mem.read (addr boardPage (64 + i))
        = ((s.copyBoard t.port.copies).bytes.take 192)[i]) ∧
      (∃ c, t.port.board = some c ∧ c.count = t.port.copies ∧ c.time = s.now ∧ c.judgement = s.survey.judgement ∧ c.guard = s.guard
        ∧ c.frost = s.frost ∧ c.zoneSets = s.set.zones ∧ c.cal = s.cal ∧ c.arb = s.arb ∧ c.plans = s.plans.slots ∧ c.holds = s.act.holds
        ∧ c.submitted = s.eng.submitted.length ∧ c.taken = s.eng.taken.map TakenPage.page ∧ c.inflight = s.eng.inflight
        ∧ c.queued = [0, 1, 2].map (fun k : Fin 3 => (s.jrn.queue.filter fun r => decide (r.kind.cls = k)).length)
        ∧ c.gaps = s.jrn.gaps ∧ c.openPage = s.jrn.opened.map OpenPage.page ∧ c.given = s.jrn.given.length ∧ c.access = s.eng.access
        ∧ (s.eng.access ≠ .service → c.minutesLeft = 0)
        ∧ (∀ e, s.eng.access = .service → s.eng.serviceEnd = some e → s.now < e →
          e - s.now ≤ 60 * c.minutesLeft ∧ 60 * (c.minutesLeft : Int) < e - s.now + 60)
        ∧ c.power = s.sys.power ∧ c.number = s.sys.number ∧ c.source = s.sys.source ∧ c.standby = s.sys.standby ∧ c.acts.length = 9
        ∧ (∀ n : Fin 4, c.acts[n.val]? = some ⟨(s.pump n).owner.code, (s.pump n).owner.planNumber, (s.pump n).request.code,
            if (s.pump n).contactor then 1 else 0, if (s.pump n).feedback then 1 else 0, (s.pump n).mode.code, (s.pump n).tries,
            (s.pump n).claim.code, (s.pump n).hold.getD 0, (s.pump n).minutes,
            ((s.pump n).starts.filter fun x => decide (s.now < x + 3600)).length⟩)
        ∧ c.acts[4]? = some ⟨s.act.inlet.owner.code, s.act.inlet.owner.planNumber, 0, cmdCode s.act.inlet.cmd,
            (if s.act.inlet.openLs then 1 else 0) + (if s.act.inlet.closedLs then 2 else 0), s.act.inlet.mode.code, 0, 0,
            s.act.inlet.hold.getD 0, 0, 0⟩
        ∧ ∀ n : Fin 4, c.acts[5 + n.val]? = some ⟨(s.heater n).owner.code, (s.heater n).owner.planNumber, (s.heater n).request.code,
            if (s.heater n).contactor then 1 else 0, if (s.heater n).current then 1 else 0, (s.heater n).mode.code, (s.heater n).tries,
            (s.heater n).claim.code, (s.heater n).hold.getD 0, 0, 0⟩) ∧
      ∀ a, a < addr boardPage 64 ∨ addr boardPage 256 ≤ a → t.mem.read a = s.mem.read a) ∧
    ∀ a, Completes (.ignoredWrite a v) s fun t => t = s

/-- MAP_ENTRY_WRITE and CONTENT_WRITE (R120, R122, R125 to R127): a transition listed in Table 7-3 stores state and sequence byte and passes
the page to its block; any other write to an entry is dropped MAP_TRANSITION. A word of a page the host may write is stored, low half
first, and nothing else moves; other words are dropped with their cause. A drop changes no entry and nothing outside the board page, fills
an armed protect record, counts in a full one, and raises PROTECT. A word of page 0 is a write to an entry. -/
def Obligations.HostWrites : Prop :=
  ∀ (v : Word) (s : State),
    let listed : List (PageState × PageState) := [(.free, .orderDraft), (.free, .journalGiven), (.orderDraft, .free),
      (.orderDraft, .submitted), (.submitted, .orderDraft), (.answered, .free), (.answered, .orderDraft), (.journalGiven, .free),
      (.journalFull, .free), (.journalFull, .journalGiven)]
    (∀ (p : Page) new, s.port.mapReady = true → s.sys.held = false → PageState.ofCode (v.toNat % 256) = some new →
      ((s.entry p).state, new) ∈ listed → Completes (.mapEntryWrite p v) s fun t =>
        (new ≠ .journalGiven → (s.entry p).state ≠ .journalGiven → t.entry p = ⟨new, (v >>> 8).setWidth 8⟩
          ∧ t.mem.read (2 * p.val) = BitVec.ofNat 8 new.code ∧ t.mem.read (2 * p.val + 1) = (v >>> 8).setWidth 8
          ∧ t.jrn = s.jrn
          ∧ t.eng.submitted = (if new = .submitted then s.eng.submitted ++ [p]
            else if (s.entry p).state = .submitted then s.eng.submitted.erase p else s.eng.submitted)) ∧
        (s.jrn.queue = [] → s.jrn.flush = none → new = .journalGiven →
          t.entry p = ⟨new, (v >>> 8).setWidth 8⟩ ∧ t.jrn = { s.jrn with given := s.jrn.given ++ [p], shortage := false }) ∧
        (s.jrn.queue = [] → s.jrn.flush = none → (s.entry p).state = .journalGiven →
          t.entry p = ⟨new, (v >>> 8).setWidth 8⟩ ∧ t.jrn = { s.jrn with given := s.jrn.given.erase p })) ∧
    (∀ (p : Page), (∀ new, PageState.ofCode (v.toNat % 256) = some new → ((s.entry p).state, new) ∉ listed) →
      s.port.mapReady = true → s.sys.held = false → Completes (.mapEntryWrite p v) s fun t =>
        t = s.dropWrite p.val v .mapTransition) ∧
    (∀ (a : BitVec 14) (p : Page), p.val = a.toNat / 128 → s.port.mapReady = true → s.sys.held = false →
      Completes (.contentWrite a v) s fun t =>
        (((p.val = 2 ∨ p.val = 3) ∧ s.eng.access = .service) ∨ (4 ≤ p.val ∧ ((s.entry p).state = .free
            ∨ (s.entry p).state = .orderDraft ∨ (s.entry p).state = .answered ∨ (s.entry p).state = .journalFull)) →
          t.mem.read (2 * a.toNat) = v.setWidth 8 ∧ t.mem.read (2 * a.toNat + 1) = (v >>> 8).setWidth 8
            ∧ (∀ x, x ≠ 2 * a.toNat → x ≠ 2 * a.toNat + 1 → t.mem.read x = s.mem.read x) ∧ t = { s with mem := t.mem }) ∧
        (p.val = 1 → t = s.dropWrite a.toNat v .board) ∧
        (p.val = 2 ∨ p.val = 3 → s.eng.access ≠ .service → t = s.dropWrite a.toNat v .settingsLocked) ∧
        (4 ≤ p.val → (s.entry p).state = .submitted ∨ (s.entry p).state = .taken ∨ (s.entry p).state = .journalGiven
          ∨ (s.entry p).state = .journalOpen → t = s.dropWrite a.toNat v .owned)) ∧
    (s.port.mapReady = false ∨ s.sys.held = true →
      (∀ p, Completes (.mapEntryWrite p v) s fun t => t = s.dropWrite p.val v .starting) ∧
      (∀ a : BitVec 14, 128 ≤ a.toNat → Completes (.contentWrite a v) s fun t => t = s.dropWrite a.toNat v .starting)) ∧
    (∀ (a : BitVec 14) (p : Page), a.toNat = p.val → exec (.contentWrite a v) s = exec (.mapEntryWrite p v) s) ∧
    ∀ w c, (s.port.protect.captured = false → (s.dropWrite w v c).port.protect = ⟨true, w, v, c, s.now, 0⟩) ∧
      (s.port.protect.captured = true → (s.dropWrite w v c).port.protect
        = { s.port.protect with further := min 65535 (s.port.protect.further + 1) }) ∧
      (s.dropWrite w v c).port.attn.getLsbD 3 = true ∧ (s.dropWrite w v c).port.shadow = s.port.shadow ∧
      (∀ x, x < addr boardPage 0 ∨ addr boardPage 256 ≤ x → (s.dropWrite w v c).mem.read x = s.mem.read x) ∧
      s.dropWrite w v c = { s with port := (s.dropWrite w v c).port, mem := (s.dropWrite w v c).mem }

/-! ## The order engine: pages, access states, orders in flight -/

/-- PAGE_TAKE and PAGE_ANSWER (R136, R142; a page with a bad order count is answered, and the next head taken, within the take: log 10).
PAGE_TAKE takes the next page where it can: without a head, without room, or before start-up has ended, none. The head leaves the list and
its sequence byte is remembered. With an order count of 1 to 7 it stands among the taken pages, runs, and its answer sets out where it is
already due; a further take sets out where one is possible. With another count every order is NOT_RUN, the page is ANSWERED with status 2,
ANSWER is raised, and the next page is taken. PAGE_ANSWER: a page whose orders are all final and recorded is ANSWERED with status 1 and
the time, leaves the taken pages, raises ANSWER, and the next page is taken; one that is not so stays. -/
def Obligations.PagesAreTakenAndAnswered : Prop :=
  (∀ s : State,
    (s.sys.held = false → Completes .pageTake s fun t => t = ({ s with transit := s.transit.erase .pageTake } : State).takeNext) ∧
    (s.eng.submitted = [] ∨ Config.takenMax ≤ s.eng.taken.length ∨ s.sys.started = false → s.takeNext = s)) ∧
  (∀ (p : Page) (l : List Page) (s : State), s.eng.submitted = p :: l → s.eng.taken.length < Config.takenMax → s.sys.started = true →
    (1 ≤ s.orderCount p → s.orderCount p ≤ 7 → s.takeNext = ((s.enterTaken p).runTaken p).wantTake ∧
      s.takeNext.eng.submitted = l ∧ s.takeNext.eng.lastTaken = (s.entry p).seq ∧ (∃ e ∈ s.takeNext.eng.taken, e.page = p) ∧
      (s.takeNext.pageDone p = true → .pageAnswer p ∈ s.takeNext.transit)) ∧
    (4 ≤ p.val → s.orderCount p = 0 ∨ 7 < s.orderCount p →
      let u := (s.enterTaken p).badHeader p
      s.takeNext = u.takeNext ∧ u.eng.submitted = l ∧ u.eng.lastTaken = (s.entry p).seq ∧ u.eng.taken = s.eng.taken ∧
        (u.entry p).state = .answered ∧ (u.entry p).seq = (s.entry p).seq ∧ u.byte p 3 = 2 ∧
        (∀ k, k < 7 → u.orderStatus p k = Status.notRun.code) ∧ u.port.attn.getLsbD 0 = true)) ∧
  ∀ (p : Page) (s : State), s.sys.held = false →
    (s.pageDone p = true → 4 ≤ p.val →
      let u := ({ s with
        transit := s.transit.erase (.pageAnswer p)
        eng := { s.eng with taken := s.eng.taken.filter fun e => decide (e.page ≠ p) } } : State).answerAs p pageOk
      Completes (.pageAnswer p) s (fun t => t = u.takeNext) ∧
        (u.entry p).state = .answered ∧ (u.entry p).seq = (s.entry p).seq ∧ u.byte p 3 = 1 ∧
        u.full p 4 = (s.now % 4294967296).toNat ∧ u.eng.taken = s.eng.taken.filter (fun e => decide (e.page ≠ p)) ∧
        u.eng.submitted = s.eng.submitted ∧ u.port.attn.getLsbD 0 = true) ∧
    (s.pageDone p = false → Completes (.pageAnswer p) s fun t => t = { s with transit := s.transit.erase (.pageAnswer p) })

/-- The running of a page (R137 steps 1 to 3, R141, R142). A page runs slot by slot from its next slot until it is parked or every slot has
been reached, then its answer is tested. A slot whose status is not NEW is NOT_RUN; one with an unknown code REFUSED UNKNOWN_ORDER; one
without CHAIN, or with every earlier order DONE, is handed to its block, as the row of its order with the operands its record gives; one
with CHAIN and an earlier order final and not DONE is NOT_RUN; else the page is parked at it and nothing else moves. A parked page resumes
when an order of it has ended outside its running; one that is not parked is tested for its answer. An order commanded by a row of its own
runs from step 4 on, in the page and slot it names (the model's choice, log 17). -/
def Obligations.PageOrdersRun : Prop :=
  (∀ (p : Page) (s : State) (e : TakenPage), s.takenEntry p = some e →
    (∀ h : e.next < 7, e.parked = false → e.next < s.orderCount p →
      s.runPage p = (s.runSlot ⟨p, ⟨e.next, h⟩⟩).runPage p) ∧
    (e.parked = true ∨ s.orderCount p ≤ e.next ∨ 7 ≤ e.next → s.runPage p = s.checkAnswer p) ∧
    (e.parked = true → s.orderEnded p = (s.modTaken p fun x => { x with parked := false }).runPage p) ∧
    (e.parked = false → s.orderEnded p = s.checkAnswer p) ∧
    (s.pageDone p = true → s.checkAnswer p = s.post (.pageAnswer p)) ∧ (s.pageDone p = false → s.checkAnswer p = s)) ∧
  (∀ (r : OrderRef) (s : State) (e : TakenPage), s.takenEntry r.page = some e →
    let u := s.runSlot r
    let past := s.modTaken r.page fun x => { x with next := r.slot.val + 1 }
    let final (st : Status) (rs : Reason) : Prop := u.orderReads r st rs ∧ u = { past with mem := u.mem } ∧
      ∀ a, a ≠ addr r.page (slotOffset r.slot.val + 2) → a ≠ addr r.page (slotOffset r.slot.val + 3) → u.mem.read a = s.mem.read a
    (s.orderStatus r.page r.slot.val ≠ 0 → final .notRun .none) ∧
    (s.orderStatus r.page r.slot.val = 0 →
      (s.orderCode r.page r.slot.val = 0 ∨ 20 < s.orderCode r.page r.slot.val → final .refused .unknownOrder) ∧
      (∀ c, OrderCode.ofCode (s.orderCode r.page r.slot.val) = some c →
        (s.orderChain r.page r.slot.val = false ∨ (∀ k, k < r.slot.val → s.orderStatus r.page k = 2) → u = past.handSlot c r) ∧
        (s.orderChain r.page r.slot.val = true → ∀ k, k < r.slot.val → 3 ≤ s.orderStatus r.page k → s.orderStatus r.page k ≤ 7 →
          final .notRun .none) ∧
        (s.orderChain r.page r.slot.val = true → (∃ k, k < r.slot.val ∧ s.orderStatus r.page k ≠ 2) →
          (∀ k, k < r.slot.val → ¬(3 ≤ s.orderStatus r.page k ∧ s.orderStatus r.page k ≤ 7)) →
          u = s.modTaken r.page fun x => { x with next := r.slot.val, parked := true })))) ∧
  ∀ (c : OrderCode) (r : OrderRef) (s : State), s.sys.held = false →
    exec (s.orderCommand r c) s = .next ((s.handSlot c r).orderEnded r.page)

/-- KEY and SERVICE_EXPIRY (R143, R144; KEY acts while the part is held in reset too, R126; an expiry that comes early does nothing,
log 7): the site code, or any value with site code 0, opens SERVICE for 30 minutes in NORMAL and renews it
in SERVICE; a value that does not fit, and LOCAL, change nothing. KEY 0 and the expiry end SERVICE: NORMAL, no order of the pumps, the
inlet or the holds in flight, no pump of MANUAL or a hold with request START, and MANUAL on its way out of the inlet.
LOCAL_ENTRY and LOCAL_EXIT (R62, R145): at the entry SERVICE ends, every pump contactor is off with no request, claims and grants given
up, the pumps READY, FAILED or HELD, the valve at rest, a plan's or MANUAL's inlet under NONE and not commanded, that of the guard or
a hold kept, commanded CLOSED, the ACTIVE plan PAUSED LOCAL, the station orders out of flight; at the exit the access state is NORMAL,
the plans' cause LOCAL clears, a pump with its feedback ON is STOPPING for 10 s, FAILED staying so (but in DARK, where it waits for the mains:
R61), one with it OFF stands as it was, and the guard's or a hold's inlet is driven CLOSED. A travel begins though its own switch is made
already (the model's choice, log 56). -/
def Obligations.AccessStates : Prop :=
  (∀ s : State,
    (∀ v, Completes (.key v) s fun t =>
      (s.eng.access = .normal → s.set.siteCode = 0 ∨ v.toNat = s.set.siteCode →
        t.eng.access = .service ∧ t.eng.serviceEnd = some (s.now + 1800)) ∧
      (s.set.siteCode ≠ 0 → v.toNat ≠ s.set.siteCode → v ≠ 0 ∨ s.eng.access = .normal → t = s) ∧
      (s.eng.access = .service → v ≠ 0 → s.set.siteCode = 0 ∨ v.toNat = s.set.siteCode →
        t = { s with eng := { s.eng with serviceEnd := some (s.now + 1800) } }) ∧
      (s.eng.access = .localControl → t = s)) ∧
    (∀ c, (c = .key 0 ∨ (c = .serviceExpiry ∧ s.sys.held = false ∧ s.due s.eng.serviceEnd = true)) → s.eng.access = .service → s.unparked →
      s.unpending .inlet → Completes c s fun t => t.eng.access = .normal ∧ t.eng.serviceEnd = none
        ∧ (∀ e ∈ t.eng.inflight, e ∈ s.eng.inflight ∧ e.code ∉ serviceOrders)
        ∧ (∀ n, (s.pump n).owner = .manual ∨ (s.pump n).owner = .hold → (t.pump n).request ≠ .start)
        ∧ (s.act.inlet.owner = .manual → (t.act.inlet.owner = .manual ∧ t.act.inlet.releasing = true) ∨ t.act.inlet.owner = .none)) ∧
    (s.sys.held = false → s.eng.access ≠ .service ∨ s.due s.eng.serviceEnd = false →
      Completes .serviceExpiry s fun t => t = { s with transit := s.transit.erase .serviceExpiry })) ∧
  (∀ s : State, s.sys.held = false → s.unparked →
    (s.eng.access ≠ .localControl → Completes .localEntry s fun t =>
      t.eng.access = .localControl ∧ t.eng.serviceEnd = none ∧ t.sys.localIn = true
        ∧ (∀ n, (t.pump n).contactor = false ∧ (t.pump n).request = .none
          ∧ ((t.pump n).mode = .ready ∨ (t.pump n).mode = .failed ∨ (t.pump n).mode = .held) ∧ (t.pump n).claim = .none
          ∧ ((s.pump n).claim = .claimed → .withdrawal (.pump n) ∈ t.transit)
          ∧ ((s.pump n).claim = .granted ∨ (s.pump n).claim = .recalled → .grantRelease (.pump n) ∈ t.transit)
          ∧ (s.unheld (.pump n) → (t.pump n).owner = .none))
        ∧ t.act.inlet.mode ≠ .opening ∧ t.act.inlet.mode ≠ .closing
        ∧ (s.act.inlet.owner.isPlan = true ∨ s.act.inlet.owner = .manual → s.unpending .inlet →
          t.act.inlet.owner = .none ∧ (s.act.inlet.hold = none → t.act.inlet.cmd = none))
        ∧ (s.act.inlet.owner = .guard ∨ s.act.inlet.owner = .hold → t.act.inlet.owner = s.act.inlet.owner)
        ∧ (s.act.inlet.owner = .guard ∨ s.act.inlet.owner = .hold ∨ s.act.inlet.hold ≠ none → t.act.inlet.cmd = some .closed)
        ∧ (∀ e ∈ t.eng.inflight, e ∈ s.eng.inflight ∧ e.code.station e.target = false)
        ∧ ∀ p, s.activePlan = some p → ∃ q ∈ t.planList, q.number = p.number ∧ q.state = .paused ∧ q.pause = some .localControl) ∧
    (s.eng.access = .localControl → Completes .localEntry s fun t =>
      t = { s with transit := s.transit.erase .localEntry, sys := { s.sys with localIn := true } }) ∧
    (s.eng.access = .localControl → Completes .localExit s fun t =>
      t.eng.access = .normal ∧ t.sys.localIn = false
        ∧ (s.livePlan .turnover = none → ∀ p ∈ s.planList, p.pause = some .localControl → { p with cleared := true } ∈ t.planList)
        ∧ (s.guard.mode.seizes = true → s.act.inlet.calm → s.act.inlet.mode ≠ .closed → t.act.inlet.cmd = some .closed)
        ∧ (s.act.inlet.owner = .guard ∨ ¬s.unheld .inlet → s.act.inlet.calm → s.sys.power = .run → s.sys.standby = false →
          s.act.inlet.mode ≠ .closed → s.act.inlet.mode ≠ .closing →
          t.act.inlet.mode = .closing ∧ t.act.inlet.travelDl = some (s.now + s.set.travelLimit))
        ∧ ∀ n, s.unpending (.pump n) → (s.pump n).contactor = false →
          ((s.pump n).feedback = true → s.sys.power ≠ .dark →
            ((s.pump n).mode = .ready ∨ (s.pump n).mode = .resting ∨ (s.pump n).mode = .retryWait ∨ (s.pump n).mode = .held →
              (t.pump n).mode = .stopping ∧ (t.pump n).stopDl = some (s.now + 10)) ∧
            ((s.pump n).mode = .failed → (t.pump n).mode = .failed ∧ (t.pump n).stopDl = some (s.now + 10))) ∧
          ((s.pump n).feedback = false → (s.pump n).request ≠ .start → (t.pump n).mode = (s.pump n).mode)) ∧
    (s.eng.access ≠ .localControl → Completes .localExit s fun t =>
      t = { s with transit := s.transit.erase .localExit, sys := { s.sys with localIn := false } }))

/-- ORDER_COMPLETE, ORDER_TIME_LIMIT and ORDER_MAINS_LOSS (R137, R140, R152): an order in flight leaves the table with the outcome its
block reports, its result only for DONE; 600 s after its entry it is FAILED TIME_LIMIT and its request withdrawn, and not before (log 7); at
mains loss the plant orders leave ABORTED POWER. What names no order in flight does nothing. -/
def Obligations.OrdersInFlightEnd : Prop :=
  ∀ s : State, s.sys.held = false →
    (∀ r st rs res,
      (∀ e, s.flight r = some e → s.orderReady r → Completes (.orderComplete r st rs res) s fun t =>
        t.eng.inflight = s.eng.inflight.filter (fun e => decide (e.ref ≠ r)) ∧ t.orderReads r st rs ∧ (st = .done → t.resultReads r res)) ∧
      (s.flight r = none → Completes (.orderComplete r st rs res) s fun t =>
        t = { s with transit := s.transit.erase (.orderComplete r st rs res) })) ∧
    (∀ r e, s.flight r = some e →
      (e.entry + 600 ≤ s.now → s.orderReady r → s.apart r.page → Completes (.orderTimeLimit r) s fun t =>
        t.eng.inflight = s.eng.inflight.filter (fun e => decide (e.ref ≠ r)) ∧ t.orderReads r .failed .timeLimit ∧
        (e.code = .flushJournal → t.jrn.flush = none) ∧
        (∀ n : Fin 4, e.code = .startPump → e.target = n.val → (s.pump n).owner = .manual → (t.pump n).request ≠ .start)) ∧
      (s.now < e.entry + 600 → Completes (.orderTimeLimit r) s fun t => t = { s with transit := s.transit.erase (.orderTimeLimit r) })) ∧
    (s.unparked → Completes .orderMainsLoss s fun t =>
      (∀ e ∈ t.eng.inflight, e ∈ s.eng.inflight ∧ e.code ∉ plantOrders) ∧
      ∀ e ∈ s.eng.inflight, e.code ∈ plantOrders → (∃ k ∈ s.eng.taken, k.page = e.ref.page) → t.orderReads e.ref .aborted .power)

/-! ## The twenty orders -/

/-- SET_CLOCK, ADOPT_SETTINGS, READ_ACTUATOR, SET_TARGET and RELEASE_MANUAL (R54, R66, R96, R146 to R149, R164, R165): the clock and the
band follow the order and the old time is its result; a sound image whose budget covers the grants is in use, a faulty one REFUSED with
the index of its field; the entry is read as it stands; the target goes to the living night fill or waits for the next; MANUAL lets go
of its pumps and of the inlet, which must be its own. SET_CLOCK moves every time at which a wait ends or a span began, by as much as the clock
(R67): the try, retry, stop and `min_off` times, run-since and off-since of a pump or heater that no try or hold waits for, the travel
deadline, the hold deadlines, the entries in flight, the expiry of SERVICE, the age of the open page and the stagger; of a pump, a heater and
the inlet nothing else, so the start lists stay. -/
def Obligations.ClockSettingsAndReads : Prop :=
  ∀ (r : OrderRef) (s : State), s.orderReady r →
    (∀ x : BitVec 32, (x.toNat : Int) ≤ Config.lastSecond → Completes (.setClock r x) s fun t =>
      t.orderReads r .done .none ∧ t.resultReads r (bt s.now) ∧ t.cal.count = x.toNat ∧ t.cal.set = true
        ∧ t.cal.window = windowAt s.set x.toNat ∧ t.cal.band = some (bandOf t.cal.window)
        ∧ .clockSetReport s.now x.toNat ∈ t.transit
        ∧ t.eng.inflight = s.eng.inflight.map (fun e => { e with entry := e.entry + (x.toNat - s.now) })
        ∧ let moved : Option Time → Option Time := Option.map (· + (x.toNat - s.now))
          (∀ n, (s.pump n).waits = false → s.unpending (.pump n) → t.pump n = { s.pump n with
            tryDl := moved (s.pump n).tryDl, retryDl := moved (s.pump n).retryDl, stopDl := moved (s.pump n).stopDl
            offEnd := moved (s.pump n).offEnd, runSince := moved (s.pump n).runSince, offSince := moved (s.pump n).offSince }) ∧
          (∀ h, (s.heater h).waits = false → s.unpending (.heater h) → t.heater h = { s.heater h with
            tryDl := moved (s.heater h).tryDl, retryDl := moved (s.heater h).retryDl, stuckDl := moved (s.heater h).stuckDl
            runSince := moved (s.heater h).runSince, offSince := moved (s.heater h).offSince }) ∧
          (s.act.inlet.calm → s.unpending .inlet → t.act.inlet = { s.act.inlet with travelDl := moved s.act.inlet.travelDl }) ∧
          (s.allEstablished → t.act.holds = s.act.holds.map fun h => { h with deadline := h.deadline + (x.toNat - s.now) }) ∧
          t.eng.serviceEnd = moved s.eng.serviceEnd ∧ t.sys.stagger = moved s.sys.stagger ∧
          ∀ o, s.jrn.opened = some o → o.records ≠ 0 → o.page ∉ s.jrn.given → ∀ u, t.jrn.opened = some u → u.page = o.page →
            u.ageStart = moved o.ageStart) ∧
    (s.eng.access = .service → Completes (.adoptSettings r) s fun t =>
      (∀ st, s.validate = .ok st → unitsOf s.arb.grants ≤ st.loadBudget →
        t.orderReads r .done .none ∧ t.resultReads r (b2 s.imgNumber) ∧ t.set = st ∧ t.sys.number = s.imgNumber
          ∧ t.sys.standby = false) ∧
      (∀ i, s.validate = .error i → t.orderReads r .refused .settingsInvalid ∧ t.resultReads r (b2 i) ∧ t.sys = s.sys) ∧
      t.eng.serviceEnd = some (s.now + 1800)) ∧
    (∀ (w : Word) a, ActId.ofCode w.toNat = some a → Completes (.readActuator r w) s fun t =>
      t.orderReads r .done .none ∧ t.resultReads r (s.summary a).result ∧ t.act = s.act) ∧
    (∀ w : Word, w.toNat ≤ 40000 → Completes (.setTarget r w) s fun t =>
      (s.set.dayFloor ≤ w.toNat ∧ w.toNat + 100 ≤ s.set.warnLevel → t.orderReads r .done .none ∧
        (s.livePlan .nightFill = none → t.resultReads r (b1 0) ∧ t.plans.override = some w.toNat) ∧
        (∀ p, s.livePlan .nightFill = some p → t.resultReads r (b1 1) ∧ (∃ q ∈ t.planList, q.number = p.number) ∧
          ∀ q ∈ t.planList, q.number = p.number → q.target = w.toNat)) ∧
      (w.toNat < s.set.dayFloor ∨ s.set.warnLevel < w.toNat + 100 → t.orderReads r .refused .badArgument ∧ t.plans = s.plans)) ∧
    (s.eng.access ≠ .localControl → s.unpending .inlet → Completes (.releaseManual r) s fun t =>
      (s.act.inlet.owner = .manual → t.orderReads r .done .none
        ∧ (∀ n, (s.pump n).owner = .manual ∨ (s.pump n).owner = .hold → (t.pump n).request ≠ .start)
        ∧ ((t.act.inlet.owner = .manual ∧ t.act.inlet.releasing = true) ∨ t.act.inlet.owner = .none)) ∧
      (s.act.inlet.owner ≠ .manual → t.orderReads r .refused .busy ∧ t.act = s.act))

/-- The validation of a settings image (R164), which ADOPT_SETTINGS makes and refuses with the index: sound just where the header holds format 1,
length 504 and the CRC-16 of the body, every field lies in its range, the order relations hold and no two windows overlap; then the image's
settings are taken. A bad header gives index 0; the first field out of its range its own index; a relation that fails the highest index it
names, of several that fail the lowest so given (log 15); an overlap the start field of the first slot in index order that overlaps
an earlier one (log 16). The relations of the strapping table are one for each adjacent pair of points (the model's choice, log 62). -/
def Obligations.SettingsAreValidated : Prop :=
  (∀ (s : State) (t : Settings), s.validate = .ok t ↔
    (s.img2 0 = 1 ∧ s.img2 4 = 504 ∧ s.img2 6 = (crc16 ((List.range 504).map fun i => s.imgByte (8 + i))).toNat) ∧
      s.inRanges ∧ s.imgSettings.ordered ∧ s.imgSettings.windowsApart ∧ t = s.imgSettings) ∧
  (∀ s : State,
    let header := s.img2 0 = 1 ∧ s.img2 4 = 504 ∧ s.img2 6 = (crc16 ((List.range 504).map fun i => s.imgByte (8 + i))).toNat
    (¬header → s.validate = .error 0) ∧
    (∀ x ∈ fields.zipIdx 1, header → s.exempt x.2 = false → s.field x.1 < x.1.lo ∨ x.1.hi < s.field x.1 →
      (∀ y ∈ fields.zipIdx 1, y.2 < x.2 → s.exempt y.2 = true ∨ (y.1.lo ≤ s.field y.1 ∧ s.field y.1 ≤ y.1.hi)) →
      s.validate = .error x.2) ∧
    (∀ i, header → s.inRanges → (false, i) ∈ relations s.imgSettings → (∀ k, (false, k) ∈ relations s.imgSettings → i ≤ k) →
      s.validate = .error i) ∧
    (∀ a ∈ slotsOf s.imgSettings, ∀ b ∈ slotsOf s.imgSettings, ∀ m, header → s.inRanges → s.imgSettings.ordered →
      a.2.2 < b.2.2 → m < 10080 → coversMinute a m → coversMinute b m →
      (∀ c ∈ slotsOf s.imgSettings, ∀ d ∈ slotsOf s.imgSettings, d.2.2 < b.2.2 → c.2.2 < d.2.2 → ∀ k, k < 10080 →
        ¬(coversMinute c k ∧ coversMinute d k)) → s.validate = .error b.2.2)) ∧
  ∀ (r : OrderRef) (s : State) (i : Nat), s.orderReady r → s.eng.access = .service → s.validate = .error i →
    Completes (.adoptSettings r) s fun t => t.orderReads r .refused .settingsInvalid ∧ t.resultReads r (b2 i) ∧ t.sys = s.sys
      ∧ t.act = s.act ∧ t.plans = s.plans ∧ t.arb = s.arb ∧ t.guard = s.guard ∧ t.survey = s.survey ∧ t.frost = s.frost

/-- ADOPT_SETTINGS of a sound image (R19, R36, R63, R80, R104, R118, R159, R165). A budget below the units granted is REFUSED BUSY and changes
no block. Else: a changed strapping table empties the minute list, the draw rate is 0 and invalid and the start volume due, and the survey
unit is left as it stands otherwise, and wholly so by equal straps (the model's reading, log 32). The guard's levels follow. A pump that
becomes fitted is READY with count 0 under NONE, without a request (the model's reading, log 51); one that becomes unfitted is off,
without request; a heater likewise, off and under NONE. The arbiter has the new budget. The override is cleared, the night fill and the
day top-up take their new targets, target volumes are found afresh, a host fill out of range ends SETTINGS, and without a fitted pump
every plan ends. A zone that becomes unfitted is DISABLED, one that becomes fitted IDLE. No page that has reached the new `journal_age` is
left open. -/
def Obligations.AdoptionReachesTheBlocks : Prop :=
  ∀ (r : OrderRef) (st : Settings) (s : State), s.orderReady r → s.eng.access = .service → s.validate = .ok st →
    (st.loadBudget < unitsOf s.arb.grants → Completes (.adoptSettings r) s fun t => t.orderReads r .refused .busy ∧ t.sys = s.sys
      ∧ t.act = s.act ∧ t.plans = s.plans ∧ t.arb = s.arb ∧ t.guard = s.guard ∧ t.survey = s.survey ∧ t.frost = s.frost) ∧
    (unitsOf s.arb.grants ≤ st.loadBudget → Completes (.adoptSettings r) s fun t => t.orderReads r .done .none ∧ t.set = st ∧
      (st.straps ≠ s.set.straps → t.survey = { s.survey with minutes := [], draw := 0, drawValid := false, startVolDue := true }) ∧
      (st.straps = s.set.straps → t.survey = s.survey) ∧
      t.guard.effWarn = (if s.guard.frostFlag then st.warnLevel - st.frostMargin else st.warnLevel) ∧
      t.guard.effTrip = (if s.guard.frostFlag then st.tripLevel - st.frostMargin else st.tripLevel) ∧
      (∀ n : Fin 4, s.unheld (.pump n) →
        ((s.pumpSet n).fitted = false → (st.pumps[n.val]'n.isLt).fitted = true → (t.pump n).mode = .ready ∧ (t.pump n).tries = 0
          ∧ (t.pump n).owner = .none ∧ (t.pump n).request = .none ∧ .pumpAvailable n ∈ t.transit) ∧
        ((s.pumpSet n).fitted = true → (st.pumps[n.val]'n.isLt).fitted = false → s.pumpsOk →
          (t.pump n).contactor = false ∧ (t.pump n).request = .none ∧ (t.pump n).mode ≠ .failed)) ∧
      (∀ h : Fin 4, s.unheld (.heater h) →
        ((s.zoneSet h).fitted = false → (st.zones[h.val]'h.isLt).fitted = true → (t.heater h).mode = .ready ∧ (t.heater h).tries = 0
          ∧ (t.heater h).owner = .none ∧ (t.zone h).state = .idle) ∧
        ((s.zoneSet h).fitted = true → (st.zones[h.val]'h.isLt).fitted = false → s.heatersOk → (t.heater h).contactor = false
          ∧ (t.heater h).request = .none ∧ (t.heater h).owner = .none ∧ (t.heater h).mode ≠ .failed
          ∧ (t.zone h).state = .disabled ∧ (t.zone h).want = false ∧ (t.zone h).urgent = false)) ∧
      t.arb.budget = st.loadBudget ∧ unitsOf t.arb.grants ≤ st.loadBudget ∧
      t.plans.override = none ∧
      (∀ p, s.plan p.number = some p → p.live = true → ∃ q, t.plan p.number = some q ∧
        (p.kind = .nightFill → q.target = st.nightTarget) ∧ (p.kind = .dayTopup → q.target = st.dayFloor + st.topupMargin) ∧
        (p.kind = .hostFill ∨ p.kind = .turnover → q.target = p.target) ∧
        (p.kind ≠ .turnover ∨ q.state ≠ .ended → q.targetVolume = volumeAt st.straps q.target) ∧
        (p.kind = .hostFill → p.target < st.dayFloor ∨ st.warnLevel < p.target + 100 → q.state = .ended ∧ q.endCause = some .settings) ∧
        ((∀ n : Fin 4, (st.pumps[n.val]'n.isLt).fitted = false) → q.state = .ended)) ∧
      (∀ o, t.jrn.opened = some o → t.pageAged o = false))

/-- FILL_NOW, TURNOVER_NOW, CANCEL_PLAN and READ_PLAN (R98, R99, R101, R147): a host fill or a turnover enters the table under the next
plan number, which is its result, unless one of its kind lives; a living plan is CANCELLED with its volume as result, a day top-up
with the inhibit; a plan in the table is read; a number with no plan is refused. A turnover order that meets both answers of R99 is
refused BUSY (the model's choice, log 59). -/
def Obligations.PlanOrders : Prop :=
  ∀ (r : OrderRef) (s : State), s.orderReady r →
    (∀ (w k : Word) (d : BitVec 32), w.toNat ≤ 40000 → s.set.dayFloor ≤ w.toNat → w.toNat + 100 ≤ s.set.warnLevel →
      1 ≤ k.toNat → k.toNat ≤ 4 → d = 0 ∨ (s.now < d.toNat ∧ (d.toNat : Int) ≤ Config.lastSecond ∧ s.cal.set = true) →
      Completes (.fillNow r w k d) s fun t =>
        (s.livePlan .hostFill = none → t.orderReads r .done .none ∧ t.resultReads r (b1 s.nextPlanNumber) ∧
          ∃ q ∈ t.planList, q.number = s.nextPlanNumber ∧ q.kind = .hostFill ∧ q.target = w.toNat ∧ q.stage = k.toNat
            ∧ q.deadline = (if d = 0 then none else some (d.toNat : Int)) ∧ q.ref = some r) ∧
        (s.livePlan .hostFill ≠ none → t.orderReads r .refused .busy ∧ t.plans = s.plans)) ∧
    Completes (.turnoverNow r) s (fun t =>
      (s.livePlan .turnover = none → numericQuality s.qualityNow = true → t.orderReads r .done .none
        ∧ t.resultReads r (b1 s.nextPlanNumber) ∧ .turnoverCreated ∈ t.transit ∧
        ∃ q ∈ t.planList, q.number = s.nextPlanNumber ∧ q.kind = .turnover ∧ q.origin = .order ∧ q.draw = true ∧ q.ref = some r) ∧
      (s.livePlan .turnover = none → numericQuality s.qualityNow = false → t.orderReads r .retry .busy ∧ t.plans = s.plans) ∧
      (s.livePlan .turnover ≠ none → t.orderReads r .refused .busy ∧ t.plans = s.plans)) ∧
    (∀ w : Word, 1 ≤ w.toNat → w.toNat ≤ 255 →
      Completes (.cancelPlan r w) s (fun t =>
        (∀ p, s.plan w.toNat = some p → p.live = true → t.orderReads r .done .none ∧ t.resultReads r (b4 p.delivered) ∧
          (∃ q, t.plan w.toNat = some q ∧ q.state = .ended ∧ q.endCause = some .cancelled) ∧
          (p.kind = .dayTopup → t.plans.topupInhibit = true)) ∧
        ((∀ p, s.plan w.toNat = some p → p.live = false) → t.orderReads r .refused .noSuchPlan ∧ t.plans = s.plans)) ∧
      Completes (.readPlan r w) s (fun t => t.plans = s.plans ∧
        (∀ p, s.plan w.toNat = some p → t.orderReads r .done .none ∧ t.resultReads r p.result) ∧
        (s.plan w.toNat = none → t.orderReads r .refused .noSuchPlan)))

/-- START_PUMP and STOP_PUMP (R54, R59, R148): under a MANUAL inlet a pump takes the request START under MANUAL, or HOLD where its hold's
number is given; RUNNING already it is DONE, else in flight, a pump without load claiming; a stop takes the request and, from STARTING
or after `min_run`, the contactor, and is DONE when no feedback is left; a RESTING pump takes
the request STOP and keeps state and load (log 18). Outside SERVICE both are refused. -/
def Obligations.PumpOrders : Prop :=
  ∀ (r : OrderRef) (w k : Word) (n : Fin 4) (s : State), w.toNat = n.val → s.orderReady r → s.handles (.pump n) k.toNat →
    (s.passes ⟨.startPump, r, n.val, true, k.toNat⟩ → (s.pumpSet n).fitted = true → (s.pump n).mode ≠ .failed →
      s.guard.mode.seizes = false → s.act.inlet.owner = .manual → s.act.inlet.releasing = false →
      (s.pump n).owner = .none ∨ (s.pump n).owner = .manual ∨ ((s.pump n).owner = .hold ∧ s.matchedHold (.pump n) = true) →
      Completes (.startPump r w k) s fun t =>
        (t.pump n).request = .start ∧ (t.pump n).owner = (if s.matchedHold (.pump n) then .hold else .manual)
          ∧ t.eng.serviceEnd = some (s.now + 1800) ∧
        ((t.pump n).mode = .running → t.orderReads r .done .none) ∧
        ((t.pump n).mode ≠ .running → s.inFlightNow t .startPump r n.val) ∧
        ((s.pump n).mode = .running → (t.pump n).mode = .running) ∧
        ((s.pump n).claim = .none → (s.pump n).mode = .ready ∨ (s.pump n).mode = .resting ∨ (s.pump n).mode = .retryWait
            ∨ ((s.pump n).mode = .held ∧ s.matchedHold (.pump n) = true) →
          (t.pump n).claim = .claimed ∧ (t.pump n).mode = (s.pump n).mode)) ∧
    (s.passes ⟨.stopPump, r, n.val, true, k.toNat⟩ → (s.pumpSet n).fitted = true →
      (s.pump n).owner = .manual ∨ ((s.pump n).owner = .hold ∧ s.matchedHold (.pump n) = true) → Completes (.stopPump r w k) s fun t =>
        (t.pump n).request ≠ .start ∧
        ((s.pump n).mode = .starting ∨ ((s.pump n).mode = .running ∧ s.ranEnough n = true) → (t.pump n).contactor = false ∧
          ((s.pump n).feedback = false → t.orderReads r .done .none)) ∧
        ((s.pump n).mode = .running → s.ranEnough n = false → (t.pump n).mode = .running ∧ (t.pump n).stopWait = true) ∧
        ((s.pump n).mode = .resting → (t.pump n).mode = .resting ∧ (t.pump n).request = .stop ∧ (t.pump n).claim = (s.pump n).claim) ∧
        ((s.pump n).feedback = true → s.inFlightNow t .stopPump r n.val)) ∧
    (s.eng.access = .normal →
      Completes (.startPump r w k) s (fun t => t.orderReads r .refused .restricted ∧ t.act.pumps = s.act.pumps) ∧
      Completes (.stopPump r w k) s fun t => t.orderReads r .refused .restricted ∧ t.act.pumps = s.act.pumps)

/-- OPEN_INLET and CLOSE_INLET (R50, R54, R149): the inlet passes to MANUAL, or stays HOLD under the hold's number, a plan that had it being
told; the valve is commanded; standing there already the order is DONE (log 21), else in flight, travelling with no pump turning, and a
close waits, commanded, while a MANUAL pump runs out `min_run`. An inlet of the guard is refused GUARD. (A hold that handles the inlet
owns it: `State.guarded`.) A travel begins though its own switch is made already (the model's choice, log 56). -/
def Obligations.InletOrders : Prop :=
  ∀ (r : OrderRef) (k : Word) (s : State), s.orderReady r → s.handles .inlet k.toNat →
    (s.act.inlet.owner = .hold ∨ (s.unheld .inlet ∧
        (s.act.inlet.owner = .none ∨ s.act.inlet.owner = .manual ∨ s.act.inlet.owner.isPlan = true)) → s.act.inlet.calm →
      (s.passes ⟨.openInlet, r, 0, true, k.toNat⟩ → Completes (.openInlet r k) s fun t =>
        t.act.inlet.cmd = some .opened ∧ t.act.inlet.owner = (if s.act.inlet.owner = .hold then .hold else .manual) ∧
        (∀ p, s.act.inlet.owner = .plan p → .actuatorReport p .inletTaken ∈ t.transit) ∧
        ((∀ n, (s.pump n).turning = false) →
          (s.act.inlet.mode = .opened → t.orderReads r .done .none ∧ t.act.inlet.mode = .opened) ∧
          (s.act.inlet.mode ≠ .opened → s.inFlightNow t .openInlet r 0 ∧ t.act.inlet.mode = .opening))) ∧
      (s.passes ⟨.closeInlet, r, 0, true, k.toNat⟩ → s.eng.access = .service ∨ s.unheld .inlet → Completes (.closeInlet r k) s fun t =>
        t.act.inlet.cmd = some .closed ∧ t.act.inlet.owner = (if s.act.inlet.owner = .hold then .hold else .manual) ∧
        (s.act.inlet.mode = .closed → t.orderReads r .done .none) ∧
        (s.act.inlet.mode ≠ .closed → (∀ n, (s.pump n).turning = false) →
          s.inFlightNow t .closeInlet r 0 ∧ t.act.inlet.mode = .closing) ∧
        (s.act.inlet.owner = .manual → s.act.inlet.mode = .opened →
          (∃ n, (s.pump n).owner = .manual ∧ (s.pump n).mode = .running ∧ s.ranEnough n = false) →
          s.inFlightNow t .closeInlet r 0 ∧ t.act.inlet.mode = .opened ∧ t.act.inlet.closeWait = true))) ∧
    (s.act.inlet.owner = .guard → s.unheld .inlet →
      (s.passes ⟨.openInlet, r, 0, true, k.toNat⟩ → Completes (.openInlet r k) s fun t =>
        t.orderReads r .refused .guard ∧ t.act.inlet = s.act.inlet) ∧
      (s.passes ⟨.closeInlet, r, 0, true, k.toNat⟩ → Completes (.closeInlet r k) s fun t =>
        t.orderReads r .refused .guard ∧ t.act.inlet = s.act.inlet))

/-- HOLD_ACTUATOR, RELEASE_HOLD and CLEAR_FAILURE (R47, R57, R58, R60, R150): a hold takes the next number, the order and its deadline; an
actuator that is safe is taken at once, and the order DONE with the number (log 21); else the order is in flight. A pump goes off, its
request discarded, and is HELD; a heater goes off, the frost unit being told, with owner NONE while its current flows and the hold is PENDING
(the model's choice, log 35); the inlet is commanded CLOSED at once with its owner's pumps
off, a plan that owned it being told, and is refused GUARD in a seizure. A hold released is out of the table: its pump RESTING, its
heater READY, its inlet CLOSED under NONE. A hold number that is no hold's is refused. A FAILED pump is RESTING with count 0, a FAILED
heater READY, an inlet in STUCK where its switches show it. A travel begins though its own switch is made already (the model's choice, log
56). -/
def Obligations.HoldOrders : Prop :=
  ∀ (r : OrderRef) (w : Word) (s : State), s.orderReady r → s.eng.access = .service →
    (∀ a, ActId.ofCode w.toNat = some a → s.passes ⟨.holdActuator, r, w.toNat, true, 0⟩ → s.fitted a = true → s.unheld a →
      (∀ e ∈ s.eng.inflight, e.code.names e.target ≠ some a) → s.act.holds.length < Config.holdsMax →
      (a = .inlet → s.guard.mode.seizes = true → Completes (.holdActuator r w) s fun t =>
        t.orderReads r .refused .guard ∧ t.act.inlet = s.act.inlet) ∧
      (a ≠ .inlet ∨ (s.guard.mode.seizes = false ∧ s.act.inlet.owner ≠ .guard) → Completes (.holdActuator r w) s fun t =>
        t.holdOf a = some s.nextHoldNumber ∧
        (∃ h ∈ t.act.holds, h.number = s.nextHoldNumber ∧ h.act = a ∧ h.ref = r ∧ h.requested = s.now
          ∧ h.deadline = s.now + 60 * s.set.holdLifetime) ∧
        (∀ n, a = .pump n → (t.pump n).request = .none ∧
          ((s.pump n).mode = .ready ∨ (s.pump n).mode = .resting ∨ (s.pump n).mode = .failed → (s.pump n).feedback = false →
            (t.pump n).mode = .held ∧ (t.pump n).owner = .hold ∧ t.orderReads r .done .none
              ∧ t.resultReads r (b1 s.nextHoldNumber)) ∧
          ((s.pump n).mode = .starting ∨ (s.pump n).mode = .running → (s.pump n).feedback = true →
            (t.pump n).contactor = false ∧ (t.pump n).mode = .stopping ∧ s.inFlightNow t .holdActuator r w.toNat)) ∧
        (∀ h, a = .heater h → s.heatersOk → (t.heater h).request = .none ∧ (t.heater h).contactor = false
          ∧ .heaterNotice h .held ∈ t.transit ∧
          ((s.heater h).current = false → (t.heater h).mode = .held ∧ (t.heater h).owner = .hold ∧ t.orderReads r .done .none
            ∧ t.resultReads r (b1 s.nextHoldNumber)) ∧
          ((s.heater h).current = true → (t.heater h).owner = .none ∧ s.inFlightNow t .holdActuator r w.toNat)) ∧
        (a = .inlet → t.act.inlet.cmd = some .closed ∧
          (s.pumpsOk → ∀ n, (s.act.inlet.owner ≠ .none ∧ (s.pump n).owner = s.act.inlet.owner)
              ∨ (s.act.inlet.owner = .manual ∧ (s.pump n).owner = .hold) →
            (t.pump n).contactor = false ∧ (t.pump n).request = .none) ∧
          (∀ p, s.act.inlet.owner = .plan p → .actuatorReport p .inletTaken ∈ t.transit) ∧
          (s.act.inlet.mode = .closed → t.act.inlet.owner = .hold ∧ t.orderReads r .done .none
            ∧ t.resultReads r (b1 s.nextHoldNumber)) ∧
          (s.act.inlet.mode ≠ .closed → t.act.inlet.owner = .none ∧ t.act.inlet.mode = .closing
            ∧ s.inFlightNow t .holdActuator r w.toNat)))) ∧
    (∀ h, w.toNat = h.number → 1 ≤ h.number → h.number ≤ 255 →
      s.act.holds.find? (fun x => decide (x.number = h.number)) = some h →
      (∀ x ∈ s.act.holds, x.number ≠ h.number → x.established.isSome = true ∧ x.act ≠ h.act) → Completes (.releaseHold r w) s fun t =>
        t.orderReads r .done .none ∧ (∀ x ∈ t.act.holds, x.number ≠ h.number) ∧ t.holdOf h.act = none ∧
        (∀ n, h.act = .pump n → (t.pump n).owner = .none ∧ (t.pump n).request = .none ∧
          ((s.pump n).mode = .held ∨ (s.pump n).mode = .ready ∨ (s.pump n).mode = .retryWait ∨ (s.pump n).mode = .failed →
            (s.pump n).feedback = false → (t.pump n).mode = .resting)) ∧
        (∀ k, h.act = .heater k → (t.heater k).owner = .none ∧ (t.heater k).contactor = false ∧ (t.heater k).mode = .ready) ∧
        (h.act = .inlet → s.act.inlet.calm → s.act.inlet.owner ≠ .guard → t.act.inlet.owner = .none
          ∧ t.act.inlet.cmd = some .closed)) ∧
    ((∀ x ∈ s.act.holds, x.number ≠ w.toNat) → 1 ≤ w.toNat → w.toNat ≤ 255 → Completes (.releaseHold r w) s fun t =>
      t.orderReads r .refused .noSuchHold ∧ t.act = s.act) ∧
    (∀ a, ActId.ofCode w.toNat = some a → s.unpending a → s.fitted a = true → Completes (.clearFailure r w) s fun t =>
      t.orderReads r .done .none ∧ t.resultReads r (b1 (t.summary a).machine) ∧
      (∀ n, a = .pump n → (s.pump n).mode = .failed →
        (t.pump n).mode = .resting ∧ (t.pump n).tries = 0 ∧ (t.pump n).offEnd = some (s.now + s.set.minOff)) ∧
      (∀ h, a = .heater h → (s.heater h).mode = .failed → (s.heater h).request ≠ .start →
        (t.heater h).mode = .ready ∧ (t.heater h).tries = 0) ∧
      (a = .inlet → s.act.inlet.mode = .stuck → s.act.inlet.calm →
        t.act.inlet.mode = judged s.act.inlet.openLs s.act.inlet.closedLs))

/-- RESET_GUARD, GUARD_TEST, JOURNAL_MARK and FLUSH_JOURNAL (R32, R33, R151, R160): a HELD guard is CLEAR, another is refused NOT_CLEAR; a
test trips a guard that is CLEAR or WATCH with cause TEST alone, adds TEST to one that has seized, and is DONE at once only with the
inlet CLOSED and no feedback; a mark joins the queue with its 16 bytes; a flush closes the open page, being DONE in the event of its
handing (the model's reading, log 21), answers 0 where there is nothing to write, and waits for a page. After RESET_GUARD the inlet's owner
is NONE, or HOLD under a hold, the plan controller is told INLET_FREE and the valve stays where it is. The GUARD_CLEAR of a reset and the
GUARD_TRIP of a test carry the order reference and the last judgement's fields, and join the queue where records wait. -/
def Obligations.GuardAndJournalOrders : Prop :=
  ∀ (r : OrderRef) (s : State), s.orderReady r →
    Completes (.resetGuard r) s (fun t =>
      (s.guard.mode = .held → t.orderReads r .done .none ∧ t.guard.mode = .clear ∧ t.guard.causes = [] ∧ t.guard.first = none
        ∧ t.guard.tripTime = none ∧ t.gtrip = false ∧ .inletFree ∈ t.transit ∧
        (s.unheld .inlet → t.act.inlet.owner = .none) ∧ (s.unpending .inlet → ¬s.unheld .inlet → t.act.inlet.owner = .hold) ∧
        (s.act.inlet.calm → s.unpending .inlet → t.act.inlet.mode = s.act.inlet.mode ∧ t.act.inlet.cmd = s.act.inlet.cmd
          ∧ t.act.inlet.travelDl = s.act.inlet.travelDl) ∧
        (s.recordsWait 6 → s.allEstablished → ∃ l, t.jrn.queue = s.jrn.queue ++ l ∧
          l.filter (fun x => decide (x.kind ≠ .run ∧ x.kind ≠ .planEnd)) = [(⟨.guardClear, s.now, some r, b1 1
            ++ b1 (causeSet s.guard.causes) ++ b1o (s.guard.first.map Cause.code) ++ s.lastQuality ++ b2 s.lastLevel ++ [0, 0]
            ++ bto s.guard.tripTime ++ b4 s.guard.tripSecs⟩ : Rec)])) ∧
      (s.guard.mode ≠ .held → t.orderReads r .refused .notClear ∧ t.guard = s.guard)) ∧
    (s.passes ⟨.guardTest, r, 0, true, 0⟩ → s.pumpsGuarded → Completes (.guardTest r) s fun t =>
      t.gtrip = true ∧ Cause.test ∈ t.guard.causes ∧
      (s.guard.mode = .clear ∨ s.guard.mode = .watch → t.guard.mode = .tripped ∧ t.guard.causes = [.test]
        ∧ t.guard.tripTime = some s.now ∧ t.act.inlet.owner = .guard ∧ t.act.inlet.cmd = some .closed ∧ t.pumpsOff ∧
        (s.recordsWait 6 → s.allEstablished → ∃ l, t.jrn.queue = s.jrn.queue ++ l ∧
          l.filter (fun x => decide (x.kind ≠ .run ∧ x.kind ≠ .planEnd)) = [(⟨.guardTrip, s.now, some r, b1 32 ++ b1 5
            ++ b1 (if s.guard.frostFlag then 2 else 0) ++ b1 s.guard.mode.code ++ s.lastQuality ++ s.lastBand ++ b2 s.lastLevel
            ++ b2 s.guard.effTrip ++ [0, 0]⟩ : Rec)])) ∧
      (s.guard.mode.seizes = true → t.guard.mode = s.guard.mode ∧ (∀ c, c ∈ s.guard.causes → c ∈ t.guard.causes)
        ∧ t.act.inlet = s.act.inlet) ∧
      (s.act.inlet.mode = .closed → (∀ n, (s.pumpSet n).fitted = true → (s.pump n).feedback = false) → t.orderReads r .done .none) ∧
      (s.act.inlet.mode ≠ .closed ∨ (∃ n, (s.pumpSet n).fitted = true ∧ (s.pump n).feedback = true) →
        s.inFlightNow t .guardTest r 0)) ∧
    (∀ host, Completes (.journalMark r host) s fun t => t.orderReads r .done .none ∧
      (s.jrn.opened = none → s.jrn.given = [] → s.jrn.queue.length < Config.queueMax →
        t.jrn.queue = s.jrn.queue ++ [(⟨.mark, s.now, some r, host.toList⟩ : Rec)])) ∧
    (s.passes ⟨.flushJournal, r, 0, true, 0⟩ → (∀ m ∈ s.transit, flushResult r m = none) → Completes (.flushJournal r) s fun t =>
      (s.jrn.opened = none → s.jrn.queue = [] → t.orderReads r .done .none ∧ t.resultReads r (b1 0) ∧ t.jrn = s.jrn) ∧
      (∀ o, s.jrn.opened = some o → s.jrn.queue = [] → s.jrn.starting = false → t.orderReads r .done .none
        ∧ t.resultReads r (b1 o.page.val) ∧ t.jrn.opened = none ∧ (t.entry o.page).state = .journalFull) ∧
      (s.jrn.opened = none → s.jrn.queue ≠ [] → s.jrn.given = [] → s.inFlightNow t .flushJournal r 0 ∧ t.jrn.flush = some r))

/-! ## The journal writer -/

/-- RECORD_ARRIVAL (R154, R155, R157): with no page open and none given the newcomer joins the tail while there is room, evicts the oldest
record of the lowest class below its own, or is lost, each loss counted in its class; with room in the open page and nothing waiting it is
written at once; an alarm raises ALARM. PAGE_OPEN (R156): the head of the given list becomes the open page. JOURNAL_AGE_EXPIRY (R159): an
aged page is closed with the AGED mark, a younger one stays (log 7). In all three the page's header in tower memory holds its fill number,
its record count, the bytes used, the sequence number of its first record and its flags (Table 11-5). -/
def Obligations.WriterWorks : Prop :=
  ∀ s : State, s.sys.held = false →
    (∀ r : Rec, Completes (.recordArrival r) s fun t =>
      (r.kind.cls = 0 → t.port.attn.getLsbD 4 = true) ∧
      (s.jrn.opened = none → s.jrn.given = [] →
        (s.jrn.queue.length < Config.queueMax → t.jrn.queue = s.jrn.queue ++ [r] ∧ t.jrn.gaps = s.jrn.gaps) ∧
        (Config.queueMax ≤ s.jrn.queue.length → (∀ x ∈ s.jrn.queue, x.kind.cls ≤ r.kind.cls) → t.jrn.queue = s.jrn.queue
          ∧ (t.jrn.gaps[r.kind.cls.val]).count = min 65535 ((s.jrn.gaps[r.kind.cls.val]).count + 1)) ∧
        (∀ d ∈ s.jrn.queue, Config.queueMax ≤ s.jrn.queue.length → r.kind.cls < d.kind.cls →
          (∀ x ∈ s.jrn.queue, x.kind.cls ≤ d.kind.cls) → s.jrn.queue.find? (fun x => decide (x.kind.cls = d.kind.cls)) = some d →
          t.jrn.queue = s.jrn.queue.erase d ++ [r]
            ∧ (t.jrn.gaps[d.kind.cls.val]).count = min 65535 ((s.jrn.gaps[d.kind.cls.val]).count + 1))) ∧
      (∀ o, s.jrn.opened = some o → s.jrn.queue = [] → s.jrn.starting = false → s.jrn.flush = none → s.jrn.gapPending = false →
        o.used + r.length ≤ Config.journalBytes → 2 ≤ o.page.val →
        t.jrn.queue = [] ∧ t.jrn.seq = (s.jrn.seq + 1) % 65536 ∧ (∃ o', t.jrn.opened = some o' ∧ o'.page = o.page
          ∧ o'.used = o.used + r.length ∧ o'.records = o.records + 1) ∧
        t.headReads o.page o.fill (o.records + 1) (o.used + r.length) (if o.records = 0 then s.jrn.seq else o.first)
          (if o.gapInside then 1 else 0) ∧
        ∀ i (h : i < (recBytes r s.jrn.seq).length), t.mem.read (addr o.page (8 + o.used + i)) = (recBytes r s.jrn.seq)[i])) ∧
    Completes .pageOpen s (fun t =>
      (∀ p l, s.jrn.opened = none → s.jrn.queue ≠ [] → s.jrn.starting = false → s.jrn.given = p :: l →
        (t.entry p).state = .journalOpen ∨ (t.entry p).state = .journalFull) ∧
      (∀ p l r, s.jrn.opened = none → s.jrn.queue = [r] → s.jrn.starting = false → s.jrn.given = p :: l → s.jrn.flush = none →
        s.jrn.gapPending = false → r.length ≤ Config.journalBytes →
        t.jrn.opened = some ⟨p, s.jrn.fill, 1, r.length, s.jrn.seq, false, some s.now⟩ ∧ t.jrn.given = l ∧ t.jrn.queue = []
          ∧ t.jrn.fill = (s.jrn.fill + 1) % 65536 ∧ t.entry p = ⟨.journalOpen, BitVec.ofNat 8 s.jrn.fill⟩ ∧
          (2 ≤ p.val → t.headReads p s.jrn.fill 1 r.length s.jrn.seq 0)) ∧
      (s.jrn.opened = none → s.jrn.queue = [] → t = { s with transit := s.transit.erase .pageOpen })) ∧
    (∀ o, s.jrn.opened = some o →
      (s.pageAged o = true → s.jrn.queue = [] → 2 ≤ o.page.val → Completes .journalAgeExpiry s fun t =>
        t.jrn.opened = none ∧ (t.entry o.page).state = .journalFull ∧
          t.headReads o.page o.fill o.records o.used o.first (if o.gapInside then 5 else 4)
          ∧ t.port.attn.getLsbD 1 = true) ∧
      (s.pageAged o = false → Completes .journalAgeExpiry s fun t => t = { s with transit := s.transit.erase .journalAgeExpiry }))

/-- RECORD_ARRIVAL at the edges of the writer's work (R155, R157, R158, R161), a record longer than no page being meant. A pending GAP that
fits the open page is written in front of the record, with the reset mark, the counts and times of the losses and the next sequence
number, and mark, counts and times return to their start; where the record then does not fit any more, the GAP is the last of its page,
and the record waits for the next. Where the GAP, or the record, does not fit, the page is closed, JOURNAL_FULL without FLUSHED or AGED,
JOURNAL is raised, and the record waits for the next page: it is written into the next given page, a pending GAP in front of it, or, with
none given, stays in the queue and a shortage begins. The header of each page written to holds Table 11-5's fields. A shortage that begins
raises PAGE_WANT and is marked; while it is marked PAGE_WANT is not raised again. -/
def Obligations.JournalFitsAndGaps : Prop :=
  ∀ (r : Rec) (s : State), s.sys.held = false → s.jrn.starting = false → s.jrn.flush = none → r.kind.cls ≠ 0 →
    (∀ o, s.jrn.opened = some o → s.jrn.queue = [] → 2 ≤ o.page.val →
      (s.jrn.gapPending = true → o.used + 40 + r.length ≤ 248 → Completes (.recordArrival r) s fun t =>
        t.jrn.queue = [] ∧ t.jrn.gaps = Vector.replicate 3 ⟨0, 0, 0⟩ ∧ t.jrn.resetMark = false ∧ t.jrn.seq = (s.jrn.seq + 2) % 65536 ∧
        (∃ u, t.jrn.opened = some u ∧ u.page = o.page ∧ u.records = o.records + 2 ∧ u.used = o.used + 40 + r.length
          ∧ u.gapInside = true) ∧
        t.headReads o.page o.fill (o.records + 2) (o.used + 40 + r.length) (if o.records = 0 then s.jrn.seq else o.first) 1 ∧
        (∀ bs : List Byte, bs = recBytes ⟨.gap, s.now, none, b1 (if s.jrn.resetMark then 1 else 0) ++ [0]
            ++ s.jrn.gaps.toList.flatMap (fun g => b2 g.count) ++ s.jrn.gaps.toList.flatMap (fun g => bt g.first ++ bt g.last)⟩ s.jrn.seq →
          bs.length = 40 ∧ ∀ i (h : i < bs.length), t.mem.read (addr o.page (8 + o.used + i)) = bs[i]) ∧
        ∀ i (h : i < (recBytes r ((s.jrn.seq + 1) % 65536)).length),
          t.mem.read (addr o.page (48 + o.used + i)) = (recBytes r ((s.jrn.seq + 1) % 65536))[i]) ∧
      (s.jrn.gapPending = true → o.used + 40 ≤ 248 → 248 < o.used + 40 + r.length → Completes (.recordArrival r) s fun t =>
        t.jrn.gaps = Vector.replicate 3 ⟨0, 0, 0⟩ ∧ t.jrn.resetMark = false ∧ (t.entry o.page).state = .journalFull ∧
        t.headReads o.page o.fill (o.records + 1) (o.used + 40) (if o.records = 0 then s.jrn.seq else o.first) 1 ∧
        (s.jrn.given = [] → t.jrn.opened = none ∧ t.jrn.queue = [r] ∧ t.jrn.shortage = true ∧ t.jrn.seq = (s.jrn.seq + 1) % 65536) ∧
        (∀ p l, s.jrn.given = p :: l → p ≠ o.page → 2 ≤ p.val → r.length ≤ 248 →
          t.jrn.queue = [] ∧ t.jrn.given = l ∧ (t.entry p).state = .journalOpen ∧ t.jrn.seq = (s.jrn.seq + 2) % 65536 ∧
          (∃ u, t.jrn.opened = some u ∧ u.page = p ∧ u.records = 1 ∧ u.used = r.length ∧ u.gapInside = false) ∧
          t.headReads p s.jrn.fill 1 r.length ((s.jrn.seq + 1) % 65536) 0)) ∧
      ((s.jrn.gapPending = true ∧ 248 < o.used + 40) ∨ (s.jrn.gapPending = false ∧ 248 < o.used + r.length) →
        Completes (.recordArrival r) s fun t =>
          (s.jrn.given = [] → t.jrn.opened = none ∧ t.jrn.queue = [r] ∧ t.jrn.shortage = true ∧ t.jrn.gaps = s.jrn.gaps
            ∧ (t.entry o.page).state = .journalFull
            ∧ t.headReads o.page o.fill o.records o.used o.first (if o.gapInside then 1 else 0)
            ∧ t.port.attn.getLsbD 1 = true ∧ (s.jrn.shortage = false → t.port.attn.getLsbD 2 = true)) ∧
          (∀ p l, s.jrn.given = p :: l → s.jrn.gapPending = false → p ≠ o.page → 2 ≤ p.val → r.length ≤ 248 →
            t.jrn.queue = [] ∧ t.jrn.given = l ∧ (∃ u, t.jrn.opened = some u ∧ u.page = p ∧ u.records = 1 ∧ u.used = r.length
              ∧ u.first = s.jrn.seq ∧ u.fill = s.jrn.fill) ∧ t.headReads p s.jrn.fill 1 r.length s.jrn.seq 0 ∧
            (t.entry o.page).state = .journalFull ∧ (t.entry p).state = .journalOpen) ∧
          (∀ p l, s.jrn.given = p :: l → s.jrn.gapPending = true → p ≠ o.page → 2 ≤ p.val → 40 + r.length ≤ 248 →
            t.jrn.queue = [] ∧ t.jrn.given = l ∧ t.jrn.gaps = Vector.replicate 3 ⟨0, 0, 0⟩ ∧ t.jrn.resetMark = false ∧
            (∃ u, t.jrn.opened = some u ∧ u.page = p ∧ u.records = 2 ∧ u.used = 40 + r.length ∧ u.first = s.jrn.seq ∧ u.gapInside = true) ∧
            t.headReads p s.jrn.fill 2 (40 + r.length) s.jrn.seq 1 ∧ (t.entry o.page).state = .journalFull
              ∧ (t.entry p).state = .journalOpen))) ∧
    (s.jrn.opened = none → s.jrn.given = [] → s.jrn.queue.length < 24 → Completes (.recordArrival r) s fun t =>
      t.jrn.queue = s.jrn.queue ++ [r] ∧ t.jrn.shortage = true ∧
      (s.jrn.shortage = false → t.port.attn.getLsbD 2 = true ∧ (t.port.detail[2]).count = ((s.port.detail[2]).count + 1) % 65536) ∧
      (s.jrn.shortage = true → t.port = s.port))

/-! ## Power and start-up -/

/-- MAINS_LOSS, MAINS_RESTORE and STAGGER_END (R168, R171): in RUN the loss makes the part DARK, abandons a stagger and goes to the four
blocks; in another state the input is noted alone (log 40). A DARK part comes to RUN with RESTART raised, the stagger begun, and the
return passed on, or to DARK again where the input has fallen already, its loss waiting next (log 54). A part that becomes DARK makes a
POWER record, one that the mains wake a START record of cause MAINS, where records wait in the queue. At the end of the stagger, and not
before (log 7), cause POWER clears, and a pump that waited for it alone begins its try. ACTUATOR_MAINS_LOSS and ACTUATOR_MAINS_RESTORE
(R61): at the loss every contactor is off, no request and no load is left, pumps in motion or at rest are RESTING with `min_off` waived,
FAILED and READY stay, the try count of a pump not FAILED is 0, each RUNNING pump makes its RUN stop record of cause POWER, heaters in
STARTING, ON and RETRY_WAIT are READY, their owner as it was, a plan or MANUAL loses the inlet, the guard and a hold keep it, commanded
CLOSED; at the restore those pumps are READY, and a valve at rest is judged from its switches and driven CLOSED for the guard or a hold. A
travel begins though its own switch is made already (the model's choice, log 56). -/
def Obligations.MainsAndStagger : Prop :=
  (∀ s : State, s.sys.held = false →
    Completes .mainsLoss s (fun t => t.sys.mains = false ∧
      (s.sys.power = .run → t.sys.power = .dark ∧ t.sys.stagger = none ∧ t.port.attn.getLsbD 4 = true ∧
        (s.recordsWait 1 → t.jrn.queue = s.jrn.queue ++ [(⟨.power, s.now, none, [0, 0, 0, 0]⟩ : Rec)]) ∧
        ∃ l, t.transit = l ++ [.actuatorMainsLoss, .arbiterMainsLoss, .planMainsLoss, .orderMainsLoss]) ∧
      (s.sys.power ≠ .run → t = { s with sys := { s.sys with mains := false } })) ∧
    (∀ l, s.pending = .mainsLoss :: l → Completes .mainsRestore s fun t =>
      (s.sys.power = .dark → t.sys.power = .dark ∧ t.sys.mains = false ∧ t.sys.stagger = none ∧ t.port.attn.getLsbD 5 = true ∧
        (s.recordsWait 2 → t.jrn.queue = s.jrn.queue ++ [(⟨.start, s.now, none, b1 2 ++ b1 s.sys.source.code ++ [0, 0]
          ++ b2 s.set.siteNumber ++ [0, 0]⟩ : Rec), (⟨.power, s.now, none, [0, 0, 0, 0]⟩ : Rec)]) ∧
        ∃ l, t.transit = l ++ [.actuatorMainsLoss, .arbiterMainsLoss, .planMainsLoss, .orderMainsLoss]) ∧
      (s.sys.power ≠ .dark → t = { s with sys := { s.sys with mains := true } })) ∧
    ((∀ l, s.pending ≠ .mainsLoss :: l) → Completes .mainsRestore s fun t => t.sys.mains = true ∧
      (s.sys.power = .dark → t.sys.power = .run ∧ t.port.attn.getLsbD 5 = true ∧ .actuatorMainsRestore ∈ t.transit ∧
        (s.recordsWait 10 → ∃ l, t.jrn.queue = s.jrn.queue ++ (⟨.start, s.now, none, b1 2 ++ b1 s.sys.source.code ++ [0, 0]
          ++ b2 s.set.siteNumber ++ [0, 0]⟩ : Rec) :: l) ∧
        t.sys.stagger = if s.set.restartStagger = 0 then none else some (s.now + s.set.restartStagger)) ∧
      (s.sys.power ≠ .dark → t = { s with sys := { s.sys with mains := true } })) ∧
    (s.due s.sys.stagger = true → Completes .staggerEnd s fun t => t.sys.stagger = none ∧
      (s.livePlan .turnover = none → ∀ p ∈ s.planList, p.pause = some .power → { p with cleared := true } ∈ t.planList) ∧
      (∀ n, s.act.inlet.calm → s.allEstablished → ({ s with sys := { s.sys with stagger := none } } : State).mayTry n →
        (t.pump n).contactor = true)) ∧
    (s.due s.sys.stagger = false → Completes .staggerEnd s fun t => t = { s with transit := s.transit.erase .staggerEnd })) ∧
  (∀ s : State, s.sys.held = false →
    (Completes .actuatorMainsLoss s fun t =>
      (∀ n, (t.pump n).contactor = false ∧ (t.pump n).request = .none ∧ (t.pump n).claim = .none) ∧
      (∀ n, s.unheld (.pump n) → ((t.pump n).owner = if (s.pump n).owner = .hold then .hold else .none) ∧
        ((s.pump n).mode = .starting ∨ (s.pump n).mode = .running ∨ (s.pump n).mode = .stopping ∨ (s.pump n).mode = .retryWait
          ∨ (s.pump n).mode = .resting → (t.pump n).mode = .resting ∧ (t.pump n).offWaived = true) ∧
        ((s.pump n).mode = .ready ∨ (s.pump n).mode = .failed ∨ (s.pump n).mode = .stuckOn ∨ (s.pump n).mode = .held →
          (t.pump n).mode = (s.pump n).mode) ∧
        ((s.pump n).mode ≠ .failed → (t.pump n).tries = 0) ∧ ((s.pump n).mode = .failed → (t.pump n).tries = (s.pump n).tries)) ∧
      (∀ h, (t.heater h).contactor = false ∧ (t.heater h).request = .none ∧ (t.heater h).claim = .none) ∧
      (∀ h, s.unheld (.heater h) → (t.heater h).owner = (s.heater h).owner ∧
        ((s.heater h).mode = .starting ∨ (s.heater h).mode = .on ∨ (s.heater h).mode = .retryWait → (t.heater h).mode = .ready) ∧
        ((s.heater h).mode = .ready ∨ (s.heater h).mode = .failed ∨ (s.heater h).mode = .held →
          (t.heater h).mode = (s.heater h).mode)) ∧
      (s.recordsWait 6 → s.allEstablished → ∃ l, t.jrn.queue = s.jrn.queue ++ l ∧ l.filter (fun r => decide (r.kind ≠ .planEnd)) =
        four.filterMap fun n => if (s.pump n).mode = .running then (s.pump n).runSince.map fun since =>
          (⟨.run, s.now, none, b1 n.val ++ b1 1 ++ b1 2 ++ [0] ++ b4 (s.now - since).toNat⟩ : Rec) else none) ∧
      (s.act.inlet.owner = .guard ∨ s.act.inlet.owner = .hold → t.act.inlet.owner = s.act.inlet.owner) ∧
      (s.act.inlet.owner = .guard ∨ s.act.inlet.owner = .hold ∨ s.act.inlet.hold ≠ none → t.act.inlet.cmd = some .closed) ∧
      (s.act.inlet.owner.isPlan = true ∨ s.act.inlet.owner = .manual → s.unpending .inlet →
        t.act.inlet.owner = .none ∧ (s.act.inlet.hold = none → t.act.inlet.cmd = none)) ∧
      t.act.inlet.mode = (if s.act.inlet.mode = .opening ∨ s.act.inlet.mode = .closing then .midway else s.act.inlet.mode)) ∧
    (Completes .actuatorMainsRestore s fun t =>
      (∀ n, s.unheld (.pump n) → (s.pump n).mode = .resting → (s.pump n).offWaived = true → (s.pump n).request ≠ .start →
        (s.pump n).feedback = false → (t.pump n).mode = .ready) ∧
      (s.act.inlet.calm → s.unpending .inlet → s.act.inlet.mode ≠ .opening → s.act.inlet.mode ≠ .closing →
        (s.act.inlet.owner ≠ .guard → s.unheld .inlet →
          t.act.inlet.mode = judged s.act.inlet.openLs s.act.inlet.closedLs) ∧
        (s.act.inlet.owner = .guard ∨ ¬s.unheld .inlet → s.drives = true → judged s.act.inlet.openLs s.act.inlet.closedLs ≠ .closed →
          t.act.inlet.mode = .closing ∧ t.act.inlet.travelDl = some (s.now + s.set.travelLimit)))))

/-- COLD_START, PIN_RESET and RESET_INPUT_ASSERTED (R28, R37, R43, R64, R65, R72, R82, R126, R167 to R169): the reset empties holds, claims,
grants, plans, queue and the messages on their way (log 4), clears the guard, leaves no band, and switches every contactor off, keeping
clock and run minutes, and counting the records lost with the queue in their classes, with the time of the assertion (the model's reading,
log 61); the power state is START from the assertion on (the model's, log 63); a second assertion finds the part held already and does
nothing (log 8). A start-up ends with the map open, in RUN with mains and DARK without, LOCAL by its input, STANDBY by its straps, RESTART
raised; a cold start leaves the clock 0 and UNSET, a pin reset the clock and the run minutes as they were, and a SERVICE that KEY opened
while the part was held. A start-up that a pin reset cuts short, at whichever step (the model's form, log 53), leaves the part held in
reset with nothing taken, queued or on its way. -/
def Obligations.ResetsAndStarts : Prop :=
  (∀ s : State, s.sys.held = false → Completes .resetInputAsserted s fun t =>
    t.sys.held = true ∧ t.sys.power = .start ∧ t.sys.started = false ∧ t.port.mapReady = false ∧ t.pumpsOff ∧ t.gtrip = false
      ∧ t.act.holds = [] ∧ t.arb.claims = [] ∧ t.arb.grants = [] ∧ t.planList = [] ∧ t.jrn.queue = [] ∧ t.jrn.opened = none
      ∧ t.jrn.resetMark = true ∧ t.eng.taken = [] ∧ t.eng.inflight = [] ∧ t.transit = [] ∧ t.cal.band = none ∧ t.cal.window = none
      ∧ t.eng.access = (if s.sys.localIn then .localControl else .normal)
      ∧ t.cal.count = s.cal.count ∧ t.cal.set = s.cal.set ∧ (∀ n, (t.pump n).minutes = (s.pump n).minutes)
      ∧ t.jrn.seq = s.jrn.seq ∧ t.jrn.fill = s.jrn.fill
      ∧ ∀ k : Fin 3, let lost := (s.jrn.queue.filter fun r => decide (r.kind.cls = k)).length
        (lost = 0 → t.jrn.gaps[k.val] = s.jrn.gaps[k.val]) ∧
        (0 < lost → (s.jrn.gaps[k.val]).count ≤ 65535 → t.jrn.gaps[k.val] = ⟨min 65535 ((s.jrn.gaps[k.val]).count + lost),
          if (s.jrn.gaps[k.val]).count = 0 then s.now else (s.jrn.gaps[k.val]).first, s.now⟩)) ∧
  (∀ s : State, s.sys.held = true → Completes .resetInputAsserted s fun t => t = s) ∧
  (∀ (x : StartInputs) (s : State) (c : Instr), c = .coldStart x ∨ c = .pinReset x → x.cut = none → Completes c s fun t =>
    t.sys.held = false ∧ t.sys.started = true ∧ t.port.mapReady = true ∧ t.port.attn.getLsbD 5 = true
      ∧ t.sys.power = (if x.mains then .run else .dark) ∧ t.sys.mains = x.mains ∧ t.sys.localIn = x.localIn
      ∧ t.sys.standby = decide (2 ≤ x.startsel.val) ∧ (∃ b, t.cal.band = some b)
      ∧ (x.localIn = true → t.eng.access = .localControl)
      ∧ (c = .coldStart x → t.cal.count = 0 ∧ t.cal.set = false ∧ t.sys.stagger = none ∧ (∀ n, (t.pump n).minutes = 0) ∧
        (x.localIn = false → t.eng.access = .normal))
      ∧ (c = .pinReset x → t.cal.count = s.cal.count ∧ t.cal.set = s.cal.set ∧ (∀ n, (t.pump n).minutes = (s.pump n).minutes) ∧
        (x.localIn = false → t.eng.access = if s.sys.held = true ∧ s.eng.access = .service then .service else .normal) ∧
        (x.mains = true → t.sys.stagger = if t.set.restartStagger = 0 then none else some (s.now + t.set.restartStagger)))) ∧
  ∀ (x : StartInputs) (k : StartCut) (s : State) (c : Instr), c = .coldStart x ∨ c = .pinReset x → x.cut = some k →
    Completes c s fun t => t.sys.held = true ∧ t.sys.power = .start ∧ t.sys.started = false ∧ t.port.mapReady = false ∧ t.pumpsOff
      ∧ t.gtrip = false ∧ t.eng.taken = [] ∧ t.eng.submitted = [] ∧ t.jrn.given = [] ∧ t.jrn.queue = [] ∧ t.transit = []
      ∧ (c = .coldStart x → t.cal.count = 0 ∧ t.cal.set = false) ∧ (c = .pinReset x → t.cal.count = s.cal.count ∧ t.cal.set = s.cal.set)

/-- The repair of the page map at a start-up over a KEPT memory (R133, R169, R170): the entries are taken in page order. A TAKEN page: its
orders in NEW or IN_FLIGHT are ABORTED RESET, its other orders stay, it is ANSWERED with status 1 and the time, its sequence byte kept,
and ANSWER raised; with a bad order count every order is NOT_RUN and the status 2. A JOURNAL_OPEN page is JOURNAL_FULL with RESET_CLOSED,
JOURNAL raised. A SUBMITTED page joins the list by the distance of its sequence byte from the last taken one, ties to the earlier page; a
JOURNAL_GIVEN page the given pages. Other pages stay. The map is then ready. So a start-up that is not cut short leaves no page TAKEN or
JOURNAL_OPEN that the memory held so: it is ANSWERED or JOURNAL_FULL. The entries that hold no code their page can have are corrected, the
others stand. A memory without the format word is INITIALIZED: page 0 FIXED and FREE, the board page cleared, the word written, pages 2 on
as they were. And the START record counts the pages corrected and repaired (0 in an INITIALIZED memory), where no page is given and no KEY
was written while the part was held. -/
def Obligations.StartRepairsPages : Prop :=
  (∀ (p : Page) (s : State), 4 ≤ p.val →
    ((s.entry p).state = .taken → let u := s.repairPage p
      (u.entry p).state = .answered ∧ (u.entry p).seq = (s.entry p).seq ∧ u.port.attn.getLsbD 0 = true ∧
      u.full p 4 = (s.now % 4294967296).toNat ∧
      (s.countGood p → u.byte p 3 = 1 ∧ ∀ k : Fin 7,
        (k.val < s.orderCount p → s.orderStatus p k.val ≤ 1 → u.orderReads ⟨p, k⟩ .aborted .reset) ∧
        (s.orderCount p ≤ k.val ∨ 1 < s.orderStatus p k.val → u.orderStatus p k.val = s.orderStatus p k.val)) ∧
      (¬s.countGood p → u.byte p 3 = 2 ∧ ∀ k : Fin 7, u.orderReads ⟨p, k⟩ .notRun .none)) ∧
    ((s.entry p).state = .journalOpen → let u := s.repairPage p
      (u.entry p).state = .journalFull ∧ (u.entry p).seq = (s.entry p).seq ∧ u.mem.read (addr p 6) = s.mem.read (addr p 6) ||| 8
        ∧ u.port.attn.getLsbD 1 = true) ∧
    ((s.entry p).state = .submitted → ∃ a b, s.eng.submitted = a ++ b ∧
      s.repairPage p = { s with eng := { s.eng with submitted := a ++ p :: b } } ∧
      (∀ q ∈ a, ((s.entry q).seq - s.eng.lastTaken).toNat ≤ ((s.entry p).seq - s.eng.lastTaken).toNat) ∧
      (∀ q, b.head? = some q → ((s.entry p).seq - s.eng.lastTaken).toNat < ((s.entry q).seq - s.eng.lastTaken).toNat)) ∧
    ((s.entry p).state = .journalGiven → s.repairPage p = { s with jrn := { s.jrn with given := s.jrn.given ++ [p] } }) ∧
    ((s.entry p).state ≠ .taken → (s.entry p).state ≠ .journalOpen → (s.entry p).state ≠ .submitted →
      (s.entry p).state ≠ .journalGiven → s.repairPage p = s)) ∧
  (∀ s : State, s.startStep3 =
    let u := overAll (List.finRange 128) State.repairPage s
    ({ u with port := { u.port with mapReady := true }, jrn := { u.jrn with starting := false } } : State).writer) ∧
  ∀ (x : StartInputs) (s : State) (c : Instr), c = .coldStart x ∨ c = .pinReset x → x.cut = none → s.heldShut →
    let code (p : Page) : Nat := (s.mem.read (2 * p.val)).toNat
    let seq (p : Page) : Byte := s.mem.read (2 * p.val + 1)
    let started (t : State) (memory count : Nat) : Rec := ⟨.start, t.now, none, b1 (if c = .coldStart x then 0 else 1)
      ++ b1 t.sys.source.code ++ b1 memory ++ b1 count ++ b2 t.set.siteNumber ++ [0, 0]⟩
    (s.wordAt 128 = 0x4E5A → Completes c s fun t =>
      (∀ p : Page, p.val < 4 → t.entry p = ⟨.fixed, if code p = 8 then seq p else 0⟩) ∧
      (∀ p : Page, 4 ≤ p.val → (code p = 3 → t.entry p = ⟨.answered, seq p⟩) ∧ (code p = 6 → t.entry p = ⟨.journalFull, seq p⟩) ∧
        (8 ≤ code p → t.entry p = ⟨.free, 0⟩) ∧
        (code p = 0 ∨ code p = 1 ∨ code p = 2 ∨ code p = 4 ∨ code p = 7 → (t.entry p).state.code = code p ∧ (t.entry p).seq = seq p)) ∧
      ((∀ p : Page, 4 ≤ p.val → code p ≠ 5) → (s.sys.held = true → s.jrn.queue = []) →
        started t 0 ((List.finRange 128).filter fun p => if p.val < 4 then decide (code p ≠ 8)
          else decide (code p = 3 ∨ code p = 6 ∨ 8 ≤ code p)).length ∈ t.jrn.queue)) ∧
    (s.wordAt 128 ≠ 0x4E5A → Completes c s fun t => t.wordAt 128 = 0x4E5A ∧ t.port.protect = ⟨false, 0, 0, .none, 0, 0⟩ ∧
      t.port.board = none ∧ t.port.detail[0] = ⟨0, 0, 0⟩ ∧ t.port.detail[1] = ⟨0, 0, 0⟩ ∧ t.port.detail[3] = ⟨0, 0, 0⟩ ∧
      (∀ p : Page, t.entry p = ⟨if p.val < 4 then .fixed else .free, 0⟩ ∧ t.mem.read (2 * p.val) = (if p.val < 4 then 8 else 0)
        ∧ t.mem.read (2 * p.val + 1) = 0) ∧
      (∀ i, 64 ≤ i → i < 256 → t.mem.read (addr boardPage i) = 0) ∧ (∀ a, 512 ≤ a → t.mem.read a = s.mem.read a) ∧
      ((s.sys.held = true → s.jrn.queue = []) → started t 1 0 ∈ t.jrn.queue))

end
end

