-- ==== Sys2Proof/Laws/State.lean ====
section
/-! SUPPORT. One lemma per field per update of the state, each true by computation: what an update leaves alone. -/

namespace Sys2Proof.Machine

variable (s : State)

/-! ### State.post -/
@[simp] theorem State.post_mem (m : Instr) : (s.post m).mem = s.mem := rfl
@[simp] theorem State.post_port (m : Instr) : (s.post m).port = s.port := rfl
@[simp] theorem State.post_survey (m : Instr) : (s.post m).survey = s.survey := rfl
@[simp] theorem State.post_guard (m : Instr) : (s.post m).guard = s.guard := rfl
@[simp] theorem State.post_act (m : Instr) : (s.post m).act = s.act := rfl
@[simp] theorem State.post_cal (m : Instr) : (s.post m).cal = s.cal := rfl
@[simp] theorem State.post_arb (m : Instr) : (s.post m).arb = s.arb := rfl
@[simp] theorem State.post_plans (m : Instr) : (s.post m).plans = s.plans := rfl
@[simp] theorem State.post_frost (m : Instr) : (s.post m).frost = s.frost := rfl
@[simp] theorem State.post_eng (m : Instr) : (s.post m).eng = s.eng := rfl
@[simp] theorem State.post_jrn (m : Instr) : (s.post m).jrn = s.jrn := rfl
@[simp] theorem State.post_sys (m : Instr) : (s.post m).sys = s.sys := rfl
@[simp] theorem State.post_pending (m : Instr) : (s.post m).pending = s.pending := rfl

/-! ### State.posts -/
@[simp] theorem State.posts_mem (l : List Instr) : (s.posts l).mem = s.mem := rfl
@[simp] theorem State.posts_port (l : List Instr) : (s.posts l).port = s.port := rfl
@[simp] theorem State.posts_survey (l : List Instr) : (s.posts l).survey = s.survey := rfl
@[simp] theorem State.posts_guard (l : List Instr) : (s.posts l).guard = s.guard := rfl
@[simp] theorem State.posts_act (l : List Instr) : (s.posts l).act = s.act := rfl
@[simp] theorem State.posts_cal (l : List Instr) : (s.posts l).cal = s.cal := rfl
@[simp] theorem State.posts_arb (l : List Instr) : (s.posts l).arb = s.arb := rfl
@[simp] theorem State.posts_plans (l : List Instr) : (s.posts l).plans = s.plans := rfl
@[simp] theorem State.posts_frost (l : List Instr) : (s.posts l).frost = s.frost := rfl
@[simp] theorem State.posts_eng (l : List Instr) : (s.posts l).eng = s.eng := rfl
@[simp] theorem State.posts_jrn (l : List Instr) : (s.posts l).jrn = s.jrn := rfl
@[simp] theorem State.posts_sys (l : List Instr) : (s.posts l).sys = s.sys := rfl
@[simp] theorem State.posts_pending (l : List Instr) : (s.posts l).pending = s.pending := rfl

/-! ### State.unpost -/
@[simp] theorem State.unpost_mem (m : Instr) : (s.unpost m).mem = s.mem := rfl
@[simp] theorem State.unpost_port (m : Instr) : (s.unpost m).port = s.port := rfl
@[simp] theorem State.unpost_survey (m : Instr) : (s.unpost m).survey = s.survey := rfl
@[simp] theorem State.unpost_guard (m : Instr) : (s.unpost m).guard = s.guard := rfl
@[simp] theorem State.unpost_act (m : Instr) : (s.unpost m).act = s.act := rfl
@[simp] theorem State.unpost_cal (m : Instr) : (s.unpost m).cal = s.cal := rfl
@[simp] theorem State.unpost_arb (m : Instr) : (s.unpost m).arb = s.arb := rfl
@[simp] theorem State.unpost_plans (m : Instr) : (s.unpost m).plans = s.plans := rfl
@[simp] theorem State.unpost_frost (m : Instr) : (s.unpost m).frost = s.frost := rfl
@[simp] theorem State.unpost_eng (m : Instr) : (s.unpost m).eng = s.eng := rfl
@[simp] theorem State.unpost_jrn (m : Instr) : (s.unpost m).jrn = s.jrn := rfl
@[simp] theorem State.unpost_sys (m : Instr) : (s.unpost m).sys = s.sys := rfl
@[simp] theorem State.unpost_pending (m : Instr) : (s.unpost m).pending = s.pending := rfl

/-! ### State.tellPlan -/
@[simp] theorem State.tellPlan_mem (o : Owner) (r : Report) : (s.tellPlan o r).mem = s.mem := by cases o <;> rfl
@[simp] theorem State.tellPlan_port (o : Owner) (r : Report) : (s.tellPlan o r).port = s.port := by cases o <;> rfl
@[simp] theorem State.tellPlan_survey (o : Owner) (r : Report) : (s.tellPlan o r).survey = s.survey := by cases o <;> rfl
@[simp] theorem State.tellPlan_guard (o : Owner) (r : Report) : (s.tellPlan o r).guard = s.guard := by cases o <;> rfl
@[simp] theorem State.tellPlan_act (o : Owner) (r : Report) : (s.tellPlan o r).act = s.act := by cases o <;> rfl
@[simp] theorem State.tellPlan_cal (o : Owner) (r : Report) : (s.tellPlan o r).cal = s.cal := by cases o <;> rfl
@[simp] theorem State.tellPlan_arb (o : Owner) (r : Report) : (s.tellPlan o r).arb = s.arb := by cases o <;> rfl
@[simp] theorem State.tellPlan_plans (o : Owner) (r : Report) : (s.tellPlan o r).plans = s.plans := by cases o <;> rfl
@[simp] theorem State.tellPlan_frost (o : Owner) (r : Report) : (s.tellPlan o r).frost = s.frost := by cases o <;> rfl
@[simp] theorem State.tellPlan_eng (o : Owner) (r : Report) : (s.tellPlan o r).eng = s.eng := by cases o <;> rfl
@[simp] theorem State.tellPlan_jrn (o : Owner) (r : Report) : (s.tellPlan o r).jrn = s.jrn := by cases o <;> rfl
@[simp] theorem State.tellPlan_sys (o : Owner) (r : Report) : (s.tellPlan o r).sys = s.sys := by cases o <;> rfl
@[simp] theorem State.tellPlan_pending (o : Owner) (r : Report) : (s.tellPlan o r).pending = s.pending := by cases o <;> rfl

/-! ### State.tellPumps -/
@[simp] theorem State.tellPumps_mem (o : Owner) (c : PumpChange) : (s.tellPumps o c).mem = s.mem := by cases o <;> rfl
@[simp] theorem State.tellPumps_port (o : Owner) (c : PumpChange) : (s.tellPumps o c).port = s.port := by cases o <;> rfl
@[simp] theorem State.tellPumps_survey (o : Owner) (c : PumpChange) : (s.tellPumps o c).survey = s.survey := by cases o <;> rfl
@[simp] theorem State.tellPumps_guard (o : Owner) (c : PumpChange) : (s.tellPumps o c).guard = s.guard := by cases o <;> rfl
@[simp] theorem State.tellPumps_act (o : Owner) (c : PumpChange) : (s.tellPumps o c).act = s.act := by cases o <;> rfl
@[simp] theorem State.tellPumps_cal (o : Owner) (c : PumpChange) : (s.tellPumps o c).cal = s.cal := by cases o <;> rfl
@[simp] theorem State.tellPumps_arb (o : Owner) (c : PumpChange) : (s.tellPumps o c).arb = s.arb := by cases o <;> rfl
@[simp] theorem State.tellPumps_plans (o : Owner) (c : PumpChange) : (s.tellPumps o c).plans = s.plans := by cases o <;> rfl
@[simp] theorem State.tellPumps_frost (o : Owner) (c : PumpChange) : (s.tellPumps o c).frost = s.frost := by cases o <;> rfl
@[simp] theorem State.tellPumps_eng (o : Owner) (c : PumpChange) : (s.tellPumps o c).eng = s.eng := by cases o <;> rfl
@[simp] theorem State.tellPumps_jrn (o : Owner) (c : PumpChange) : (s.tellPumps o c).jrn = s.jrn := by cases o <;> rfl
@[simp] theorem State.tellPumps_sys (o : Owner) (c : PumpChange) : (s.tellPumps o c).sys = s.sys := by cases o <;> rfl
@[simp] theorem State.tellPumps_pending (o : Owner) (c : PumpChange) : (s.tellPumps o c).pending = s.pending := by cases o <;> rfl

/-! ### State.tellFrost -/
@[simp] theorem State.tellFrost_mem (h : Fin 4) (k : Notice) : (s.tellFrost h k).mem = s.mem := rfl
@[simp] theorem State.tellFrost_port (h : Fin 4) (k : Notice) : (s.tellFrost h k).port = s.port := rfl
@[simp] theorem State.tellFrost_survey (h : Fin 4) (k : Notice) : (s.tellFrost h k).survey = s.survey := rfl
@[simp] theorem State.tellFrost_guard (h : Fin 4) (k : Notice) : (s.tellFrost h k).guard = s.guard := rfl
@[simp] theorem State.tellFrost_act (h : Fin 4) (k : Notice) : (s.tellFrost h k).act = s.act := rfl
@[simp] theorem State.tellFrost_cal (h : Fin 4) (k : Notice) : (s.tellFrost h k).cal = s.cal := rfl
@[simp] theorem State.tellFrost_arb (h : Fin 4) (k : Notice) : (s.tellFrost h k).arb = s.arb := rfl
@[simp] theorem State.tellFrost_plans (h : Fin 4) (k : Notice) : (s.tellFrost h k).plans = s.plans := rfl
@[simp] theorem State.tellFrost_frost (h : Fin 4) (k : Notice) : (s.tellFrost h k).frost = s.frost := rfl
@[simp] theorem State.tellFrost_eng (h : Fin 4) (k : Notice) : (s.tellFrost h k).eng = s.eng := rfl
@[simp] theorem State.tellFrost_jrn (h : Fin 4) (k : Notice) : (s.tellFrost h k).jrn = s.jrn := rfl
@[simp] theorem State.tellFrost_sys (h : Fin 4) (k : Notice) : (s.tellFrost h k).sys = s.sys := rfl
@[simp] theorem State.tellFrost_pending (h : Fin 4) (k : Notice) : (s.tellFrost h k).pending = s.pending := rfl

/-! ### State.completeOrder -/
@[simp] theorem State.completeOrder_mem (c : OrderCode) (n : Nat) (st : Status) (rs : Reason) (l : List Byte) : (s.completeOrder c n st rs l).mem = s.mem := rfl
@[simp] theorem State.completeOrder_port (c : OrderCode) (n : Nat) (st : Status) (rs : Reason) (l : List Byte) : (s.completeOrder c n st rs l).port = s.port := rfl
@[simp] theorem State.completeOrder_survey (c : OrderCode) (n : Nat) (st : Status) (rs : Reason) (l : List Byte) : (s.completeOrder c n st rs l).survey = s.survey := rfl
@[simp] theorem State.completeOrder_guard (c : OrderCode) (n : Nat) (st : Status) (rs : Reason) (l : List Byte) : (s.completeOrder c n st rs l).guard = s.guard := rfl
@[simp] theorem State.completeOrder_act (c : OrderCode) (n : Nat) (st : Status) (rs : Reason) (l : List Byte) : (s.completeOrder c n st rs l).act = s.act := rfl
@[simp] theorem State.completeOrder_cal (c : OrderCode) (n : Nat) (st : Status) (rs : Reason) (l : List Byte) : (s.completeOrder c n st rs l).cal = s.cal := rfl
@[simp] theorem State.completeOrder_arb (c : OrderCode) (n : Nat) (st : Status) (rs : Reason) (l : List Byte) : (s.completeOrder c n st rs l).arb = s.arb := rfl
@[simp] theorem State.completeOrder_plans (c : OrderCode) (n : Nat) (st : Status) (rs : Reason) (l : List Byte) : (s.completeOrder c n st rs l).plans = s.plans := rfl
@[simp] theorem State.completeOrder_frost (c : OrderCode) (n : Nat) (st : Status) (rs : Reason) (l : List Byte) : (s.completeOrder c n st rs l).frost = s.frost := rfl
@[simp] theorem State.completeOrder_eng (c : OrderCode) (n : Nat) (st : Status) (rs : Reason) (l : List Byte) : (s.completeOrder c n st rs l).eng = s.eng := rfl
@[simp] theorem State.completeOrder_jrn (c : OrderCode) (n : Nat) (st : Status) (rs : Reason) (l : List Byte) : (s.completeOrder c n st rs l).jrn = s.jrn := rfl
@[simp] theorem State.completeOrder_sys (c : OrderCode) (n : Nat) (st : Status) (rs : Reason) (l : List Byte) : (s.completeOrder c n st rs l).sys = s.sys := rfl
@[simp] theorem State.completeOrder_pending (c : OrderCode) (n : Nat) (st : Status) (rs : Reason) (l : List Byte) : (s.completeOrder c n st rs l).pending = s.pending := rfl

/-! ### State.abortOrders -/
@[simp] theorem State.abortOrders_mem (l : List OrderCode) (rs : Reason) : (s.abortOrders l rs).mem = s.mem := rfl
@[simp] theorem State.abortOrders_port (l : List OrderCode) (rs : Reason) : (s.abortOrders l rs).port = s.port := rfl
@[simp] theorem State.abortOrders_survey (l : List OrderCode) (rs : Reason) : (s.abortOrders l rs).survey = s.survey := rfl
@[simp] theorem State.abortOrders_guard (l : List OrderCode) (rs : Reason) : (s.abortOrders l rs).guard = s.guard := rfl
@[simp] theorem State.abortOrders_act (l : List OrderCode) (rs : Reason) : (s.abortOrders l rs).act = s.act := rfl
@[simp] theorem State.abortOrders_cal (l : List OrderCode) (rs : Reason) : (s.abortOrders l rs).cal = s.cal := rfl
@[simp] theorem State.abortOrders_arb (l : List OrderCode) (rs : Reason) : (s.abortOrders l rs).arb = s.arb := rfl
@[simp] theorem State.abortOrders_plans (l : List OrderCode) (rs : Reason) : (s.abortOrders l rs).plans = s.plans := rfl
@[simp] theorem State.abortOrders_frost (l : List OrderCode) (rs : Reason) : (s.abortOrders l rs).frost = s.frost := rfl
@[simp] theorem State.abortOrders_eng (l : List OrderCode) (rs : Reason) : (s.abortOrders l rs).eng = s.eng := rfl
@[simp] theorem State.abortOrders_jrn (l : List OrderCode) (rs : Reason) : (s.abortOrders l rs).jrn = s.jrn := rfl
@[simp] theorem State.abortOrders_sys (l : List OrderCode) (rs : Reason) : (s.abortOrders l rs).sys = s.sys := rfl
@[simp] theorem State.abortOrders_pending (l : List OrderCode) (rs : Reason) : (s.abortOrders l rs).pending = s.pending := rfl

/-! ### State.poke -/
@[simp] theorem State.poke_port (p : Page) (o : Nat) (l : List Byte) : (s.poke p o l).port = s.port := rfl
@[simp] theorem State.poke_survey (p : Page) (o : Nat) (l : List Byte) : (s.poke p o l).survey = s.survey := rfl
@[simp] theorem State.poke_guard (p : Page) (o : Nat) (l : List Byte) : (s.poke p o l).guard = s.guard := rfl
@[simp] theorem State.poke_act (p : Page) (o : Nat) (l : List Byte) : (s.poke p o l).act = s.act := rfl
@[simp] theorem State.poke_cal (p : Page) (o : Nat) (l : List Byte) : (s.poke p o l).cal = s.cal := rfl
@[simp] theorem State.poke_arb (p : Page) (o : Nat) (l : List Byte) : (s.poke p o l).arb = s.arb := rfl
@[simp] theorem State.poke_plans (p : Page) (o : Nat) (l : List Byte) : (s.poke p o l).plans = s.plans := rfl
@[simp] theorem State.poke_frost (p : Page) (o : Nat) (l : List Byte) : (s.poke p o l).frost = s.frost := rfl
@[simp] theorem State.poke_eng (p : Page) (o : Nat) (l : List Byte) : (s.poke p o l).eng = s.eng := rfl
@[simp] theorem State.poke_jrn (p : Page) (o : Nat) (l : List Byte) : (s.poke p o l).jrn = s.jrn := rfl
@[simp] theorem State.poke_sys (p : Page) (o : Nat) (l : List Byte) : (s.poke p o l).sys = s.sys := rfl
@[simp] theorem State.poke_transit (p : Page) (o : Nat) (l : List Byte) : (s.poke p o l).transit = s.transit := rfl
@[simp] theorem State.poke_pending (p : Page) (o : Nat) (l : List Byte) : (s.poke p o l).pending = s.pending := rfl

/-! ### State.storeWord -/
@[simp] theorem State.storeWord_port (a : Nat) (v : Word) : (s.storeWord a v).port = s.port := rfl
@[simp] theorem State.storeWord_survey (a : Nat) (v : Word) : (s.storeWord a v).survey = s.survey := rfl
@[simp] theorem State.storeWord_guard (a : Nat) (v : Word) : (s.storeWord a v).guard = s.guard := rfl
@[simp] theorem State.storeWord_act (a : Nat) (v : Word) : (s.storeWord a v).act = s.act := rfl
@[simp] theorem State.storeWord_cal (a : Nat) (v : Word) : (s.storeWord a v).cal = s.cal := rfl
@[simp] theorem State.storeWord_arb (a : Nat) (v : Word) : (s.storeWord a v).arb = s.arb := rfl
@[simp] theorem State.storeWord_plans (a : Nat) (v : Word) : (s.storeWord a v).plans = s.plans := rfl
@[simp] theorem State.storeWord_frost (a : Nat) (v : Word) : (s.storeWord a v).frost = s.frost := rfl
@[simp] theorem State.storeWord_eng (a : Nat) (v : Word) : (s.storeWord a v).eng = s.eng := rfl
@[simp] theorem State.storeWord_jrn (a : Nat) (v : Word) : (s.storeWord a v).jrn = s.jrn := rfl
@[simp] theorem State.storeWord_sys (a : Nat) (v : Word) : (s.storeWord a v).sys = s.sys := rfl
@[simp] theorem State.storeWord_transit (a : Nat) (v : Word) : (s.storeWord a v).transit = s.transit := rfl
@[simp] theorem State.storeWord_pending (a : Nat) (v : Word) : (s.storeWord a v).pending = s.pending := rfl

/-! ### State.writeStatus -/
@[simp] theorem State.writeStatus_port (r : OrderRef) (st : Status) (rs : Reason) : (s.writeStatus r st rs).port = s.port := rfl
@[simp] theorem State.writeStatus_survey (r : OrderRef) (st : Status) (rs : Reason) : (s.writeStatus r st rs).survey = s.survey := rfl
@[simp] theorem State.writeStatus_guard (r : OrderRef) (st : Status) (rs : Reason) : (s.writeStatus r st rs).guard = s.guard := rfl
@[simp] theorem State.writeStatus_act (r : OrderRef) (st : Status) (rs : Reason) : (s.writeStatus r st rs).act = s.act := rfl
@[simp] theorem State.writeStatus_cal (r : OrderRef) (st : Status) (rs : Reason) : (s.writeStatus r st rs).cal = s.cal := rfl
@[simp] theorem State.writeStatus_arb (r : OrderRef) (st : Status) (rs : Reason) : (s.writeStatus r st rs).arb = s.arb := rfl
@[simp] theorem State.writeStatus_plans (r : OrderRef) (st : Status) (rs : Reason) : (s.writeStatus r st rs).plans = s.plans := rfl
@[simp] theorem State.writeStatus_frost (r : OrderRef) (st : Status) (rs : Reason) : (s.writeStatus r st rs).frost = s.frost := rfl
@[simp] theorem State.writeStatus_eng (r : OrderRef) (st : Status) (rs : Reason) : (s.writeStatus r st rs).eng = s.eng := rfl
@[simp] theorem State.writeStatus_jrn (r : OrderRef) (st : Status) (rs : Reason) : (s.writeStatus r st rs).jrn = s.jrn := rfl
@[simp] theorem State.writeStatus_sys (r : OrderRef) (st : Status) (rs : Reason) : (s.writeStatus r st rs).sys = s.sys := rfl
@[simp] theorem State.writeStatus_transit (r : OrderRef) (st : Status) (rs : Reason) : (s.writeStatus r st rs).transit = s.transit := rfl
@[simp] theorem State.writeStatus_pending (r : OrderRef) (st : Status) (rs : Reason) : (s.writeStatus r st rs).pending = s.pending := rfl

/-! ### State.writeResult -/
@[simp] theorem State.writeResult_port (r : OrderRef) (l : List Byte) : (s.writeResult r l).port = s.port := rfl
@[simp] theorem State.writeResult_survey (r : OrderRef) (l : List Byte) : (s.writeResult r l).survey = s.survey := rfl
@[simp] theorem State.writeResult_guard (r : OrderRef) (l : List Byte) : (s.writeResult r l).guard = s.guard := rfl
@[simp] theorem State.writeResult_act (r : OrderRef) (l : List Byte) : (s.writeResult r l).act = s.act := rfl
@[simp] theorem State.writeResult_cal (r : OrderRef) (l : List Byte) : (s.writeResult r l).cal = s.cal := rfl
@[simp] theorem State.writeResult_arb (r : OrderRef) (l : List Byte) : (s.writeResult r l).arb = s.arb := rfl
@[simp] theorem State.writeResult_plans (r : OrderRef) (l : List Byte) : (s.writeResult r l).plans = s.plans := rfl
@[simp] theorem State.writeResult_frost (r : OrderRef) (l : List Byte) : (s.writeResult r l).frost = s.frost := rfl
@[simp] theorem State.writeResult_eng (r : OrderRef) (l : List Byte) : (s.writeResult r l).eng = s.eng := rfl
@[simp] theorem State.writeResult_jrn (r : OrderRef) (l : List Byte) : (s.writeResult r l).jrn = s.jrn := rfl
@[simp] theorem State.writeResult_sys (r : OrderRef) (l : List Byte) : (s.writeResult r l).sys = s.sys := rfl
@[simp] theorem State.writeResult_transit (r : OrderRef) (l : List Byte) : (s.writeResult r l).transit = s.transit := rfl
@[simp] theorem State.writeResult_pending (r : OrderRef) (l : List Byte) : (s.writeResult r l).pending = s.pending := rfl

/-! ### State.setEntry -/
@[simp] theorem State.setEntry_survey (p : Page) (e : MapEntry) : (s.setEntry p e).survey = s.survey := rfl
@[simp] theorem State.setEntry_guard (p : Page) (e : MapEntry) : (s.setEntry p e).guard = s.guard := rfl
@[simp] theorem State.setEntry_act (p : Page) (e : MapEntry) : (s.setEntry p e).act = s.act := rfl
@[simp] theorem State.setEntry_cal (p : Page) (e : MapEntry) : (s.setEntry p e).cal = s.cal := rfl
@[simp] theorem State.setEntry_arb (p : Page) (e : MapEntry) : (s.setEntry p e).arb = s.arb := rfl
@[simp] theorem State.setEntry_plans (p : Page) (e : MapEntry) : (s.setEntry p e).plans = s.plans := rfl
@[simp] theorem State.setEntry_frost (p : Page) (e : MapEntry) : (s.setEntry p e).frost = s.frost := rfl
@[simp] theorem State.setEntry_eng (p : Page) (e : MapEntry) : (s.setEntry p e).eng = s.eng := rfl
@[simp] theorem State.setEntry_jrn (p : Page) (e : MapEntry) : (s.setEntry p e).jrn = s.jrn := rfl
@[simp] theorem State.setEntry_sys (p : Page) (e : MapEntry) : (s.setEntry p e).sys = s.sys := rfl
@[simp] theorem State.setEntry_transit (p : Page) (e : MapEntry) : (s.setEntry p e).transit = s.transit := rfl
@[simp] theorem State.setEntry_pending (p : Page) (e : MapEntry) : (s.setEntry p e).pending = s.pending := rfl

/-! ### State.setPageState -/
@[simp] theorem State.setPageState_survey (p : Page) (e : PageState) : (s.setPageState p e).survey = s.survey := rfl
@[simp] theorem State.setPageState_guard (p : Page) (e : PageState) : (s.setPageState p e).guard = s.guard := rfl
@[simp] theorem State.setPageState_act (p : Page) (e : PageState) : (s.setPageState p e).act = s.act := rfl
@[simp] theorem State.setPageState_cal (p : Page) (e : PageState) : (s.setPageState p e).cal = s.cal := rfl
@[simp] theorem State.setPageState_arb (p : Page) (e : PageState) : (s.setPageState p e).arb = s.arb := rfl
@[simp] theorem State.setPageState_plans (p : Page) (e : PageState) : (s.setPageState p e).plans = s.plans := rfl
@[simp] theorem State.setPageState_frost (p : Page) (e : PageState) : (s.setPageState p e).frost = s.frost := rfl
@[simp] theorem State.setPageState_eng (p : Page) (e : PageState) : (s.setPageState p e).eng = s.eng := rfl
@[simp] theorem State.setPageState_jrn (p : Page) (e : PageState) : (s.setPageState p e).jrn = s.jrn := rfl
@[simp] theorem State.setPageState_sys (p : Page) (e : PageState) : (s.setPageState p e).sys = s.sys := rfl
@[simp] theorem State.setPageState_transit (p : Page) (e : PageState) : (s.setPageState p e).transit = s.transit := rfl
@[simp] theorem State.setPageState_pending (p : Page) (e : PageState) : (s.setPageState p e).pending = s.pending := rfl

/-! ### State.raise -/
@[simp] theorem State.raise_survey (a : Attn) (n : Nat) : (s.raise a n).survey = s.survey := rfl
@[simp] theorem State.raise_guard (a : Attn) (n : Nat) : (s.raise a n).guard = s.guard := rfl
@[simp] theorem State.raise_act (a : Attn) (n : Nat) : (s.raise a n).act = s.act := rfl
@[simp] theorem State.raise_cal (a : Attn) (n : Nat) : (s.raise a n).cal = s.cal := rfl
@[simp] theorem State.raise_arb (a : Attn) (n : Nat) : (s.raise a n).arb = s.arb := rfl
@[simp] theorem State.raise_plans (a : Attn) (n : Nat) : (s.raise a n).plans = s.plans := rfl
@[simp] theorem State.raise_frost (a : Attn) (n : Nat) : (s.raise a n).frost = s.frost := rfl
@[simp] theorem State.raise_eng (a : Attn) (n : Nat) : (s.raise a n).eng = s.eng := rfl
@[simp] theorem State.raise_jrn (a : Attn) (n : Nat) : (s.raise a n).jrn = s.jrn := rfl
@[simp] theorem State.raise_sys (a : Attn) (n : Nat) : (s.raise a n).sys = s.sys := rfl
@[simp] theorem State.raise_transit (a : Attn) (n : Nat) : (s.raise a n).transit = s.transit := rfl
@[simp] theorem State.raise_pending (a : Attn) (n : Nat) : (s.raise a n).pending = s.pending := rfl

/-! ### State.setProtect -/
@[simp] theorem State.setProtect_survey (p : Protect) : (s.setProtect p).survey = s.survey := rfl
@[simp] theorem State.setProtect_guard (p : Protect) : (s.setProtect p).guard = s.guard := rfl
@[simp] theorem State.setProtect_act (p : Protect) : (s.setProtect p).act = s.act := rfl
@[simp] theorem State.setProtect_cal (p : Protect) : (s.setProtect p).cal = s.cal := rfl
@[simp] theorem State.setProtect_arb (p : Protect) : (s.setProtect p).arb = s.arb := rfl
@[simp] theorem State.setProtect_plans (p : Protect) : (s.setProtect p).plans = s.plans := rfl
@[simp] theorem State.setProtect_frost (p : Protect) : (s.setProtect p).frost = s.frost := rfl
@[simp] theorem State.setProtect_eng (p : Protect) : (s.setProtect p).eng = s.eng := rfl
@[simp] theorem State.setProtect_jrn (p : Protect) : (s.setProtect p).jrn = s.jrn := rfl
@[simp] theorem State.setProtect_sys (p : Protect) : (s.setProtect p).sys = s.sys := rfl
@[simp] theorem State.setProtect_transit (p : Protect) : (s.setProtect p).transit = s.transit := rfl
@[simp] theorem State.setProtect_pending (p : Protect) : (s.setProtect p).pending = s.pending := rfl

/-! ### State.setPump -/
@[simp] theorem State.setPump_mem (n : Fin 4) (p : Pump) : (s.setPump n p).mem = s.mem := rfl
@[simp] theorem State.setPump_port (n : Fin 4) (p : Pump) : (s.setPump n p).port = s.port := rfl
@[simp] theorem State.setPump_survey (n : Fin 4) (p : Pump) : (s.setPump n p).survey = s.survey := rfl
@[simp] theorem State.setPump_guard (n : Fin 4) (p : Pump) : (s.setPump n p).guard = s.guard := rfl
@[simp] theorem State.setPump_cal (n : Fin 4) (p : Pump) : (s.setPump n p).cal = s.cal := rfl
@[simp] theorem State.setPump_arb (n : Fin 4) (p : Pump) : (s.setPump n p).arb = s.arb := rfl
@[simp] theorem State.setPump_plans (n : Fin 4) (p : Pump) : (s.setPump n p).plans = s.plans := rfl
@[simp] theorem State.setPump_frost (n : Fin 4) (p : Pump) : (s.setPump n p).frost = s.frost := rfl
@[simp] theorem State.setPump_eng (n : Fin 4) (p : Pump) : (s.setPump n p).eng = s.eng := rfl
@[simp] theorem State.setPump_jrn (n : Fin 4) (p : Pump) : (s.setPump n p).jrn = s.jrn := rfl
@[simp] theorem State.setPump_sys (n : Fin 4) (p : Pump) : (s.setPump n p).sys = s.sys := rfl
@[simp] theorem State.setPump_transit (n : Fin 4) (p : Pump) : (s.setPump n p).transit = s.transit := rfl
@[simp] theorem State.setPump_pending (n : Fin 4) (p : Pump) : (s.setPump n p).pending = s.pending := rfl

/-! ### State.modPump -/
@[simp] theorem State.modPump_mem (n : Fin 4) (f : Pump → Pump) : (s.modPump n f).mem = s.mem := rfl
@[simp] theorem State.modPump_port (n : Fin 4) (f : Pump → Pump) : (s.modPump n f).port = s.port := rfl
@[simp] theorem State.modPump_survey (n : Fin 4) (f : Pump → Pump) : (s.modPump n f).survey = s.survey := rfl
@[simp] theorem State.modPump_guard (n : Fin 4) (f : Pump → Pump) : (s.modPump n f).guard = s.guard := rfl
@[simp] theorem State.modPump_cal (n : Fin 4) (f : Pump → Pump) : (s.modPump n f).cal = s.cal := rfl
@[simp] theorem State.modPump_arb (n : Fin 4) (f : Pump → Pump) : (s.modPump n f).arb = s.arb := rfl
@[simp] theorem State.modPump_plans (n : Fin 4) (f : Pump → Pump) : (s.modPump n f).plans = s.plans := rfl
@[simp] theorem State.modPump_frost (n : Fin 4) (f : Pump → Pump) : (s.modPump n f).frost = s.frost := rfl
@[simp] theorem State.modPump_eng (n : Fin 4) (f : Pump → Pump) : (s.modPump n f).eng = s.eng := rfl
@[simp] theorem State.modPump_jrn (n : Fin 4) (f : Pump → Pump) : (s.modPump n f).jrn = s.jrn := rfl
@[simp] theorem State.modPump_sys (n : Fin 4) (f : Pump → Pump) : (s.modPump n f).sys = s.sys := rfl
@[simp] theorem State.modPump_transit (n : Fin 4) (f : Pump → Pump) : (s.modPump n f).transit = s.transit := rfl
@[simp] theorem State.modPump_pending (n : Fin 4) (f : Pump → Pump) : (s.modPump n f).pending = s.pending := rfl

/-! ### State.setHeater -/
@[simp] theorem State.setHeater_mem (h : Fin 4) (p : Heater) : (s.setHeater h p).mem = s.mem := rfl
@[simp] theorem State.setHeater_port (h : Fin 4) (p : Heater) : (s.setHeater h p).port = s.port := rfl
@[simp] theorem State.setHeater_survey (h : Fin 4) (p : Heater) : (s.setHeater h p).survey = s.survey := rfl
@[simp] theorem State.setHeater_guard (h : Fin 4) (p : Heater) : (s.setHeater h p).guard = s.guard := rfl
@[simp] theorem State.setHeater_cal (h : Fin 4) (p : Heater) : (s.setHeater h p).cal = s.cal := rfl
@[simp] theorem State.setHeater_arb (h : Fin 4) (p : Heater) : (s.setHeater h p).arb = s.arb := rfl
@[simp] theorem State.setHeater_plans (h : Fin 4) (p : Heater) : (s.setHeater h p).plans = s.plans := rfl
@[simp] theorem State.setHeater_frost (h : Fin 4) (p : Heater) : (s.setHeater h p).frost = s.frost := rfl
@[simp] theorem State.setHeater_eng (h : Fin 4) (p : Heater) : (s.setHeater h p).eng = s.eng := rfl
@[simp] theorem State.setHeater_jrn (h : Fin 4) (p : Heater) : (s.setHeater h p).jrn = s.jrn := rfl
@[simp] theorem State.setHeater_sys (h : Fin 4) (p : Heater) : (s.setHeater h p).sys = s.sys := rfl
@[simp] theorem State.setHeater_transit (h : Fin 4) (p : Heater) : (s.setHeater h p).transit = s.transit := rfl
@[simp] theorem State.setHeater_pending (h : Fin 4) (p : Heater) : (s.setHeater h p).pending = s.pending := rfl

/-! ### State.modHeater -/
@[simp] theorem State.modHeater_mem (h : Fin 4) (f : Heater → Heater) : (s.modHeater h f).mem = s.mem := rfl
@[simp] theorem State.modHeater_port (h : Fin 4) (f : Heater → Heater) : (s.modHeater h f).port = s.port := rfl
@[simp] theorem State.modHeater_survey (h : Fin 4) (f : Heater → Heater) : (s.modHeater h f).survey = s.survey := rfl
@[simp] theorem State.modHeater_guard (h : Fin 4) (f : Heater → Heater) : (s.modHeater h f).guard = s.guard := rfl
@[simp] theorem State.modHeater_cal (h : Fin 4) (f : Heater → Heater) : (s.modHeater h f).cal = s.cal := rfl
@[simp] theorem State.modHeater_arb (h : Fin 4) (f : Heater → Heater) : (s.modHeater h f).arb = s.arb := rfl
@[simp] theorem State.modHeater_plans (h : Fin 4) (f : Heater → Heater) : (s.modHeater h f).plans = s.plans := rfl
@[simp] theorem State.modHeater_frost (h : Fin 4) (f : Heater → Heater) : (s.modHeater h f).frost = s.frost := rfl
@[simp] theorem State.modHeater_eng (h : Fin 4) (f : Heater → Heater) : (s.modHeater h f).eng = s.eng := rfl
@[simp] theorem State.modHeater_jrn (h : Fin 4) (f : Heater → Heater) : (s.modHeater h f).jrn = s.jrn := rfl
@[simp] theorem State.modHeater_sys (h : Fin 4) (f : Heater → Heater) : (s.modHeater h f).sys = s.sys := rfl
@[simp] theorem State.modHeater_transit (h : Fin 4) (f : Heater → Heater) : (s.modHeater h f).transit = s.transit := rfl
@[simp] theorem State.modHeater_pending (h : Fin 4) (f : Heater → Heater) : (s.modHeater h f).pending = s.pending := rfl

/-! ### State.modInlet -/
@[simp] theorem State.modInlet_mem (f : Inlet → Inlet) : (s.modInlet f).mem = s.mem := rfl
@[simp] theorem State.modInlet_port (f : Inlet → Inlet) : (s.modInlet f).port = s.port := rfl
@[simp] theorem State.modInlet_survey (f : Inlet → Inlet) : (s.modInlet f).survey = s.survey := rfl
@[simp] theorem State.modInlet_guard (f : Inlet → Inlet) : (s.modInlet f).guard = s.guard := rfl
@[simp] theorem State.modInlet_cal (f : Inlet → Inlet) : (s.modInlet f).cal = s.cal := rfl
@[simp] theorem State.modInlet_arb (f : Inlet → Inlet) : (s.modInlet f).arb = s.arb := rfl
@[simp] theorem State.modInlet_plans (f : Inlet → Inlet) : (s.modInlet f).plans = s.plans := rfl
@[simp] theorem State.modInlet_frost (f : Inlet → Inlet) : (s.modInlet f).frost = s.frost := rfl
@[simp] theorem State.modInlet_eng (f : Inlet → Inlet) : (s.modInlet f).eng = s.eng := rfl
@[simp] theorem State.modInlet_jrn (f : Inlet → Inlet) : (s.modInlet f).jrn = s.jrn := rfl
@[simp] theorem State.modInlet_sys (f : Inlet → Inlet) : (s.modInlet f).sys = s.sys := rfl
@[simp] theorem State.modInlet_transit (f : Inlet → Inlet) : (s.modInlet f).transit = s.transit := rfl
@[simp] theorem State.modInlet_pending (f : Inlet → Inlet) : (s.modInlet f).pending = s.pending := rfl

/-! ### State.setHoldOf -/
@[simp] theorem State.setHoldOf_mem (a : ActId) (n : Option Nat) : (s.setHoldOf a n).mem = s.mem := by cases a <;> rfl
@[simp] theorem State.setHoldOf_port (a : ActId) (n : Option Nat) : (s.setHoldOf a n).port = s.port := by cases a <;> rfl
@[simp] theorem State.setHoldOf_survey (a : ActId) (n : Option Nat) : (s.setHoldOf a n).survey = s.survey := by cases a <;> rfl
@[simp] theorem State.setHoldOf_guard (a : ActId) (n : Option Nat) : (s.setHoldOf a n).guard = s.guard := by cases a <;> rfl
@[simp] theorem State.setHoldOf_cal (a : ActId) (n : Option Nat) : (s.setHoldOf a n).cal = s.cal := by cases a <;> rfl
@[simp] theorem State.setHoldOf_arb (a : ActId) (n : Option Nat) : (s.setHoldOf a n).arb = s.arb := by cases a <;> rfl
@[simp] theorem State.setHoldOf_plans (a : ActId) (n : Option Nat) : (s.setHoldOf a n).plans = s.plans := by cases a <;> rfl
@[simp] theorem State.setHoldOf_frost (a : ActId) (n : Option Nat) : (s.setHoldOf a n).frost = s.frost := by cases a <;> rfl
@[simp] theorem State.setHoldOf_eng (a : ActId) (n : Option Nat) : (s.setHoldOf a n).eng = s.eng := by cases a <;> rfl
@[simp] theorem State.setHoldOf_jrn (a : ActId) (n : Option Nat) : (s.setHoldOf a n).jrn = s.jrn := by cases a <;> rfl
@[simp] theorem State.setHoldOf_sys (a : ActId) (n : Option Nat) : (s.setHoldOf a n).sys = s.sys := by cases a <;> rfl
@[simp] theorem State.setHoldOf_transit (a : ActId) (n : Option Nat) : (s.setHoldOf a n).transit = s.transit := by cases a <;> rfl
@[simp] theorem State.setHoldOf_pending (a : ActId) (n : Option Nat) : (s.setHoldOf a n).pending = s.pending := by cases a <;> rfl

/-! ### State.touchHold -/
@[simp] theorem State.touchHold_mem (n : Nat) : (s.touchHold n).mem = s.mem := rfl
@[simp] theorem State.touchHold_port (n : Nat) : (s.touchHold n).port = s.port := rfl
@[simp] theorem State.touchHold_survey (n : Nat) : (s.touchHold n).survey = s.survey := rfl
@[simp] theorem State.touchHold_guard (n : Nat) : (s.touchHold n).guard = s.guard := rfl
@[simp] theorem State.touchHold_cal (n : Nat) : (s.touchHold n).cal = s.cal := rfl
@[simp] theorem State.touchHold_arb (n : Nat) : (s.touchHold n).arb = s.arb := rfl
@[simp] theorem State.touchHold_plans (n : Nat) : (s.touchHold n).plans = s.plans := rfl
@[simp] theorem State.touchHold_frost (n : Nat) : (s.touchHold n).frost = s.frost := rfl
@[simp] theorem State.touchHold_eng (n : Nat) : (s.touchHold n).eng = s.eng := rfl
@[simp] theorem State.touchHold_jrn (n : Nat) : (s.touchHold n).jrn = s.jrn := rfl
@[simp] theorem State.touchHold_sys (n : Nat) : (s.touchHold n).sys = s.sys := rfl
@[simp] theorem State.touchHold_transit (n : Nat) : (s.touchHold n).transit = s.transit := rfl
@[simp] theorem State.touchHold_pending (n : Nat) : (s.touchHold n).pending = s.pending := rfl

/-! ### State.modRecords -/
@[simp] theorem State.modRecords_mem (p : Page) (f : Nat → Nat) : (s.modRecords p f).mem = s.mem := rfl
@[simp] theorem State.modRecords_port (p : Page) (f : Nat → Nat) : (s.modRecords p f).port = s.port := rfl
@[simp] theorem State.modRecords_survey (p : Page) (f : Nat → Nat) : (s.modRecords p f).survey = s.survey := rfl
@[simp] theorem State.modRecords_guard (p : Page) (f : Nat → Nat) : (s.modRecords p f).guard = s.guard := rfl
@[simp] theorem State.modRecords_act (p : Page) (f : Nat → Nat) : (s.modRecords p f).act = s.act := rfl
@[simp] theorem State.modRecords_cal (p : Page) (f : Nat → Nat) : (s.modRecords p f).cal = s.cal := rfl
@[simp] theorem State.modRecords_arb (p : Page) (f : Nat → Nat) : (s.modRecords p f).arb = s.arb := rfl
@[simp] theorem State.modRecords_plans (p : Page) (f : Nat → Nat) : (s.modRecords p f).plans = s.plans := rfl
@[simp] theorem State.modRecords_frost (p : Page) (f : Nat → Nat) : (s.modRecords p f).frost = s.frost := rfl
@[simp] theorem State.modRecords_jrn (p : Page) (f : Nat → Nat) : (s.modRecords p f).jrn = s.jrn := rfl
@[simp] theorem State.modRecords_sys (p : Page) (f : Nat → Nat) : (s.modRecords p f).sys = s.sys := rfl
@[simp] theorem State.modRecords_transit (p : Page) (f : Nat → Nat) : (s.modRecords p f).transit = s.transit := rfl
@[simp] theorem State.modRecords_pending (p : Page) (f : Nat → Nat) : (s.modRecords p f).pending = s.pending := rfl

/-! ### State.modTaken -/
@[simp] theorem State.modTaken_mem (p : Page) (f : TakenPage → TakenPage) : (s.modTaken p f).mem = s.mem := rfl
@[simp] theorem State.modTaken_port (p : Page) (f : TakenPage → TakenPage) : (s.modTaken p f).port = s.port := rfl
@[simp] theorem State.modTaken_survey (p : Page) (f : TakenPage → TakenPage) : (s.modTaken p f).survey = s.survey := rfl
@[simp] theorem State.modTaken_guard (p : Page) (f : TakenPage → TakenPage) : (s.modTaken p f).guard = s.guard := rfl
@[simp] theorem State.modTaken_act (p : Page) (f : TakenPage → TakenPage) : (s.modTaken p f).act = s.act := rfl
@[simp] theorem State.modTaken_cal (p : Page) (f : TakenPage → TakenPage) : (s.modTaken p f).cal = s.cal := rfl
@[simp] theorem State.modTaken_arb (p : Page) (f : TakenPage → TakenPage) : (s.modTaken p f).arb = s.arb := rfl
@[simp] theorem State.modTaken_plans (p : Page) (f : TakenPage → TakenPage) : (s.modTaken p f).plans = s.plans := rfl
@[simp] theorem State.modTaken_frost (p : Page) (f : TakenPage → TakenPage) : (s.modTaken p f).frost = s.frost := rfl
@[simp] theorem State.modTaken_jrn (p : Page) (f : TakenPage → TakenPage) : (s.modTaken p f).jrn = s.jrn := rfl
@[simp] theorem State.modTaken_sys (p : Page) (f : TakenPage → TakenPage) : (s.modTaken p f).sys = s.sys := rfl
@[simp] theorem State.modTaken_transit (p : Page) (f : TakenPage → TakenPage) : (s.modTaken p f).transit = s.transit := rfl
@[simp] theorem State.modTaken_pending (p : Page) (f : TakenPage → TakenPage) : (s.modTaken p f).pending = s.pending := rfl

/-! ### State.setAccess -/
@[simp] theorem State.setAccess_mem (a : Access) : (s.setAccess a).mem = s.mem := rfl
@[simp] theorem State.setAccess_port (a : Access) : (s.setAccess a).port = s.port := rfl
@[simp] theorem State.setAccess_survey (a : Access) : (s.setAccess a).survey = s.survey := rfl
@[simp] theorem State.setAccess_guard (a : Access) : (s.setAccess a).guard = s.guard := rfl
@[simp] theorem State.setAccess_act (a : Access) : (s.setAccess a).act = s.act := rfl
@[simp] theorem State.setAccess_cal (a : Access) : (s.setAccess a).cal = s.cal := rfl
@[simp] theorem State.setAccess_arb (a : Access) : (s.setAccess a).arb = s.arb := rfl
@[simp] theorem State.setAccess_plans (a : Access) : (s.setAccess a).plans = s.plans := rfl
@[simp] theorem State.setAccess_frost (a : Access) : (s.setAccess a).frost = s.frost := rfl
@[simp] theorem State.setAccess_jrn (a : Access) : (s.setAccess a).jrn = s.jrn := rfl
@[simp] theorem State.setAccess_sys (a : Access) : (s.setAccess a).sys = s.sys := rfl
@[simp] theorem State.setAccess_transit (a : Access) : (s.setAccess a).transit = s.transit := rfl
@[simp] theorem State.setAccess_pending (a : Access) : (s.setAccess a).pending = s.pending := rfl

/-! ### State.renewService -/
@[simp] theorem State.renewService_mem : s.renewService.mem = s.mem := rfl
@[simp] theorem State.renewService_port : s.renewService.port = s.port := rfl
@[simp] theorem State.renewService_survey : s.renewService.survey = s.survey := rfl
@[simp] theorem State.renewService_guard : s.renewService.guard = s.guard := rfl
@[simp] theorem State.renewService_act : s.renewService.act = s.act := rfl
@[simp] theorem State.renewService_cal : s.renewService.cal = s.cal := rfl
@[simp] theorem State.renewService_arb : s.renewService.arb = s.arb := rfl
@[simp] theorem State.renewService_plans : s.renewService.plans = s.plans := rfl
@[simp] theorem State.renewService_frost : s.renewService.frost = s.frost := rfl
@[simp] theorem State.renewService_jrn : s.renewService.jrn = s.jrn := rfl
@[simp] theorem State.renewService_sys : s.renewService.sys = s.sys := rfl
@[simp] theorem State.renewService_transit : s.renewService.transit = s.transit := rfl
@[simp] theorem State.renewService_pending : s.renewService.pending = s.pending := rfl

/-! ### State.dropFlight -/
@[simp] theorem State.dropFlight_mem (r : OrderRef) : (s.dropFlight r).mem = s.mem := rfl
@[simp] theorem State.dropFlight_port (r : OrderRef) : (s.dropFlight r).port = s.port := rfl
@[simp] theorem State.dropFlight_survey (r : OrderRef) : (s.dropFlight r).survey = s.survey := rfl
@[simp] theorem State.dropFlight_guard (r : OrderRef) : (s.dropFlight r).guard = s.guard := rfl
@[simp] theorem State.dropFlight_act (r : OrderRef) : (s.dropFlight r).act = s.act := rfl
@[simp] theorem State.dropFlight_cal (r : OrderRef) : (s.dropFlight r).cal = s.cal := rfl
@[simp] theorem State.dropFlight_arb (r : OrderRef) : (s.dropFlight r).arb = s.arb := rfl
@[simp] theorem State.dropFlight_plans (r : OrderRef) : (s.dropFlight r).plans = s.plans := rfl
@[simp] theorem State.dropFlight_frost (r : OrderRef) : (s.dropFlight r).frost = s.frost := rfl
@[simp] theorem State.dropFlight_jrn (r : OrderRef) : (s.dropFlight r).jrn = s.jrn := rfl
@[simp] theorem State.dropFlight_sys (r : OrderRef) : (s.dropFlight r).sys = s.sys := rfl
@[simp] theorem State.dropFlight_transit (r : OrderRef) :
    (s.dropFlight r).transit = s.transit.filter fun m => !reportsOn r m := rfl
@[simp] theorem State.dropFlight_pending (r : OrderRef) : (s.dropFlight r).pending = s.pending := rfl

/-! ### State.lose -/
@[simp] theorem State.lose_mem (c : Fin 3) : (s.lose c).mem = s.mem := rfl
@[simp] theorem State.lose_port (c : Fin 3) : (s.lose c).port = s.port := rfl
@[simp] theorem State.lose_survey (c : Fin 3) : (s.lose c).survey = s.survey := rfl
@[simp] theorem State.lose_guard (c : Fin 3) : (s.lose c).guard = s.guard := rfl
@[simp] theorem State.lose_act (c : Fin 3) : (s.lose c).act = s.act := rfl
@[simp] theorem State.lose_cal (c : Fin 3) : (s.lose c).cal = s.cal := rfl
@[simp] theorem State.lose_arb (c : Fin 3) : (s.lose c).arb = s.arb := rfl
@[simp] theorem State.lose_plans (c : Fin 3) : (s.lose c).plans = s.plans := rfl
@[simp] theorem State.lose_frost (c : Fin 3) : (s.lose c).frost = s.frost := rfl
@[simp] theorem State.lose_eng (c : Fin 3) : (s.lose c).eng = s.eng := rfl
@[simp] theorem State.lose_sys (c : Fin 3) : (s.lose c).sys = s.sys := rfl
@[simp] theorem State.lose_transit (c : Fin 3) : (s.lose c).transit = s.transit := rfl
@[simp] theorem State.lose_pending (c : Fin 3) : (s.lose c).pending = s.pending := rfl

/-! ### State.setOpen -/
@[simp] theorem State.setOpen_port (o : OpenPage) : (s.setOpen o).port = s.port := rfl
@[simp] theorem State.setOpen_survey (o : OpenPage) : (s.setOpen o).survey = s.survey := rfl
@[simp] theorem State.setOpen_guard (o : OpenPage) : (s.setOpen o).guard = s.guard := rfl
@[simp] theorem State.setOpen_act (o : OpenPage) : (s.setOpen o).act = s.act := rfl
@[simp] theorem State.setOpen_cal (o : OpenPage) : (s.setOpen o).cal = s.cal := rfl
@[simp] theorem State.setOpen_arb (o : OpenPage) : (s.setOpen o).arb = s.arb := rfl
@[simp] theorem State.setOpen_plans (o : OpenPage) : (s.setOpen o).plans = s.plans := rfl
@[simp] theorem State.setOpen_frost (o : OpenPage) : (s.setOpen o).frost = s.frost := rfl
@[simp] theorem State.setOpen_eng (o : OpenPage) : (s.setOpen o).eng = s.eng := rfl
@[simp] theorem State.setOpen_sys (o : OpenPage) : (s.setOpen o).sys = s.sys := rfl
@[simp] theorem State.setOpen_transit (o : OpenPage) : (s.setOpen o).transit = s.transit := rfl
@[simp] theorem State.setOpen_pending (o : OpenPage) : (s.setOpen o).pending = s.pending := rfl

/-! ### State.modGuard -/
@[simp] theorem State.modGuard_mem (f : GuardState → GuardState) : (s.modGuard f).mem = s.mem := rfl
@[simp] theorem State.modGuard_port (f : GuardState → GuardState) : (s.modGuard f).port = s.port := rfl
@[simp] theorem State.modGuard_survey (f : GuardState → GuardState) : (s.modGuard f).survey = s.survey := rfl
@[simp] theorem State.modGuard_act (f : GuardState → GuardState) : (s.modGuard f).act = s.act := rfl
@[simp] theorem State.modGuard_cal (f : GuardState → GuardState) : (s.modGuard f).cal = s.cal := rfl
@[simp] theorem State.modGuard_arb (f : GuardState → GuardState) : (s.modGuard f).arb = s.arb := rfl
@[simp] theorem State.modGuard_plans (f : GuardState → GuardState) : (s.modGuard f).plans = s.plans := rfl
@[simp] theorem State.modGuard_frost (f : GuardState → GuardState) : (s.modGuard f).frost = s.frost := rfl
@[simp] theorem State.modGuard_eng (f : GuardState → GuardState) : (s.modGuard f).eng = s.eng := rfl
@[simp] theorem State.modGuard_jrn (f : GuardState → GuardState) : (s.modGuard f).jrn = s.jrn := rfl
@[simp] theorem State.modGuard_sys (f : GuardState → GuardState) : (s.modGuard f).sys = s.sys := rfl
@[simp] theorem State.modGuard_transit (f : GuardState → GuardState) : (s.modGuard f).transit = s.transit := rfl
@[simp] theorem State.modGuard_pending (f : GuardState → GuardState) : (s.modGuard f).pending = s.pending := rfl

/-! ### State.modSurvey -/
@[simp] theorem State.modSurvey_mem (f : SurveyState → SurveyState) : (s.modSurvey f).mem = s.mem := rfl
@[simp] theorem State.modSurvey_port (f : SurveyState → SurveyState) : (s.modSurvey f).port = s.port := rfl
@[simp] theorem State.modSurvey_guard (f : SurveyState → SurveyState) : (s.modSurvey f).guard = s.guard := rfl
@[simp] theorem State.modSurvey_act (f : SurveyState → SurveyState) : (s.modSurvey f).act = s.act := rfl
@[simp] theorem State.modSurvey_cal (f : SurveyState → SurveyState) : (s.modSurvey f).cal = s.cal := rfl
@[simp] theorem State.modSurvey_arb (f : SurveyState → SurveyState) : (s.modSurvey f).arb = s.arb := rfl
@[simp] theorem State.modSurvey_plans (f : SurveyState → SurveyState) : (s.modSurvey f).plans = s.plans := rfl
@[simp] theorem State.modSurvey_frost (f : SurveyState → SurveyState) : (s.modSurvey f).frost = s.frost := rfl
@[simp] theorem State.modSurvey_eng (f : SurveyState → SurveyState) : (s.modSurvey f).eng = s.eng := rfl
@[simp] theorem State.modSurvey_jrn (f : SurveyState → SurveyState) : (s.modSurvey f).jrn = s.jrn := rfl
@[simp] theorem State.modSurvey_sys (f : SurveyState → SurveyState) : (s.modSurvey f).sys = s.sys := rfl
@[simp] theorem State.modSurvey_transit (f : SurveyState → SurveyState) : (s.modSurvey f).transit = s.transit := rfl
@[simp] theorem State.modSurvey_pending (f : SurveyState → SurveyState) : (s.modSurvey f).pending = s.pending := rfl

/-! ### State.setZone -/
@[simp] theorem State.setZone_mem (h : Fin 4) (z : Zone) : (s.setZone h z).mem = s.mem := rfl
@[simp] theorem State.setZone_port (h : Fin 4) (z : Zone) : (s.setZone h z).port = s.port := rfl
@[simp] theorem State.setZone_survey (h : Fin 4) (z : Zone) : (s.setZone h z).survey = s.survey := rfl
@[simp] theorem State.setZone_guard (h : Fin 4) (z : Zone) : (s.setZone h z).guard = s.guard := rfl
@[simp] theorem State.setZone_act (h : Fin 4) (z : Zone) : (s.setZone h z).act = s.act := rfl
@[simp] theorem State.setZone_cal (h : Fin 4) (z : Zone) : (s.setZone h z).cal = s.cal := rfl
@[simp] theorem State.setZone_arb (h : Fin 4) (z : Zone) : (s.setZone h z).arb = s.arb := rfl
@[simp] theorem State.setZone_plans (h : Fin 4) (z : Zone) : (s.setZone h z).plans = s.plans := rfl
@[simp] theorem State.setZone_eng (h : Fin 4) (z : Zone) : (s.setZone h z).eng = s.eng := rfl
@[simp] theorem State.setZone_jrn (h : Fin 4) (z : Zone) : (s.setZone h z).jrn = s.jrn := rfl
@[simp] theorem State.setZone_sys (h : Fin 4) (z : Zone) : (s.setZone h z).sys = s.sys := rfl
@[simp] theorem State.setZone_transit (h : Fin 4) (z : Zone) : (s.setZone h z).transit = s.transit := rfl
@[simp] theorem State.setZone_pending (h : Fin 4) (z : Zone) : (s.setZone h z).pending = s.pending := rfl

/-! ### State.modPlan -/
@[simp] theorem State.modPlan_mem (n : Nat) (f : Plan → Plan) : (s.modPlan n f).mem = s.mem := rfl
@[simp] theorem State.modPlan_port (n : Nat) (f : Plan → Plan) : (s.modPlan n f).port = s.port := rfl
@[simp] theorem State.modPlan_survey (n : Nat) (f : Plan → Plan) : (s.modPlan n f).survey = s.survey := rfl
@[simp] theorem State.modPlan_guard (n : Nat) (f : Plan → Plan) : (s.modPlan n f).guard = s.guard := rfl
@[simp] theorem State.modPlan_act (n : Nat) (f : Plan → Plan) : (s.modPlan n f).act = s.act := rfl
@[simp] theorem State.modPlan_cal (n : Nat) (f : Plan → Plan) : (s.modPlan n f).cal = s.cal := rfl
@[simp] theorem State.modPlan_arb (n : Nat) (f : Plan → Plan) : (s.modPlan n f).arb = s.arb := rfl
@[simp] theorem State.modPlan_frost (n : Nat) (f : Plan → Plan) : (s.modPlan n f).frost = s.frost := rfl
@[simp] theorem State.modPlan_eng (n : Nat) (f : Plan → Plan) : (s.modPlan n f).eng = s.eng := rfl
@[simp] theorem State.modPlan_jrn (n : Nat) (f : Plan → Plan) : (s.modPlan n f).jrn = s.jrn := rfl
@[simp] theorem State.modPlan_sys (n : Nat) (f : Plan → Plan) : (s.modPlan n f).sys = s.sys := rfl
@[simp] theorem State.modPlan_transit (n : Nat) (f : Plan → Plan) : (s.modPlan n f).transit = s.transit := rfl
@[simp] theorem State.modPlan_pending (n : Nat) (f : Plan → Plan) : (s.modPlan n f).pending = s.pending := rfl

/-! ### State.clearPauses -/
@[simp] theorem State.clearPauses_mem (c : Pause) : (s.clearPauses c).mem = s.mem := rfl
@[simp] theorem State.clearPauses_port (c : Pause) : (s.clearPauses c).port = s.port := rfl
@[simp] theorem State.clearPauses_survey (c : Pause) : (s.clearPauses c).survey = s.survey := rfl
@[simp] theorem State.clearPauses_guard (c : Pause) : (s.clearPauses c).guard = s.guard := rfl
@[simp] theorem State.clearPauses_act (c : Pause) : (s.clearPauses c).act = s.act := rfl
@[simp] theorem State.clearPauses_cal (c : Pause) : (s.clearPauses c).cal = s.cal := rfl
@[simp] theorem State.clearPauses_arb (c : Pause) : (s.clearPauses c).arb = s.arb := rfl
@[simp] theorem State.clearPauses_frost (c : Pause) : (s.clearPauses c).frost = s.frost := rfl
@[simp] theorem State.clearPauses_eng (c : Pause) : (s.clearPauses c).eng = s.eng := rfl
@[simp] theorem State.clearPauses_jrn (c : Pause) : (s.clearPauses c).jrn = s.jrn := rfl
@[simp] theorem State.clearPauses_sys (c : Pause) : (s.clearPauses c).sys = s.sys := rfl
@[simp] theorem State.clearPauses_transit (c : Pause) : (s.clearPauses c).transit = s.transit := rfl
@[simp] theorem State.clearPauses_pending (c : Pause) : (s.clearPauses c).pending = s.pending := rfl

/-! ### State.pausePlan -/
@[simp] theorem State.pausePlan_mem (n : Nat) (c : Pause) : (s.pausePlan n c).mem = s.mem := rfl
@[simp] theorem State.pausePlan_port (n : Nat) (c : Pause) : (s.pausePlan n c).port = s.port := rfl
@[simp] theorem State.pausePlan_survey (n : Nat) (c : Pause) : (s.pausePlan n c).survey = s.survey := rfl
@[simp] theorem State.pausePlan_guard (n : Nat) (c : Pause) : (s.pausePlan n c).guard = s.guard := rfl
@[simp] theorem State.pausePlan_act (n : Nat) (c : Pause) : (s.pausePlan n c).act = s.act := rfl
@[simp] theorem State.pausePlan_cal (n : Nat) (c : Pause) : (s.pausePlan n c).cal = s.cal := rfl
@[simp] theorem State.pausePlan_arb (n : Nat) (c : Pause) : (s.pausePlan n c).arb = s.arb := rfl
@[simp] theorem State.pausePlan_frost (n : Nat) (c : Pause) : (s.pausePlan n c).frost = s.frost := rfl
@[simp] theorem State.pausePlan_eng (n : Nat) (c : Pause) : (s.pausePlan n c).eng = s.eng := rfl
@[simp] theorem State.pausePlan_jrn (n : Nat) (c : Pause) : (s.pausePlan n c).jrn = s.jrn := rfl
@[simp] theorem State.pausePlan_sys (n : Nat) (c : Pause) : (s.pausePlan n c).sys = s.sys := rfl
@[simp] theorem State.pausePlan_transit (n : Nat) (c : Pause) : (s.pausePlan n c).transit = s.transit := rfl
@[simp] theorem State.pausePlan_pending (n : Nat) (c : Pause) : (s.pausePlan n c).pending = s.pending := rfl

/-! ### State.activate -/
@[simp] theorem State.activate_mem (n : Nat) : (s.activate n).mem = s.mem := rfl
@[simp] theorem State.activate_port (n : Nat) : (s.activate n).port = s.port := rfl
@[simp] theorem State.activate_survey (n : Nat) : (s.activate n).survey = s.survey := rfl
@[simp] theorem State.activate_guard (n : Nat) : (s.activate n).guard = s.guard := rfl
@[simp] theorem State.activate_act (n : Nat) : (s.activate n).act = s.act := rfl
@[simp] theorem State.activate_cal (n : Nat) : (s.activate n).cal = s.cal := rfl
@[simp] theorem State.activate_arb (n : Nat) : (s.activate n).arb = s.arb := rfl
@[simp] theorem State.activate_frost (n : Nat) : (s.activate n).frost = s.frost := rfl
@[simp] theorem State.activate_eng (n : Nat) : (s.activate n).eng = s.eng := rfl
@[simp] theorem State.activate_jrn (n : Nat) : (s.activate n).jrn = s.jrn := rfl
@[simp] theorem State.activate_sys (n : Nat) : (s.activate n).sys = s.sys := rfl
@[simp] theorem State.activate_transit (n : Nat) : (s.activate n).transit = s.transit := rfl
@[simp] theorem State.activate_pending (n : Nat) : (s.activate n).pending = s.pending := rfl

/-! ### What an update changes -/
@[simp] theorem State.post_transit (m : Instr) : (s.post m).transit = s.transit ++ [m] := rfl
@[simp] theorem State.posts_transit (l : List Instr) : (s.posts l).transit = s.transit ++ l := rfl
@[simp] theorem State.tellFrost_transit (h : Fin 4) (k : Notice) :
    (s.tellFrost h k).transit = s.transit ++ [.heaterNotice h k] := rfl
@[simp] theorem State.modGuard_guard (f : GuardState → GuardState) : (s.modGuard f).guard = f s.guard := rfl
@[simp] theorem State.modSurvey_survey (f : SurveyState → SurveyState) : (s.modSurvey f).survey = f s.survey := rfl
@[simp] theorem State.poke_mem (p : Page) (o : Nat) (l : List Byte) : (s.poke p o l).mem = s.mem.writes (addr p o) l := rfl

/-! ### Pumps, heaters, inlet and holds -/
@[simp] theorem State.pump_setPump (n m : Fin 4) (p : Pump) :
    (s.setPump n p).pump m = if n = m then p else s.pump m := by
  simp [State.pump, State.setPump, Vector.getElem_set, Fin.ext_iff]
@[simp] theorem State.pump_modPump (n m : Fin 4) (f : Pump → Pump) :
    (s.modPump n f).pump m = if n = m then f (s.pump n) else s.pump m := State.pump_setPump s n m _
@[simp] theorem State.heater_setPump (n : Fin 4) (p : Pump) (h : Fin 4) : (s.setPump n p).heater h = s.heater h := rfl
@[simp] theorem State.heater_modPump (n : Fin 4) (f : Pump → Pump) (h : Fin 4) : (s.modPump n f).heater h = s.heater h := rfl
@[simp] theorem State.inlet_setPump (n : Fin 4) (p : Pump) : (s.setPump n p).act.inlet = s.act.inlet := rfl
@[simp] theorem State.inlet_modPump (n : Fin 4) (f : Pump → Pump) : (s.modPump n f).act.inlet = s.act.inlet := rfl
@[simp] theorem State.holds_setPump (n : Fin 4) (p : Pump) : (s.setPump n p).act.holds = s.act.holds := rfl
@[simp] theorem State.holds_modPump (n : Fin 4) (f : Pump → Pump) : (s.modPump n f).act.holds = s.act.holds := rfl
@[simp] theorem State.heater_setHeater (h k : Fin 4) (p : Heater) :
    (s.setHeater h p).heater k = if h = k then p else s.heater k := by
  simp [State.heater, State.setHeater, Vector.getElem_set, Fin.ext_iff]
@[simp] theorem State.heater_modHeater (h k : Fin 4) (f : Heater → Heater) :
    (s.modHeater h f).heater k = if h = k then f (s.heater h) else s.heater k := State.heater_setHeater s h k _
@[simp] theorem State.pump_setHeater (h : Fin 4) (p : Heater) (n : Fin 4) : (s.setHeater h p).pump n = s.pump n := rfl
@[simp] theorem State.pump_modHeater (h : Fin 4) (f : Heater → Heater) (n : Fin 4) : (s.modHeater h f).pump n = s.pump n := rfl
@[simp] theorem State.inlet_setHeater (h : Fin 4) (p : Heater) : (s.setHeater h p).act.inlet = s.act.inlet := rfl
@[simp] theorem State.inlet_modHeater (h : Fin 4) (f : Heater → Heater) : (s.modHeater h f).act.inlet = s.act.inlet := rfl
@[simp] theorem State.holds_setHeater (h : Fin 4) (p : Heater) : (s.setHeater h p).act.holds = s.act.holds := rfl
@[simp] theorem State.holds_modHeater (h : Fin 4) (f : Heater → Heater) : (s.modHeater h f).act.holds = s.act.holds := rfl
@[simp] theorem State.inlet_modInlet (f : Inlet → Inlet) : (s.modInlet f).act.inlet = f s.act.inlet := rfl
@[simp] theorem State.pump_modInlet (f : Inlet → Inlet) (n : Fin 4) : (s.modInlet f).pump n = s.pump n := rfl
@[simp] theorem State.heater_modInlet (f : Inlet → Inlet) (h : Fin 4) : (s.modInlet f).heater h = s.heater h := rfl
@[simp] theorem State.holds_modInlet (f : Inlet → Inlet) : (s.modInlet f).act.holds = s.act.holds := rfl

/-! ### The order engine -/
@[simp] theorem State.modRecords_access (p : Page) (f : Nat → Nat) : (s.modRecords p f).eng.access = s.eng.access := rfl
@[simp] theorem State.modRecords_inflight (p : Page) (f : Nat → Nat) : (s.modRecords p f).eng.inflight = s.eng.inflight := rfl
@[simp] theorem State.modTaken_access (p : Page) (f : TakenPage → TakenPage) : (s.modTaken p f).eng.access = s.eng.access := rfl
@[simp] theorem State.setAccess_access (a : Access) : (s.setAccess a).eng.access = a := rfl
@[simp] theorem State.setAccess_taken (a : Access) : (s.setAccess a).eng.taken = s.eng.taken := rfl
@[simp] theorem State.setAccess_inflight (a : Access) : (s.setAccess a).eng.inflight = s.eng.inflight := rfl
@[simp] theorem State.renewService_access : s.renewService.eng.access = s.eng.access := rfl

end Sys2Proof.Machine
end

