-- ==== Sys2Proof/Laws/Memory.lean ====
section
/-! SUPPORT. Tower memory: what is read after a write, and that every write keeps the canonical form. -/

namespace Sys2Proof.Machine

/-! ### Reads -/

theorem Memory.read_insert (m : Memory) (a b : Nat) (v : Byte) :
    (Memory.insert m a v).read b = if a = b then v else m.read b := by
  induction m with
  | nil => simp [Memory.insert, Memory.read]
  | cons c m ih =>
    obtain ⟨x, w⟩ := c
    simp only [Memory.insert]
    split
    · simp only [Memory.read]
    · split
      · rename_i h; subst h; simp only [Memory.read]; split <;> rfl
      · simp only [Memory.read, ih]
        repeat' split
        all_goals first | rfl | omega

theorem Memory.read_filter (m : Memory) (a b : Nat) :
    Memory.read (m.filter fun c => decide (c.1 ≠ a)) b = if a = b then Config.blankByte else m.read b := by
  induction m with
  | nil => simp [Memory.read]
  | cons c m ih =>
    obtain ⟨x, w⟩ := c
    by_cases h : x = a
    · subst h
      simp only [List.filter_cons, ne_eq, not_true_eq_false, decide_false, Bool.false_eq_true, if_false, ih, Memory.read]
      split <;> rfl
    · simp only [List.filter_cons, ne_eq, h, not_false_eq_true, decide_true, if_true, Memory.read, ih]
      repeat' split
      all_goals first | rfl | omega

/-- A read after a write of a byte inside tower memory. -/
theorem Memory.read_write (m : Memory) (a b : Nat) (v : Byte) (h : a < Config.memBytes) :
    (m.write a v).read b = if a = b then v else m.read b := by
  unfold Memory.write
  rw [if_neg (by omega)]
  split
  · rename_i hv; rw [Memory.read_filter, hv]
  · exact Memory.read_insert m a b v

/-- A write of a byte leaves every other byte. -/
theorem Memory.read_write_of_ne (m : Memory) (a b : Nat) (v : Byte) (h : a ≠ b) : (m.write a v).read b = m.read b := by
  by_cases hl : a < Config.memBytes
  · rw [Memory.read_write m a b v hl, if_neg h]
  · unfold Memory.write; rw [if_pos (by omega)]

/-- Bytes outside those written read as before. -/
theorem Memory.read_writes_outside (vs : List Byte) : ∀ (m : Memory) (a b : Nat),
    (b < a ∨ a + vs.length ≤ b) → (m.writes a vs).read b = m.read b := by
  induction vs with
  | nil => intro m a b _; rfl
  | cons v vs ih =>
    intro m a b h
    simp only [List.length_cons] at h
    rw [Memory.writes, ih _ _ _ (by omega), Memory.read_write_of_ne _ _ _ _ (by omega)]

/-- Each byte written inside tower memory is read back. -/
theorem Memory.read_writes_inside (vs : List Byte) : ∀ (m : Memory) (a i : Nat) (h : i < vs.length),
    a + vs.length ≤ Config.memBytes → (m.writes a vs).read (a + i) = vs[i] := by
  induction vs with
  | nil => intro m a i h; simp at h
  | cons v vs ih =>
    intro m a i h hl
    simp only [List.length_cons] at h hl
    rw [Memory.writes]
    cases i with
    | zero =>
      rw [Memory.read_writes_outside _ _ _ _ (by omega), Memory.read_write _ _ _ _ (by omega)]
      simp
    | succ i =>
      have := ih (m.write a v) (a + 1) i (by omega) (by omega)
      rw [show a + (i + 1) = a + 1 + i by omega, this]
      simp

/-! ### The canonical form -/

/-- The canonical form, as a proposition. -/
theorem Memory.wf_iff (m : Memory) : m.wf = true ↔
    m.Pairwise (fun x y => x.1 < y.1) ∧ ∀ c ∈ m, c.1 < Config.memBytes ∧ c.2 ≠ Config.blankByte := by
  simp [Memory.wf]

theorem Memory.mem_insert (m : Memory) (a : Nat) (v : Byte) (c : Host.Cell) (h : c ∈ Memory.insert m a v) :
    c = (a, v) ∨ c ∈ m := by
  induction m with
  | nil => simpa [Memory.insert] using h
  | cons d m ih =>
    obtain ⟨b, w⟩ := d
    simp only [Memory.insert] at h
    split at h
    · simpa using h
    · split at h
      · simp only [List.mem_cons] at h ⊢
        rcases h with h | h
        · exact Or.inl h
        · exact Or.inr (Or.inr h)
      · simp only [List.mem_cons] at h ⊢
        rcases h with h | h
        · exact Or.inr (Or.inl h)
        · exact (ih h).imp id Or.inr

theorem Memory.insert_rising (m : Memory) (a : Nat) (v : Byte) (h : m.Pairwise fun x y => x.1 < y.1) :
    (Memory.insert m a v).Pairwise fun x y => x.1 < y.1 := by
  induction m with
  | nil => simp [Memory.insert]
  | cons d m ih =>
    obtain ⟨b, w⟩ := d
    rw [List.pairwise_cons] at h
    obtain ⟨hb, hm⟩ := h
    simp only [Memory.insert]
    split
    · rename_i hab
      rw [List.pairwise_cons, List.pairwise_cons]
      refine ⟨fun c hc => ?_, hb, hm⟩
      rcases List.mem_cons.mp hc with rfl | hc
      · exact hab
      · exact Nat.lt_trans hab (hb c hc)
    · split
      · rename_i hab
        subst hab
        exact List.pairwise_cons.mpr ⟨hb, hm⟩
      · rename_i h1 h2
        refine List.pairwise_cons.mpr ⟨fun c hc => ?_, ih hm⟩
        rcases Memory.mem_insert m a v c hc with rfl | hc
        · show b < a
          omega
        · exact hb c hc

/-- Every write of a byte keeps the canonical form. -/
theorem Memory.write_wf (m : Memory) (a : Nat) (v : Byte) (h : m.wf = true) : (m.write a v).wf = true := by
  rw [Memory.wf_iff] at h ⊢
  unfold Memory.write
  split
  · exact h
  · rename_i hlt
    split
    · exact ⟨h.1.filter _, fun c hc => h.2 c ((List.mem_filter.mp hc).1)⟩
    · rename_i hv
      refine ⟨Memory.insert_rising m a v h.1, fun c hc => ?_⟩
      rcases Memory.mem_insert m a v c hc with rfl | hc
      · exact ⟨by omega, hv⟩
      · exact h.2 c hc

/-- Every write of bytes keeps the canonical form. -/
theorem Memory.writes_wf (vs : List Byte) : ∀ (m : Memory) (a : Nat), m.wf = true → (m.writes a vs).wf = true := by
  induction vs with
  | nil => intro m a h; exact h
  | cons v vs ih => intro m a h; exact ih _ _ (Memory.write_wf m a v h)

end Sys2Proof.Machine
end

