-- ==== Sys2Proof/Laws/Path.lean ====
section
/-! SUPPORT. What a command can do, said once: every operation of the model is a path of moves, each move a change of one
part of the state under a condition that keeps the invariants of Safety.lean. A scope says which parts and which bytes of
tower memory a path may change. -/

namespace Sys2Proof.Machine

/-- The parts of the state a scope names. `records` is the record counts of the taken pages, `eng` the rest of the order
engine, `regs` the port's registers but for a flag that is raised; tower memory is named byte by byte, and messages may always set
out. -/
inductive Part where
  | port | survey | guard | act | cal | arb | plans | frost | records | eng | jrn | sys | access | power | regs
  deriving DecidableEq, Repr

/-- The engine's access state, the pages submitted and taken, and the last taken sequence byte. -/
structure EngState.samePages (x y : EngState) : Prop where
  access : x.access = y.access
  submitted : x.submitted = y.submitted
  lastTaken : x.lastTaken = y.lastTaken
  taken : x.taken.map TakenPage.page = y.taken.map TakenPage.page

/-- The power state and the marks of start-up. -/
structure SysState.samePower (x y : SysState) : Prop where
  power : x.power = y.power
  started : x.started = y.started
  held : x.held = y.held

/-- The port's registers but for its detail lines, the copy of the map, and flags that have been raised. -/
structure PortState.sameRegs (x y : PortState) : Prop where
  attnEn : x.attnEn = y.attnEn
  protect : x.protect = y.protect
  copies : x.copies = y.copies
  board : x.board = y.board
  mapReady : x.mapReady = y.mapReady
  flags : ∀ i : Fin 6, y.attn.getLsbD i.val = true → x.attn.getLsbD i.val = true

/-- What a path may change. -/
structure Scope where
  part : Part → Prop
  byte : Nat → Prop

/-- The scope may change what a record changes on its way into the journal. -/
class AllowsJournal (K : Scope) : Prop where
  port : K.part .port
  records : K.part .records
  jrn : K.part .jrn
/-- And the plan table. -/
class AllowsPlans (K : Scope) : Prop extends AllowsJournal K where
  plans : K.part .plans
/-- And the actuator table. -/
class AllowsActs (K : Scope) : Prop extends AllowsPlans K where
  act : K.part .act
/-- And the guard. -/
class AllowsGuard (K : Scope) : Prop extends AllowsActs K where
  guard : K.part .guard
/-- And the load arbiter. -/
class AllowsArbiter (K : Scope) : Prop extends AllowsActs K where
  arb : K.part .arb
/-- And the frost unit. -/
class AllowsFrost (K : Scope) : Prop extends AllowsActs K where
  frost : K.part .frost
/-- And the survey unit. -/
class AllowsSurvey (K : Scope) : Prop extends AllowsJournal K where
  survey : K.part .survey
/-- And the calendar. -/
class AllowsCalendar (K : Scope) : Prop extends AllowsPlans K where
  cal : K.part .cal
/-- And the order engine. -/
class AllowsEngine (K : Scope) : Prop extends AllowsActs K where
  eng : K.part .eng
/-- Everything an order may change. -/
class AllowsOrders (K : Scope) : Prop extends AllowsGuard K, AllowsArbiter K, AllowsFrost K, AllowsSurvey K, AllowsCalendar K,
    AllowsEngine K where
  sys : K.part .sys
/-- And the access state and the pages submitted and taken. -/
class AllowsAccess (K : Scope) : Prop extends AllowsOrders K where
  access : K.part .access
/-- What a record may change, and the port's registers. -/
class AllowsRegs (K : Scope) : Prop extends AllowsJournal K where
  regs : K.part .regs
/-- And the power state and the marks of start-up. -/
class AllowsPower (K : Scope) : Prop extends AllowsAccess K where
  power : K.part .power
/-- Every part. -/
class AllowsAll (K : Scope) : Prop extends AllowsPower K, AllowsRegs K

/-- The scope names every byte of the map, of the board page, and of the pages the part writes to. -/
def State.owned (K : Scope) (s : State) : Prop :=
  (∀ a < 512, K.byte a) ∧ ∀ p, s.ownPage p → ∀ o < 256, K.byte (addr p o)

/-- How one pump entry may change: a contactor goes on only where R40 lets a try begin. -/
structure PumpStep (s : State) (p q : Pump) : Prop where
  ok : p.contactorOk → q.contactorOk
  on : q.contactor = true →
    p.contactor = true ∨ (s.guard.mode.seizes = false ∧ s.eng.access ≠ .localControl ∧ s.sys.power = .run)
  starts : q.starts.length ≤ max p.starts.length Config.startsMax

/-- And how it may change beside an inlet that stays as it is: a contactor that is on has an owner that the inlet serves. -/
structure PumpMove (s : State) (p q : Pump) : Prop where
  step : PumpStep s p q
  serve : p.contactorOk → q.contactor = true →
    p.contactor = true ∧ (q.owner = p.owner ∨ s.act.inlet.serves q.owner)
      ∨ s.act.inlet.mode = .opened ∧ s.act.inlet.cmd = some .opened ∧ s.act.inlet.serves q.owner

/-- How one heater entry may change. -/
structure HeaterMove (s : State) (p q : Heater) : Prop where
  ok : p.contactorOk → q.contactorOk
  on : q.contactor = true → p.contactor = true ∨ s.sys.power = .run

/-- One move of a part other than tower memory, on a path that began at `r`. -/
inductive Move (K : Scope) (r : State) : State → State → Prop where
  | port (s : State) (x : PortState) (hk : K.part .port) (h : ¬K.part .regs → x.sameRegs s.port)
      (hj : s.openAgrees → State.openAgrees { s with port := x }) : Move K r s { s with port := x }
  | survey (s : State) (x : SurveyState) (hk : K.part .survey) : Move K r s { s with survey := x }
  | guard (s : State) (x : GuardState) (hk : K.part .guard)
      (h : r.pumpsOk → x.mode.seizes = true → s.guard.mode.seizes = true ∨ s.pumpsOff) : Move K r s { s with guard := x }
  | act (s : State) (x : ActState) (hk : K.part .act)
      (hp : ∀ n : Fin 4, PumpStep s (s.pump n) (x.pumps[n.val]'n.isLt))
      (hq : ∀ k : Fin 4, HeaterMove s (s.heater k) (x.heaters[k.val]'k.isLt))
      (hh : x.holds.length ≤ max s.act.holds.length Config.holdsMax)
      (hd : r.guarded → s.act.inletGuards → x.inletGuards) : Move K r s { s with act := x }
  | cal (s : State) (x : CalState) (hk : K.part .cal) : Move K r s { s with cal := x }
  | arb (s : State) (x : ArbState) (hk : K.part .arb) (h : s.arb.sound → x.sound) : Move K r s { s with arb := x }
  | plans (s : State) (x : PlanCtl) (hk : K.part .plans) : Move K r s { s with plans := x }
  | frost (s : State) (x : FrostCtl) (hk : K.part .frost) : Move K r s { s with frost := x }
  | records (s : State) (x : List TakenPage) (hk : K.part .records)
      (h : x.map (fun t => (t.page, t.next, t.parked)) = s.eng.taken.map fun t => (t.page, t.next, t.parked)) :
      Move K r s { s with eng := { s.eng with taken := x } }
  | eng (s : State) (x : EngState) (hk : K.part .eng)
      (ha : r.pumpsOk → x.access = .localControl → s.eng.access = .localControl ∨ s.pumpsOff)
      (ht : x.taken.length ≤ max s.eng.taken.length Config.takenMax)
      (hf : x.inflight.length ≤ max s.eng.inflight.length Config.inflightMax)
      (hb : s.eng.flightsTaken → x.flightsTaken)
      (ho : r.owned K → State.owned K { s with eng := x }) (hs : ¬K.part .access → x.samePages s.eng) :
      Move K r s { s with eng := x }
  | jrn (s : State) (x : JrnState) (hk : K.part .jrn)
      (hq : r.jrn.queue.length ≤ Config.queueMax → x.queue.length ≤ Config.queueMax)
      (hj : s.openAgrees → State.openAgrees { s with jrn := x })
      (ho : r.owned K → State.owned K { s with jrn := x }) : Move K r s { s with jrn := x }
  | sys (s : State) (x : SysState) (hk : K.part .sys) (hs : ¬K.part .power → x.samePower s.sys) : Move K r s { s with sys := x }
  | transit (s : State) (x : List Instr) : Move K r s { s with transit := x }

/-- A path of moves, and of writes to tower memory inside the scope. -/
inductive Path (K : Scope) (r : State) : State → Prop where
  | refl : Path K r r
  | step {s t : State} (h : Path K r s) (m : Move K r s t) : Path K r t
  | mem {s : State} (h : Path K r s) (a : Nat) (vs : List Byte)
      (hb : r.owned K → ∀ i < vs.length, K.byte (a + i)) : Path K r { s with mem := s.mem.writes a vs }

/-! ### What every path keeps -/

/-- What is true of the end of a path from what is true of each move and of each write. -/
theorem Path.keeps {K : Scope} {P : State → Prop} {r s : State} (hm : ∀ s t, Move K r s t → P s → P t)
    (hw : ∀ s a vs, P s → P { s with mem := Memory.writes s.mem a vs }) (h : Path K r s) : P r → P s := by
  induction h with
  | refl => exact id
  | step _ m ih => exact fun hr => hm _ _ m (ih hr)
  | mem _ a vs _ ih => exact fun hr => hw _ a vs (ih hr)

/-- The queue of commands is untouched. -/
theorem Path.pending_eq {K : Scope} {r s : State} (h : Path K r s) : s.pending = r.pending :=
  h.keeps (P := fun t => t.pending = r.pending) (by intro s t m h; cases m <;> exact h) (fun _ _ _ h => h) rfl

/-- Tower memory keeps its canonical form. -/
theorem Path.mem_wf {K : Scope} {r s : State} (h : Path K r s) (hr : r.mem.wf = true) : s.mem.wf = true :=
  h.keeps (P := fun t => t.mem.wf = true) (by
    intro s t m h
    cases m <;> exact h) (fun _ a vs h => Memory.writes_wf vs _ a h) hr

theorem Path.port_eq {K : Scope} {r s : State} (h : Path K r s) (hk : ¬K.part .port) : s.port = r.port :=
  h.keeps (P := fun t => t.port = r.port) (by intro s t m h; cases m <;> first | exact h | contradiction) (fun _ _ _ h => h) rfl
theorem Path.survey_eq {K : Scope} {r s : State} (h : Path K r s) (hk : ¬K.part .survey) : s.survey = r.survey :=
  h.keeps (P := fun t => t.survey = r.survey) (by intro s t m h; cases m <;> first | exact h | contradiction) (fun _ _ _ h => h) rfl
theorem Path.guard_eq {K : Scope} {r s : State} (h : Path K r s) (hk : ¬K.part .guard) : s.guard = r.guard :=
  h.keeps (P := fun t => t.guard = r.guard) (by intro s t m h; cases m <;> first | exact h | contradiction) (fun _ _ _ h => h) rfl
theorem Path.act_eq {K : Scope} {r s : State} (h : Path K r s) (hk : ¬K.part .act) : s.act = r.act :=
  h.keeps (P := fun t => t.act = r.act) (by intro s t m h; cases m <;> first | exact h | contradiction) (fun _ _ _ h => h) rfl
theorem Path.cal_eq {K : Scope} {r s : State} (h : Path K r s) (hk : ¬K.part .cal) : s.cal = r.cal :=
  h.keeps (P := fun t => t.cal = r.cal) (by intro s t m h; cases m <;> first | exact h | contradiction) (fun _ _ _ h => h) rfl
theorem Path.arb_eq {K : Scope} {r s : State} (h : Path K r s) (hk : ¬K.part .arb) : s.arb = r.arb :=
  h.keeps (P := fun t => t.arb = r.arb) (by intro s t m h; cases m <;> first | exact h | contradiction) (fun _ _ _ h => h) rfl
theorem Path.plans_eq {K : Scope} {r s : State} (h : Path K r s) (hk : ¬K.part .plans) : s.plans = r.plans :=
  h.keeps (P := fun t => t.plans = r.plans) (by intro s t m h; cases m <;> first | exact h | contradiction) (fun _ _ _ h => h) rfl
theorem Path.frost_eq {K : Scope} {r s : State} (h : Path K r s) (hk : ¬K.part .frost) : s.frost = r.frost :=
  h.keeps (P := fun t => t.frost = r.frost) (by intro s t m h; cases m <;> first | exact h | contradiction) (fun _ _ _ h => h) rfl
theorem Path.jrn_eq {K : Scope} {r s : State} (h : Path K r s) (hk : ¬K.part .jrn) : s.jrn = r.jrn :=
  h.keeps (P := fun t => t.jrn = r.jrn) (by intro s t m h; cases m <;> first | exact h | contradiction) (fun _ _ _ h => h) rfl
theorem Path.sys_eq {K : Scope} {r s : State} (h : Path K r s) (hk : ¬K.part .sys) : s.sys = r.sys :=
  h.keeps (P := fun t => t.sys = r.sys) (by intro s t m h; cases m <;> first | exact h | contradiction) (fun _ _ _ h => h) rfl

/-- Outside the order engine's scope, only the record counts of its taken pages change. -/
theorem Path.eng_same {K : Scope} {r s : State} (h : Path K r s) (hk : ¬K.part .eng) : s.eng.sameButRecords r.eng :=
  h.keeps (P := fun t => t.eng.sameButRecords r.eng) (by
    intro s t m h
    cases m
    case records x _ hx => exact ⟨h.submitted, hx.trans h.taken, h.inflight, h.lastTaken, h.access, h.serviceEnd⟩
    all_goals first | exact h | contradiction) (fun _ _ _ h => h) ⟨rfl, rfl, rfl, rfl, rfl, rfl⟩

theorem Path.eng_eq {K : Scope} {r s : State} (h : Path K r s) (hk : ¬K.part .eng) (hr : ¬K.part .records) :
    s.eng = r.eng :=
  h.keeps (P := fun t => t.eng = r.eng) (by intro s t m h; cases m <;> first | exact h | contradiction) (fun _ _ _ h => h) rfl

/-- The pages of the taken entries, from their entries without counts. -/
theorem taken_pages {x y : List TakenPage}
    (h : x.map (fun t => (t.page, t.next, t.parked)) = y.map fun t => (t.page, t.next, t.parked)) :
    x.map TakenPage.page = y.map TakenPage.page := by
  have := congrArg (List.map (fun q : Page × Nat × Bool => q.1)) h
  simpa [List.map_map, Function.comp_def] using this

/-- Outside the scope of `access`, the engine's access state and pages stay. -/
theorem Path.pages_same {K : Scope} {r s : State} (h : Path K r s) (hk : ¬K.part .access) : s.eng.samePages r.eng :=
  h.keeps (P := fun t => t.eng.samePages r.eng) (by
    intro s t m h
    cases m
    case records x _ hx => exact ⟨h.access, h.submitted, h.lastTaken, (taken_pages hx).trans h.taken⟩
    case eng x _ _ _ _ _ _ hs =>
      have := hs hk
      exact ⟨this.access.trans h.access, this.submitted.trans h.submitted, this.lastTaken.trans h.lastTaken,
        this.taken.trans h.taken⟩
    all_goals exact h) (fun _ _ _ h => h) ⟨rfl, rfl, rfl, rfl⟩

/-- Outside the scope of `power`, the power state and the marks of start-up stay. -/
theorem Path.power_same {K : Scope} {r s : State} (h : Path K r s) (hk : ¬K.part .power) : s.sys.samePower r.sys :=
  h.keeps (P := fun t => t.sys.samePower r.sys) (by
    intro s t m h
    cases m
    case sys x _ hs =>
      have := hs hk
      exact ⟨this.power.trans h.power, this.started.trans h.started, this.held.trans h.held⟩
    all_goals exact h) (fun _ _ _ h => h) ⟨rfl, rfl, rfl⟩

/-- Outside the scope of `regs`, the port's registers stay but for flags that are raised. -/
theorem Path.regs_same {K : Scope} {r s : State} (h : Path K r s) (hk : ¬K.part .regs) : s.port.sameRegs r.port :=
  h.keeps (P := fun t => t.port.sameRegs r.port) (by
    intro s t m h
    cases m
    case port x _ hs _ =>
      have := hs hk
      exact ⟨this.attnEn.trans h.attnEn, this.protect.trans h.protect, this.copies.trans h.copies, this.board.trans h.board,
        this.mapReady.trans h.mapReady, fun i hi => this.flags i (h.flags i hi)⟩
    all_goals exact h) (fun _ _ _ h => h) ⟨rfl, rfl, rfl, rfl, rfl, fun _ => id⟩

/-- Outside the scope of `power`, in a power state other than RUN, no contactor goes on (R81). -/
theorem Path.stays_off {K : Scope} {r s : State} (h : Path K r s) (hk : ¬K.part .power) (hr : r.sys.power ≠ .run) :
    (∀ n, (r.pump n).contactor = false → (s.pump n).contactor = false) ∧
      ∀ k, (r.heater k).contactor = false → (s.heater k).contactor = false := by
  induction h with
  | refl => exact ⟨fun _ => id, fun _ => id⟩
  | @step s t h m ih =>
    have hs : s.sys.power ≠ .run := by rw [(h.power_same hk).power]; exact hr
    cases m
    case act x _ hp hq _ _ =>
      refine ⟨fun n hn => Bool.eq_false_iff.mpr fun hc => ?_, fun k hn => Bool.eq_false_iff.mpr fun hc => ?_⟩
      · rcases (hp n).on hc with hon | hon
        · rw [ih.1 n hn] at hon; cases hon
        · exact hs hon.2.2
      · rcases (hq k).on hc with hon | hon
        · rw [ih.2 k hn] at hon; cases hon
        · exact hs hon
    all_goals exact ih
  | mem _ _ _ _ ih => exact ih

theorem State.owned_records {K : Scope} (s : State) (x : List TakenPage)
    (h : x.map (fun t => (t.page, t.next, t.parked)) = s.eng.taken.map fun t => (t.page, t.next, t.parked))
    (ho : s.owned K) : State.owned K { s with eng := { s.eng with taken := x } } := by
  refine ⟨ho.1, fun p hp => ho.2 p ?_⟩
  rcases hp with hp | hp | hp | hp
  · exact Or.inl hp
  · exact Or.inr (Or.inl hp)
  · refine Or.inr (Or.inr (Or.inl ?_))
    obtain ⟨t, ht, rfl⟩ := hp
    have hm : t.page ∈ x.map TakenPage.page := List.mem_map_of_mem ht
    rw [taken_pages h, List.mem_map] at hm
    exact hm
  · exact Or.inr (Or.inr (Or.inr hp))

/-- The pages the part writes to stay within the scope. -/
theorem Path.owned {K : Scope} {r s : State} (h : Path K r s) (hr : r.owned K) : s.owned K :=
  h.keeps (P := fun t => t.owned K) (by
    intro s t m h
    cases m
    case records x _ hx => exact State.owned_records s x hx h
    case eng x _ _ _ _ _ ho _ => exact ho hr
    case jrn x _ _ _ ho => exact ho hr
    all_goals exact h) (fun _ _ _ h => h) hr

/-- The record queue stays within its room. -/
theorem Path.queueLe {K : Scope} {r s : State} (h : Path K r s) (hr : r.jrn.queue.length ≤ Config.queueMax) :
    s.jrn.queue.length ≤ Config.queueMax :=
  h.keeps (P := fun t => t.jrn.queue.length ≤ Config.queueMax) (by
    intro s t m h
    cases m
    case jrn x _ hq _ _ => exact hq hr
    all_goals exact h) (fun _ _ _ h => h) hr

/-- The contactors agree with the machine states. -/
theorem Path.pumpsOk {K : Scope} {r s : State} (h : Path K r s) (hr : r.pumpsOk) : s.pumpsOk :=
  h.keeps (P := fun t => t.pumpsOk) (by
    intro s t m h
    cases m
    case act x _ hp _ _ _ => exact fun n => (hp n).ok (h n)
    all_goals exact h) (fun _ _ _ h => h) hr

/-- The heaters' contactors agree with the machine states. -/
theorem Path.heatersOk {K : Scope} {r s : State} (h : Path K r s) (hr : r.heatersOk) : s.heatersOk :=
  h.keeps (P := fun t => t.heatersOk) (by
    intro s t m h
    cases m
    case act x _ _ hq _ _ => exact fun k => (hq k).ok (h k)
    all_goals exact h) (fun _ _ _ h => h) hr

/-- The two conditions of R46 on the contactors. -/
theorem Path.pumpsGuarded {K : Scope} {r s : State} (h : Path K r s) (hr : r.pumpsGuarded) : s.pumpsGuarded :=
  h.keeps (P := fun t => t.pumpsGuarded) (by
    intro s t m h
    cases m
    case guard x _ hg =>
      refine ⟨h.1, fun hx => ?_, h.2.2⟩
      rcases hg hr.1 hx with hs | hs
      · exact h.2.1 hs
      · exact hs
    case eng x _ ha _ _ _ _ _ =>
      refine ⟨h.1, h.2.1, fun hx => ?_⟩
      rcases ha hr.1 hx with hs | hs
      · exact h.2.2 hs
      · exact hs
    case act x _ hp _ _ _ =>
      refine ⟨fun n => (hp n).ok (h.1 n), fun hg n => ?_, fun hl n => ?_⟩
      · refine Bool.eq_false_iff.mpr fun hc => ?_
        rcases (hp n).on hc with hon | hon
        · rw [h.2.1 hg n] at hon; cases hon
        · have hg' : s.guard.mode.seizes = true := hg
          rw [hon.1] at hg'; cases hg'
      · refine Bool.eq_false_iff.mpr fun hc => ?_
        rcases (hp n).on hc with hon | hon
        · rw [h.2.2 hl n] at hon; cases hon
        · exact hon.2.1 hl
    all_goals exact h) (fun _ _ _ h => h) hr

/-- The inlet goes on guarding the pumps (R46, R53). -/
theorem Path.inletGuards {K : Scope} {r s : State} (h : Path K r s) (hr : r.guarded) : s.act.inletGuards :=
  h.keeps (P := fun t => t.act.inletGuards) (by
    intro s t m h
    cases m
    case act x _ _ _ _ hd => exact hd hr h
    all_goals exact h) (fun _ _ _ h => h) hr.2

/-- And the guard and the access state over them. -/
theorem Path.guarded {K : Scope} {r s : State} (h : Path K r s) (hr : r.guarded) : s.guarded :=
  ⟨h.pumpsGuarded hr.1, h.inletGuards hr⟩

/-- Orders in flight go on belonging to taken pages (R139). -/
theorem Path.flightsTaken {K : Scope} {r s : State} (h : Path K r s) (hr : r.eng.flightsTaken) : s.eng.flightsTaken :=
  h.keeps (P := fun t => t.eng.flightsTaken) (by
    intro s t m h
    cases m
    case eng x _ _ _ _ hb _ _ => exact hb h
    case records x _ hx =>
      intro f hf
      obtain ⟨t, ht, he⟩ := h f hf
      have hm : t.page ∈ s.eng.taken.map TakenPage.page := List.mem_map_of_mem ht
      rw [← taken_pages hx, List.mem_map] at hm
      obtain ⟨u, hu, hue⟩ := hm
      exact ⟨u, hu, hue.trans he⟩
    all_goals exact h) (fun _ _ _ h => h) hr

/-- At most one page goes on being JOURNAL_OPEN (R139). -/
theorem Path.openAgrees {K : Scope} {r s : State} (h : Path K r s) (hr : r.openAgrees) : s.openAgrees :=
  h.keeps (P := fun t => t.openAgrees) (by
    intro s t m h
    cases m
    case port x _ _ hj => exact hj h
    case jrn x _ _ hj _ => exact hj h
    all_goals exact h) (fun _ _ _ h => h) hr

/-- Paths compose. -/
theorem Path.trans {K : Scope} {r s t : State} (h : Path K r s) (k : Path K s t) : Path K r t := by
  induction k with
  | refl => exact h
  | step _ m ih =>
    cases m
    case port x hk hx hj => exact ih.step (.port _ x hk hx hj)
    case survey x hk => exact ih.step (.survey _ x hk)
    case guard x hk hg => exact ih.step (.guard _ x hk fun hr => hg (h.pumpsOk hr))
    case act x hk hp hq hh hd => exact ih.step (.act _ x hk hp hq hh fun hr => hd (h.guarded hr))
    case cal x hk => exact ih.step (.cal _ x hk)
    case arb x hk hx => exact ih.step (.arb _ x hk hx)
    case plans x hk => exact ih.step (.plans _ x hk)
    case frost x hk => exact ih.step (.frost _ x hk)
    case records x hk hx => exact ih.step (.records _ x hk hx)
    case eng x hk ha ht hf hb ho hs =>
      exact ih.step (.eng _ x hk (fun hr => ha (h.pumpsOk hr)) ht hf hb (fun hr => ho (h.owned hr)) hs)
    case jrn x hk hq hj ho => exact ih.step (.jrn _ x hk (fun hr => hq (h.queueLe hr)) hj fun hr => ho (h.owned hr))
    case sys x hk hs => exact ih.step (.sys _ x hk hs)
    case transit x => exact ih.step (.transit _ x)
  | mem _ a vs hb ih => exact ih.mem a vs fun hr => hb (h.owned hr)

/-- A byte outside the scope reads as before. -/
theorem Path.read_eq {K : Scope} {r s : State} (h : Path K r s) (hr : r.owned K) (a : Nat) (ha : ¬K.byte a) :
    s.mem.read a = r.mem.read a := by
  induction h with
  | refl => rfl
  | step _ m ih =>
    rw [← ih]
    cases m <;> rfl
  | mem _ b vs hb ih =>
    rw [← ih]
    apply Memory.read_writes_outside
    by_cases hlt : a < b
    · exact Or.inl hlt
    · refine Or.inr (Nat.le_of_not_lt fun hlt2 => ha ?_)
      have := hb hr (a - b) (by omega)
      rwa [show b + (a - b) = a by omega] at this

/-- The load arbiter stays sound. -/
theorem Path.sound {K : Scope} {r s : State} (h : Path K r s) (hr : r.arb.sound) : s.arb.sound :=
  h.keeps (P := fun t => t.arb.sound) (by
    intro s t m h
    cases m
    case arb x _ hx => exact hx h
    all_goals exact h) (fun _ _ _ h => h) hr

/-- The tables stay within their room. -/
theorem Path.withinRoom {K : Scope} {r s : State} (h : Path K r s) (hr : r.withinRoom) : s.withinRoom :=
  h.keeps (P := fun t => t.withinRoom) (by
    intro s t m h
    obtain ⟨h1, h2, h3, h4, h5⟩ := h
    cases m
    case act x _ hp _ hh _ =>
      exact ⟨h1, h2, h3, Nat.le_trans hh (Nat.max_le.mpr ⟨h4, Nat.le_refl _⟩),
        fun n => Nat.le_trans (hp n).starts (Nat.max_le.mpr ⟨h5 n, Nat.le_refl _⟩)⟩
    case records x _ hx =>
      have := congrArg List.length hx
      simp only [List.length_map] at this
      exact ⟨h1, Nat.le_trans (Nat.le_of_eq this) h2, h3, h4, h5⟩
    case eng x _ _ ht hf _ _ _ =>
      exact ⟨h1, Nat.le_trans ht (Nat.max_le.mpr ⟨h2, Nat.le_refl _⟩), Nat.le_trans hf (Nat.max_le.mpr ⟨h3, Nat.le_refl _⟩),
        h4, h5⟩
    case jrn x _ hq _ _ => exact ⟨hq hr.1, h2, h3, h4, h5⟩
    all_goals exact ⟨h1, h2, h3, h4, h5⟩) (fun _ _ _ h => h) hr

end Sys2Proof.Machine
end

