-- ==== Sys2Proof/Laws/PathBase.lean ====
section
/-! SUPPORT. The named operations of Ops.lean, Operands.lean and Flags.lean as paths of moves. -/

namespace Sys2Proof.Machine

variable {K : Scope} {r s : State}

/-! ### Folds, gates and messages -/

theorem Path.overAll {α : Type} (l : List α) (f : α → State → State)
    (hf : ∀ a ∈ l, ∀ t, Path K r t → Path K r (f a t)) : ∀ {s : State}, Path K r s → Path K r (overAll l f s) := by
  induction l with
  | nil => exact fun h => h
  | cons a l ih =>
    intro s h
    exact ih (fun b hb => hf b (List.mem_cons_of_mem a hb)) (hf a List.mem_cons_self s h)

theorem Path.transit (h : Path K r s) (l : List Instr) : Path K r { s with transit := l } := h.step (.transit _ _)
theorem Path.post (m : Instr) (h : Path K r s) : Path K r (s.post m) := h.step (.transit _ _)
theorem Path.posts (l : List Instr) (h : Path K r s) : Path K r (s.posts l) := h.step (.transit _ _)
theorem Path.unpost (m : Instr) (h : Path K r s) : Path K r (s.unpost m) := h.step (.transit _ _)

theorem Path.alive (f : State → State) (hf : ∀ t, Path K r t → Path K r (f t)) (h : Path K r s) :
    Path K r (s.alive f) := by
  unfold State.alive
  split
  · exact h
  · exact hf _ h

theorem Path.taking (c : Instr) (f : State → State) (hf : ∀ t, Path K r t → Path K r (f t)) (h : Path K r s) :
    Path K r (s.taking c f) := h.alive _ fun _ ht => hf _ (ht.transit _)

/-! ### Parts that move freely -/

theorem Path.port [AllowsJournal K] (h : Path K r s) (x : PortState) (hx : x.sameRegs s.port)
    (hj : s.openAgrees → State.openAgrees { s with port := x }) : Path K r { s with port := x } :=
  h.step (.port _ _ AllowsJournal.port (fun _ => hx) hj)
theorem Path.regs [AllowsRegs K] (h : Path K r s) (x : PortState) (hj : s.openAgrees → State.openAgrees { s with port := x }) :
    Path K r { s with port := x } :=
  h.step (.port _ _ AllowsJournal.port (fun hn => absurd AllowsRegs.regs hn) hj)
theorem Path.survey (h : Path K r s) (hk : K.part .survey) (x : SurveyState) : Path K r { s with survey := x } :=
  h.step (.survey _ _ hk)
theorem Path.cal (h : Path K r s) (hk : K.part .cal) (x : CalState) : Path K r { s with cal := x } := h.step (.cal _ _ hk)
theorem Path.plans (h : Path K r s) (hk : K.part .plans) (x : PlanCtl) : Path K r { s with plans := x } :=
  h.step (.plans _ _ hk)
theorem Path.frost (h : Path K r s) (hk : K.part .frost) (x : FrostCtl) : Path K r { s with frost := x } :=
  h.step (.frost _ _ hk)
theorem Path.sys [AllowsPower K] (h : Path K r s) (hk : K.part .sys) (x : SysState) : Path K r { s with sys := x } :=
  h.step (.sys _ _ hk fun hn => absurd AllowsPower.power hn)
theorem Path.sysRest [AllowsOrders K] (h : Path K r s) (x : SysState) (hx : x.samePower s.sys) :
    Path K r { s with sys := x } := h.step (.sys _ _ AllowsOrders.sys fun _ => hx)

/-! ### Tower memory -/

theorem leBytes_length : ∀ k n, (leBytes k n).length = k
  | 0, _ => rfl
  | k + 1, n => by simp [leBytes, leBytes_length k]
@[simp] theorem b1_length (n : Nat) : (b1 n).length = 1 := leBytes_length 1 n
@[simp] theorem b2_length (n : Nat) : (b2 n).length = 2 := leBytes_length 2 n
@[simp] theorem b4_length (n : Nat) : (b4 n).length = 4 := leBytes_length 4 n
@[simp] theorem bt_length (t : Time) : (bt t).length = 4 := leBytes_length 4 _
@[simp] theorem bb_length (x : Bool) : (bb x).length = 1 := leBytes_length 1 _
@[simp] theorem rsv_length (k : Nat) : (rsv k).length = k := by simp [rsv]
@[simp] theorem resultArea_length (l : List Byte) : (resultArea l).length = 12 := by
  simp [resultArea]

/-- A write into a page whose bytes are all in scope. -/
theorem Path.poke (p : Page) (o : Nat) (bs : List Byte) (hp : r.owned K → ∀ i < 256, K.byte (addr p i))
    (hl : o + bs.length ≤ 256) (h : Path K r s) : Path K r (s.poke p o bs) :=
  h.mem _ bs fun ho i hi => by
    have := hp ho (o + i) (by omega)
    simpa [addr, Nat.add_assoc] using this

/-- The board page is in every scope. -/
theorem board_byte (ho : r.owned K) : ∀ i < 256, K.byte (addr boardPage i) := fun i hi =>
  ho.1 _ (by simp only [addr, boardPage, Config.pageBytes]; show 256 * 1 + i < 512; omega)

/-- A page the part owns somewhere along a path is in the scope of the path. -/
theorem Path.ownByte {p : Page} (h : Path K r s) (hp : s.ownPage p) : r.owned K → ∀ i < 256, K.byte (addr p i) :=
  fun ho => (h.owned ho).2 p hp

theorem State.entry_setEntry (s : State) (p q : Page) (e : MapEntry) :
    (s.setEntry p e).entry q = if p = q then e else s.entry q := by
  simp only [State.entry, State.setEntry, Vector.getElem_set]
  by_cases h : p = q
  · subst h; simp
  · rw [if_neg (fun hv => h (Fin.ext hv)), if_neg h]

theorem Path.setEntry [AllowsJournal K] (p : Page) (e : MapEntry)
    (he : e.state = .journalOpen → s.port.mapReady = true → ∃ o, s.jrn.opened = some o ∧ o.page = p) (h : Path K r s) :
    Path K r (s.setEntry p e) := by
  have h1 : Path K r { s with mem := s.mem.writes (2 * p.val) [BitVec.ofNat 8 e.state.code, e.seq] } :=
    h.mem _ _ fun ho i hi => ho.1 _ (by simp only [List.length_cons, List.length_nil] at hi; omega)
  refine h1.port _ ⟨rfl, rfl, rfl, rfl, rfl, fun _ => id⟩ fun hs hm q hq => ?_
  have e1 : (s.setEntry p e).entry q = if p = q then e else s.entry q := s.entry_setEntry p q e
  have hq' : ((s.setEntry p e).entry q).state = .journalOpen := hq
  rw [e1] at hq'
  split at hq'
  · rename_i hp
    subst hp
    exact he hq' hm
  · exact hs hm q hq'

theorem Path.setPageState [AllowsJournal K] (p : Page) (st : PageState) (hst : st ≠ .journalOpen) (h : Path K r s) :
    Path K r (s.setPageState p st) := h.setEntry p _ fun he => absurd he hst

theorem Path.raise [AllowsJournal K] (a : Attn) (n : Nat) (h : Path K r s) : Path K r (s.raise a n) := by
  refine Path.poke boardPage _ _ board_byte ?_ (h.port _ ⟨rfl, rfl, rfl, rfl, rfl, fun i hi => by simp [hi]⟩ id)
  have := a.bit.isLt
  simp [DetailLine.bytes]
  omega

theorem Path.setProtect [AllowsRegs K] (p : Protect) (h : Path K r s) : Path K r (s.setProtect p) := by
  refine Path.poke boardPage _ _ board_byte ?_ (h.regs _ id)
  simp [Protect.bytes]

theorem Path.dropWrite [AllowsRegs K] (w : Nat) (v : Word) (c : ProtectCause) (h : Path K r s) :
    Path K r (s.dropWrite w v c) := (h.setProtect _).raise _ _

theorem Path.writeStatus (q : OrderRef) (st : Status) (rs : Reason)
    (hp : r.owned K → ∀ i < 256, K.byte (addr q.page i)) (h : Path K r s) : Path K r (s.writeStatus q st rs) := by
  refine h.poke _ _ _ hp ?_
  have := q.slot.isLt
  simp [slotOffset]
  omega

theorem Path.writeResult (q : OrderRef) (bs : List Byte)
    (hp : r.owned K → ∀ i < 256, K.byte (addr q.page i)) (h : Path K r s) : Path K r (s.writeResult q bs) := by
  refine h.poke _ _ _ hp ?_
  have := q.slot.isLt
  simp [slotOffset]
  omega

/-! ### The actuator table -/

theorem PumpMove.same (s : State) (p : Pump) : PumpMove s p p :=
  ⟨⟨id, Or.inl, Nat.le_max_left _ _⟩, fun _ h => Or.inl ⟨h, Or.inl rfl⟩⟩

/-- An inlet that serves a pump serves no other owner. -/
theorem Inlet.serves.fills {v : Inlet} {o : Owner} (h : v.serves o) : v.filling := by
  rcases h with ⟨_, h⟩ | ⟨m, _, h⟩
  · exact Or.inl h
  · exact Or.inr ⟨m, h⟩

/-- A change of the pumps alone keeps the inlet's guard over them. -/
theorem ActState.inletGuards.pumps_move {s : State} {x : ActState} (hk : s.pumpsOk) (hg : s.act.inletGuards)
    (hp : ∀ n : Fin 4, PumpMove s (s.pump n) (x.pumps[n.val]'n.isLt)) (hi : x.inlet = s.act.inlet) (hh : x.holds = s.act.holds) :
    x.inletGuards := by
  refine ⟨fun n hn => ?_, by rw [hi]; exact hg.switches, by rw [hh]; exact hg.room, by rw [hh]; exact hg.numbers,
    by rw [hh]; exact hg.acts, by rw [hh, hi]; exact hg.pending, by rw [hh, hi]; exact hg.held, by rw [hi]; exact hg.going⟩
  rw [hi]
  rcases (hp n).serve (hk n) hn with ⟨hon, ho⟩ | ⟨hm, hc, hs⟩
  · obtain ⟨h1, h2, h3⟩ := hg.pumps n hon
    refine ⟨h1, ?_, h3⟩
    rcases ho with ho | ho
    · rw [ho]; exact h2
    · exact ho
  · exact ⟨hm, hs, Or.inl hc⟩

/-- No hold names an inlet that a plan or MANUAL owns. -/
theorem ActState.inletGuards.unnamed {a : ActState} (hg : a.inletGuards) (hf : a.inlet.filling) : ∀ h ∈ a.holds, h.act ≠ .inlet := by
  intro h hh hi
  have ho : a.inlet.owner = .none ∨ a.inlet.owner = .guard ∨ a.inlet.owner = .hold := by
    cases he : h.established with
    | none => exact (hg.pending h hh hi he).imp_right Or.inl
    | some t => exact Or.inr (hg.held h hh hi (by rw [he]; rfl)).symm
  rcases hf with hf | ⟨m, hf⟩ <;> rw [hf] at ho <;> rcases ho with ho | ho | ho <;> cases ho

/-- A change of the inlet while no pump runs. -/
theorem ActState.inletGuards.inlet_off {a : ActState} (hg : a.inletGuards) (hf : ∀ n : Fin 4, (a.pumps[n.val]'n.isLt).contactor = false)
    (v : Inlet) (hs : v.mode = .opened → v.openLs = true ∧ v.closedLs = false)
    (ho : v.owner = a.inlet.owner ∨ v.owner = .guard ∨ ∀ h ∈ a.holds, h.act ≠ .inlet)
    (hw : v.going → v.filling ∨ (a.inlet.going ∧ v.owner = a.inlet.owner)) : ({ a with inlet := v } : ActState).inletGuards := by
  refine ⟨fun n hn => absurd (hf n) (by rw [hn]; exact Bool.noConfusion), hs, hg.room, hg.numbers, hg.acts, fun h hh hi he => ?_,
    fun h hh hi he => ?_, fun h => ?_⟩
  · rcases ho with ho | ho | ho
    · rw [ho]; exact hg.pending h hh hi he
    · exact Or.inr ho
    · exact absurd hi (ho h hh)
  · rcases ho with ho | ho | ho
    · rw [ho]; exact hg.held h hh hi he
    · exact Or.inr ho
    · exact absurd hi (ho h hh)
  · rcases hw h with hw | ⟨hw, he⟩
    · exact hw
    · have := hg.going hw
      unfold Inlet.filling at *
      rw [he]
      exact this

/-- How the inlet entry may change while pumps run against it. -/
structure InletMove (a : ActState) (w : Inlet) : Prop where
  owner : w.owner = a.inlet.owner
  mode : w.mode = a.inlet.mode ∨ a.inlet.mode ≠ .opened
  switches : (a.inlet.mode = .opened → a.inlet.openLs = true ∧ a.inlet.closedLs = false) →
    w.mode = .opened → w.openLs = true ∧ w.closedLs = false
  cmd : w.cmd = some .opened ∨ w.closeWait = true ∨ (w.cmd = a.inlet.cmd ∧ w.closeWait = a.inlet.closeWait)
  going : w.going → a.inlet.going ∨ a.inlet.filling

theorem ActState.inletGuards.inlet_move {a : ActState} (hg : a.inletGuards) (w : Inlet) (h : InletMove a w) :
    ({ a with inlet := w } : ActState).inletGuards := by
  have hfill : a.inlet.filling → w.filling := by
    unfold Inlet.filling
    rw [h.owner]
    exact id
  refine ⟨fun n hn => ?_, h.switches hg.switches, hg.room, hg.numbers, hg.acts, ?_, ?_, fun hw =>
    hfill ((h.going hw).elim hg.going id)⟩
  · obtain ⟨h1, h2, h3⟩ := hg.pumps n hn
    refine ⟨?_, ?_, ?_⟩
    · rcases h.mode with hm | hm
      · exact hm.trans h1
      · exact absurd h1 hm
    · unfold Inlet.serves at *
      rw [h.owner]
      exact h2
    · rcases h.cmd with hc | hc | ⟨hc, hw⟩
      · exact Or.inl hc
      · exact Or.inr hc
      · rw [hc, hw]; exact h3
  · intro x hx hi he
    rw [h.owner]
    exact hg.pending x hx hi he
  · intro x hx hi he
    rw [h.owner]
    exact hg.held x hx hi he

theorem HeaterMove.same (s : State) (p : Heater) : HeaterMove s p p := ⟨id, Or.inl⟩

/-- A heater entry that keeps its contactor and its machine state. -/
theorem HeaterMove.quiet (s : State) {p q : Heater} (hc : q.contactor = p.contactor) (hm : q.mode = p.mode) : HeaterMove s p q :=
  ⟨fun h => by unfold Heater.contactorOk at *; rwa [hc, hm], fun h => Or.inl (hc ▸ h)⟩

/-- A heater entry whose contactor is commanded off. -/
theorem HeaterMove.off (s : State) {p q : Heater} (hc : q.contactor = false) : HeaterMove s p q :=
  ⟨fun _ h => absurd (hc.symm.trans h) Bool.false_ne_true, fun h => absurd (hc.symm.trans h) Bool.false_ne_true⟩

/-- A heater entry that leaves a machine state in which the contactor is off. -/
theorem HeaterMove.rest (s : State) {p q : Heater} (hc : q.contactor = p.contactor) (hm : p.mode ≠ .starting ∧ p.mode ≠ .on) :
    HeaterMove s p q :=
  ⟨fun h hq => by
    rcases h (hc ▸ hq) with hx | hx
    · exact absurd hx hm.1
    · exact absurd hx hm.2, fun h => Or.inl (hc ▸ h)⟩

/-- A heater entry that keeps its contactor and is STARTING or ON after. -/
theorem HeaterMove.heating (s : State) {p q : Heater} (hc : q.contactor = p.contactor) (hm : q.mode = .starting ∨ q.mode = .on) :
    HeaterMove s p q :=
  ⟨fun _ _ => hm, fun h => Or.inl (hc ▸ h)⟩

/-- A change of the actuator table that leaves the pumps, and no more holds than before or than there is room for. -/
theorem Path.actRest [AllowsActs K] (x : ActState) (hp : x.pumps = s.act.pumps)
    (hh : x.holds.length ≤ max s.act.holds.length Config.holdsMax)
    (hd : r.guarded → s.act.inletGuards → x.inletGuards) (h : Path K r s)
    (hq : ∀ k : Fin 4, HeaterMove s (s.heater k) (x.heaters[k.val]'k.isLt) := by exact fun k => HeaterMove.same _ _) : Path K r { s with act := x } :=
  h.step (.act s x AllowsActs.act (fun n => by
    have : x.pumps[n.val]'n.isLt = s.pump n := by simp only [hp]; rfl
    rw [this]; exact (PumpMove.same s _).step) hq hh hd)

/-- A change of the pumps alone. -/
theorem Path.pumps [AllowsActs K] (x : Vector Pump 4) (hp : ∀ n : Fin 4, PumpMove s (s.pump n) (x[n.val]'n.isLt))
    (h : Path K r s) : Path K r { s with act := { s.act with pumps := x } } :=
  h.step (.act s _ AllowsActs.act (fun n => (hp n).step) (fun _ => HeaterMove.same s _) (Nat.le_max_left _ _) fun hr hg =>
    hg.pumps_move (h.pumpsGuarded hr.1).1 hp rfl rfl)

theorem Path.setPump [AllowsActs K] (n : Fin 4) (p : Pump) (hp : PumpMove s (s.pump n) p) (h : Path K r s) :
    Path K r (s.setPump n p) := by
  refine h.pumps _ fun m => ?_
  have := State.pump_setPump s n m p
  simp only [State.pump, State.setPump] at this
  rw [this]
  split
  · rename_i hm; subst hm; exact hp
  · exact PumpMove.same s _

theorem Path.modPump [AllowsActs K] (n : Fin 4) (f : Pump → Pump) (hp : PumpMove s (s.pump n) (f (s.pump n)))
    (h : Path K r s) : Path K r (s.modPump n f) := h.setPump n _ hp

theorem Path.setHeater [AllowsActs K] (k : Fin 4) (p : Heater) (hp : HeaterMove s (s.heater k) p) (h : Path K r s) :
    Path K r (s.setHeater k p) := by
  refine h.actRest _ rfl (Nat.le_max_left _ _) (fun _ hg => ⟨hg.pumps, hg.switches, hg.room, hg.numbers, hg.acts, hg.pending, hg.held, hg.going⟩)
    (fun m => ?_)
  have := State.heater_setHeater s k m p
  simp only [State.heater, State.setHeater] at this
  rw [this]
  split
  · rename_i hm; subst hm; exact hp
  · exact HeaterMove.same s _

theorem Path.modHeater [AllowsActs K] (k : Fin 4) (f : Heater → Heater) (hp : HeaterMove s (s.heater k) (f (s.heater k)))
    (h : Path K r s) : Path K r (s.modHeater k f) := h.setHeater k _ hp

/-- A change of the inlet that its guard over the pumps bears. -/
theorem Path.modInletOf [AllowsActs K] (f : Inlet → Inlet)
    (hd : r.guarded → s.act.inletGuards → ({ s.act with inlet := f s.act.inlet } : ActState).inletGuards) (h : Path K r s) :
    Path K r (s.modInlet f) := h.actRest _ rfl (Nat.le_max_left _ _) hd

/-- A change of the inlet that pumps may run through. -/
theorem Path.modInlet [AllowsActs K] (f : Inlet → Inlet) (hv : InletMove s.act (f s.act.inlet)) (h : Path K r s) :
    Path K r (s.modInlet f) := h.modInletOf f fun _ hg => hg.inlet_move _ hv

/-- A change of the inlet where no pump runs. -/
theorem Path.modInletOff [AllowsActs K] (f : Inlet → Inlet)
    (hf : r.guarded → s.pumpsOff)
    (hs : (f s.act.inlet).mode = .opened → (f s.act.inlet).openLs = true ∧ (f s.act.inlet).closedLs = false
      ∨ s.act.inlet.mode = .opened ∧ (f s.act.inlet).openLs = s.act.inlet.openLs ∧ (f s.act.inlet).closedLs = s.act.inlet.closedLs)
    (ho : r.guarded →
      (f s.act.inlet).owner = s.act.inlet.owner ∨ (f s.act.inlet).owner = .guard ∨ ∀ h ∈ s.act.holds, h.act ≠ .inlet)
    (hw : (f s.act.inlet).going → (f s.act.inlet).filling ∨ (s.act.inlet.going ∧ (f s.act.inlet).owner = s.act.inlet.owner))
    (h : Path K r s) : Path K r (s.modInlet f) :=
  h.modInletOf f fun hr hg => hg.inlet_off (hf hr) _ (fun hm => by
    rcases hs hm with hx | ⟨h1, h2, h3⟩
    · exact hx
    · rw [h2, h3]; exact hg.switches h1) (ho hr) hw

/-- A pump entry that keeps its contactor, its machine state, its start list, its owner and its claim state. -/
theorem PumpMove.quiet (s : State) {p q : Pump} (hc : q.contactor = p.contactor) (hm : q.mode = p.mode)
    (hs : q.starts = p.starts) (ho : q.owner = p.owner) (hl : q.claim = p.claim) : PumpMove s p q :=
  ⟨⟨fun h => by unfold Pump.contactorOk at *; rwa [hc, hm, hl], fun h => Or.inl (hc ▸ h), by rw [hs]; exact Nat.le_max_left _ _⟩,
    fun _ h => Or.inl ⟨hc ▸ h, Or.inl ho⟩⟩

/-- A pump entry that keeps its contactor, its machine state, its start list and its owner, its grant kept or recalled. -/
theorem PumpMove.claimed (s : State) {p q : Pump} (hc : q.contactor = p.contactor) (hm : q.mode = p.mode)
    (hs : q.starts = p.starts) (ho : q.owner = p.owner)
    (hl : p.claim = .granted ∨ p.claim = .recalled → q.claim = .granted ∨ q.claim = .recalled) : PumpMove s p q :=
  ⟨⟨fun h => by
    unfold Pump.contactorOk at *
    rw [hc, hm]
    exact fun hx => ⟨(h hx).1, hl (h hx).2⟩, fun h => Or.inl (hc ▸ h), by rw [hs]; exact Nat.le_max_left _ _⟩,
    fun _ h => Or.inl ⟨hc ▸ h, Or.inl ho⟩⟩

/-- A pump entry of a pump that does not run, or that the inlet serves under its new owner. -/
theorem PumpMove.owned (s : State) {p q : Pump} (hc : q.contactor = p.contactor) (hm : q.mode = p.mode)
    (hs : q.starts = p.starts) (hl : q.claim = p.claim)
    (ho : p.contactorOk → p.contactor = true → q.owner = p.owner ∨ s.act.inlet.serves q.owner) : PumpMove s p q :=
  ⟨⟨fun h => by unfold Pump.contactorOk at *; rwa [hc, hm, hl], fun h => Or.inl (hc ▸ h), by rw [hs]; exact Nat.le_max_left _ _⟩,
    fun hk h => Or.inl ⟨hc ▸ h, ho hk (hc ▸ h)⟩⟩

/-- A pump entry whose contactor is commanded off. -/
theorem PumpMove.off (s : State) {p q : Pump} (hc : q.contactor = false) (hs : q.starts = p.starts) : PumpMove s p q :=
  ⟨⟨fun _ h => absurd (hc.symm.trans h) Bool.false_ne_true, fun h => absurd (hc.symm.trans h) Bool.false_ne_true, by
    rw [hs]; exact Nat.le_max_left _ _⟩, fun _ h => absurd (hc.symm.trans h) Bool.false_ne_true⟩

/-- A pump entry that leaves a machine state in which the contactor is off. -/
theorem PumpMove.rest (s : State) {p q : Pump} (hc : q.contactor = p.contactor) (hs : q.starts = p.starts)
    (hm : p.mode ≠ .starting ∧ p.mode ≠ .running) : PumpMove s p q :=
  have no (h : p.contactorOk) (hq : q.contactor = true) : False := by
    rcases (h (hc ▸ hq)).1 with hx | hx
    · exact hm.1 hx
    · exact hm.2 hx
  ⟨⟨fun h hq => (no h hq).elim, fun h => Or.inl (hc ▸ h), by rw [hs]; exact Nat.le_max_left _ _⟩, fun h hq => (no h hq).elim⟩

/-- A pump entry that keeps its contactor, owner and claim state, and is STARTING or RUNNING after. -/
theorem PumpMove.turning (s : State) {p q : Pump} (hc : q.contactor = p.contactor) (hs : q.starts = p.starts)
    (ho : q.owner = p.owner) (hl : q.claim = p.claim) (hm : q.mode = .starting ∨ q.mode = .running) : PumpMove s p q :=
  ⟨⟨fun h hq => ⟨hm, by rw [hl]; exact (h (hc ▸ hq)).2⟩, fun h => Or.inl (hc ▸ h), by rw [hs]; exact Nat.le_max_left _ _⟩,
    fun _ h => Or.inl ⟨hc ▸ h, Or.inl ho⟩⟩

theorem Path.setHoldOf [AllowsActs K] (a : ActId) (n : Option Nat) (h : Path K r s) : Path K r (s.setHoldOf a n) := by
  cases a with
  | pump k => exact h.modPump k (fun p => { p with hold := n }) (PumpMove.quiet s rfl rfl rfl rfl rfl)
  | inlet => exact h.modInlet (fun v => { v with hold := n }) ⟨rfl, Or.inl rfl, id, Or.inr (Or.inr ⟨rfl, rfl⟩), Or.inl⟩
  | heater k => exact h.modHeater k (fun p => { p with hold := n }) (HeaterMove.quiet s rfl rfl)

/-! ### The order engine -/

theorem Path.modRecords [AllowsJournal K] (p : Page) (f : Nat → Nat) (h : Path K r s) : Path K r (s.modRecords p f) :=
  h.step (.records s _ AllowsJournal.records (by
    rw [List.map_map]
    refine List.map_congr_left fun t _ => ?_
    simp only [Function.comp_def]
    split <;> rfl))

/-! ### The guard -/

/-- A change of the guard that does not seize the inlet anew. -/
theorem Path.modGuard [AllowsGuard K] (f : GuardState → GuardState)
    (hf : (f s.guard).mode.seizes = true → s.guard.mode.seizes = true) (h : Path K r s) : Path K r (s.modGuard f) :=
  h.step (.guard s _ AllowsGuard.guard fun _ hx => Or.inl (hf hx))

end Sys2Proof.Machine
end

