-- ==== Sys2Proof/Laws/PathJournal.lean ====
section
/-! SUPPORT. The journal writer as paths: a record, however it fares, changes the journal, the record counts of taken
pages, the port's flags, and bytes of the map, of the board page and of journal pages alone. -/

namespace Sys2Proof.Machine

variable {K : Scope} {r s : State}

/-- A change of the writer whose pages are in scope and that does not overfill the queue. -/
theorem Path.jrn [AllowsJournal K] (x : JrnState) (hq : r.jrn.queue.length ≤ Config.queueMax → x.queue.length ≤ Config.queueMax)
    (hj : s.openAgrees → State.openAgrees { s with jrn := x })
    (hp : r.owned K → ∀ p, ((∃ o, x.opened = some o ∧ o.page = p) ∨ p ∈ x.given) → ∀ i < 256, K.byte (addr p i))
    (h : Path K r s) : Path K r { s with jrn := x } :=
  h.step (.jrn s x AllowsJournal.jrn hq hj fun ho => ⟨ho.1, fun p hx => by
    rcases hx with hx | hx | hx | hx
    · exact hp ho p (Or.inl hx)
    · exact hp ho p (Or.inr hx)
    · exact h.ownByte (Or.inr (Or.inr (Or.inl hx))) ho
    · exact h.ownByte (Or.inr (Or.inr (Or.inr hx))) ho⟩)

/-- A change of the writer that leaves its queue and its pages. -/
theorem Path.jrnRest [AllowsJournal K] (x : JrnState) (hq : x.queue = s.jrn.queue) (ho : x.opened = s.jrn.opened)
    (hg : x.given = s.jrn.given) (h : Path K r s) : Path K r { s with jrn := x } :=
  h.jrn x (by rw [hq]; exact h.queueLe) (fun hs hm p hp => by
    obtain ⟨o, h1, h2⟩ := hs hm p hp
    exact ⟨o, ho.trans h1, h2⟩) fun hr p hp => by
    rcases hp with hp | hp
    · exact h.ownByte (Or.inl (ho ▸ hp)) hr
    · exact h.ownByte (Or.inr (Or.inl (hg ▸ hp))) hr

theorem Path.checkAnswer (p : Page) (h : Path K r s) : Path K r (s.checkAnswer p) := by
  unfold State.checkAnswer
  split
  · exact h.post _
  · exact h

theorem Path.joinReport [AllowsJournal K] (q : Rec) (h : Path K r s) : Path K r (s.joinReport q) := by
  unfold State.joinReport
  split
  · exact h
  · exact h.modRecords _ _

theorem Path.leaveReport [AllowsJournal K] (q : Rec) (h : Path K r s) : Path K r (s.leaveReport q) := by
  unfold State.leaveReport
  split
  · exact h
  · exact (h.modRecords _ _).checkAnswer _

theorem Path.lose [AllowsJournal K] (c : Fin 3) (h : Path K r s) : Path K r (s.lose c) := h.jrnRest _ rfl rfl rfl

theorem openPage_bytes_length (o : OpenPage) (f : Nat) : (o.bytes f).length = 8 := by simp [OpenPage.bytes]

theorem recBytes_length (q : Rec) (n : Nat) : (recBytes q n).length = q.length := by
  unfold recBytes Rec.length
  cases q.ref <;> simp <;> omega

/-- The open page becomes a page of the scope. -/
theorem Path.setOpen [AllowsJournal K] (o : OpenPage) (hp : r.owned K → ∀ i < 256, K.byte (addr o.page i))
    (hs : s.jrn.opened = none ∨ ∃ o', s.jrn.opened = some o' ∧ o'.page = o.page) (h : Path K r s) : Path K r (s.setOpen o) := by
  have h1 : Path K r { s with jrn := { s.jrn with opened := some o } } :=
    h.jrn _ h.queueLe (fun ha hm p hq => by
      obtain ⟨o1, h1, h2⟩ := ha hm p hq
      rcases hs with hs | ⟨o', h3, h4⟩
      · rw [hs] at h1; cases h1
      · rw [h3] at h1
        cases h1
        exact ⟨o, rfl, h4.symm.trans h2⟩) fun hr p hx => by
      rcases hx with ⟨o', ho, rfl⟩ | hx
      · cases ho; exact hp hr
      · exact h.ownByte (Or.inr (Or.inl hx)) hr
  exact h1.poke _ _ _ hp (by rw [openPage_bytes_length]; omega)

theorem Path.openPage [AllowsJournal K] (p : Page) (hp : p ∈ s.jrn.given) (hn : s.jrn.opened = none) (h : Path K r s) :
    Path K r (s.openPage p) := by
  have h1 : Path K r { s with jrn := { s.jrn with
      given := s.jrn.given.erase p, fill := (s.jrn.fill + 1) % Config.wrap16 } } :=
    h.jrn _ h.queueLe id fun hr q hx => by
      rcases hx with hx | hx
      · exact h.ownByte (Or.inl hx) hr
      · exact h.ownByte (Or.inr (Or.inl (List.mem_of_mem_erase hx))) hr
  have h2 := Path.setOpen (s := { s with jrn := { s.jrn with given := s.jrn.given.erase p, fill := (s.jrn.fill + 1) % Config.wrap16 } })
    ⟨p, s.jrn.fill, 0, 0, 0, false, none⟩ (h.ownByte (Or.inr (Or.inl hp))) (Or.inl hn) h1
  exact h2.setEntry p _
    fun _ _ => ⟨_, rfl, rfl⟩

theorem Path.closePage [AllowsJournal K] (o : OpenPage) (a b : Bool) (ho : s.jrn.opened = some o) (hp : r.owned K → ∀ i < 256, K.byte (addr o.page i))
    (h : Path K r s) : Path K r (s.closePage o a b) := by
  have h1 := (h.poke o.page 0 (o.bytes (bits [o.gapInside, a, b])) hp (by rw [openPage_bytes_length]; omega)).setPageState
    o.page .journalFull (by decide)
  have hj : ((s.poke o.page 0 (o.bytes (bits [o.gapInside, a, b]))).setPageState o.page .journalFull).jrn.opened = some o := ho
  have he : (((s.poke o.page 0 (o.bytes (bits [o.gapInside, a, b]))).setPageState o.page .journalFull).entry o.page).state = .journalFull := by
    unfold State.setPageState
    rw [State.entry_setEntry, if_pos rfl]
  generalize hu : (s.poke o.page 0 (o.bytes (bits [o.gapInside, a, b]))).setPageState o.page .journalFull = u at h1 hj he
  have h2 : Path K r ({ u with jrn := { u.jrn with opened := none } }.raise .journal o.page.val) :=
    (h1.jrn { u.jrn with opened := none } h1.queueLe (fun ha hm q hq => by
      obtain ⟨o', h3, h4⟩ := ha hm q hq
      rw [hj] at h3
      cases h3
      have hq' : (u.entry q).state = .journalOpen := hq
      rw [← h4, he] at hq'
      cases hq') fun hr q hx => by
      rcases hx with ⟨_, hx, _⟩ | hx
      · cases hx
      · exact h1.ownByte (Or.inr (Or.inl hx)) hr).raise _ _
  unfold State.closePage
  dsimp only
  rw [hu]
  split
  · split
    · exact h2
    · refine Path.post _ (Path.jrnRest _ ?_ ?_ ?_ h2) <;> rfl
  · exact h2

theorem Path.writeRec [AllowsJournal K] (o : OpenPage) (q : Rec) (g : Bool) (ho : s.jrn.opened = some o)
    (hp : r.owned K → ∀ i < 256, K.byte (addr o.page i)) (hl : o.used + q.length ≤ Config.journalBytes)
    (h : Path K r s) : Path K r (s.writeRec o q g) := by
  have hl' : o.used + q.length ≤ 248 := hl
  have h1 := h.poke o.page (8 + o.used) (recBytes q s.jrn.seq) hp (by rw [recBytes_length]; omega)
  unfold State.writeRec
  dsimp only
  refine Path.jrn _ h1.queueLe id (fun hr p hx => ?_) (h1.setOpen _ hp (Or.inr ⟨o, ho, rfl⟩))
  rcases hx with ⟨o', ho, rfl⟩ | hx
  · cases ho; exact hp hr
  · exact h.ownByte (Or.inr (Or.inl hx)) hr

theorem gapRec_length (s : State) : s.gapRec.length = Config.gapBytes := by
  have : s.jrn.gaps.toList.length = 3 := by simp
  unfold State.gapRec Rec.length
  match hg : s.jrn.gaps.toList, this with
  | [a, b, c], _ => simp [Config.gapBytes]

theorem Path.writeGap [AllowsJournal K] (o : OpenPage) (ho : s.jrn.opened = some o) (hp : r.owned K → ∀ i < 256, K.byte (addr o.page i))
    (hl : o.used + Config.gapBytes ≤ Config.journalBytes) (h : Path K r s) : Path K r (s.writeGap o) :=
  (h.writeRec o s.gapRec true ho hp (by rw [gapRec_length]; exact hl)).jrnRest _ rfl rfl rfl

theorem Path.writeHead [AllowsJournal K] (o : OpenPage) (q : Rec) (ho : s.jrn.opened = some o) (hp : r.owned K → ∀ i < 256, K.byte (addr o.page i))
    (hl : o.used + q.length ≤ Config.journalBytes) (h : Path K r s) : Path K r (s.writeHead o q) := by
  have h1 := h.writeRec o q false ho hp hl
  unfold State.writeHead
  dsimp only
  refine Path.leaveReport _ (Path.jrn _ ?_ id (fun hr p hx => ?_) h1)
  · exact fun hr => Nat.le_trans (by simp) (h1.queueLe hr)
  · rcases hx with hx | hx
    · exact h1.ownByte (Or.inl hx) hr
    · exact h1.ownByte (Or.inr (Or.inl hx)) hr

theorem Path.beginShortage [AllowsJournal K] (h : Path K r s) : Path K r s.beginShortage := by
  unfold State.beginShortage
  split
  · exact h
  · exact (h.jrnRest { s.jrn with shortage := true } rfl rfl rfl).raise _ _

theorem Path.writerLoop [AllowsJournal K] : ∀ (n : Nat) {s : State}, Path K r s → Path K r (s.writerLoop n) := by
  intro n
  induction n with
  | zero => exact fun h => h
  | succ n ih =>
    intro s h
    unfold State.writerLoop
    split
    · exact h
    · split
      · exact h
      · rename_i hn _
        split
        · exact h.beginShortage
        · rename_i hg
          exact ih (h.openPage _ (hg ▸ List.mem_cons_self) hn)
      · rename_i o ho _
        have hp := h.ownByte (Or.inl ⟨o, ho, rfl⟩)
        split
        · exact ih (h.closePage _ _ _ ho hp)
        · exact h
      · rename_i o q _ ho _
        have hp := h.ownByte (Or.inl ⟨o, ho, rfl⟩)
        repeat' split
        · rename_i hl; exact ih (h.writeGap _ ho hp hl)
        · exact ih (h.closePage _ _ _ ho hp)
        · rename_i hl; exact ih (h.writeHead _ _ ho hp hl)
        · exact ih (h.closePage _ _ _ ho hp)

theorem Path.writer [AllowsJournal K] (h : Path K r s) : Path K r s.writer := h.writerLoop _

theorem Path.joinQueue [AllowsJournal K] (q : Rec)
    (hl : r.jrn.queue.length ≤ Config.queueMax → s.jrn.queue.length < Config.queueMax) (h : Path K r s) :
    Path K r (s.joinQueue q) := by
  refine Path.joinReport q (Path.jrn _ (fun hr => ?_) id (fun hr p hx => ?_) h)
  · have := hl hr
    simp only [List.length_append, List.length_cons, List.length_nil]
    omega
  · rcases hx with hx | hx
    · exact h.ownByte (Or.inl hx) hr
    · exact h.ownByte (Or.inr (Or.inl hx)) hr

theorem Path.evict [AllowsJournal K] (c : Fin 3) (h : Path K r s) : Path K r (s.evict c) := by
  unfold State.evict
  split
  · exact h
  · refine Path.leaveReport _ (Path.lose _ (Path.jrn _ (fun hr => ?_) id (fun hr p hx => ?_) h))
    · exact Nat.le_trans (List.length_erase_le) (h.queueLe hr)
    · rcases hx with hx | hx
      · exact h.ownByte (Or.inl hx) hr
      · exact h.ownByte (Or.inr (Or.inl hx)) hr

/-- Evicting a record that is there makes room. -/
theorem State.evict_queue (c : Fin 3) (s : State) (h : ∃ q ∈ s.jrn.queue, q.kind.cls = c)
    (hl : s.jrn.queue.length ≤ Config.queueMax) : (s.evict c).jrn.queue.length < Config.queueMax := by
  obtain ⟨q, hq, hc⟩ := h
  unfold State.evict
  split
  · rename_i hn
    have := List.find?_eq_none.mp hn q hq
    simp [hc] at this
  · rename_i x hx
    have hm := List.mem_of_find?_eq_some hx
    have hp := List.length_pos_of_mem hm
    have he : (s.jrn.queue.erase x).length = s.jrn.queue.length - 1 := List.length_erase_of_mem hm
    have : ∀ (t : State) (y : Rec), (t.leaveReport y).jrn = t.jrn := by
      intro t y
      unfold State.leaveReport
      split
      · rfl
      · unfold State.checkAnswer
        split <;> rfl
    rw [this]
    show (s.jrn.queue.erase x).length < _
    omega

/-- A lower class that is found is in the queue. -/
theorem lowerClass_mem {c d : Fin 3} {q : List Rec} (h : lowerClass c q = some d) : ∃ x ∈ q, x.kind.cls = d := by
  unfold lowerClass at h
  split at h
  · rename_i hc
    cases h
    simp only [Bool.and_eq_true, List.any_eq_true, decide_eq_true_eq] at hc
    exact hc.2
  · split at h
    · rename_i hc
      cases h
      simp only [Bool.and_eq_true, List.any_eq_true, decide_eq_true_eq] at hc
      exact hc.2
    · cases h

theorem Path.queueIn [AllowsJournal K] (q : Rec) (h : Path K r s) : Path K r (s.queueIn q) := by
  unfold State.queueIn
  split
  · rename_i hl
    exact h.joinQueue q fun _ => hl
  · split
    · rename_i c hc
      exact (h.evict c).joinQueue q fun hr => State.evict_queue c s (lowerClass_mem hc) (h.queueLe hr)
    · exact h.lose _

/-- A record arrives. -/
theorem Path.arrive [AllowsJournal K] (q : Rec) (h : Path K r s) : Path K r (s.arrive q) := by
  unfold State.arrive
  dsimp only
  refine Path.writer (Path.queueIn q ?_)
  split
  · exact h.raise _ _
  · exact h

/-- A record is made. -/
theorem Path.make [AllowsJournal K] (k : RecKind) (t : Time) (ref : Option OrderRef) (b : List Byte) (h : Path K r s) :
    Path K r (s.make k t ref b) := h.arrive _

/-- A page in scope joins the given-journal list. -/
theorem Path.givePage [AllowsJournal K] (p : Page) (hp : r.owned K → ∀ i < 256, K.byte (addr p i)) (h : Path K r s) :
    Path K r (s.givePage p) := by
  refine Path.writer (Path.jrn _ h.queueLe id (fun hr q hx => ?_) h)
  rcases hx with hx | hx
  · exact h.ownByte (Or.inl hx) hr
  · rcases List.mem_append.mp hx with hx | hx
    · exact h.ownByte (Or.inr (Or.inl hx)) hr
    · rw [List.mem_singleton.mp hx]; exact hp hr

theorem Path.ungivePage [AllowsJournal K] (p : Page) (h : Path K r s) : Path K r (s.ungivePage p) := by
  refine Path.writer (Path.jrn _ h.queueLe id (fun hr q hx => ?_) h)
  rcases hx with hx | hx
  · exact h.ownByte (Or.inl hx) hr
  · exact h.ownByte (Or.inr (Or.inl (List.mem_of_mem_erase hx))) hr

theorem Path.ageCheck [AllowsJournal K] (h : Path K r s) : Path K r s.ageCheck := by
  unfold State.ageCheck
  split
  · exact h
  · rename_i o ho
    split
    · exact (h.closePage _ _ _ ho (h.ownByte (Or.inl ⟨o, ho, rfl⟩))).writer
    · exact h

theorem Path.flushRequest [AllowsJournal K] (q : OrderRef) (h : Path K r s) : Path K r (s.flushRequest q) :=
  (h.jrnRest { s.jrn with flush := some q } rfl rfl rfl).writer

theorem Path.recordArrival [AllowsJournal K] (q : Rec) (h : Path K r s) : Path K r (s.recordArrival q) :=
  h.taking _ _ fun _ ht => ht.arrive q

theorem Path.pageOpen [AllowsJournal K] (h : Path K r s) : Path K r s.pageOpen := h.taking _ _ fun _ ht => ht.writer

end Sys2Proof.Machine
end

