-- ==== Sys2Proof/Laws/PathPlanTable.lean ====
section
/-! SUPPORT. The plan table's operations as paths (PlanCore.lean): beside what a record changes, they change the plan
table. -/

namespace Sys2Proof.Machine

variable {K : Scope} {r s : State}

theorem Path.modPlan [AllowsPlans K] (a : Nat) (f : Plan → Plan) (h : Path K r s) : Path K r (s.modPlan a f) :=
  h.plans AllowsPlans.plans _
theorem Path.pausePlan [AllowsPlans K] (a : Nat) (b : Pause) (h : Path K r s) : Path K r (s.pausePlan a b) := h.modPlan _ _
theorem Path.clearPauses [AllowsPlans K] (a : Pause) (h : Path K r s) : Path K r (s.clearPauses a) :=
  h.plans AllowsPlans.plans _
theorem Path.activate [AllowsPlans K] (a : Nat) (h : Path K r s) : Path K r (s.activate a) := h.modPlan _ _

theorem Path.finishPlan [AllowsPlans K] (a : Nat) (b : EndCause) (c : Time) (d : Option OrderRef) (h : Path K r s) : Path K r (s.finishPlan a b c d) := by
  unfold State.finishPlan
  try dsimp only
  repeat' first
    | with_reducible assumption
    | with_reducible apply Path.make
    | with_reducible apply Path.modPlan
    | with_reducible apply Path.post
    | intro _
    | split
  all_goals refine Path.plans ?_ AllowsPlans.plans _
  repeat' first
    | with_reducible assumption
    | with_reducible apply Path.make
    | with_reducible apply Path.modPlan
    | with_reducible apply Path.post
    | intro _
    | split

theorem Path.addPlan [AllowsPlans K] (a : Plan) (b : Time) (h : Path K r s) : Path K r (s.addPlan a b) := by
  unfold State.addPlan
  try dsimp only
  repeat' first
    | with_reducible assumption
    | with_reducible apply Path.make
    | with_reducible apply Path.finishPlan
    | intro _
    | split
  all_goals refine Path.plans ?_ AllowsPlans.plans _
  repeat' first
    | with_reducible assumption
    | with_reducible apply Path.make
    | with_reducible apply Path.finishPlan
    | intro _
    | split

theorem Path.nightStartNow [AllowsPlans K] (h : Path K r s) : Path K r (s.nightStartNow) := by
  unfold State.nightStartNow
  try dsimp only
  repeat' first
    | with_reducible assumption
    | with_reducible apply Path.modPlan
    | intro _
    | split
  all_goals refine Path.plans ?_ AllowsPlans.plans _
  repeat' first
    | with_reducible assumption
    | with_reducible apply Path.modPlan
    | intro _
    | split

theorem Path.drawCheck [AllowsPlans K] (a : Option Judgement) (b : Time) (h : Path K r s) : Path K r (s.drawCheck a b) := by
  unfold State.drawCheck
  try dsimp only
  repeat' first
    | with_reducible assumption
    | with_reducible apply Path.nightStartNow
    | with_reducible apply Path.finishPlan
    | with_reducible apply Path.modPlan
    | intro _
    | split

theorem Path.absorb [AllowsPlans K] (a : Time) (h : Path K r s) : Path K r (s.absorb a) := by
  unfold State.absorb
  try dsimp only
  repeat' first
    | with_reducible assumption
    | with_reducible apply Path.finishPlan
    | with_reducible apply Path.nightStartNow
    | intro _
    | split
  all_goals refine Path.plans ?_ AllowsPlans.plans _
  repeat' first
    | with_reducible assumption
    | with_reducible apply Path.finishPlan
    | with_reducible apply Path.nightStartNow
    | intro _
    | split

theorem Path.contestAt [AllowsPlans K] (a : Time) (h : Path K r s) : Path K r (s.contestAt a) := by
  unfold State.contestAt
  try dsimp only
  repeat' first
    | with_reducible assumption
    | with_reducible apply Path.absorb
    | with_reducible apply Path.drawCheck
    | with_reducible apply Path.post
    | intro _
    | split
  all_goals refine Path.plans ?_ AllowsPlans.plans _
  repeat' first
    | with_reducible assumption
    | with_reducible apply Path.absorb
    | with_reducible apply Path.drawCheck
    | with_reducible apply Path.post
    | intro _
    | split

theorem Path.contest [AllowsPlans K] (h : Path K r s) : Path K r (s.contest) := by
  unfold State.contest
  try dsimp only
  repeat' first
    | with_reducible assumption
    | with_reducible apply Path.contestAt
    | intro _
    | split
  all_goals refine Path.plans ?_ AllowsPlans.plans _
  repeat' first
    | with_reducible assumption
    | with_reducible apply Path.contestAt
    | intro _
    | split

theorem Path.endPlan [AllowsPlans K] (a : Nat) (b : EndCause) (c : Time) (d : Option OrderRef) (h : Path K r s) : Path K r (s.endPlan a b c d) := by
  unfold State.endPlan
  try dsimp only
  repeat' first
    | with_reducible assumption
    | with_reducible apply Path.contestAt
    | with_reducible apply Path.finishPlan
    | intro _
    | split
  all_goals refine Path.plans ?_ AllowsPlans.plans _
  repeat' first
    | with_reducible assumption
    | with_reducible apply Path.contestAt
    | with_reducible apply Path.finishPlan
    | intro _
    | split

theorem Path.inletFreed [AllowsPlans K] (h : Path K r s) : Path K r (s.inletFreed) := by
  unfold State.inletFreed
  try dsimp only
  repeat' first
    | with_reducible assumption
    | with_reducible apply Path.contest
    | with_reducible apply Path.clearPauses
    | intro _
    | split
  all_goals refine Path.plans ?_ AllowsPlans.plans _
  repeat' first
    | with_reducible assumption
    | with_reducible apply Path.contest
    | with_reducible apply Path.clearPauses
    | intro _
    | split

end Sys2Proof.Machine
end

