-- ==== Sys2Proof/Laws/Frames.lean ====
section
/-! SUPPORT. What a record and what the contest leave alone, part by part: read off their paths. -/

namespace Sys2Proof.Machine

variable (s : State)

/-- The parts a record may change. -/
def Part.ofJournal (p : Part) : Bool :=
  match p with
  | .port => true
  | .records => true
  | .jrn => true
  | _ => false

/-- The parts the plan table's operations may change. -/
def Part.ofPlans (p : Part) : Bool := p.ofJournal || decide (p = .plans)

/-- A scope of the given parts and of every byte. -/
def Scope.parts (f : Part → Bool) : Scope := ⟨fun p => f p = true, fun _ => True⟩

theorem allowsJournal_parts : AllowsJournal (Scope.parts Part.ofJournal) := ⟨rfl, rfl, rfl⟩
theorem allowsPlans_parts : AllowsPlans (Scope.parts Part.ofPlans) := { port := rfl, records := rfl, jrn := rfl, plans := rfl }

theorem State.make_path (k : RecKind) (t : Time) (ref : Option OrderRef) (b : List Byte) :
    Path (Scope.parts Part.ofJournal) s (s.make k t ref b) :=
  haveI := allowsJournal_parts
  Path.refl.make k t ref b

theorem State.writer_path : Path (Scope.parts Part.ofJournal) s s.writer :=
  haveI := allowsJournal_parts
  Path.refl.writer

theorem State.contestAt_path (t : Time) : Path (Scope.parts Part.ofPlans) s (s.contestAt t) :=
  haveI := allowsPlans_parts
  Path.refl.contestAt t

theorem State.finishPlan_path (n : Nat) (c : EndCause) (t : Time) (ref : Option OrderRef) :
    Path (Scope.parts Part.ofPlans) s (s.finishPlan n c t ref) :=
  haveI := allowsPlans_parts
  Path.refl.finishPlan n c t ref

theorem State.inletFreed_path : Path (Scope.parts Part.ofPlans) s s.inletFreed :=
  haveI := allowsPlans_parts
  Path.refl.inletFreed

/-! ### State.make -/
@[simp] theorem State.make_survey (k : RecKind) (t : Time) (ref : Option OrderRef) (b : List Byte) : (s.make k t ref b).survey = s.survey :=
  (s.make_path k t ref b).survey_eq Bool.false_ne_true
@[simp] theorem State.make_guard (k : RecKind) (t : Time) (ref : Option OrderRef) (b : List Byte) : (s.make k t ref b).guard = s.guard :=
  (s.make_path k t ref b).guard_eq Bool.false_ne_true
@[simp] theorem State.make_act (k : RecKind) (t : Time) (ref : Option OrderRef) (b : List Byte) : (s.make k t ref b).act = s.act :=
  (s.make_path k t ref b).act_eq Bool.false_ne_true
@[simp] theorem State.make_cal (k : RecKind) (t : Time) (ref : Option OrderRef) (b : List Byte) : (s.make k t ref b).cal = s.cal :=
  (s.make_path k t ref b).cal_eq Bool.false_ne_true
@[simp] theorem State.make_arb (k : RecKind) (t : Time) (ref : Option OrderRef) (b : List Byte) : (s.make k t ref b).arb = s.arb :=
  (s.make_path k t ref b).arb_eq Bool.false_ne_true
@[simp] theorem State.make_plans (k : RecKind) (t : Time) (ref : Option OrderRef) (b : List Byte) : (s.make k t ref b).plans = s.plans :=
  (s.make_path k t ref b).plans_eq Bool.false_ne_true
@[simp] theorem State.make_frost (k : RecKind) (t : Time) (ref : Option OrderRef) (b : List Byte) : (s.make k t ref b).frost = s.frost :=
  (s.make_path k t ref b).frost_eq Bool.false_ne_true
@[simp] theorem State.make_sys (k : RecKind) (t : Time) (ref : Option OrderRef) (b : List Byte) : (s.make k t ref b).sys = s.sys :=
  (s.make_path k t ref b).sys_eq Bool.false_ne_true
@[simp] theorem State.make_pending (k : RecKind) (t : Time) (ref : Option OrderRef) (b : List Byte) : (s.make k t ref b).pending = s.pending := (s.make_path k t ref b).pending_eq
@[simp] theorem State.make_pump (k : RecKind) (t : Time) (ref : Option OrderRef) (b : List Byte) (j : Fin 4) : (s.make k t ref b).pump j = s.pump j := by simp [State.pump]
@[simp] theorem State.make_heater (k : RecKind) (t : Time) (ref : Option OrderRef) (b : List Byte) (j : Fin 4) : (s.make k t ref b).heater j = s.heater j := by simp [State.heater]
@[simp] theorem State.make_now (k : RecKind) (t : Time) (ref : Option OrderRef) (b : List Byte) : (s.make k t ref b).now = s.now := by simp [State.now]
@[simp] theorem State.make_set (k : RecKind) (t : Time) (ref : Option OrderRef) (b : List Byte) : (s.make k t ref b).set = s.set := by simp [State.set]
@[simp] theorem State.make_access (k : RecKind) (t : Time) (ref : Option OrderRef) (b : List Byte) : (s.make k t ref b).eng.access = s.eng.access :=
  ((s.make_path k t ref b).eng_same Bool.false_ne_true).access
@[simp] theorem State.make_inflight (k : RecKind) (t : Time) (ref : Option OrderRef) (b : List Byte) : (s.make k t ref b).eng.inflight = s.eng.inflight :=
  ((s.make_path k t ref b).eng_same Bool.false_ne_true).inflight

/-! ### State.writer -/
@[simp] theorem State.writer_survey : s.writer.survey = s.survey :=
  s.writer_path.survey_eq Bool.false_ne_true
@[simp] theorem State.writer_guard : s.writer.guard = s.guard :=
  s.writer_path.guard_eq Bool.false_ne_true
@[simp] theorem State.writer_act : s.writer.act = s.act :=
  s.writer_path.act_eq Bool.false_ne_true
@[simp] theorem State.writer_cal : s.writer.cal = s.cal :=
  s.writer_path.cal_eq Bool.false_ne_true
@[simp] theorem State.writer_arb : s.writer.arb = s.arb :=
  s.writer_path.arb_eq Bool.false_ne_true
@[simp] theorem State.writer_plans : s.writer.plans = s.plans :=
  s.writer_path.plans_eq Bool.false_ne_true
@[simp] theorem State.writer_frost : s.writer.frost = s.frost :=
  s.writer_path.frost_eq Bool.false_ne_true
@[simp] theorem State.writer_sys : s.writer.sys = s.sys :=
  s.writer_path.sys_eq Bool.false_ne_true
@[simp] theorem State.writer_pending : s.writer.pending = s.pending := s.writer_path.pending_eq
@[simp] theorem State.writer_pump (k : Fin 4) : s.writer.pump k = s.pump k := by simp [State.pump]
@[simp] theorem State.writer_heater (k : Fin 4) : s.writer.heater k = s.heater k := by simp [State.heater]
@[simp] theorem State.writer_now : s.writer.now = s.now := by simp [State.now]
@[simp] theorem State.writer_set : s.writer.set = s.set := by simp [State.set]
@[simp] theorem State.writer_access : s.writer.eng.access = s.eng.access :=
  (s.writer_path.eng_same Bool.false_ne_true).access
@[simp] theorem State.writer_inflight : s.writer.eng.inflight = s.eng.inflight :=
  (s.writer_path.eng_same Bool.false_ne_true).inflight

/-! ### State.contestAt -/
@[simp] theorem State.contestAt_survey (t : Time) : (s.contestAt t).survey = s.survey :=
  (s.contestAt_path t).survey_eq Bool.false_ne_true
@[simp] theorem State.contestAt_guard (t : Time) : (s.contestAt t).guard = s.guard :=
  (s.contestAt_path t).guard_eq Bool.false_ne_true
@[simp] theorem State.contestAt_act (t : Time) : (s.contestAt t).act = s.act :=
  (s.contestAt_path t).act_eq Bool.false_ne_true
@[simp] theorem State.contestAt_cal (t : Time) : (s.contestAt t).cal = s.cal :=
  (s.contestAt_path t).cal_eq Bool.false_ne_true
@[simp] theorem State.contestAt_arb (t : Time) : (s.contestAt t).arb = s.arb :=
  (s.contestAt_path t).arb_eq Bool.false_ne_true
@[simp] theorem State.contestAt_frost (t : Time) : (s.contestAt t).frost = s.frost :=
  (s.contestAt_path t).frost_eq Bool.false_ne_true
@[simp] theorem State.contestAt_sys (t : Time) : (s.contestAt t).sys = s.sys :=
  (s.contestAt_path t).sys_eq Bool.false_ne_true
@[simp] theorem State.contestAt_pending (t : Time) : (s.contestAt t).pending = s.pending := (s.contestAt_path t).pending_eq
@[simp] theorem State.contestAt_pump (t : Time) (j : Fin 4) : (s.contestAt t).pump j = s.pump j := by simp [State.pump]
@[simp] theorem State.contestAt_heater (t : Time) (j : Fin 4) : (s.contestAt t).heater j = s.heater j := by simp [State.heater]
@[simp] theorem State.contestAt_now (t : Time) : (s.contestAt t).now = s.now := by simp [State.now]
@[simp] theorem State.contestAt_set (t : Time) : (s.contestAt t).set = s.set := by simp [State.set]
@[simp] theorem State.contestAt_access (t : Time) : (s.contestAt t).eng.access = s.eng.access :=
  ((s.contestAt_path t).eng_same Bool.false_ne_true).access
@[simp] theorem State.contestAt_inflight (t : Time) : (s.contestAt t).eng.inflight = s.eng.inflight :=
  ((s.contestAt_path t).eng_same Bool.false_ne_true).inflight

/-! ### State.finishPlan -/
@[simp] theorem State.finishPlan_survey (n : Nat) (c : EndCause) (t : Time) (ref : Option OrderRef) : (s.finishPlan n c t ref).survey = s.survey :=
  (s.finishPlan_path n c t ref).survey_eq Bool.false_ne_true
@[simp] theorem State.finishPlan_guard (n : Nat) (c : EndCause) (t : Time) (ref : Option OrderRef) : (s.finishPlan n c t ref).guard = s.guard :=
  (s.finishPlan_path n c t ref).guard_eq Bool.false_ne_true
@[simp] theorem State.finishPlan_act (n : Nat) (c : EndCause) (t : Time) (ref : Option OrderRef) : (s.finishPlan n c t ref).act = s.act :=
  (s.finishPlan_path n c t ref).act_eq Bool.false_ne_true
@[simp] theorem State.finishPlan_cal (n : Nat) (c : EndCause) (t : Time) (ref : Option OrderRef) : (s.finishPlan n c t ref).cal = s.cal :=
  (s.finishPlan_path n c t ref).cal_eq Bool.false_ne_true
@[simp] theorem State.finishPlan_arb (n : Nat) (c : EndCause) (t : Time) (ref : Option OrderRef) : (s.finishPlan n c t ref).arb = s.arb :=
  (s.finishPlan_path n c t ref).arb_eq Bool.false_ne_true
@[simp] theorem State.finishPlan_frost (n : Nat) (c : EndCause) (t : Time) (ref : Option OrderRef) : (s.finishPlan n c t ref).frost = s.frost :=
  (s.finishPlan_path n c t ref).frost_eq Bool.false_ne_true
@[simp] theorem State.finishPlan_sys (n : Nat) (c : EndCause) (t : Time) (ref : Option OrderRef) : (s.finishPlan n c t ref).sys = s.sys :=
  (s.finishPlan_path n c t ref).sys_eq Bool.false_ne_true
@[simp] theorem State.finishPlan_pending (n : Nat) (c : EndCause) (t : Time) (ref : Option OrderRef) : (s.finishPlan n c t ref).pending = s.pending := (s.finishPlan_path n c t ref).pending_eq
@[simp] theorem State.finishPlan_pump (n : Nat) (c : EndCause) (t : Time) (ref : Option OrderRef) (j : Fin 4) : (s.finishPlan n c t ref).pump j = s.pump j := by simp [State.pump]
@[simp] theorem State.finishPlan_heater (n : Nat) (c : EndCause) (t : Time) (ref : Option OrderRef) (j : Fin 4) : (s.finishPlan n c t ref).heater j = s.heater j := by simp [State.heater]
@[simp] theorem State.finishPlan_now (n : Nat) (c : EndCause) (t : Time) (ref : Option OrderRef) : (s.finishPlan n c t ref).now = s.now := by simp [State.now]
@[simp] theorem State.finishPlan_set (n : Nat) (c : EndCause) (t : Time) (ref : Option OrderRef) : (s.finishPlan n c t ref).set = s.set := by simp [State.set]
@[simp] theorem State.finishPlan_access (n : Nat) (c : EndCause) (t : Time) (ref : Option OrderRef) : (s.finishPlan n c t ref).eng.access = s.eng.access :=
  ((s.finishPlan_path n c t ref).eng_same Bool.false_ne_true).access
@[simp] theorem State.finishPlan_inflight (n : Nat) (c : EndCause) (t : Time) (ref : Option OrderRef) : (s.finishPlan n c t ref).eng.inflight = s.eng.inflight :=
  ((s.finishPlan_path n c t ref).eng_same Bool.false_ne_true).inflight

/-! ### State.inletFreed -/
@[simp] theorem State.inletFreed_survey : s.inletFreed.survey = s.survey :=
  s.inletFreed_path.survey_eq Bool.false_ne_true
@[simp] theorem State.inletFreed_guard : s.inletFreed.guard = s.guard :=
  s.inletFreed_path.guard_eq Bool.false_ne_true
@[simp] theorem State.inletFreed_act : s.inletFreed.act = s.act :=
  s.inletFreed_path.act_eq Bool.false_ne_true
@[simp] theorem State.inletFreed_cal : s.inletFreed.cal = s.cal :=
  s.inletFreed_path.cal_eq Bool.false_ne_true
@[simp] theorem State.inletFreed_arb : s.inletFreed.arb = s.arb :=
  s.inletFreed_path.arb_eq Bool.false_ne_true
@[simp] theorem State.inletFreed_frost : s.inletFreed.frost = s.frost :=
  s.inletFreed_path.frost_eq Bool.false_ne_true
@[simp] theorem State.inletFreed_sys : s.inletFreed.sys = s.sys :=
  s.inletFreed_path.sys_eq Bool.false_ne_true
@[simp] theorem State.inletFreed_pending : s.inletFreed.pending = s.pending := s.inletFreed_path.pending_eq
@[simp] theorem State.inletFreed_pump (k : Fin 4) : s.inletFreed.pump k = s.pump k := by simp [State.pump]
@[simp] theorem State.inletFreed_heater (k : Fin 4) : s.inletFreed.heater k = s.heater k := by simp [State.heater]
@[simp] theorem State.inletFreed_now : s.inletFreed.now = s.now := by simp [State.now]
@[simp] theorem State.inletFreed_set : s.inletFreed.set = s.set := by simp [State.set]
@[simp] theorem State.inletFreed_access : s.inletFreed.eng.access = s.eng.access :=
  (s.inletFreed_path.eng_same Bool.false_ne_true).access
@[simp] theorem State.inletFreed_inflight : s.inletFreed.eng.inflight = s.eng.inflight :=
  (s.inletFreed_path.eng_same Bool.false_ne_true).inflight

end Sys2Proof.Machine
end

