-- ==== Sys2Proof/Laws/Pumps.lean ====
section
/-! SUPPORT. What the pump operations do to the actuator table: the pump they name, and nothing else in it. -/

namespace Sys2Proof.Machine

variable {s t u : State} {n m : Fin 4}

/-- The actuator table but for pump `n`, and the parts no pump operation touches. -/
structure OnlyPump (n : Fin 4) (s t : State) : Prop where
  pump : ∀ m, n ≠ m → t.pump m = s.pump m
  inlet : t.act.inlet = s.act.inlet
  heaters : t.act.heaters = s.act.heaters
  holds : t.act.holds = s.act.holds
  survey : t.survey = s.survey
  guard : t.guard = s.guard
  cal : t.cal = s.cal
  arb : t.arb = s.arb
  plans : t.plans = s.plans
  frost : t.frost = s.frost
  sys : t.sys = s.sys
  access : t.eng.access = s.eng.access
  inflight : t.eng.inflight = s.eng.inflight

theorem OnlyPump.refl (n : Fin 4) (s : State) : OnlyPump n s s :=
  ⟨fun _ _ => rfl, rfl, rfl, rfl, rfl, rfl, rfl, rfl, rfl, rfl, rfl, rfl, rfl⟩

theorem OnlyPump.trans (h : OnlyPump n s t) (k : OnlyPump n t u) : OnlyPump n s u :=
  ⟨fun m hm => (k.pump m hm).trans (h.pump m hm), k.inlet.trans h.inlet, k.heaters.trans h.heaters, k.holds.trans h.holds,
    k.survey.trans h.survey, k.guard.trans h.guard, k.cal.trans h.cal, k.arb.trans h.arb, k.plans.trans h.plans,
    k.frost.trans h.frost, k.sys.trans h.sys, k.access.trans h.access, k.inflight.trans h.inflight⟩

theorem State.setPump_only (s : State) (n : Fin 4) (p : Pump) : OnlyPump n s (s.setPump n p) :=
  ⟨fun m hm => by simp [hm], rfl, rfl, rfl, rfl, rfl, rfl, rfl, rfl, rfl, rfl, rfl, rfl⟩
theorem State.modPump_only (s : State) (n : Fin 4) (f : Pump → Pump) : OnlyPump n s (s.modPump n f) := s.setPump_only n _
theorem State.post_only (s : State) (n : Fin 4) (i : Instr) : OnlyPump n s (s.post i) :=
  ⟨fun _ _ => rfl, rfl, rfl, rfl, rfl, rfl, rfl, rfl, rfl, rfl, rfl, rfl, rfl⟩
theorem State.posts_only (s : State) (n : Fin 4) (l : List Instr) : OnlyPump n s (s.posts l) :=
  ⟨fun _ _ => rfl, rfl, rfl, rfl, rfl, rfl, rfl, rfl, rfl, rfl, rfl, rfl, rfl⟩
theorem State.completeOrder_only (s : State) (n : Fin 4) (c : OrderCode) (k : Nat) (st : Status) (rs : Reason)
    (l : List Byte) : OnlyPump n s (s.completeOrder c k st rs l) := s.posts_only n _
theorem State.make_only (s : State) (n : Fin 4) (k : RecKind) (x : Time) (ref : Option OrderRef) (b : List Byte) :
    OnlyPump n s (s.make k x ref b) :=
  ⟨fun _ _ => by simp, by simp, by simp, by simp, by simp, by simp, by simp, by simp, by simp, by simp, by simp, by simp, by simp⟩
theorem State.tellPumps_only (s : State) (n : Fin 4) (o : Owner) (c : PumpChange) : OnlyPump n s (s.tellPumps o c) := by
  cases o <;> first | exact OnlyPump.refl n s | exact s.post_only n _

@[simp] theorem State.tellPumps_pump (s : State) (o : Owner) (c : PumpChange) (m : Fin 4) :
    (s.tellPumps o c).pump m = s.pump m := by cases o <;> rfl
@[simp] theorem State.tellPlan_pump (s : State) (o : Owner) (c : Report) (m : Fin 4) :
    (s.tellPlan o c).pump m = s.pump m := by cases o <;> rfl
@[simp] theorem State.post_pump (s : State) (i : Instr) (m : Fin 4) : (s.post i).pump m = s.pump m := rfl
@[simp] theorem State.posts_pump (s : State) (l : List Instr) (m : Fin 4) : (s.posts l).pump m = s.pump m := rfl
@[simp] theorem State.completeOrder_pump (s : State) (c : OrderCode) (k : Nat) (st : Status) (rs : Reason) (l : List Byte)
    (m : Fin 4) : (s.completeOrder c k st rs l).pump m = s.pump m := rfl

/-- What a fold keeps, each step keeping it. -/
theorem overAll_keeps {α β : Type} (v : State → β) (f : α → State → State) (hf : ∀ a s, v (f a s) = v s) (l : List α) :
    ∀ s : State, v (overAll l f s) = v s := by
  induction l with
  | nil => exact fun _ => rfl
  | cons a l ih => exact fun s => (ih _).trans (hf a s)

theorem mem_four (n : Fin 4) : n ∈ four := by revert n; decide

/-! ### Load -/

theorem State.claimPump_only (s : State) (n : Fin 4) : OnlyPump n s (s.claimPump n) := by
  unfold State.claimPump
  dsimp only
  split
  · exact (s.setPump_only n _).trans (State.post_only _ n _)
  · exact OnlyPump.refl n s

theorem State.releasePump_only (s : State) (n : Fin 4) : OnlyPump n s (s.releasePump n) :=
  ((s.setPump_only n _).trans (State.posts_only _ n _)).trans (State.claimPump_only _ n)

/-- A claim changes the claim of its pump alone. -/
theorem State.claimPump_pump (s : State) (n : Fin 4) : ∃ c, (s.claimPump n).pump n = { s.pump n with claim := c } := by
  unfold State.claimPump
  dsimp only
  split
  · exact ⟨.claimed, by simp⟩
  · exact ⟨(s.pump n).claim, rfl⟩

/-- Giving up load changes the claim of its pump alone. -/
theorem State.releasePump_pump (s : State) (n : Fin 4) : ∃ c, (s.releasePump n).pump n = { s.pump n with claim := c } := by
  obtain ⟨c, hc⟩ := State.claimPump_pump ((s.setPump n { s.pump n with claim := .none }).posts (giveUp (s.pump n).claim (.pump n))) n
  refine ⟨c, ?_⟩
  unfold State.releasePump
  rw [hc]
  simp

/-! ### Stops -/

/-- What a RUN record does to the pumps: run-since goes absent. -/
theorem State.runStop_pump (s : State) (n : Fin 4) (c : Nat) (m : Fin 4) :
    (s.runStop n c).pump m = if n = m then { s.pump n with runSince := none } else s.pump m := by
  unfold State.runStop
  split
  · rename_i hr
    split
    · rename_i hm
      subst hm
      rw [← hr]
    · rfl
  · simp

theorem State.runStop_only (s : State) (n : Fin 4) (c : Nat) : OnlyPump n s (s.runStop n c) := by
  unfold State.runStop
  split
  · exact OnlyPump.refl n s
  · exact (s.modPump_only n _).trans (State.make_only _ n _ _ _ _)

theorem State.confirmOff_only (s : State) (n : Fin 4) : OnlyPump n s (s.confirmOff n) := by
  have h := s.runStop_only n 0
  unfold State.confirmOff
  generalize s.runStop n 0 = u at h
  dsimp only
  have h2 := ((((h.trans (u.setPump_only n { u.pump n with
      mode := if u.heldEstablished (.pump n) then .held else .resting
      offSince := some u.now
      offEnd := if u.heldEstablished (.pump n) then none else some (u.now + u.set.minOff)
      stopDl := none
      owner := (u.pump n).offOwner
      request := (u.pump n).offRequest })).trans (State.releasePump_only _ n)).trans
      (State.completeOrder_only _ n .stopPump n.val .done .none [])).trans (State.tellPumps_only _ n (u.pump n).owner .stopped))
  repeat' first
    | exact h2
    | exact h2.trans (State.post_only _ n _)
    | exact (h2.trans (State.post_only _ n _)).trans (State.post_only _ n _)
    | split

/-- A pump that confirms off (R45). -/
theorem State.confirmOff_pump (s : State) (n : Fin 4) : ∃ c, (s.confirmOff n).pump n = { s.pump n with
    mode := if s.heldEstablished (.pump n) then .held else .resting
    offSince := some s.now
    offEnd := if s.heldEstablished (.pump n) then none else some (s.now + s.set.minOff)
    stopDl := none
    runSince := none
    owner := (s.pump n).offOwner
    request := (s.pump n).offRequest
    claim := c } := by
  have hp : (s.runStop n 0).pump n = { s.pump n with runSince := none } := by rw [State.runStop_pump]; simp
  have ho := s.runStop_only n 0
  have hh : (s.runStop n 0).heldEstablished (.pump n) = s.heldEstablished (.pump n) := by
    simp only [State.heldEstablished, State.holdNaming, ho.holds]
  have hn : (s.runStop n 0).now = s.now := by simp only [State.now, ho.cal]
  have hs : (s.runStop n 0).set = s.set := by simp only [State.set, ho.sys]
  unfold State.confirmOff
  generalize s.runStop n 0 = u at hp hh hn hs
  dsimp only
  obtain ⟨c, hc⟩ := State.releasePump_pump (u.setPump n { u.pump n with
      mode := if u.heldEstablished (.pump n) then .held else .resting
      offSince := some u.now
      offEnd := if u.heldEstablished (.pump n) then none else some (u.now + u.set.minOff)
      stopDl := none
      owner := (u.pump n).offOwner
      request := (u.pump n).offRequest }) n
  refine ⟨c, ?_⟩
  have key : ∀ v : State, v.pump n = ((u.setPump n { u.pump n with
      mode := if u.heldEstablished (.pump n) then .held else .resting
      offSince := some u.now
      offEnd := if u.heldEstablished (.pump n) then none else some (u.now + u.set.minOff)
      stopDl := none
      owner := (u.pump n).offOwner
      request := (u.pump n).offRequest }).releasePump n).pump n → v.pump n = { s.pump n with
    mode := if s.heldEstablished (.pump n) then .held else .resting
    offSince := some s.now
    offEnd := if s.heldEstablished (.pump n) then none else some (s.now + s.set.minOff)
    stopDl := none
    runSince := none
    owner := (s.pump n).offOwner
    request := (s.pump n).offRequest
    claim := c } := by
    intro v hv
    rw [hv, hc]
    simp only [State.pump_setPump, if_true, hp, hh, hn, hs, Pump.offOwner, Pump.offRequest]
  refine key _ ?_
  by_cases h1 : (u.pump n).mode = .stuckOn <;> by_cases h2 : u.heldEstablished (.pump n) = false ∧ u.set.minOff = 0 <;>
    simp [h1, h2]

theorem State.contactorOff_only (s : State) (n : Fin 4) : OnlyPump n s (s.contactorOff n) := by
  have h1 := s.modPump_only n (fun p => { p with
    contactor := false, mode := .stopping, stopDl := some (s.now + Config.stopConfirm), tryDl := none, stopWait := false })
  unfold State.contactorOff
  dsimp only
  split
  · exact h1
  · exact h1.trans (State.confirmOff_only _ n)

/-- A contactor commanded off is off. -/
theorem State.contactorOff_contactor (s : State) (n : Fin 4) : ((s.contactorOff n).pump n).contactor = false := by
  unfold State.contactorOff
  dsimp only
  split
  · simp
  · obtain ⟨c, hc⟩ := State.confirmOff_pump (s.modPump n fun p => { p with
      contactor := false, mode := .stopping, stopDl := some (s.now + Config.stopConfirm), tryDl := none, stopWait := false }) n
    rw [hc]
    simp

theorem State.pumpIdle_only (s : State) (n : Fin 4) : OnlyPump n s (s.pumpIdle n) :=
  ((s.modPump_only n _).trans (State.releasePump_only _ n)).trans (State.tellPumps_only _ n _ _)

theorem State.pumpDrop_only (s : State) (n : Fin 4) : OnlyPump n s (s.pumpDrop n) := by
  have h1 := s.setPump_only n { s.pump n with request := .none }
  unfold State.pumpDrop
  dsimp only
  split
  all_goals first
    | exact h1.trans (State.contactorOff_only _ n)
    | exact h1
    | exact s.pumpIdle_only n

theorem State.pumpStop_only (s : State) (n : Fin 4) : OnlyPump n s (s.pumpStop n) := by
  have h1 := s.setPump_only n { s.pump n with request := .stop }
  unfold State.pumpStop
  dsimp only
  split
  · split
    · exact h1.trans (State.contactorOff_only _ n)
    · exact h1.trans (State.modPump_only _ n _)
  all_goals first
    | exact h1.trans (State.contactorOff_only _ n)
    | exact h1
    | exact (s.setPump_only n _).trans (State.tellPumps_only _ n _ _)
    | exact s.pumpIdle_only n

/-- A pump that is STARTING or RUNNING and is dropped has its contactor off. -/
theorem State.pumpDrop_contactor (s : State) (n : Fin 4) (h : (s.pump n).mode = .starting ∨ (s.pump n).mode = .running) :
    ((s.pumpDrop n).pump n).contactor = false := by
  unfold State.pumpDrop
  rcases h with h | h <;> simp only [h] <;> exact State.contactorOff_contactor _ n

/-- The contactor of a pump that idles is as before. -/
theorem State.pumpIdle_contactor (s : State) (n : Fin 4) : ((s.pumpIdle n).pump n).contactor = (s.pump n).contactor := by
  unfold State.pumpIdle
  obtain ⟨c, hc⟩ := State.releasePump_pump (s.modPump n fun p => { p with request := .none, owner := p.leftOwner }) n
  rw [State.tellPumps_pump, hc]
  simp

/-- A pump whose contactor agrees with its state has its contactor off once it is dropped. -/
theorem State.pumpDrop_off (s : State) (n : Fin 4) (h : (s.pump n).contactorOk) :
    ((s.pumpDrop n).pump n).contactor = false := by
  by_cases hm : (s.pump n).mode = .starting ∨ (s.pump n).mode = .running
  · exact s.pumpDrop_contactor n hm
  · have hc : (s.pump n).contactor = false := Bool.eq_false_iff.mpr fun hc => hm (h hc).1
    unfold State.pumpDrop
    dsimp only
    split
    all_goals first
      | with_reducible exact State.contactorOff_contactor _ n
      | simpa using hc
      | rw [State.pumpIdle_contactor]; exact hc

/-! ### The inlet -/

section

variable (s : State)

/-- The controller's table but for the inlet. -/
structure OnlyInlet (s t : State) : Prop where
  pumps : t.act.pumps = s.act.pumps
  heaters : t.act.heaters = s.act.heaters
  holds : t.act.holds = s.act.holds
  lastHold : t.act.lastHold = s.act.lastHold

theorem OnlyInlet.same {s t : State} (h : t.act = s.act) : OnlyInlet s t := by
  constructor <;> rw [h]
theorem OnlyInlet.trans {s t u : State} (h : OnlyInlet s t) (k : OnlyInlet t u) : OnlyInlet s u :=
  ⟨k.pumps.trans h.pumps, k.heaters.trans h.heaters, k.holds.trans h.holds, k.lastHold.trans h.lastHold⟩
theorem OnlyInlet.pump {s t : State} (h : OnlyInlet s t) (n : Fin 4) : t.pump n = s.pump n := by
  simp [State.pump, h.pumps]
theorem OnlyInlet.heater {s t : State} (h : OnlyInlet s t) (n : Fin 4) : t.heater n = s.heater n := by
  simp [State.heater, h.heaters]
theorem State.modInlet_only (f : Inlet → Inlet) : OnlyInlet s (s.modInlet f) := ⟨rfl, rfl, rfl, rfl⟩

theorem State.inletConfirmed_act (d : Position) : (s.inletConfirmed d).act = s.act := by
  unfold State.inletConfirmed
  split <;> simp

theorem State.standing_only (d : Position) : OnlyInlet s (s.standing d) :=
  (s.modInlet_only _).trans (OnlyInlet.same (State.inletConfirmed_act _ d))

theorem State.travel_only (m : InletMode) : OnlyInlet s (s.travel m) := by
  unfold State.travel
  split
  · exact s.modInlet_only _
  · exact OnlyInlet.same rfl

theorem State.drive_only (d : Position) : OnlyInlet s (s.drive d) := by
  unfold State.drive
  split
  all_goals first
    | exact OnlyInlet.same rfl
    | exact s.standing_only _
    | exact s.travel_only _

theorem State.closeNow_only : OnlyInlet s s.closeNow :=
  OnlyInlet.trans (s.modInlet_only _) (State.drive_only _ _)

theorem OnlyInlet.freed {s t : State} (h : OnlyInlet s t) : OnlyInlet s t.inletFreed :=
  h.trans (OnlyInlet.same t.inletFreed_act)
theorem OnlyInlet.tell {s t : State} (o : Owner) (x : Report) (h : OnlyInlet s t) : OnlyInlet s (t.tellPlan o x) :=
  h.trans (OnlyInlet.same (t.tellPlan_act o x))

/-- What is off stays off where the inlet alone changes. -/
theorem State.pumpsOff_of {s t : State} (u : OnlyInlet s t) (hs : s.pumpsOff) : t.pumpsOff := fun n => by rw [u.pump]; exact hs n

theorem State.inletProgress_only : OnlyInlet s s.inletProgress := by
  unfold State.inletProgress
  dsimp only
  have h1 : OnlyInlet s (if (s.act.inlet.closeWait && !s.pumpsTurning) = true then
      (s.modInlet fun v => { v with closeWait := false }).drive .closed else s) := by
    split
    · exact (s.modInlet_only _).trans (State.drive_only _ _)
    · exact OnlyInlet.same rfl
  generalize (if (s.act.inlet.closeWait && !s.pumpsTurning) = true then
      (s.modInlet fun v => { v with closeWait := false }).drive .closed else s) = a at h1 ⊢
  have h2 : OnlyInlet s (if (s.act.inlet.openWait && !s.pumpsTurning) = true then
      (a.modInlet fun v => { v with openWait := false }).drive .opened else a) := by
    split
    · exact h1.trans ((State.modInlet_only _ _).trans (State.drive_only _ _))
    · exact h1
  generalize (if (s.act.inlet.openWait && !s.pumpsTurning) = true then
      (a.modInlet fun v => { v with openWait := false }).drive .opened else a) = b at h2 ⊢
  split
  · exact h2
  · split
    · refine OnlyInlet.freed (OnlyInlet.tell _ _ (OnlyInlet.trans ?_ (State.closeNow_only _)))
      exact h2.trans (State.modInlet_only _ _)
    · split
      · exact OnlyInlet.freed (h2.trans (State.modInlet_only _ _))
      · exact h2

end

end Sys2Proof.Machine
end

