-- ==== Sys2Proof/Laws/PathActuator.lean ====
section
/-! SUPPORT. The actuator controller's operations as paths (Actuator.lean): beside what the plan table's operations
change, they change the actuator table, and no contactor goes on but in a try that R40 lets begin. -/

namespace Sys2Proof.Machine

variable {K : Scope} {r s : State}

theorem Path.completeOrder (a : OrderCode) (b : Nat) (c : Status) (d : Reason) (e : List Byte) (h : Path K r s) :
    Path K r (s.completeOrder a b c d e) := h.posts _
theorem Path.tellFrost (a : Fin 4) (b : Notice) (h : Path K r s) : Path K r (s.tellFrost a b) := h.post _
theorem Path.tellPlan (a : Owner) (b : Report) (h : Path K r s) : Path K r (s.tellPlan a b) := by
  cases a <;> first | exact h | exact h.post _
theorem Path.tellPumps (a : Owner) (b : PumpChange) (h : Path K r s) : Path K r (s.tellPumps a b) := by
  cases a <;> first | exact h | exact h.post _

/-! ### Load -/

theorem Path.claimPump [AllowsActs K] (a : Fin 4) (h : Path K r s) : Path K r (s.claimPump a) := by
  unfold State.claimPump
  dsimp only
  split
  · rename_i hc
    have hn : (s.pump a).claim = .none := by
      simp only [Pump.claims, Bool.and_eq_true, decide_eq_true_eq] at hc
      exact hc.1.2
    refine (h.setPump a _ ?_).post _
    exact PumpMove.claimed s rfl rfl rfl rfl fun hx => by rw [hn] at hx; rcases hx with hx | hx <;> cases hx
  · exact h

/-- A pump whose contactor is off, or whose machine state says so. -/
def Pump.idle (p : Pump) : Prop := p.contactor = false ∨ (p.mode ≠ .starting ∧ p.mode ≠ .running)

/-- An idle pump may take any machine state, owner and claim state. -/
theorem PumpMove.idle (s : State) {p q : Pump} (hp : p.idle) (hc : q.contactor = p.contactor) (hs : q.starts = p.starts) :
    PumpMove s p q := by
  rcases hp with hp | hp
  · exact PumpMove.off s (hc.trans hp) hs
  · exact PumpMove.rest s hc hs hp

/-- The machine state of an idle pump. -/
theorem Pump.idle_of_mode {p : Pump} {m : PumpMode} (h : p.mode = m) (hm : m ≠ .starting ∧ m ≠ .running) : p.idle :=
  Or.inr (h ▸ hm)

theorem Path.releasePump [AllowsActs K] (a : Fin 4) (hi : (s.pump a).idle) (h : Path K r s) : Path K r (s.releasePump a) := by
  refine ((h.setPump a _ ?_).posts _).claimPump a
  exact PumpMove.idle s hi rfl rfl

theorem Path.claimHeater [AllowsActs K] (a : Fin 4) (h : Path K r s) : Path K r (s.claimHeater a) := by
  unfold State.claimHeater
  try dsimp only
  repeat' first
    | with_reducible assumption
    | with_reducible apply Path.post
    | with_reducible apply Path.setHeater
    | with_reducible exact HeaterMove.quiet _ rfl rfl
    | with_reducible exact HeaterMove.off _ rfl
    | intro _
    | split

theorem Path.releaseHeater [AllowsActs K] (a : Fin 4) (h : Path K r s) : Path K r (s.releaseHeater a) := by
  unfold State.releaseHeater
  try dsimp only
  repeat' first
    | with_reducible assumption
    | with_reducible apply Path.claimHeater
    | with_reducible apply Path.posts
    | with_reducible apply Path.setHeater
    | with_reducible exact HeaterMove.quiet _ rfl rfl
    | with_reducible exact HeaterMove.off _ rfl
    | intro _
    | split

/-! ### Stops -/

theorem Path.runStop [AllowsActs K] (a : Fin 4) (b : Nat) (h : Path K r s) : Path K r (s.runStop a b) := by
  unfold State.runStop
  split
  · exact h
  · refine (h.modPump a _ ?_).make _ _ _ _
    exact PumpMove.quiet s rfl rfl rfl rfl rfl

theorem Path.confirmOff [AllowsActs K] (a : Fin 4) (hi : (s.pump a).idle) (h : Path K r s) : Path K r (s.confirmOff a) := by
  have h1 := h.runStop a 0
  have hi1 : ((s.runStop a 0).pump a).idle := by simpa [State.runStop_pump, Pump.idle] using hi
  unfold State.confirmOff
  generalize s.runStop a 0 = u at h1 hi1
  dsimp only
  have h2 := ((((h1.setPump a { u.pump a with
      mode := if u.heldEstablished (.pump a) then .held else .resting
      offSince := some u.now
      offEnd := if u.heldEstablished (.pump a) then none else some (u.now + u.set.minOff)
      stopDl := none
      owner := (u.pump a).offOwner
      request := (u.pump a).offRequest } (PumpMove.idle u hi1 rfl rfl)).releasePump a
        (by right; simp only [State.pump_setPump, if_true]; split <;> decide)).completeOrder .stopPump a.val .done
    .none []).tellPumps (u.pump a).owner .stopped)
  repeat' first
    | exact h2
    | exact h2.post _
    | exact (h2.post _).post _
    | split

theorem Path.contactorOff [AllowsActs K] (a : Fin 4) (h : Path K r s) : Path K r (s.contactorOff a) := by
  have h1 := h.modPump a (fun p => { p with
    contactor := false, mode := .stopping, stopDl := some (s.now + Config.stopConfirm), tryDl := none, stopWait := false })
    (PumpMove.off s rfl rfl)
  unfold State.contactorOff
  dsimp only
  split
  · exact h1
  · exact h1.confirmOff a (by simp [Pump.idle])

theorem Path.pumpIdle [AllowsActs K] (a : Fin 4) (hi : (s.pump a).idle) (h : Path K r s) : Path K r (s.pumpIdle a) := by
  refine ((h.modPump a _ ?_).releasePump a ?_).tellPumps _ _
  · exact PumpMove.idle s hi rfl rfl
  · simpa [Pump.idle] using hi

theorem Path.pumpStop [AllowsActs K] (a : Fin 4) (h : Path K r s) : Path K r (s.pumpStop a) := by
  have h1 := h.setPump a { s.pump a with request := .stop } (PumpMove.quiet s rfl rfl rfl rfl rfl)
  unfold State.pumpStop
  dsimp only
  split
  · split
    · exact h1.contactorOff a
    · exact h1.modPump a _ (PumpMove.quiet _ rfl rfl rfl rfl rfl)
  all_goals
    rename_i hm
    first
    | exact h1.contactorOff a
    | exact h1
    | (refine (h.setPump a _ ?_).tellPumps _ _
       exact PumpMove.idle s (Pump.idle_of_mode hm (by decide)) rfl rfl)
    | exact h.pumpIdle a (Pump.idle_of_mode hm (by decide))

theorem Path.pumpDrop [AllowsActs K] (a : Fin 4) (h : Path K r s) : Path K r (s.pumpDrop a) := by
  have h1 := h.setPump a { s.pump a with request := .none } (PumpMove.quiet s rfl rfl rfl rfl rfl)
  unfold State.pumpDrop
  dsimp only
  split
  all_goals
    rename_i hm
    first
    | exact h1.contactorOff a
    | exact h1
    | exact h.pumpIdle a (Pump.idle_of_mode hm (by decide))

theorem Path.pumpCut [AllowsActs K] (a : Fin 4) (h : Path K r s) : Path K r (s.pumpCut a) := by
  unfold State.pumpCut
  try dsimp only
  repeat' first
    | with_reducible assumption
    | with_reducible apply Path.contactorOff
    | intro _
    | split

/-! ### Tries -/

theorem Path.pumpConfirmed [AllowsActs K] (a : Fin 4) (h : Path K r s) : Path K r (s.pumpConfirmed a) := by
  refine (((h.modPump a _ ?_).make _ _ _ _).completeOrder _ _ _ _ _).tellPumps _ _
  exact PumpMove.turning s rfl rfl rfl rfl (Or.inr rfl)

theorem State.inletServes_iff (s : State) (o : Owner) : s.inletServes o = true ↔ s.act.inlet.serves o := by
  unfold State.inletServes Inlet.serves
  cases o <;> simp

/-- A try begins only where R40 lets it. -/
theorem Path.beginTry [AllowsActs K] (a : Fin 4) (hc : s.canTry a = true) (h : Path K r s) : Path K r (s.beginTry a) := by
  simp only [State.canTry, Bool.and_eq_true, decide_eq_true_eq] at hc
  have hg : s.guard.mode = .clear := by simp_all
  have hl : s.eng.access ≠ .localControl := by simp_all
  have hp : s.sys.power = .run := by simp_all
  have hm : s.act.inlet.mode = .opened ∧ s.act.inlet.cmd = some .opened := by simp_all
  have hv : s.act.inlet.serves (s.pump a).owner := (s.inletServes_iff _).mp (by simp_all)
  have hcl : (s.pump a).claim = .granted := by simp_all
  have h1 := h.modPump a (fun p =>
    let l := p.starts ++ [s.now]
    { p with
      contactor := true, starts := l.drop (l.length - Config.startsMax), mode := .starting
      tryDl := some (s.now + s.set.confirmTime) })
    ⟨⟨fun _ _ => ⟨Or.inl rfl, Or.inl hcl⟩, fun _ => Or.inr ⟨by rw [hg]; rfl, hl, hp⟩, by
      refine Nat.le_trans ?_ (Nat.le_max_right _ _)
      simp only [List.length_drop]
      omega⟩, fun _ _ => Or.inr ⟨hm.1, hm.2, hv⟩⟩
  unfold State.beginTry
  dsimp only
  split
  · exact h1.pumpConfirmed a
  · exact h1

theorem Path.pumpFailed [AllowsActs K] (a : Fin 4) (b : Nat) (hi : (s.pump a).idle) (h : Path K r s) :
    Path K r (s.pumpFailed a b) := by
  unfold State.pumpFailed
  dsimp only
  split
  all_goals
    repeat' first
      | with_reducible apply Path.completeOrder
      | with_reducible apply Path.tellPumps
      | with_reducible apply Path.make
    refine (h.setPump a _ ?_).releasePump a ?_
    · exact PumpMove.idle s hi rfl rfl
    · right
      simp only [State.pump_setPump, if_true]
      repeat' split
      all_goals decide

theorem Path.tryFailed [AllowsActs K] (a : Fin 4) (h : Path K r s) : Path K r (s.tryFailed a) := by
  have h1 := h.modPump a (fun p => { p with contactor := false, tryDl := none, stopWait := false, tries := p.tries + 1 })
    (PumpMove.off s rfl rfl)
  unfold State.tryFailed
  generalize hu : s.modPump a (fun p => { p with contactor := false, tryDl := none, stopWait := false, tries := p.tries + 1 }) = u at h1
  have hi : (u.pump a).idle := by rw [← hu]; simp [Pump.idle]
  dsimp only
  split
  · exact h1.pumpFailed a _ hi
  · have h2 := h1.setPump a { u.pump a with mode := .retryWait, retryDl := some (s.now + s.set.restartInterval) }
      (PumpMove.idle u hi rfl rfl)
    have hi2 : ((u.setPump a { u.pump a with mode := .retryWait, retryDl := some (s.now + s.set.restartInterval) }).pump a).idle := by
      right
      simp
    repeat' first
      | exact h2.pumpIdle a hi2
      | exact h2.releasePump a hi2
      | exact h2
      | split

/-! ### The inlet valve -/

theorem Path.inletConfirmed [AllowsActs K] (a : Position) (h : Path K r s) : Path K r (s.inletConfirmed a) := by
  unfold State.inletConfirmed
  try dsimp only
  repeat' first
    | with_reducible assumption
    | with_reducible apply Path.completeOrder
    | with_reducible apply Path.tellPlan
    | intro _
    | split

/-- Pumps see nothing of a change of the inlet. -/
theorem State.pumpsOff_modInlet (s : State) (f : Inlet → Inlet) : (s.modInlet f).pumpsOff ↔ s.pumpsOff := Iff.rfl

/-- No pump runs against an inlet that is not OPEN. -/
theorem ActState.inletGuards.off_of_mode (hg : s.act.inletGuards) (h : s.act.inlet.mode ≠ .opened) : s.pumpsOff := fun n =>
  Bool.eq_false_iff.mpr fun hn => h (hg.pumps n hn).1

/-- No pump runs against an inlet owned by neither a plan nor MANUAL. -/
theorem ActState.inletGuards.off_of_owner (hg : s.act.inletGuards) (h : s.act.inlet.owner ≠ .manual ∧ ∀ m, s.act.inlet.owner ≠ .plan m) :
    s.pumpsOff := fun n => Bool.eq_false_iff.mpr fun hn => by
  rcases (hg.pumps n hn).2.1.fills with hx | ⟨m, hx⟩
  · exact h.1 hx
  · exact h.2 m hx

/-- A travel begins from an inlet that is not OPEN, or with no pump running. -/
theorem Path.travel [AllowsActs K] (m : InletMode) (hm : m ≠ .opened)
    (hx : r.guarded → s.act.inlet.mode = .opened → s.pumpsOff) (h : Path K r s) : Path K r (s.travel m) := by
  unfold State.travel
  split
  · refine h.modInletOff _ (fun hr => ?_) (fun he => absurd he hm) (fun _ => Or.inl rfl) (fun hg => Or.inr ⟨hg, rfl⟩)
    by_cases ho : s.act.inlet.mode = .opened
    · exact hx hr ho
    · exact (h.inletGuards hr).off_of_mode ho
  · exact h

theorem Path.standing [AllowsActs K] (d : Position) (h : Path K r s) : Path K r (s.standing d) :=
  (h.modInlet _ ⟨rfl, Or.inl rfl, id, Or.inr (Or.inr ⟨rfl, rfl⟩), Or.inl⟩).inletConfirmed d

/-- A drive toward CLOSED of an OPEN inlet finds no pump running. -/
theorem Path.drive [AllowsActs K] (a : Position) (hx : r.guarded → a = .closed → s.act.inlet.mode = .opened → s.pumpsOff)
    (h : Path K r s) : Path K r (s.drive a) := by
  unfold State.drive
  split
  all_goals first
    | exact h
    | exact h.standing _
    | exact h.travel _ (by decide) (fun hr => hx hr rfl)
    | (rename_i hm; exact h.travel _ (by decide) (fun _ ho => by rw [hm] at ho; cases ho))

theorem Path.driveOpen [AllowsActs K] (h : Path K r s) : Path K r (s.drive .opened) := h.drive _ fun _ he => by cases he

theorem Path.closeNow [AllowsActs K] (hf : r.guarded → s.pumpsOff) (h : Path K r s) : Path K r (s.closeNow) :=
  (h.modInletOff _ hf (fun he => Or.inr ⟨he, rfl, rfl⟩) (fun _ => Or.inl rfl) fun hg => Or.inr ⟨hg, rfl⟩).drive _ fun hr _ _ => hf hr

theorem Path.command [AllowsActs K] (a : Position) (h : Path K r s) : Path K r (s.command a) := by
  unfold State.command
  split
  · exact (h.modInlet _ ⟨rfl, Or.inl rfl, id, Or.inl rfl, Or.inl⟩).driveOpen
  · dsimp only
    have hm : (s.act.inlet.closeWait || decide (s.act.inlet.mode ≠ .closed ∧ s.act.inlet.mode ≠ .closing)) = true ∨
        s.act.inlet.mode ≠ .opened := by
      by_cases ho : s.act.inlet.mode = .opened
      · left; simp [ho]
      · exact Or.inr ho
    have h1 : Path K r (s.modInlet fun v => { v with
        cmd := some .closed
        closeWait := v.closeWait || decide (s.act.inlet.mode ≠ .closed ∧ s.act.inlet.mode ≠ .closing)
        openWait := false
        closeFor := [] }) := by
      rcases hm with hm | hm
      · exact h.modInlet _ ⟨rfl, Or.inl rfl, id, Or.inr (Or.inl hm), Or.inl⟩
      · exact h.modInletOff _ (fun hr => (h.inletGuards hr).off_of_mode hm) (fun he => Or.inr ⟨he, rfl, rfl⟩) (fun _ => Or.inl rfl)
          fun hg => Or.inr ⟨hg, rfl⟩
    have h2 := Path.overAll (four.filter fun n => s.ownersPump (s.pump n)) State.pumpStop (fun k _ t ht => ht.pumpStop k) h1
    split
    · rename_i hc
      refine h2.drive _ fun _ _ ho => ?_
      rw [overAll_keeps (fun t : State => t.act.inlet) State.pumpStop (fun k t => (t.pumpStop_only k).inlet)] at ho
      exact absurd (ho.symm.trans hc) (by decide)
    · exact h2

theorem Path.driveCmd [AllowsActs K] (h : Path K r s) : Path K r (s.driveCmd) := by
  unfold State.driveCmd
  split
  · exact h
  · rename_i hw
    simp only [Bool.or_eq_true, not_or, Bool.not_eq_true] at hw
    split
    · exact h
    · rename_i d hd
      refine h.drive _ fun hr he _ n => Bool.eq_false_iff.mpr fun hn => ?_
      rcases ((h.inletGuards hr).pumps n hn).2.2 with hc | hc
      · rw [hd, he] at hc; cases hc
      · rw [hw.1] at hc; cases hc

theorem Path.redrive [AllowsActs K] (h : Path K r s) : Path K r (s.redrive) := by
  unfold State.redrive
  split
  · exact h
  · exact h.driveCmd

theorem Path.driveHeld [AllowsActs K] (h : Path K r s) : Path K r (s.driveHeld) := by
  unfold State.driveHeld
  split
  · exact h.driveCmd
  · exact h

/-- No pump runs against an inlet that the guard or a hold keeps CLOSED. -/
theorem State.keptClosed_off (hg : s.act.inletGuards) (hk : s.keptClosed = true) : s.pumpsOff := by
  refine hg.off_of_owner ?_
  simp only [State.keptClosed, State.holdNaming, Bool.or_eq_true, decide_eq_true_eq] at hk
  have ho : s.act.inlet.owner = .none ∨ s.act.inlet.owner = .guard ∨ s.act.inlet.owner = .hold := by
    rcases hk with hk | hk
    · exact Or.inr (Or.inl hk)
    · obtain ⟨x, hx⟩ := Option.isSome_iff_exists.mp hk
      have hm := List.mem_of_find?_eq_some hx
      have ha := List.find?_some hx
      have ha : x.act = .inlet := of_decide_eq_true ha
      cases he : x.established with
      | none => exact (hg.pending x hm ha he).imp_right Or.inl
      | some t => exact Or.inr ((hg.held x hm ha (by rw [he]; rfl)).symm)
  rcases ho with ho | ho | ho <;> rw [ho] <;> exact ⟨by decide, fun m hm => by cases hm⟩

theorem Path.driveKept [AllowsActs K] (hk : s.keptClosed = true) (h : Path K r s) : Path K r (s.drive .closed) :=
  h.drive _ fun hr _ _ => State.keptClosed_off (h.inletGuards hr) hk

theorem Path.redriven [AllowsActs K] (h : Path K r s) : Path K r s.redriven := by
  unfold State.redriven
  split
  · rename_i hk
    exact h.driveKept hk
  · exact h.driveHeld

/-- No pump runs where none of the inlet's owner is turning. -/
theorem State.off_of_not_turning (hk : s.pumpsOk) (hg : s.act.inletGuards)
    (ht : ∀ n, (s.pump n).turning = true → s.ownersPump (s.pump n) = false) : s.pumpsOff := fun n => Bool.eq_false_iff.mpr fun hn => by
  have hm : (s.pump n).turning = true := by
    unfold Pump.turning
    rcases (hk n hn).1 with hx | hx <;> simp [hx]
  have hv := (hg.pumps n hn).2.1
  have ho := ht n hm
  simp only [State.ownersPump, Bool.or_eq_false_iff, decide_eq_false_iff_not] at ho
  rcases hv with ⟨hv | hv, hi⟩ | ⟨m, hv, hi⟩
  · exact ho.1 ⟨by rw [hi]; decide, by rw [hi]; exact hv⟩
  · exact ho.2 ⟨hi, hv⟩
  · exact ho.1 ⟨by rw [hi]; exact Owner.noConfusion, by rw [hi]; exact hv⟩

theorem State.ownTurning_off (hk : s.pumpsOk) (hg : s.act.inletGuards) (ht : s.ownTurning = false) : s.pumpsOff :=
  State.off_of_not_turning hk hg fun n hn => by
    simp only [State.ownTurning, List.any_eq_false, Bool.and_eq_true, Bool.or_eq_true, not_and, not_or, Bool.not_eq_true] at ht
    exact (ht n (mem_four n) hn).1

theorem State.pumpsTurning_off (hk : s.pumpsOk) (hg : s.act.inletGuards) (ht : s.pumpsTurning = false) : s.pumpsOff :=
  State.off_of_not_turning hk hg fun n hn => by
    simp only [State.pumpsTurning, List.any_eq_false, Bool.and_eq_true, Bool.or_eq_true, not_and, not_or, Bool.not_eq_true] at ht
    exact (ht n (mem_four n) hn).1.1

/-- A travel that waited begins where no pump runs. -/
theorem Path.waitOver [AllowsActs K] (f : Inlet → Inlet) (d : Position) (hf : r.guarded → s.pumpsOff)
    (hm : ∀ v, (f v).mode = v.mode ∧ (f v).openLs = v.openLs ∧ (f v).closedLs = v.closedLs ∧ (f v).owner = v.owner)
    (hn : (f s.act.inlet).going → s.act.inlet.going) (h : Path K r s) : Path K r ((s.modInlet f).drive d) := by
  refine (h.modInletOff f hf (fun he => Or.inr ⟨(hm _).1 ▸ he, (hm _).2.1, (hm _).2.2.1⟩) (fun _ => Or.inl (hm _).2.2.2)
    fun hw => Or.inr ⟨hn hw, (hm _).2.2.2⟩).drive d fun hr _ _ => ?_
  exact hf hr

/-- An inlet on its way from its owner loses it where no pump runs. -/
theorem Path.ownerGone [AllowsActs K] (f : Inlet → Inlet) (hf : r.guarded → s.pumpsOff)
    (hm : ∀ v, (f v).mode = v.mode ∧ (f v).openLs = v.openLs ∧ (f v).closedLs = v.closedLs)
    (hg : s.act.inlet.going) (hn : (f s.act.inlet).going → s.act.inlet.going → (f s.act.inlet).filling) (h : Path K r s) :
    Path K r (s.modInlet f) :=
  h.modInletOff f hf (fun he => Or.inr ⟨(hm _).1 ▸ he, (hm _).2.1, (hm _).2.2⟩)
    (fun hr => Or.inr (Or.inr ((h.inletGuards hr).unnamed ((h.inletGuards hr).going hg)))) fun hw => Or.inl (hn hw hg)

/-- A drive changes how the valve moves, and nothing else of the inlet. -/
theorem State.drive_inlet (s : State) (d : Position) :
    ∃ m x w, (s.drive d).act.inlet = { s.act.inlet with mode := m, travelDl := x, driveWait := w } := by
  have h1 (m : InletMode) : ∃ m' x w, (s.travel m).act.inlet = { s.act.inlet with mode := m', travelDl := x, driveWait := w } := by
    unfold State.travel
    split
    · exact ⟨_, _, _, rfl⟩
    · exact ⟨_, _, _, rfl⟩
  have h2 (e : Position) : ∃ m' x w, (s.standing e).act.inlet = { s.act.inlet with mode := m', travelDl := x, driveWait := w } := by
    unfold State.standing
    rw [State.inletConfirmed_act]
    exact ⟨_, _, _, rfl⟩
  unfold State.drive
  split
  all_goals first
    | exact h1 _
    | exact h2 _
    | exact ⟨_, _, _, rfl⟩

theorem Path.inletProgress [AllowsActs K] (h : Path K r s) : Path K r (s.inletProgress) := by
  have ho1 (hp : s.pumpsTurning = false) (hr : r.guarded) : s.pumpsOff :=
    State.pumpsTurning_off (h.pumpsOk hr.1.1) (h.inletGuards hr) hp
  unfold State.inletProgress
  dsimp only
  have h1 : OnlyInlet s (if (s.act.inlet.closeWait && !s.pumpsTurning) = true then
      (s.modInlet fun v => { v with closeWait := false }).drive .closed else s) ∧
      Path K r (if (s.act.inlet.closeWait && !s.pumpsTurning) = true then
      (s.modInlet fun v => { v with closeWait := false }).drive .closed else s) ∧
      ((if (s.act.inlet.closeWait && !s.pumpsTurning) = true then
      (s.modInlet fun v => { v with closeWait := false }).drive .closed else s).act.inlet.leaving = s.act.inlet.leaving ∧
      (if (s.act.inlet.closeWait && !s.pumpsTurning) = true then
      (s.modInlet fun v => { v with closeWait := false }).drive .closed else s).act.inlet.releasing = s.act.inlet.releasing) := by
    split
    · rename_i hc
      simp only [Bool.and_eq_true, Bool.not_eq_true'] at hc
      refine ⟨(s.modInlet_only _).trans (State.drive_only _ _),
        h.waitOver _ _ (ho1 hc.2) (fun _ => ⟨rfl, rfl, rfl, rfl⟩) id, ?_⟩
      obtain ⟨m, x, w, he⟩ := State.drive_inlet (s.modInlet fun v => { v with closeWait := false }) .closed
      rw [he]
      exact ⟨rfl, rfl⟩
    · exact ⟨OnlyInlet.same rfl, h, rfl, rfl⟩
  generalize (if (s.act.inlet.closeWait && !s.pumpsTurning) = true then
      (s.modInlet fun v => { v with closeWait := false }).drive .closed else s) = a at h1 ⊢
  have h2 : OnlyInlet s (if (s.act.inlet.openWait && !s.pumpsTurning) = true then
      (a.modInlet fun v => { v with openWait := false }).drive .opened else a) ∧
      Path K r (if (s.act.inlet.openWait && !s.pumpsTurning) = true then
      (a.modInlet fun v => { v with openWait := false }).drive .opened else a) ∧
      ((if (s.act.inlet.openWait && !s.pumpsTurning) = true then
      (a.modInlet fun v => { v with openWait := false }).drive .opened else a).act.inlet.leaving = s.act.inlet.leaving ∧
      (if (s.act.inlet.openWait && !s.pumpsTurning) = true then
      (a.modInlet fun v => { v with openWait := false }).drive .opened else a).act.inlet.releasing = s.act.inlet.releasing) := by
    split
    · rename_i hc
      simp only [Bool.and_eq_true, Bool.not_eq_true'] at hc
      refine ⟨h1.1.trans ((State.modInlet_only _ _).trans (State.drive_only _ _)),
        h1.2.1.waitOver _ _ (fun hr => State.pumpsOff_of h1.1 (ho1 hc.2 hr)) (fun _ => ⟨rfl, rfl, rfl, rfl⟩) id, ?_⟩
      obtain ⟨m, x, w, he⟩ := State.drive_inlet (a.modInlet fun v => { v with openWait := false }) .opened
      rw [he]
      exact h1.2.2
    · exact h1
  generalize (if (s.act.inlet.openWait && !s.pumpsTurning) = true then
      (a.modInlet fun v => { v with openWait := false }).drive .opened else a) = b at h2 ⊢
  split
  · exact h2.2.1
  · rename_i ht
    have hf (hr : r.guarded) : b.pumpsOff :=
      State.pumpsOff_of h2.1 (State.ownTurning_off (h.pumpsOk hr.1.1) (h.inletGuards hr) (Bool.eq_false_iff.mpr ht))
    split
    · rename_i hl
      have h3 := h2.2.1.ownerGone (fun v => { v with owner := .none, leaving := false, releasing := false, goFor := [] }) hf
        (fun _ => ⟨rfl, rfl, rfl⟩) (Or.inl (h2.2.2.1.trans hl)) (by rintro (hw | hw) _ <;> cases hw)
      exact ((h3.closeNow fun hr => (State.pumpsOff_modInlet _ _).mpr (hf hr)).tellPlan _ _).inletFreed
    · split
      · rename_i hn hl
        exact (h2.2.1.ownerGone (fun v => { v with owner := .none, releasing := false, goFor := [] }) hf
          (fun _ => ⟨rfl, rfl, rfl⟩) (Or.inr (h2.2.2.2.trans hl)) (by
            rintro (hw | hw) _
            · exact absurd (h2.2.2.1.symm.trans hw) hn
            · cases hw)).inletFreed
      · exact h2.2.1

/-! ### Heaters -/

theorem Path.heaterRelease [AllowsActs K] (a : Fin 4) (h : Path K r s) : Path K r (s.heaterRelease a) := by
  unfold State.heaterRelease
  try dsimp only
  repeat' first
    | with_reducible assumption
    | with_reducible apply Path.releaseHeater
    | with_reducible apply Path.setHeater
    | with_reducible exact HeaterMove.quiet _ rfl rfl
    | with_reducible exact HeaterMove.off _ rfl
    | intro _
    | split

theorem Path.heaterOff [AllowsActs K] (a : Fin 4) (b : HeaterMode) (h : Path K r s) : Path K r (s.heaterOff a b) := by
  unfold State.heaterOff
  try dsimp only
  repeat' first
    | with_reducible assumption
    | with_reducible apply Path.heaterRelease
    | with_reducible apply Path.modHeater
    | with_reducible exact HeaterMove.quiet _ rfl rfl
    | with_reducible exact HeaterMove.off _ rfl
    | intro _
    | split

theorem Path.heaterConfirmed [AllowsActs K] (a : Fin 4) (h : Path K r s) : Path K r (s.heaterConfirmed a) := by
  refine (h.modHeater a _ ?_).tellFrost _ _
  exact HeaterMove.heating s rfl (Or.inr rfl)

/-- A heater's try begins only where R51 lets it. -/
theorem Path.beginHeaterTry [AllowsActs K] (a : Fin 4) (hc : s.canTryHeater a = true) (h : Path K r s) :
    Path K r (s.beginHeaterTry a) := by
  simp only [State.canTryHeater, Bool.and_eq_true, decide_eq_true_eq] at hc
  have hp : s.sys.power = .run := by simp_all
  have h1 := h.modHeater a (fun p => { p with
    contactor := true, mode := .starting, tryDl := some (s.now + s.set.heaterConfirm), stuckDl := none })
    ⟨fun _ _ => Or.inl rfl, fun _ => Or.inr hp⟩
  unfold State.beginHeaterTry
  dsimp only
  split
  · exact h1.heaterConfirmed a
  · exact h1

theorem Path.heaterTryFailed [AllowsActs K] (a : Fin 4) (h : Path K r s) : Path K r (s.heaterTryFailed a) := by
  unfold State.heaterTryFailed
  try dsimp only
  repeat' first
    | with_reducible assumption
    | with_reducible apply Path.tellFrost
    | with_reducible apply Path.make
    | with_reducible apply Path.heaterOff
    | with_reducible apply Path.modHeater
    | with_reducible exact HeaterMove.quiet _ rfl rfl
    | with_reducible exact HeaterMove.off _ rfl
    | intro _
    | split

theorem Path.heaterStop [AllowsActs K] (a : Fin 4) (b : Request) (h : Path K r s) : Path K r (s.heaterStop a b) := by
  unfold State.heaterStop
  try dsimp only
  repeat' first
    | with_reducible assumption
    | with_reducible apply Path.modHeater
    | with_reducible exact HeaterMove.quiet _ rfl rfl
    | with_reducible exact HeaterMove.off _ rfl
    | with_reducible apply Path.heaterOff
    | with_reducible apply Path.heaterRelease
    | intro _
    | split

/-! ### Holds -/

theorem eq_of_nodup_map {α β : Type} {f : α → β} {l : List α} (h : (l.map f).Nodup) {x y : α} (hx : x ∈ l) (hy : y ∈ l)
    (e : f x = f y) : x = y := by
  induction l with
  | nil => cases hx
  | cons a l ih =>
    rw [List.map_cons, List.nodup_cons] at h
    rcases List.mem_cons.mp hx with hx | hx <;> rcases List.mem_cons.mp hy with hy | hy
    · rw [hx, hy]
    · exact absurd (List.mem_map.mpr ⟨y, hy, by rw [← e, hx]⟩) h.1
    · exact absurd (List.mem_map.mpr ⟨x, hx, by rw [e, hy]⟩) h.1
    · exact ih h.2 hx hy

/-- The mark of a hold that becomes ESTABLISHED. -/
abbrev Hold.marked (k : Nat) (t : Time) (x : Hold) : Hold := if x.number = k then { x with established := some t } else x

theorem Hold.marked_number (k : Nat) (t : Time) (x : Hold) : (x.marked k t).number = x.number := by unfold Hold.marked; split <;> rfl
theorem Hold.marked_act (k : Nat) (t : Time) (x : Hold) : (x.marked k t).act = x.act := by unfold Hold.marked; split <;> rfl
theorem Hold.marked_none {k : Nat} {t : Time} {x : Hold} (h : (x.marked k t).established = none) :
    x.number ≠ k ∧ x.marked k t = x := by
  unfold Hold.marked at *
  split at h
  · cases h
  · rename_i hn
    exact ⟨hn, if_neg hn⟩

/-- A hold becomes ESTABLISHED, its actuator taken where that is the inlet (R58). -/
theorem ActState.inletGuards.marked {a : ActState} (hg : a.inletGuards) (k : Nat) (t : Time) (v : Inlet)
    (hv : (∀ x ∈ a.holds, x.number = k → x.act ≠ .inlet) ∧ v = a.inlet ∨
      (∃ x ∈ a.holds, x.number = k ∧ x.act = .inlet) ∧ a.inlet.mode ≠ .opened
        ∧ v = { a.inlet with owner := if a.inlet.owner = .guard then .guard else .hold }) :
    ({ a with holds := a.holds.map (Hold.marked k t), inlet := v } : ActState).inletGuards := by
  have hroom : (a.holds.map (Hold.marked k t)).length ≤ Config.holdsMax := by rw [List.length_map]; exact hg.room
  have hnum : ((a.holds.map (Hold.marked k t)).map Hold.number).Nodup := by
    rw [List.map_map, show Hold.number ∘ Hold.marked k t = Hold.number from funext fun x => x.marked_number k t]; exact hg.numbers
  have hact : ((a.holds.map (Hold.marked k t)).map Hold.act).Nodup := by
    rw [List.map_map, show Hold.act ∘ Hold.marked k t = Hold.act from funext fun x => x.marked_act k t]; exact hg.acts
  rcases hv with ⟨hn, rfl⟩ | ⟨⟨x, hx, hxk, hxi⟩, hm, rfl⟩
  · refine ⟨hg.pumps, hg.switches, hroom, hnum, hact, fun y hy hi he => ?_, fun y hy hi he => ?_, hg.going⟩
    all_goals
      obtain ⟨z, hz, rfl⟩ := List.mem_map.mp hy
      rw [Hold.marked_act] at hi
    · have := Hold.marked_none he
      rw [this.2] at he
      exact hg.pending z hz hi he
    · have hk : z.number ≠ k := fun e => hn z hz e hi
      rw [show z.marked k t = z from if_neg hk] at he
      exact hg.held z hz hi he
  · have ho : (if a.inlet.owner = .guard then Owner.guard else .hold) = .hold ∨
        (if a.inlet.owner = .guard then Owner.guard else .hold) = .guard := by
      split
      · exact Or.inr rfl
      · exact Or.inl rfl
    refine ⟨fun n hn => absurd (hg.pumps n hn).1 hm, hg.switches, hroom, hnum, hact, fun y hy hi he => ?_, fun _ _ _ _ => ho,
      fun hw => absurd hxi (hg.unnamed (hg.going hw) x hx)⟩
    obtain ⟨z, hz, rfl⟩ := List.mem_map.mp hy
    have hk := (Hold.marked_none he).1
    rw [Hold.marked_act] at hi
    exact absurd (eq_of_nodup_map hg.acts hz hx (hi.trans hxi.symm) ▸ hxk) hk

theorem Path.establish [AllowsActs K] (x : Hold) (hn : ∃ y ∈ s.act.holds, y.number = x.number ∧ y.act = x.act)
    (hs : s.safe x.act = true) (h : Path K r s) : Path K r (s.establish x) := by
  obtain ⟨y, hy, hyn, hya⟩ := hn
  have hl : (s.act.holds.map (Hold.marked x.number s.now)).length ≤ max s.act.holds.length Config.holdsMax := by
    rw [List.length_map]; exact Nat.le_max_left _ _
  have hone (hg : s.act.inletGuards) (hi : x.act ≠ .inlet) : ∀ z ∈ s.act.holds, z.number = x.number → z.act ≠ .inlet :=
    fun z hz hzn => by rw [eq_of_nodup_map hg.numbers hz hy (hzn.trans hyn.symm), hya]; exact hi
  refine Path.posts _ (Path.make _ _ _ _ ?_)
  unfold State.takeHold
  split
  · rename_i k hk
    have h1 : Path K r { s with act := { s.act with holds := s.act.holds.map (Hold.marked x.number s.now) } } :=
      h.actRest _ rfl hl fun _ hg => hg.marked _ _ _ (Or.inl ⟨hone hg (by rw [hk]; exact ActId.noConfusion), rfl⟩)
    rw [hk] at hs
    simp only [State.safe, Bool.and_eq_true, decide_eq_true_eq] at hs
    refine h1.modPump k (fun p => { p with owner := .hold, mode := .held, offEnd := none, retryDl := none, stopDl := none }) ?_
    refine PumpMove.rest _ rfl rfl ?_
    show (s.pump k).mode ≠ .starting ∧ (s.pump k).mode ≠ .running
    rcases hs.1 with hm | hm | hm <;> rw [hm] <;> decide
  · rename_i hk
    rw [hk] at hs
    simp only [State.safe, decide_eq_true_eq] at hs
    have h1 : Path K r { s with act := { s.act with
        holds := s.act.holds.map (Hold.marked x.number s.now)
        inlet := { s.act.inlet with owner := if s.act.inlet.owner = .guard then .guard else .hold } } } :=
      h.actRest _ rfl hl fun _ hg => hg.marked _ _ _ (Or.inr ⟨⟨y, hy, hyn, hya.trans hk⟩, by rw [hs]; decide, rfl⟩)
    exact h1
  · rename_i k hk
    have h1 : Path K r { s with act := { s.act with holds := s.act.holds.map (Hold.marked x.number s.now) } } :=
      h.actRest _ rfl hl fun _ hg => hg.marked _ _ _ (Or.inl ⟨hone hg (by rw [hk]; exact ActId.noConfusion), rfl⟩)
    rw [hk] at hs
    simp only [State.safe, Bool.and_eq_true, Bool.not_eq_true'] at hs
    refine h1.modHeater k (fun p => { p with owner := .hold, mode := .held, retryDl := none }) ?_
    exact HeaterMove.off _ hs.1

/-- The numbers and actuators of the holds, as a list. -/
def State.holdNames (s : State) : List (Nat × ActId) := s.act.holds.map fun h => (h.number, h.act)

theorem State.takeHold_holds (s : State) (a : ActId) : (s.takeHold a).act.holds = s.act.holds := by cases a <;> rfl

theorem State.establish_names (s : State) (h : Hold) : (s.establish h).holdNames = s.holdNames := by
  have e : (s.establish h).act.holds = s.act.holds.map (Hold.marked h.number s.now) := by
    unfold State.establish
    dsimp only
    rw [show ∀ (x : Hold) (t : State), (t.completeHold x).act = t.act from fun _ _ => rfl, State.make_act, State.takeHold_holds]
  unfold State.holdNames
  rw [e, List.map_map]
  refine List.map_congr_left fun x _ => ?_
  simp only [Function.comp_def, Hold.marked_number, Hold.marked_act]

theorem Path.establishHolds [AllowsActs K] (h : Path K r s) : Path K r s.establishHolds := by
  have key (l : List Hold) (u : State) (hu : Path K r u) (hl : ∀ x ∈ l, (x.number, x.act) ∈ u.holdNames) :
      Path K r (Machine.overAll l (fun h s => if h.established.isNone && s.safe h.act then s.establish h else s) u) := by
    induction l generalizing u with
    | nil => exact hu
    | cons x l ih =>
      have hx := hl x List.mem_cons_self
      refine ih _ ?_ fun y hy => ?_
      · dsimp only
        split
        · rename_i hc
          simp only [Bool.and_eq_true] at hc
          obtain ⟨y, hy, he⟩ := List.mem_map.mp hx
          exact hu.establish x ⟨y, hy, congrArg Prod.fst he, congrArg Prod.snd he⟩ hc.2
        · exact hu
      · dsimp only
        split
        · rw [State.establish_names]; exact hl y (List.mem_cons_of_mem x hy)
        · exact hl y (List.mem_cons_of_mem x hy)
  exact key _ s h fun x hx => List.mem_map_of_mem (f := fun h : Hold => (h.number, h.act)) hx

/-- A hold leaves the table. -/
theorem ActState.inletGuards.freed {a : ActState} (hg : a.inletGuards) (k : Nat) :
    ({ a with holds := a.holds.filter fun x => decide (x.number ≠ k) } : ActState).inletGuards :=
  have hm (x : Hold) (hx : x ∈ a.holds.filter fun x => decide (x.number ≠ k)) : x ∈ a.holds := (List.mem_filter.mp hx).1
  ⟨hg.pumps, hg.switches, Nat.le_trans (List.length_filter_le _ _) hg.room,
    hg.numbers.sublist (List.Sublist.map _ List.filter_sublist), hg.acts.sublist (List.Sublist.map _ List.filter_sublist),
    fun x hx => hg.pending x (hm x hx), fun x hx => hg.held x (hm x hx), hg.going⟩

theorem Path.freeHold [AllowsActs K] (a : Hold) (h : Path K r s) : Path K r (s.freeHold a) :=
  Path.setHoldOf _ _ (h.actRest { s.act with holds := s.act.holds.filter fun x => decide (x.number ≠ a.number) } rfl
    (Nat.le_trans (List.length_filter_le _ _) (Nat.le_max_left _ _)) fun _ hg => hg.freed _)

theorem Path.entersResting [AllowsActs K] (k : Fin 4) (h : Path K r s) : Path K r (s.entersResting k) := by
  have h1 := h.completeOrder .stopPump k.val .done .none []
  unfold State.entersResting
  dsimp only
  split
  · exact h1.post _
  · exact h1

/-- A pump whose contactor is off rests. -/
theorem Path.rest [AllowsActs K] (k : Fin 4) (hi : (s.pump k).idle) (h : Path K r s) : Path K r (s.rest k) := by
  unfold State.rest
  dsimp only
  split
  · refine h.modPump k _ ?_
    exact PumpMove.idle s hi rfl rfl
  · refine (h.modPump k _ ?_).entersResting k
    exact PumpMove.idle s hi rfl rfl

theorem Path.stillAwaited [AllowsActs K] (k : Fin 4) (h : Path K r s) : Path K r (s.stillAwaited k) := by
  unfold State.stillAwaited
  dsimp only
  split
  · exact h.modInlet _ ⟨rfl, Or.inl rfl, id, Or.inr (Or.inr ⟨rfl, rfl⟩), Or.inl⟩
  · exact h

theorem State.stillAwaited_pump (s : State) (k n : Fin 4) : (s.stillAwaited k).pump n = s.pump n := by
  unfold State.stillAwaited
  dsimp only
  split <;> rfl

/-- A pump changes its owner and has its contactor commanded off, in one event. -/
theorem Path.contactorOffMod [AllowsActs K] (a : Fin 4) (f : Pump → Pump) (hs : (f (s.pump a)).starts = (s.pump a).starts)
    (h : Path K r s) : Path K r ((s.modPump a f).contactorOff a) := by
  have e : (s.modPump a f).modPump a (fun p => { p with
      contactor := false, mode := .stopping, stopDl := some (s.now + Config.stopConfirm), tryDl := none, stopWait := false }) =
      s.modPump a (fun p => { f p with
        contactor := false, mode := .stopping, stopDl := some (s.now + Config.stopConfirm), tryDl := none, stopWait := false }) := by
    simp [State.modPump, State.setPump, State.pump]
  have h1 : Path K r (s.modPump a (fun p => { f p with
      contactor := false, mode := .stopping, stopDl := some (s.now + Config.stopConfirm), tryDl := none, stopWait := false })) :=
    h.modPump a _ (PumpMove.off s rfl hs)
  rw [← e] at h1
  unfold State.contactorOff
  dsimp only
  split
  · exact h1
  · exact h1.confirmOff a (by simp [Pump.idle])

/-- A pump is let go by a hold. -/
theorem Path.letGoPump [AllowsActs K] (k : Fin 4) (h : Path K r s) : Path K r (s.letGo (.pump k)) := by
  have h0 := h.stillAwaited k
  have hp : (s.stillAwaited k).pump k = s.pump k := State.stillAwaited_pump s k k
  unfold State.letGo
  dsimp only
  refine Path.post _ ?_
  generalize s.stillAwaited k = u at h0 hp
  have hm : (u.modPump k fun p => { p with owner := .none, request := .none }).pump k = { s.pump k with owner := .none, request := .none } := by
    simp [hp]
  have hi (hx : (s.pump k).idle) : ((u.modPump k fun p => { p with owner := .none, request := .none }).pump k).idle := by
    rw [hm]; exact hx
  have h1 (hx : (s.pump k).idle) : Path K r (u.modPump k fun p => { p with owner := .none, request := .none }) := by
    refine h0.modPump k _ ?_
    exact PumpMove.idle u (by rw [hp]; exact hx) rfl rfl
  have hr (v : State) (hv : (v.pump k).idle) : ((v.rest k).pump k).idle := by
    unfold State.rest State.entersResting
    dsimp only
    right
    repeat' split
    all_goals simp
  split
  all_goals
    rename_i hh
    first
    | (refine h0.contactorOffMod k _ ?_
       rfl)
    | exact (h1 (Pump.idle_of_mode hh (by decide))).releasePump k (hi (Pump.idle_of_mode hh (by decide)))
    | exact ((h1 (Pump.idle_of_mode hh (by decide))).rest k (hi (Pump.idle_of_mode hh (by decide)))).releasePump k
        (hr _ (hi (Pump.idle_of_mode hh (by decide))))
    | exact h1 (Pump.idle_of_mode hh (by decide))

/-- The inlet is let go by a hold that is out of the table (R60). -/
theorem Path.letGoInlet [AllowsActs K] (hn : r.guarded → ∀ x ∈ s.act.holds, x.act ≠ .inlet)
    (ho : r.guarded → ¬s.act.inlet.filling) (h : Path K r s) : Path K r (s.letGo .inlet) := by
  unfold State.letGo
  dsimp only
  split
  · exact h
  · have hf (hr : r.guarded) : s.pumpsOff :=
      (h.inletGuards hr).off_of_owner ⟨fun e => ho hr (Or.inl e), fun m e => ho hr (Or.inr ⟨m, e⟩)⟩
    have h1 : Path K r (s.modInlet fun v => { v with owner := .none }) :=
      h.modInletOf _ fun hr hg => hg.inlet_off (hf hr) _ hg.switches (Or.inr (Or.inr (hn hr)))
        fun hw => absurd (hg.going hw) (ho hr)
    exact (h1.closeNow fun hr => (State.pumpsOff_modInlet _ _).mpr (hf hr)).inletFreed

theorem Path.letGoHeater [AllowsActs K] (k : Fin 4) (h : Path K r s) : Path K r (s.letGo (.heater k)) := by
  refine ((h.modHeater k _ ?_).heaterRelease k).tellFrost k _
  exact HeaterMove.off s rfl

/-- The holds after one has left the table. -/
theorem State.freeHold_holds (s : State) (x : Hold) :
    (s.freeHold x).act.holds = s.act.holds.filter fun y => decide (y.number ≠ x.number) := by
  unfold State.freeHold State.setHoldOf
  cases x.act <;> rfl
theorem State.freeHold_owner (s : State) (x : Hold) : (s.freeHold x).act.inlet.owner = s.act.inlet.owner := by
  unfold State.freeHold State.setHoldOf
  cases x.act <;> rfl
theorem State.freeHold_going (s : State) (x : Hold) : (s.freeHold x).act.inlet.going ↔ s.act.inlet.going := by
  unfold State.freeHold State.setHoldOf
  cases x.act <;> exact Iff.rfl

/-- No hold names the inlet once the one that did has left the table. -/
theorem State.freeHold_unnamed {s : State} {x : Hold} (hg : s.act.inletGuards) (hx : x ∈ s.act.holds) (hi : x.act = .inlet) :
    ∀ y ∈ (s.freeHold x).act.holds, y.act ≠ .inlet := fun y hy e => by
  rw [State.freeHold_holds, List.mem_filter] at hy
  have := eq_of_nodup_map hg.acts hy.1 hx (e.trans hi.symm)
  rw [this] at hy
  simp at hy

/-- A hold of the inlet in the table has the inlet owned by neither a plan nor MANUAL. -/
theorem ActState.inletGuards.named {a : ActState} (hg : a.inletGuards) {x : Hold} (hx : x ∈ a.holds) (hi : x.act = .inlet) :
    ¬a.inlet.filling := fun hf => hg.unnamed hf x hx hi

theorem Path.endHold [AllowsActs K] (a : Hold) (b : Nat) (c : Option OrderRef) (ha : a ∈ s.act.holds) (h : Path K r s) :
    Path K r (s.endHold a b c) := by
  have h1 := h.freeHold a
  refine Path.make _ _ _ _ ?_
  cases hi : a.act with
  | pump k => exact h1.letGoPump k
  | heater k => exact h1.letGoHeater k
  | inlet =>
    refine h1.letGoInlet (fun hr => State.freeHold_unnamed (h.inletGuards hr) ha hi) fun hr hf => ?_
    refine (h.inletGuards hr).named ha hi ?_
    unfold Inlet.filling at *
    rw [State.freeHold_owner] at hf
    exact hf

/-- A pump that is dropped no longer runs. -/
theorem State.pumpDrop_idle (s : State) (n : Fin 4) : ((s.pumpDrop n).pump n).idle := by
  unfold State.pumpDrop
  dsimp only
  split
  all_goals
    rename_i hm
    first
    | exact Or.inl (State.contactorOff_contactor _ n)
    | (right
       simp only [State.pump_setPump, if_true, hm]
       decide)
    | (right
       unfold State.pumpIdle
       obtain ⟨c, hc⟩ := State.releasePump_pump (s.modPump n fun p => { p with request := .none, owner := p.leftOwner }) n
       rw [State.tellPumps_pump, hc]
       simp [hm])

theorem Path.abandonHold [AllowsActs K] (a : Hold) (ha : a ∈ s.act.holds) (h : Path K r s) : Path K r (s.abandonHold a) := by
  have h1 := h.freeHold a
  unfold State.abandonHold
  dsimp only
  split
  · refine ((h1.pumpDrop _).modPump _ _ ?_).post _
    exact PumpMove.idle _ (State.pumpDrop_idle _ _) rfl rfl
  · rename_i hi
    split
    · exact h1
    · refine (h1.modInletOf _ fun hr hg => ?_).inletFreed
      have hn : ¬(s.freeHold a).act.inlet.filling := fun hf => (h.inletGuards hr).named ha hi (by
        unfold Inlet.filling at *
        rw [State.freeHold_owner] at hf
        exact hf)
      exact hg.inlet_off (hg.off_of_owner ⟨fun e => hn (Or.inl e), fun m e => hn (Or.inr ⟨m, e⟩)⟩) _ hg.switches
        (Or.inr (Or.inr (State.freeHold_unnamed (h.inletGuards hr) ha hi))) fun hw => absurd (hg.going hw) hn
  · refine (h1.modHeater _ _ ?_).tellFrost _ _
    exact HeaterMove.quiet _ rfl rfl

/-- Every pump of a list over which an operation runs that leaves its pump at rest no longer runs. -/
theorem overAll_idle {f : Fin 4 → State → State} (ho : ∀ n s, OnlyPump n s (f n s)) (hi : ∀ n s, ((f n s).pump n).idle)
    (l : List (Fin 4)) : ∀ (s : State) (n : Fin 4), n ∈ l ∨ (s.pump n).idle → ((Machine.overAll l f s).pump n).idle := by
  induction l with
  | nil =>
    rintro s n (h | h)
    · cases h
    · exact h
  | cons a l ih =>
    intro s n h
    refine ih _ n ?_
    by_cases ha : a = n
    · subst ha
      exact Or.inr (hi _ _)
    · rw [(ho a s).pump n ha]
      refine h.imp_left fun hn => ?_
      rcases List.mem_cons.mp hn with he | hl
      · exact absurd he.symm ha
      · exact hl

/-- Pumps that are idle, their contactors in agreement with their states, are off. -/
theorem State.pumpsOff_of_idle {s : State} (hk : s.pumpsOk) (hi : ∀ n, (s.pump n).idle) : s.pumpsOff := fun n =>
  Bool.eq_false_iff.mpr fun hc => by
    rcases hi n with hi | hi
    · rw [hi] at hc; cases hc
    · rcases (hk n hc).1 with hm | hm
      · exact hi.1 hm
      · exact hi.2 hm

/-- A pump that the inlet serves belongs to its owner. -/
theorem State.ownersPump_of_serves {s : State} {p : Pump} (h : s.act.inlet.serves p.owner) : s.ownersPump p = true := by
  unfold State.ownersPump
  rcases h with ⟨ho | ho, hv⟩ | ⟨m, ho, hv⟩ <;> simp [ho, hv]

/-- The pumps of the inlet's owner are dropped: no pump runs then. -/
theorem Path.dropOwners [AllowsActs K] (h : Path K r s) :
    Path K r (Machine.overAll (four.filter fun k => s.ownersPump (s.pump k)) State.pumpDrop s) ∧
      (r.guarded → (Machine.overAll (four.filter fun k => s.ownersPump (s.pump k)) State.pumpDrop s).pumpsOff) := by
  have h1 := Path.overAll (four.filter fun k => s.ownersPump (s.pump k)) State.pumpDrop (fun k _ t ht => ht.pumpDrop k) h
  refine ⟨h1, fun hr => State.pumpsOff_of_idle (h1.pumpsOk hr.1.1) fun n => ?_⟩
  refine overAll_idle (fun n s => s.pumpDrop_only n) (fun n s => s.pumpDrop_idle n) _ s n ?_
  by_cases hn : (s.pump n).contactor = true
  · exact Or.inl (List.mem_filter.mpr ⟨mem_four n, State.ownersPump_of_serves ((h.inletGuards hr).pumps n hn).2.1⟩)
  · exact Or.inr (Or.inl (Bool.eq_false_iff.mpr hn))

/-- A number that is next is not in use, as long as fewer than three are. -/
theorem nextNumber_fresh (last : Nat) (used : List Nat) (h : used.length < 3) : nextNumber last used ∉ used := by
  unfold nextNumber
  cases hf : ((List.range 255).map fun k => (last + k) % 255 + 1).find? fun n => !used.contains n with
  | some n =>
    have := List.find?_some hf
    simpa using this
  | none =>
    rw [List.find?_eq_none] at hf
    have key (k : Nat) (hk : k < 255) : (last + k) % 255 + 1 ∈ used := by
      have := hf ((last + k) % 255 + 1) (List.mem_map.mpr ⟨k, List.mem_range.mpr hk, rfl⟩)
      simpa using this
    have h0 := key 0 (by decide)
    have h1 := key 1 (by decide)
    have h2 := key 2 (by decide)
    match used, h with
    | [], _ => cases h0
    | [a], _ =>
      simp only [List.mem_singleton] at h0 h1
      omega
    | [a, b], _ =>
      simp only [List.mem_cons, List.not_mem_nil, or_false] at h0 h1 h2
      omega

/-- A new hold enters the table. -/
theorem ActState.inletGuards.entered {a : ActState} (hg : a.inletGuards) (x : Hold) (k : Nat)
    (hl : a.holds.length < Config.holdsMax) (hn : x.number ∉ a.holds.map Hold.number) (ha : ∀ y ∈ a.holds, y.act ≠ x.act)
    (he : x.established = none) (ho : x.act = .inlet → a.inlet.owner = .none ∨ a.inlet.owner = .guard) :
    ({ a with holds := a.holds ++ [x], lastHold := k } : ActState).inletGuards := by
  have key {β : Type} (f : Hold → β) (h : (a.holds.map f).Nodup) (hx : f x ∉ a.holds.map f) : ((a.holds ++ [x]).map f).Nodup := by
    rw [List.map_append, List.nodup_append]
    refine ⟨h, by simp, fun u hu v hv => ?_⟩
    simp only [List.map_cons, List.map_nil, List.mem_singleton] at hv
    exact fun e => hx (by rw [← hv, ← e]; exact hu)
  have hm {y : Hold} (hy : y ∈ a.holds ++ [x]) : y ∈ a.holds ∨ y = x := by
    rcases List.mem_append.mp hy with hy | hy
    · exact Or.inl hy
    · exact Or.inr (List.mem_singleton.mp hy)
  refine ⟨hg.pumps, hg.switches, ?_, key _ hg.numbers hn, key _ hg.acts fun hx => ?_, fun y hy hi hye => ?_,
    fun y hy hi hye => ?_, hg.going⟩
  · simp only [List.length_append, List.length_cons, List.length_nil]
    exact hl
  · obtain ⟨y, hy, e⟩ := List.mem_map.mp hx
    exact ha y hy e
  · rcases hm hy with hy | rfl
    · exact hg.pending y hy hi hye
    · exact ho hi
  · rcases hm hy with hy | rfl
    · exact hg.held y hy hi hye
    · rw [he] at hye; cases hye

theorem Path.enterHold [AllowsActs K] (x : Hold) (hl : s.act.holds.length < Config.holdsMax)
    (hn : x.number ∉ s.act.holds.map Hold.number) (ha : ∀ y ∈ s.act.holds, y.act ≠ x.act) (he : x.established = none)
    (ho : x.act = .inlet → s.act.inlet.owner = .none ∨ s.act.inlet.owner = .guard) (h : Path K r s) : Path K r (s.enterHold x) := by
  have hx : (s.act.holds ++ [x]).length ≤ max s.act.holds.length Config.holdsMax := by
    refine Nat.le_trans ?_ (Nat.le_max_right _ _)
    simp only [List.length_append, List.length_cons, List.length_nil]
    omega
  have h1 : Path K r { s with act := { s.act with holds := s.act.holds ++ [x], lastHold := x.number } } :=
    h.actRest _ rfl hx fun _ hg => hg.entered x x.number hl hn ha he ho
  exact h1.setHoldOf _ _

theorem Path.makeHold [AllowsActs K] (a : ActId) (ref : OrderRef) (hl : s.act.holds.length < Config.holdsMax)
    (hu : s.unheld a) (h : Path K r s) : Path K r (s.makeHold a ref) := by
  have hn : s.nextHoldNumber ∉ s.act.holds.map Hold.number := nextNumber_fresh _ _ (by rw [List.length_map]; exact hl)
  unfold State.makeHold
  dsimp only
  split
  · rename_i k
    exact ((h.enterHold ⟨s.nextHoldNumber, .pump k, s.now, none, s.now + 60 * s.set.holdLifetime, ref⟩ hl hn hu rfl
      fun e => by cases e).pumpDrop k).tellPumps _ _
  · obtain ⟨h1, hf⟩ := h.dropOwners
    have hi : (Machine.overAll (four.filter fun k => s.ownersPump (s.pump k)) State.pumpDrop s).act.inlet = s.act.inlet :=
      overAll_keeps (fun t : State => t.act.inlet) State.pumpDrop (fun k t => (t.pumpDrop_only k).inlet) _ s
    have hh : (Machine.overAll (four.filter fun k => s.ownersPump (s.pump k)) State.pumpDrop s).act.holds = s.act.holds :=
      overAll_keeps (fun t : State => t.act.holds) State.pumpDrop (fun k t => (t.pumpDrop_only k).holds) _ s
    generalize Machine.overAll (four.filter fun k => s.ownersPump (s.pump k)) State.pumpDrop s = u at h1 hf hi hh
    have hl : u.act.holds.length < Config.holdsMax := by rw [hh]; exact hl
    have hn : s.nextHoldNumber ∉ u.act.holds.map Hold.number := by rw [hh]; exact hn
    have hu : ∀ y ∈ u.act.holds, y.act ≠ .inlet := by rw [hh]; exact hu
    split
    · rename_i hg
      exact h1.enterHold ⟨s.nextHoldNumber, .inlet, s.now, none, s.now + 60 * s.set.holdLifetime, ref⟩ hl hn hu rfl
        fun _ => Or.inr (by rw [hi]; exact of_decide_eq_true hg)
    · have h2 : Path K r (u.modInlet fun v => { v with owner := .none, releasing := false, leaving := false }) :=
        h1.modInletOff _ hf (fun he => Or.inr ⟨he, rfl, rfl⟩) (fun _ => Or.inr (Or.inr hu)) fun hw => by
          rcases hw with hw | hw <;> cases hw
      have h3 := Path.enterHold (s := u.modInlet fun v => { v with owner := .none, releasing := false, leaving := false })
        ⟨s.nextHoldNumber, .inlet, s.now, none, s.now + 60 * s.set.holdLifetime, ref⟩ hl hn hu rfl (fun _ => Or.inl rfl) h2
      have h4 := (h3.closeNow (by exact hf)).tellPlan s.act.inlet.owner .inletTaken
      split
      · exact h4
      · exact h4.inletFreed
  · rename_i k
    refine (((h.enterHold ⟨s.nextHoldNumber, .heater k, s.now, none, s.now + 60 * s.set.holdLifetime, ref⟩ hl hn hu rfl
      fun e => by cases e).modHeater k _ ?_).heaterStop k _).tellFrost k _
    exact HeaterMove.quiet _ rfl rfl

/-! ### Settling, stages, run-on -/

theorem Path.startTries [AllowsActs K] (h : Path K r s) : Path K r s.startTries := by
  unfold State.startTries
  refine Path.overAll _ _ (fun k _ t ht => ?_) (Path.overAll _ _ (fun n _ t ht => ?_) h)
  · split
    · rename_i hc
      exact ht.beginHeaterTry k hc
    · exact ht
  · split
    · rename_i hc
      exact ht.beginTry n hc
    · exact ht

theorem Path.settle [AllowsActs K] (h : Path K r s) : Path K r s.settle := h.inletProgress.establishHolds.startTries

theorem Path.levelPump [AllowsActs K] (a : Fin 4) (h : Path K r s) : Path K r (s.levelPump a) := by
  unfold State.levelPump
  split
  · exact h.claimPump a
  · exact h.post _

/-- A pump picked from a list is in it. -/
theorem pickBy_mem {b : Fin 4 → Fin 4 → Bool} {l : List (Fin 4)} {k : Fin 4} (h : pickBy b l = some k) : k ∈ l := by
  have key : ∀ (l : List (Fin 4)) (o : Option (Fin 4)), l.foldl (fun best k =>
      match best with
      | none => some k
      | some c => if b k c then some k else some c) o = some k → k ∈ l ∨ o = some k := by
    intro l
    induction l with
    | nil => exact fun o h => Or.inr h
    | cons a l ih =>
      intro o h
      rcases ih _ h with h | h
      · exact Or.inl (List.mem_cons_of_mem a h)
      · cases o with
        | none => exact Or.inl (by cases h; exact List.mem_cons_self)
        | some c =>
          dsimp only at h
          split at h
          · exact Or.inl (by cases h; exact List.mem_cons_self)
          · exact Or.inr h
  rcases key l none h with h | h
  · exact h
  · cases h

theorem Path.raiseStage [AllowsActs K] (n : Nat) : ∀ (k : Nat) {s : State}, Path K r s → Path K r (s.raiseStage n k) := by
  intro k
  induction k with
  | zero => exact fun h => h
  | succ k ih =>
    intro s h
    unfold State.raiseStage
    split
    · exact h
    · rename_i k hk
      have hc := (List.mem_filter.mp (pickBy_mem hk)).2
      simp only [State.choosable, Bool.and_eq_true, decide_eq_true_eq] at hc
      refine ih (Path.levelPump _ (h.modPump _ _ ?_))
      exact PumpMove.idle s (Pump.idle_of_mode hc.1.1.2 (by decide)) rfl rfl

theorem Path.lowerStage [AllowsActs K] (n : Nat) : ∀ (k : Nat) {s : State}, Path K r s → Path K r (s.lowerStage n k) := by
  intro k
  induction k with
  | zero => exact fun h => h
  | succ k ih =>
    intro s h
    unfold State.lowerStage
    dsimp only
    split
    · exact h
    · exact ih (h.pumpStop _)

theorem Path.applyStage [AllowsActs K] (a : Nat) (b : Nat) (h : Path K r s) : Path K r (s.applyStage a b) := by
  unfold State.applyStage
  try dsimp only
  repeat' first
    | with_reducible assumption
    | with_reducible apply Path.raiseStage
    | with_reducible apply Path.lowerStage
    | with_reducible apply Path.tellPumps
    | intro _
    | split

/-- The inlet passes from one plan to another with the pumps that run (R56). -/
theorem Path.passInlet [AllowsActs K] (m n : Nat) (ho : s.act.inlet.owner = .plan m) (h : Path K r s) : Path K r (s.passInlet m n) := by
  have hp (k : Fin 4) : ((s.passInlet m n).act.pumps[k.val]'k.isLt) = if s.passesOn m k then (s.pump k).passed n else s.pump k := by
    simp [State.passInlet]
  refine h.step (.act s _ AllowsActs.act (fun k => ?_) (fun _ => HeaterMove.same s _) (Nat.le_max_left _ _) fun _ hg => ?_)
  · have hq := hp k
    simp only [State.passInlet] at hq
    rw [hq]
    split
    · exact ⟨id, Or.inl, Nat.le_max_left _ _⟩
    · exact (PumpMove.same s _).step
  · have hu := hg.unnamed (Or.inr ⟨m, ho⟩)
    refine ⟨fun k hk => ?_, hg.switches, hg.room, hg.numbers, hg.acts, fun x hx hi => absurd hi (hu x hx),
      fun x hx hi => absurd hi (hu x hx), fun _ => Or.inr ⟨n, rfl⟩⟩
    have hq := hp k
    simp only [State.passInlet] at hq
    rw [hq] at hk ⊢
    have hc : (s.pump k).contactor = true := by
      split at hk <;> exact hk
    obtain ⟨h1, h2, h3⟩ := hg.pumps k hc
    have hw : (s.pump k).owner = .plan m := by
      rcases h2 with ⟨_, h2⟩ | ⟨q, h2, h4⟩
      · rw [ho] at h2; cases h2
      · rw [ho] at h4
        exact h2.trans h4.symm
    have hon : s.passesOn m k = true := by simp [State.passesOn, hw, hc]
    rw [if_pos hon]
    exact ⟨h1, Or.inr ⟨n, rfl, rfl⟩, h3⟩

theorem Path.runOn [AllowsActs K] (a : Fin 4) (h : Path K r s) : Path K r (s.runOn a) := by
  unfold State.runOn
  dsimp only
  split
  · exact h
  · rename_i hf
    simp only [Bool.or_eq_true, not_or, Bool.not_eq_true, Bool.not_eq_false'] at hf
    split
    all_goals first
      | exact h
      | (refine h.setPump a _ ?_
         exact PumpMove.idle s (Or.inl hf.2) rfl rfl)

end Sys2Proof.Machine
end

