-- ==== Sys2Proof/Laws/PathRows.lean ====
section
/-! SUPPORT. The rows of the actuator controller as paths (ActuatorRows.lean). -/

namespace Sys2Proof.Machine

variable {K : Scope} {r s : State}

theorem Path.guardTestCheck (h : Path K r s) : Path K r (s.guardTestCheck) := by
  unfold State.guardTestCheck
  try dsimp only
  repeat' first
    | with_reducible assumption
    | with_reducible apply Path.completeOrder
    | intro _
    | split

theorem Path.tryBegin [AllowsActs K] (a : Load) (h : Path K r s) : Path K r (s.tryBegin a) := by
  refine h.taking _ _ fun t ht => ?_
  split
  · split
    · rename_i hc
      exact ht.beginTry _ hc
    · exact ht
  · split
    · rename_i hc
      exact ht.beginHeaterTry _ hc
    · exact ht

theorem Path.tryDeadline [AllowsActs K] (a : Fin 4) (h : Path K r s) : Path K r (s.tryDeadline a) := by
  unfold State.tryDeadline
  try dsimp only
  repeat' first
    | with_reducible assumption
    | with_reducible apply Path.taking
    | with_reducible apply Path.settle
    | with_reducible apply Path.tryFailed
    | intro _
    | split

theorem Path.retryDeadline [AllowsActs K] (a : Fin 4) (h : Path K r s) : Path K r (s.retryDeadline a) := by
  refine h.taking _ _ fun t ht => ?_
  dsimp only
  split
  · rename_i hc
    simp only [Bool.and_eq_true, decide_eq_true_eq] at hc
    refine Path.settle ?_
    split
    · refine ((ht.setPump a _ ?_).claimPump a).completeOrder _ _ _ _ _
      exact PumpMove.idle t (Pump.idle_of_mode hc.1 (by decide)) rfl rfl
    · refine (ht.setPump a _ ?_).claimPump a
      exact PumpMove.idle t (Pump.idle_of_mode hc.1 (by decide)) rfl rfl
  · exact ht

theorem Path.feedbackOn [AllowsActs K] (a : Fin 4) (h : Path K r s) : Path K r (s.feedbackOn a) := by
  unfold State.feedbackOn
  try dsimp only
  repeat' first
    | with_reducible assumption
    | with_reducible apply Path.pumpConfirmed
    | with_reducible apply Path.runOn
    | intro _
    | split

theorem Path.feedbackOff [AllowsActs K] (a : Fin 4) (h : Path K r s) : Path K r (s.feedbackOff a) := by
  unfold State.feedbackOff
  split
  · exact (h.runStop a 1).tryFailed a
  · rename_i hm; exact h.confirmOff a (Pump.idle_of_mode hm (by decide))
  · rename_i hm; exact h.confirmOff a (Pump.idle_of_mode hm (by decide))
  · refine h.modPump a _ ?_
    exact PumpMove.quiet s rfl rfl rfl rfl rfl
  all_goals exact h

theorem Path.runFeedbackChange [AllowsActs K] (a : Fin 4) (b : Bool) (h : Path K r s) : Path K r (s.runFeedbackChange a b) := by
  unfold State.runFeedbackChange
  try dsimp only
  repeat' first
    | with_reducible assumption
    | with_reducible exact PumpMove.quiet _ rfl rfl rfl rfl rfl
    | with_reducible exact PumpMove.off _ rfl rfl
    | with_reducible apply Path.taking
    | with_reducible apply Path.modPump
    | with_reducible apply Path.settle
    | with_reducible apply Path.guardTestCheck
    | with_reducible apply Path.feedbackOn
    | with_reducible apply Path.feedbackOff
    | intro _
    | split

theorem Path.minRunElapsed [AllowsActs K] (a : Fin 4) (h : Path K r s) : Path K r (s.minRunElapsed a) := by
  unfold State.minRunElapsed
  try dsimp only
  repeat' first
    | with_reducible assumption
    | with_reducible apply Path.taking
    | with_reducible apply Path.settle
    | with_reducible apply Path.contactorOff
    | intro _
    | split

theorem Path.stopConfirmExpiry [AllowsActs K] (a : Fin 4) (h : Path K r s) : Path K r (s.stopConfirmExpiry a) := by
  refine h.taking _ _ fun t ht => ?_
  dsimp only
  split
  · refine ((ht.setPump a _ ?_).make _ _ _ _).settle
    by_cases hm : (t.pump a).mode = .stopping
    · exact PumpMove.idle t (Pump.idle_of_mode hm (by decide)) rfl rfl
    · refine PumpMove.quiet t rfl ?_ rfl rfl rfl
      simp [hm]
  · exact ht

theorem Path.minOffExpiry [AllowsActs K] (a : Fin 4) (h : Path K r s) : Path K r (s.minOffExpiry a) := by
  refine h.taking _ _ fun t ht => ?_
  dsimp only
  split
  · rename_i hc
    simp only [Bool.and_eq_true, decide_eq_true_eq] at hc
    have h1 := ht.setPump a _ (PumpMove.idle t (q := { t.pump a with
      mode := if t.heldEstablished (.pump a) then .held else .ready, offEnd := none, request := (t.pump a).offRequest })
      (Pump.idle_of_mode hc.1 (by decide)) rfl rfl)
    refine Path.settle ?_
    split
    · exact h1
    · refine h1.releasePump a ?_
      right
      simp only [State.pump_setPump, if_true]
      split <;> decide
  · exact ht

theorem Path.startListAgeing [AllowsActs K] (a : Fin 4) (h : Path K r s) : Path K r (s.startListAgeing a) := by
  unfold State.startListAgeing
  try dsimp only
  repeat' first
    | with_reducible assumption
    | with_reducible apply Path.taking
    | with_reducible apply Path.settle
    | intro _
    | split

theorem Path.recallPump [AllowsActs K] (a : Fin 4) (h : Path K r s) : Path K r (s.recallPump a) := by
  unfold State.recallPump
  dsimp only
  split
  · have h1 := h.setPump a { s.pump a with claim := .recalled } (PumpMove.claimed s rfl rfl rfl rfl fun _ => Or.inr rfl)
    have hi (hx : (s.pump a).idle) : ((s.setPump a { s.pump a with claim := .recalled }).pump a).idle := by
      simp only [State.pump_setPump, if_true]
      exact hx
    refine Path.tellPumps _ _ ?_
    split
    · exact h1.contactorOff a
    · split
      · exact h1.contactorOff a
      · exact h1
    all_goals
      rename_i hm
      first
      | exact h1
      | exact h1.releasePump a (hi (Pump.idle_of_mode hm (by decide)))
  · exact h

theorem Path.recallHeater [AllowsActs K] (a : Fin 4) (h : Path K r s) : Path K r (s.recallHeater a) := by
  unfold State.recallHeater
  try dsimp only
  repeat' first
    | with_reducible assumption
    | with_reducible apply Path.tellFrost
    | with_reducible apply Path.setHeater
    | with_reducible exact HeaterMove.quiet _ rfl rfl
    | with_reducible exact HeaterMove.off _ rfl
    | with_reducible apply Path.heaterOff
    | with_reducible apply Path.heaterRelease
    | intro _
    | split

theorem Path.recall [AllowsActs K] (a : Load) (h : Path K r s) : Path K r (s.recall a) := by
  unfold State.recall
  try dsimp only
  repeat' first
    | with_reducible assumption
    | with_reducible apply Path.taking
    | with_reducible apply Path.settle
    | with_reducible apply Path.recallPump
    | with_reducible apply Path.recallHeater
    | intro _
    | split

theorem Path.stageRequest [AllowsActs K] (a : Nat) (b : Nat) (c : Bool) (h : Path K r s) : Path K r (s.stageRequest a b c) := by
  refine h.taking _ _ fun t ht => ?_
  split
  · rename_i ho
    split
    · split
      · exact ht
      · refine Path.settle (Path.overAll _ _ (fun k _ u hu => hu.pumpStop k) (ht.modInlet _ ?_))
        exact ⟨rfl, Or.inl rfl, id, Or.inr (Or.inr ⟨rfl, rfl⟩), fun _ => Or.inr (Or.inr ⟨a, ho⟩)⟩
    · split
      · exact ht
      · exact (ht.applyStage a b).settle
  · exact ht

theorem Path.handOver [AllowsActs K] (a : Nat) (b : Nat) (ho : s.act.inlet.owner = .plan a) (h : Path K r s) :
    Path K r (s.handOver a b) := by
  unfold State.handOver
  dsimp only
  have h1 (es : List (Fin 4)) := ((((h.pausePlan a .preempted).modPlan a fun p => { p with engaged := [] }).activate b).modPlan b
    fun p => { p with engaged := es })
  have h2 (es : List (Fin 4)) := (h1 es).passInlet a b (by simpa [State.activate] using ho)
  have h3 (es : List (Fin 4)) (l : List (Fin 4)) := Path.overAll l State.levelPump (fun k _ u hu => hu.levelPump k) ((h2 es).command .opened)
  have h4 (u : State) (hu : Path K r u) : Path K r (match u.plan b with
      | none => u
      | some p => u.applyStage b p.stage) := by
    split
    · exact hu
    · exact hu.applyStage _ _
  exact h4 _ (h3 _ _)

theorem Path.takeInlet [AllowsActs K] (a : Nat) (ho : s.act.inlet.owner = .none) (hn : ∀ x ∈ s.act.holds, x.act ≠ .inlet)
    (h : Path K r s) : Path K r (s.takeInlet a) := by
  have he : (s.activate a).act = s.act := by simp [State.activate]
  have h1 : Path K r ((s.activate a).modInlet fun v => { v with owner := .plan a, leaving := false }) := by
    refine (h.activate a).modInletOff _ (fun hr => ?_) (fun hm => Or.inr ⟨hm, rfl, rfl⟩) (fun _ => Or.inr (Or.inr ?_))
      (fun _ => Or.inl (Or.inr ⟨a, rfl⟩))
    · refine ((h.activate a).inletGuards hr).off_of_owner ?_
      rw [he, ho]
      exact ⟨by decide, fun m hm => by cases hm⟩
    · rw [he]; exact hn
  unfold State.takeInlet
  dsimp only
  repeat' split
  all_goals first
    | exact h1
    | exact h1.post _

/-- No hold names an inlet that may pass to a plan (R86). -/
theorem State.unnamed_of_passable {s : State} {k : Nat} (h : s.inletPassable k = true) : ∀ x ∈ s.act.holds, x.act ≠ .inlet := by
  simp only [State.inletPassable, Bool.and_eq_true] at h
  intro x hx e
  have : (s.holdNaming .inlet).isNone = true := by simp_all
  rw [Option.isNone_iff_eq_none, State.holdNaming, List.find?_eq_none] at this
  exact this x hx (by simp [e])

theorem Path.planGrant [AllowsActs K] (a : Nat) (h : Path K r s) : Path K r (s.planGrant a) := by
  refine h.taking _ _ fun t ht => ?_
  split
  · have h1 := ht.plans AllowsPlans.plans { t.plans with request := none }
    have key (u : State) (hu : Path K r u) : Path K r (match u.plan a with
        | none => u
        | some p =>
          if u.ready p && u.inletPassable p.kind.rank then
            match u.act.inlet.owner with
            | .plan m => (u.handOver m a).settle
            | .none => (u.takeInlet a).settle
            | .manual => u
            | .guard => u
            | .frost => u
            | .hold => u
          else u) := by
      cases hp : u.plan a with
      | none => exact hu
      | some p =>
        dsimp only
        by_cases hc : (u.ready p && u.inletPassable p.kind.rank) = true
        · rw [if_pos hc]
          cases ho : u.act.inlet.owner with
          | plan m => exact (hu.handOver m a ho).settle
          | none =>
            simp only [Bool.and_eq_true] at hc
            exact (hu.takeInlet a ho (State.unnamed_of_passable hc.2)).settle
          | manual => exact hu
          | guard => exact hu
          | frost => exact hu
          | hold => exact hu
        · rw [if_neg hc]
          exact hu
    exact key _ h1
  · exact ht

theorem Path.inletCommand [AllowsActs K] (a : Owner) (b : Position) (h : Path K r s) : Path K r (s.inletCommand a b) := by
  refine h.taking _ _ fun t ht => ?_
  dsimp only
  split
  · rename_i hc
    simp only [Bool.and_eq_true, decide_eq_true_eq] at hc
    split
    · refine (ht.closeNow fun hr => (ht.inletGuards hr).off_of_owner ?_).settle
      rw [hc.1.2]
      exact ⟨by decide, fun m hm => by cases hm⟩
    · exact ht
    · exact (ht.command _).settle
  · exact ht

/-- A valve that is OPEN after a change of the switches shows it on them (R48, R49). -/
theorem valveAfter_opened {m : InletMode} {a b o c : Bool} (h : valveAfter m a b o c = .opened) : o = true ∧ c = false := by
  revert h
  cases m <;> cases a <;> cases b <;> cases o <;> cases c <;> decide

/-- A pump that is cut no longer runs. -/
theorem State.pumpCut_idle (s : State) (n : Fin 4) : ((s.pumpCut n).pump n).idle := by
  unfold State.pumpCut
  split
  · exact Or.inl (State.contactorOff_contactor s n)
  · rename_i hm
    simp only [decide_eq_true_eq, not_or] at hm
    exact Or.inr hm

theorem State.pumpCut_only (s : State) (n : Fin 4) : OnlyPump n s (s.pumpCut n) := by
  unfold State.pumpCut
  split
  · exact s.contactorOff_only n
  · exact OnlyPump.refl n s

/-- Every pump is cut: no pump runs then. -/
theorem Path.cutAll [AllowsActs K] (h : Path K r s) :
    Path K r (Machine.overAll four State.pumpCut s) ∧ (r.guarded → (Machine.overAll four State.pumpCut s).pumpsOff) := by
  have h1 := Path.overAll four State.pumpCut (fun k _ u hu => hu.pumpCut k) h
  exact ⟨h1, fun hr => State.pumpsOff_of_idle (h1.pumpsOk hr.1.1) fun n =>
    overAll_idle (fun n s => s.pumpCut_only n) (fun n s => s.pumpCut_idle n) four s n (Or.inl (mem_four n))⟩

/-- The valve takes the state its switches show, the pumps cut where it is no longer OPEN (R49, R50). -/
theorem Path.switched [AllowsActs K] (m : InletMode) (a b : Bool) (x : Inlet → Option Time) (hm : m = .opened → a = true ∧ b = false)
    (h : Path K r s) : Path K r ((if decide (s.act.inlet.mode = .opened ∧ m ≠ .opened) = true then Machine.overAll four State.pumpCut s
      else s).modInlet fun v => { v with openLs := a, closedLs := b, mode := m, travelDl := x v }) := by
  by_cases hl : s.act.inlet.mode = .opened ∧ m ≠ .opened
  · rw [decide_eq_true hl, if_pos rfl]
    obtain ⟨h1, h2⟩ := h.cutAll
    generalize Machine.overAll four State.pumpCut s = u at h1 h2
    exact h1.modInletOff _ h2 (fun he => absurd he hl.2) (fun _ => Or.inl rfl) fun hw => Or.inr ⟨hw, rfl⟩
  · rw [decide_eq_false hl, if_neg Bool.false_ne_true]
    refine h.modInlet _ ⟨rfl, ?_, fun _ he => hm he, Or.inr (Or.inr ⟨rfl, rfl⟩), Or.inl⟩
    by_cases ho : s.act.inlet.mode = .opened
    · left
      rw [ho]
      exact Classical.byContradiction fun hn => hl ⟨ho, hn⟩
    · exact Or.inr ho

theorem Path.limitSwitchChange [AllowsActs K] (a : Bool) (b : Bool) (h : Path K r s) : Path K r (s.limitSwitchChange a b) := by
  refine h.taking _ _ fun t ht => ?_
  dsimp only
  split
  · exact ht
  · have h2 := ht.switched (valveAfter t.act.inlet.mode t.act.inlet.openLs t.act.inlet.closedLs a b) a b (fun v =>
      if valveAfter t.act.inlet.mode t.act.inlet.openLs t.act.inlet.closedLs a b = v.mode then v.travelDl else none) valveAfter_opened
    generalize valveAfter t.act.inlet.mode t.act.inlet.openLs t.act.inlet.closedLs a b = m at h2 ⊢
    refine Path.settle ?_
    generalize State.modInlet _ _ = u at h2 ⊢
    repeat' first
      | with_reducible exact h2
      | with_reducible apply Path.tellPlan
      | with_reducible apply Path.inletConfirmed
      | with_reducible apply Path.post
      | with_reducible apply Path.guardTestCheck
      | with_reducible apply Path.redrive
      | split

theorem Path.travelDeadline [AllowsActs K] (h : Path K r s) : Path K r (s.travelDeadline) := by
  refine h.taking _ _ fun t ht => ?_
  dsimp only
  split
  · rename_i hc
    simp only [Bool.and_eq_true, InletMode.travelling, decide_eq_true_eq] at hc
    refine Path.settle (Path.post _ (Path.guardTestCheck (Path.completeOrder _ _ _ _ _ (Path.tellPlan _ _ (Path.make _ _ _ _
      (ht.modInlet _ ?_))))))
    refine InletMove.mk rfl (Or.inr ?_) (fun _ he => by cases he) (Or.inr (Or.inr ⟨rfl, rfl⟩)) Or.inl
    rcases hc.1 with hm | hm <;> rw [hm] <;> decide
  · exact ht

theorem Path.heaterStartRequest [AllowsActs K] (a : Fin 4) (b : Nat) (c : Bool) (h : Path K r s) : Path K r (s.heaterStartRequest a b c) := by
  unfold State.heaterStartRequest
  try dsimp only
  repeat' first
    | with_reducible assumption
    | with_reducible apply Path.taking
    | with_reducible apply Path.setHeater
    | with_reducible exact HeaterMove.quiet _ rfl rfl
    | with_reducible exact HeaterMove.off _ rfl
    | with_reducible apply Path.settle
    | with_reducible apply Path.claimHeater
    | with_reducible apply Path.post
    | intro _
    | split

theorem Path.heaterStopRequest [AllowsActs K] (a : Fin 4) (h : Path K r s) : Path K r (s.heaterStopRequest a) := by
  unfold State.heaterStopRequest
  try dsimp only
  repeat' first
    | with_reducible assumption
    | with_reducible apply Path.taking
    | with_reducible apply Path.settle
    | with_reducible apply Path.heaterStop
    | intro _
    | split

theorem Path.heaterCurrentChange [AllowsActs K] (a : Fin 4) (b : Bool) (h : Path K r s) : Path K r (s.heaterCurrentChange a b) := by
  unfold State.heaterCurrentChange
  try dsimp only
  repeat' first
    | with_reducible assumption
    | with_reducible apply Path.taking
    | with_reducible apply Path.setHeater
    | with_reducible exact HeaterMove.quiet _ rfl rfl
    | with_reducible exact HeaterMove.off _ rfl
    | with_reducible apply Path.settle
    | with_reducible apply Path.heaterConfirmed
    | with_reducible apply Path.modHeater
    | with_reducible exact HeaterMove.quiet _ rfl rfl
    | with_reducible exact HeaterMove.off _ rfl
    | with_reducible apply Path.heaterTryFailed
    | with_reducible apply Path.heaterRelease
    | intro _
    | split

theorem Path.heaterTryDeadline [AllowsActs K] (a : Fin 4) (h : Path K r s) : Path K r (s.heaterTryDeadline a) := by
  unfold State.heaterTryDeadline
  try dsimp only
  repeat' first
    | with_reducible assumption
    | with_reducible apply Path.taking
    | with_reducible apply Path.settle
    | with_reducible apply Path.heaterTryFailed
    | intro _
    | split

theorem Path.heaterRetryEnd [AllowsActs K] (a : Fin 4) (h : Path K r s) : Path K r (s.heaterRetryEnd a) := by
  refine h.taking _ _ fun t ht => ?_
  dsimp only
  split
  · rename_i hm
    simp only [Bool.and_eq_true, decide_eq_true_eq] at hm
    refine Path.settle (Path.claimHeater a (ht.setHeater a _ ?_))
    exact HeaterMove.rest t rfl (by rw [hm.1]; decide)
  · exact ht

theorem Path.heaterStuckExpiry [AllowsActs K] (a : Fin 4) (h : Path K r s) : Path K r (s.heaterStuckExpiry a) := by
  unfold State.heaterStuckExpiry
  try dsimp only
  repeat' first
    | with_reducible assumption
    | with_reducible apply Path.taking
    | with_reducible apply Path.make
    | with_reducible apply Path.setHeater
    | with_reducible exact HeaterMove.quiet _ rfl rfl
    | with_reducible exact HeaterMove.off _ rfl
    | intro _
    | split

theorem Path.holdDeadline [AllowsActs K] (a : Nat) (h : Path K r s) : Path K r (s.holdDeadline a) := by
  refine h.taking _ _ fun t ht => ?_
  split
  · exact ht
  · rename_i hf
    split
    · exact (ht.endHold _ _ _ (List.mem_of_find?_eq_some hf)).settle
    · exact ht

/-- The outputs of the inlet are released where no pump runs. -/
theorem ActState.inletGuards.released {a : ActState} (hg : a.inletGuards) (hf : ∀ n : Fin 4, (a.pumps[n.val]'n.isLt).contactor = false)
    (c : Option Position) (w : Bool) : ({ a with inlet := a.inlet.released c w } : ActState).inletGuards := by
  have hk : keepsInlet a.inlet.owner = true ↔ a.inlet.owner = .guard ∨ a.inlet.owner = .hold := by
    simp [keepsInlet]
  refine ⟨fun n hn => absurd (hf n) (by rw [hn]; exact Bool.noConfusion), fun hm => hg.switches ?_, hg.room, hg.numbers, hg.acts,
    fun x hx hi he => ?_, fun x hx hi he => ?_, fun hw => by rcases hw with hw | hw <;> cases hw⟩
  · simp only [Inlet.released] at hm
    split at hm
    · cases hm
    · exact hm
  · simp only [Inlet.released]
    split
    · exact hg.pending x hx hi he
    · exact Or.inl rfl
  · have := hg.held x hx hi he
    simp only [Inlet.released]
    rw [if_pos (hk.mpr this.symm)]
    exact this

theorem Path.releaseInlet [AllowsActs K] (a : Option Position) (w : Bool) (hf : r.guarded → s.pumpsOff) (h : Path K r s) :
    Path K r (s.releaseInlet a w) := by
  have h1 : Path K r (s.modInlet (Inlet.released a w)) := h.modInletOf _ fun hr hg => hg.released (hf hr) a w
  unfold State.releaseInlet
  dsimp only
  split
  · exact h1.inletFreed
  · exact h1

theorem Path.abortOrders (a : List OrderCode) (b : Reason) (h : Path K r s) : Path K r (s.abortOrders a b) := h.posts _

theorem State.darkPump_only (s : State) (n : Fin 4) : OnlyPump n s (s.darkPump n) :=
  (s.modPump_only n _).trans (State.tellPumps_only _ n _ _)

theorem State.darkPump_idle (s : State) (n : Fin 4) : ((s.darkPump n).pump n).idle := by
  unfold State.darkPump
  rw [State.tellPumps_pump]
  exact Or.inl (by simp [Pump.darkened])

theorem Path.actuatorMainsLoss [AllowsActs K] (h : Path K r s) : Path K r s.actuatorMainsLoss := by
  refine h.taking _ _ fun t ht => ?_
  dsimp only
  have h1 := Path.overAll four State.darkPump (fun k _ u hu => (hu.modPump k _ (PumpMove.off u rfl rfl)).tellPumps _ _)
    (Path.overAll (four.filter fun n => decide ((t.pump n).mode = .running)) (fun n s => s.runStop n 2)
      (fun k _ u hu => hu.runStop k 2) ht)
  have hf := fun hr : r.guarded => State.pumpsOff_of_idle (h1.pumpsOk hr.1.1) fun n =>
    overAll_idle (fun n s => s.darkPump_only n) (fun n s => s.darkPump_idle n) four _ n (Or.inl (mem_four n))
  generalize Machine.overAll four State.darkPump _ = u at h1 hf
  have h2 : Path K r (Machine.overAll four (fun h s => (s.modHeater h fun p => p.darkened s.now).tellFrost h .mainsLoss) u) :=
    Path.overAll _ _ (fun k _ u hu => (hu.modHeater _ _ (HeaterMove.off u rfl)).tellFrost _ _) h1
  refine Path.establishHolds (Path.abortOrders _ _ (h2.releaseInlet _ _ fun hr n => ?_))
  rw [overAll_keeps (fun v : State => v.pump n) _ (fun k v => by simp [State.tellFrost])]
  exact hf hr n

theorem Path.actuatorMainsRestore [AllowsActs K] (h : Path K r s) : Path K r s.actuatorMainsRestore := by
  refine h.taking _ _ fun t ht => ?_
  dsimp only
  refine Path.settle ?_
  have h1 : Path K r (Machine.overAll four (fun n s => s.modPump n fun p =>
      if p.mode = .resting ∧ p.offWaived = true then { p with mode := .ready, offWaived := false } else p) t) := by
    refine Path.overAll _ _ (fun k _ u hu => hu.modPump k _ ?_) ht
    split
    · rename_i hm
      exact PumpMove.idle _ (Pump.idle_of_mode hm.1 (by decide)) rfl rfl
    · exact PumpMove.same _ _
  have h2 := Path.overAll four State.runOn (fun k _ u hu => hu.runOn k) h1
  have h3 (u : State) (hu : Path K r u) : Path K r (u.modInlet fun v =>
      if v.mode.travelling = true then v else { v with mode := judged v.openLs v.closedLs }) := by
    refine hu.modInletOf _ fun _ hg => hg.inlet_move _ ?_
    split
    · exact ⟨rfl, Or.inl rfl, id, Or.inr (Or.inr ⟨rfl, rfl⟩), Or.inl⟩
    · refine ⟨rfl, ?_, fun _ he => ?_, Or.inr (Or.inr ⟨rfl, rfl⟩), Or.inl⟩
      · by_cases ho : u.act.inlet.mode = .opened
        · left
          obtain ⟨e1, e2⟩ := hg.switches ho
          simp only [e1, e2, ho]
          rfl
        · exact Or.inr ho
      · revert he
        cases u.act.inlet.openLs <;> cases u.act.inlet.closedLs <;> simp [judged]
  have h4 (u : State) (hu : Path K r u) : Path K r (if u.keptClosed = true then u.drive .closed else u) := by
    split
    · rename_i hk
      exact hu.driveKept hk
    · exact hu
  refine h4 _ (h3 _ ?_)
  split
  · exact h1
  · exact h2

theorem Path.localPump [AllowsActs K] (a : Fin 4) (h : Path K r s) : Path K r (s.localPump a) := by
  refine ((h.modPump a _ ?_).releasePump a ?_).tellPumps _ _
  · exact PumpMove.off s rfl rfl
  · exact Or.inl (by simp)

theorem Path.localPumps [AllowsActs K] (h : Path K r s) : Path K r (s.localPumps) := by
  unfold State.localPumps
  try dsimp only
  repeat' first
    | with_reducible assumption
    | with_reducible apply Path.overAll
    | with_reducible apply Path.localPump
    | intro _
    | split

theorem Path.localInlet [AllowsActs K] (hf : r.guarded → s.pumpsOff) (h : Path K r s) : Path K r (s.localInlet) :=
  (h.releaseInlet _ _ hf).establishHolds

theorem Path.stationBack [AllowsActs K] (h : Path K r s) : Path K r (s.stationBack) := by
  unfold State.stationBack
  refine Path.redriven ?_
  split
  · exact h
  · exact Path.overAll _ _ (fun k _ u hu => hu.runOn k) h

theorem Path.unfitPump [AllowsActs K] (a : Fin 4) (h : Path K r s) : Path K r (s.unfitPump a) := by
  have key : ∀ u, Path K r u → Path K r ((u.pumpDrop a).modPump a fun p =>
      if p.mode = .failed then { p with mode := .ready } else p) := fun u hu => by
    refine (hu.pumpDrop a).modPump a _ ?_
    split
    · rename_i hm
      exact PumpMove.idle _ (Pump.idle_of_mode hm (by decide)) rfl rfl
    · exact PumpMove.same _ _
  refine Path.tellPumps _ _ (key _ ?_)
  split
  · exact h
  · rename_i hf
    exact h.endHold _ _ _ (List.mem_of_find?_eq_some hf)

theorem Path.fitPump [AllowsActs K] (a : Fin 4) (h : Path K r s) : Path K r (s.fitPump a) := by
  refine ((h.modPump a _ ?_).releasePump a ?_).post _
  · exact PumpMove.off s rfl rfl
  · exact Or.inl (by simp)

theorem Path.unfitHeater [AllowsActs K] (a : Fin 4) (h : Path K r s) : Path K r (s.unfitHeater a) := by
  have key : ∀ u, Path K r u → Path K r ((u.heaterStop a .none).modHeater a fun p =>
      { p with owner := .none, mode := if p.mode = .failed then .ready else p.mode }) := fun u hu => by
    refine (hu.heaterStop a .none).modHeater a _ ?_
    by_cases hm : ((u.heaterStop a .none).heater a).mode = .failed
    · exact HeaterMove.rest _ rfl (by rw [hm]; decide)
    · exact HeaterMove.quiet _ rfl (if_neg hm)
  unfold State.unfitHeater
  refine key _ ?_
  split
  · exact h
  · rename_i hf
    exact h.endHold _ _ _ (List.mem_of_find?_eq_some hf)

theorem Path.fitHeater [AllowsActs K] (a : Fin 4) (h : Path K r s) : Path K r (s.fitHeater a) := by
  refine h.modHeater a _ ?_
  exact HeaterMove.off s rfl

theorem Path.actAdopt [AllowsActs K] (a : Settings) (h : Path K r s) : Path K r (s.actAdopt a) := by
  unfold State.actAdopt
  try dsimp only
  repeat' first
    | with_reducible assumption
    | with_reducible apply Path.overAll
    | with_reducible apply Path.unfitPump
    | with_reducible apply Path.fitPump
    | with_reducible apply Path.unfitHeater
    | with_reducible apply Path.fitHeater
    | intro _
    | split

theorem Path.outputsFreed [AllowsActs K] (b : Bool) (h : Path K r s) : Path K r (s.outputsFreed b) := by
  unfold State.outputsFreed
  split
  · exact h.redriven.settle
  · exact h.settle
end Sys2Proof.Machine
end

