-- ==== Sys2Proof/Laws/Arbiter.lean ====
section
/-! SUPPORT. The load arbiter's lists: the grant walk and every other change of them keep the arbiter sound, and its rows
as paths. -/

namespace Sys2Proof.Machine

/-! ### Units and claimants of the grant table -/

theorem unitsOf_append (x y : List Grant) : unitsOf (x ++ y) = unitsOf x + unitsOf y := by simp [unitsOf]

/-- A change of the grants that keeps their claimants and their units keeps what they hold. -/
theorem unitsOf_map (f : Grant → Grant) (h : ∀ g, (f g).units = g.units) (gs : List Grant) :
    unitsOf (gs.map f) = unitsOf gs := by
  simp [unitsOf, Function.comp_def, h]
theorem whos_map (f : Grant → Grant) (h : ∀ g, (f g).who = g.who) (gs : List Grant) :
    (gs.map f).map Grant.who = gs.map Grant.who := by
  simp [Function.comp_def, h]

theorem unitsOf_filter_le (p : Grant → Bool) : ∀ gs : List Grant, unitsOf (gs.filter p) ≤ unitsOf gs
  | [] => Nat.le_refl _
  | g :: gs => by
    have ih := unitsOf_filter_le p gs
    by_cases h : p g = true
    · simp only [unitsOf, List.filter_cons, h, if_true, List.map_cons, List.sum_cons] at *
      omega
    · simp only [unitsOf, List.filter_cons, h, List.map_cons, List.sum_cons] at *
      simp only [Bool.false_eq_true, if_false]
      omega

/-! ### Soundness -/

/-- The grants change their marks alone. -/
theorem ArbState.sound_map {a : ArbState} (f : Grant → Grant) (hu : ∀ g, (f g).units = g.units) (hw : ∀ g, (f g).who = g.who)
    (h : a.sound) : ArbState.sound { a with grants := a.grants.map f } := by
  refine ⟨?_, ?_⟩
  · show unitsOf (a.grants.map f) ≤ a.budget
    rw [unitsOf_map f hu]; exact h.1
  · show (a.claims.map Claim.who ++ (a.grants.map f).map Grant.who).Nodup
    rw [whos_map f hw]; exact h.2

/-- Claims and grants only leave. -/
theorem ArbState.sound_sub {a b : ArbState} (hb : b.budget = a.budget) (hu : unitsOf b.grants ≤ unitsOf a.grants)
    (hc : (b.claims.map Claim.who).Sublist (a.claims.map Claim.who))
    (hg : (b.grants.map Grant.who).Sublist (a.grants.map Grant.who))
    (h : a.sound) : b.sound :=
  ⟨by rw [hb]; exact Nat.le_trans hu h.1, h.2.sublist (hc.append hg)⟩

theorem placeClaim_perm (c : Claim) : ∀ l, (placeClaim c l).Perm (c :: l)
  | [] => List.Perm.refl _
  | d :: l => by
    by_cases h : (if c.urgent then decide (d.level ≤ c.level) else decide (d.level < c.level)) = true
    · rw [placeClaim, if_pos h]
    · rw [placeClaim, if_neg h]
      exact ((placeClaim_perm c l).cons d).trans (List.Perm.swap c d l)

/-- A claimant that is in neither list joins. -/
theorem ArbState.sound_joins {a : ArbState} (l : Load) (u v : Nat) (g : Bool) (hn : l ∉ a.claimants) (h : a.sound) :
    (a.joins l u v g).sound := by
  refine ⟨h.1, ?_⟩
  have hp : ((placeClaim ⟨l, u, v, g, a.join⟩ a.claims).map Claim.who ++ a.grants.map Grant.who).Perm
      (l :: (a.claims.map Claim.who ++ a.grants.map Grant.who)) :=
    ((placeClaim_perm ⟨l, u, v, g, a.join⟩ a.claims).map Claim.who).append_right _
  exact hp.nodup_iff.mpr (List.nodup_cons.mpr ⟨hn, h.2⟩)

theorem ArbState.not_mem_claimants {a : ArbState} {l : Load} (h : a.has l = false) : l ∉ a.claimants := by
  intro hm
  simp only [ArbState.has, Bool.or_eq_false_iff, List.any_eq_false, decide_eq_true_eq] at h
  simp only [ArbState.claimants, List.mem_append, List.mem_map] at hm
  rcases hm with ⟨c, hc, rfl⟩ | ⟨g, hg, rfl⟩
  · exact h.1 c hc rfl
  · exact h.2 g hg rfl

/-- The grant walk never passes the budget, and moves claimants from the one list to the other. -/
theorem walk_sound (b k : Nat) : ∀ (cs : List Claim) (gs : List Grant), unitsOf gs ≤ b →
    unitsOf (walk b k cs gs).grants ≤ b ∧
      ((walk b k cs gs).claims.map Claim.who ++ (walk b k cs gs).grants.map Grant.who).Perm
        (cs.map Claim.who ++ gs.map Grant.who)
  | [], gs, h => ⟨h, List.Perm.refl _⟩
  | c :: cs, gs, h => by
    unfold walk
    split
    · have ih := walk_sound b k cs gs h
      exact ⟨ih.1, ih.2.cons c.who⟩
    · split
      · rename_i hu
        have h' : unitsOf (gs ++ [(⟨c.who, c.units, c.level, c.urgent, c.join, false⟩ : Grant)]) ≤ b := by
          rw [unitsOf_append]
          simpa [unitsOf] using hu
        have ih := walk_sound b k cs _ h'
        refine ⟨ih.1, ih.2.trans ?_⟩
        simp only [List.map_append, List.map_cons, List.map_nil]
        rw [← List.append_assoc]
        exact List.perm_append_singleton c.who _
      · exact ⟨h, List.Perm.refl _⟩

theorem recallGrant_units (l : Load) (gs : List Grant) : unitsOf (recallGrant l gs) = unitsOf gs :=
  unitsOf_map _ (fun g => by split <;> rfl) gs
theorem recallGrant_whos (l : Load) (gs : List Grant) : (recallGrant l gs).map Grant.who = gs.map Grant.who :=
  whos_map _ (fun g => by split <;> rfl) gs

theorem preemptLoop_sound (b : Nat) (c : Claim) : ∀ (k : Nat) (gs : List Grant),
    unitsOf (preemptLoop b c k gs).1 = unitsOf gs ∧ (preemptLoop b c k gs).1.map Grant.who = gs.map Grant.who
  | 0, gs => ⟨rfl, rfl⟩
  | k + 1, gs => by
    unfold preemptLoop
    split
    · exact ⟨rfl, rfl⟩
    · split
      · exact ⟨rfl, rfl⟩
      · rename_i g _
        have ih := preemptLoop_sound b c k (recallGrant g.who gs)
        exact ⟨ih.1.trans (recallGrant_units _ _), ih.2.trans (recallGrant_whos _ _)⟩

/-- Preemption recalls: it frees no unit and takes no claimant. -/
theorem preempt_sound (b : Nat) (c : Claim) (gs : List Grant) :
    unitsOf (preempt b c gs).1 = unitsOf gs ∧ (preempt b c gs).1.map Grant.who = gs.map Grant.who := by
  unfold preempt
  dsimp only
  split
  · exact preemptLoop_sound b c _ gs
  · exact ⟨rfl, rfl⟩

/-- A walk with its preemption keeps the arbiter sound. -/
theorem ArbState.walked_sound {a : ArbState} (h : a.sound) : a.walked.state.sound := by
  have hw := walk_sound a.budget a.mask a.claims a.grants h.1
  have hn := hw.2.nodup_iff.mpr h.2
  unfold ArbState.walked
  dsimp only
  split
  · exact ⟨hw.1, hn⟩
  · rename_i c _
    have hp := preempt_sound a.budget c (walk a.budget a.mask a.claims a.grants).grants
    refine ⟨?_, ?_⟩
    · show unitsOf (preempt a.budget c _).1 ≤ a.budget
      rw [hp.1]; exact hw.1
    · show (List.map Claim.who _ ++ List.map Grant.who (preempt a.budget c _).1).Nodup
      rw [hp.2]; exact hn

/-! ### The rows as paths -/

variable {K : Scope} {r s : State}

theorem Path.arb [AllowsArbiter K] (x : ArbState) (hx : s.arb.sound → x.sound) (h : Path K r s) :
    Path K r { s with arb := x } := h.step (.arb s x AllowsArbiter.arb hx)

theorem Path.granted [AllowsArbiter K] (l : Load) (h : Path K r s) : Path K r (s.granted l) := by
  unfold State.granted
  split
  · split
    · refine h.modPump _ _ ?_
      exact PumpMove.claimed s rfl rfl rfl rfl fun _ => Or.inl rfl
    · exact h.post _
  · split
    · refine h.modHeater _ _ ?_
      exact HeaterMove.quiet s rfl rfl
    · exact h.post _

theorem Path.arbWalk [AllowsArbiter K] (h : Path K r s) : Path K r s.arbWalk :=
  ((Path.overAll _ _ (fun l _ _ ht => ht.granted l) (h.arb s.arb.walked.state ArbState.walked_sound)).posts _).settle

theorem Path.claimRow [AllowsArbiter K] (l : Load) (u v : Nat) (g : Bool) (h : Path K r s) :
    Path K r (s.claimRow l u v g) := by
  refine h.taking _ _ fun t ht => ?_
  split
  · exact ht
  · rename_i hn
    exact (ht.arb _ (ArbState.sound_joins l u v g (ArbState.not_mem_claimants (Bool.eq_false_iff.mpr hn)))).arbWalk

theorem Path.withdrawalRow [AllowsArbiter K] (l : Load) (h : Path K r s) : Path K r (s.withdrawalRow l) := by
  refine h.taking _ _ fun t ht => ?_
  split
  · exact (ht.arb { t.arb with claims := t.arb.claims.filter fun c => decide (c.who ≠ l) } (ArbState.sound_sub
      rfl (Nat.le_refl _) (List.filter_sublist.map _) (List.Sublist.refl _))).arbWalk
  · exact ht

theorem Path.grantReleaseRow [AllowsArbiter K] (l : Load) (h : Path K r s) : Path K r (s.grantReleaseRow l) := by
  refine h.taking _ _ fun t ht => ?_
  split
  · exact (ht.arb { t.arb with grants := t.arb.grants.filter fun g => decide (g.who ≠ l) } (ArbState.sound_sub
      rfl (unitsOf_filter_le _ _) (List.Sublist.refl _) (List.filter_sublist.map _))).arbWalk
  · exact ht

theorem ArbState.reclaim_sound {a : ArbState} (c : Claim) (hc : c ∈ a.claims) (v : Nat) (g : Bool) (h : a.sound) :
    (a.reclaim c v g).sound := by
  refine ArbState.sound_joins (a := { a with claims := a.claims.filter fun d => decide (d.who ≠ c.who) }) c.who c.units v g ?_
    (ArbState.sound_sub (a := a) (b := { a with claims := a.claims.filter fun d => decide (d.who ≠ c.who) }) rfl (Nat.le_refl _)
      (List.filter_sublist.map _) (List.Sublist.refl _) h)
  intro hm
  simp only [ArbState.claimants, List.mem_append, List.mem_map, List.mem_filter, decide_eq_true_eq] at hm
  rcases hm with ⟨d, hd, he⟩ | ⟨x, hx, he⟩
  · exact hd.2 he
  · exact (List.nodup_append.mp h.2).2.2 c.who (List.mem_map_of_mem hc) x.who (List.mem_map_of_mem hx) he.symm

theorem Path.relevelRow [AllowsArbiter K] (l : Load) (v : Nat) (g : Bool) (h : Path K r s) :
    Path K r (s.relevelRow l v g) := by
  refine h.taking _ _ fun t ht => ?_
  split
  · rename_i c hc
    exact (ht.arb _ (ArbState.reclaim_sound c (List.mem_of_find?_eq_some hc) v g)).arbWalk
  · rename_i x _ _
    dsimp only
    refine Path.arbWalk ?_
    have h1 := ht.arb { t.arb with grants := t.arb.grants.map fun y : Grant => if y.who = l then
      { y with level := v, urgent := g, recalled := y.recalled || (!x.recalled && decide (v ≤ t.arb.mask)) } else y }
      (ArbState.sound_map _ (fun y => by split <;> rfl) (fun y => by split <;> rfl))
    split
    · exact h1.post _
    · exact h1
  · exact ht

theorem Path.maskChangeRow [AllowsArbiter K] (m : Nat) (h : Path K r s) : Path K r (s.maskChangeRow m) := by
  refine h.taking _ _ fun t ht => ?_
  split
  · exact ht
  · dsimp only
    refine Path.arbWalk (Path.posts _ (Path.arb _ (fun hx => ?_) ht))
    have := ArbState.sound_map (a := t.arb) (fun g : Grant => if (!g.recalled && decide (t.arb.mask < m ∧ g.level ≤ m)) = true then
      { g with recalled := true } else g) (fun y => by split <;> rfl) (fun y => by split <;> rfl) hx
    exact ⟨this.1, this.2⟩

theorem Path.setBudget [AllowsArbiter K] (b : Nat) (h : Path K r s) : Path K r (s.setBudget b) := by
  unfold State.setBudget
  split
  · rename_i hb
    exact (h.arb { s.arb with budget := b } fun hx => ⟨hb, hx.2⟩).arbWalk
  · exact h

theorem Path.budgetChangeRow [AllowsArbiter K] (b : Nat) (h : Path K r s) : Path K r (s.budgetChangeRow b) :=
  h.taking _ _ fun _ ht => ht.setBudget b

theorem Path.arbiterMainsLossRow [AllowsArbiter K] (h : Path K r s) : Path K r s.arbiterMainsLossRow :=
  h.taking _ _ fun t ht => ht.arb { t.arb with claims := [], grants := [] } fun _ => ⟨Nat.zero_le _, List.nodup_nil⟩

end Sys2Proof.Machine
end

