-- ==== Sys2Proof/Laws/PathGuard.lean ====
section
/-! SUPPORT. The overflow guard, the frost unit and the calendar as paths, and what the seizure does to the pumps. -/

namespace Sys2Proof.Machine

variable {K : Scope} {r s : State}

/-! ### The seizure -/

theorem State.seizePump_only (s : State) (n : Fin 4) : OnlyPump n s (s.seizePump n) := by
  unfold State.seizePump
  dsimp only
  split
  · exact ((s.completeOrder_only n _ _ _ _ _).trans (State.completeOrder_only _ n _ _ _ _ _)).trans (State.pumpDrop_only _ n)
  · split
    · exact s.pumpDrop_only n
    · exact OnlyPump.refl n s

/-- A seized pump no longer runs. -/
theorem State.seizePump_idle (s : State) (n : Fin 4) : ((s.seizePump n).pump n).idle := by
  unfold State.seizePump
  dsimp only
  split
  · exact State.pumpDrop_idle _ n
  · rename_i hm
    simp only [decide_eq_true_eq, not_or] at hm
    split
    · exact State.pumpDrop_idle _ n
    · exact Or.inr hm

theorem State.closeNow_pump (s : State) (m : Fin 4) : (s.closeNow).pump m = s.pump m := s.closeNow_only.pump m

/-- What an operation over one pump does to every pump, when it is run over all four. -/
theorem overAll_pumps {f : Fin 4 → State → State} {P : Pump → Prop} {Q : Pump → Prop}
    (ho : ∀ n s, OnlyPump n s (f n s)) (hf : ∀ n s, P (s.pump n) → Q ((f n s).pump n)) (s : State)
    (h : ∀ n, P (s.pump n)) : ∀ n, Q ((overAll four f s).pump n) := by
  have e : overAll four f s = f 3 (f 2 (f 1 (f 0 s))) := rfl
  rw [e]
  intro n
  match n with
  | 0 =>
    rw [(ho 3 _).pump 0 (by decide), (ho 2 _).pump 0 (by decide), (ho 1 _).pump 0 (by decide)]
    exact hf 0 _ (h 0)
  | 1 =>
    rw [(ho 3 _).pump 1 (by decide), (ho 2 _).pump 1 (by decide)]
    exact hf 1 _ (by rw [(ho 0 _).pump 1 (by decide)]; exact h 1)
  | 2 =>
    rw [(ho 3 _).pump 2 (by decide)]
    exact hf 2 _ (by rw [(ho 1 _).pump 2 (by decide), (ho 0 _).pump 2 (by decide)]; exact h 2)
  | 3 =>
    exact hf 3 _ (by
      rw [(ho 2 _).pump 3 (by decide), (ho 1 _).pump 3 (by decide), (ho 0 _).pump 3 (by decide)]
      exact h 3)

theorem Path.seizePump [AllowsActs K] (a : Fin 4) (h : Path K r s) : Path K r (s.seizePump a) := by
  unfold State.seizePump
  try dsimp only
  repeat' first
    | with_reducible assumption
    | with_reducible apply Path.pumpDrop
    | with_reducible apply Path.completeOrder
    | intro _
    | split

/-- The seizure as a path, after which every contactor is off (R25). -/
theorem Path.seize_off [AllowsActs K] (h : Path K r s) : Path K r s.seize ∧ (r.pumpsOk → s.seize.pumpsOff) := by
  have h0 := Path.overAll four State.seizePump (fun k _ u hu => hu.seizePump k) h
  have hf0 (hr : r.pumpsOk) : (Machine.overAll four State.seizePump s).pumpsOff :=
    State.pumpsOff_of_idle (h0.pumpsOk hr) fun n =>
      overAll_idle (fun n s => s.seizePump_only n) (fun n s => s.seizePump_idle n) four s n (Or.inl (mem_four n))
  unfold State.seize
  dsimp only
  generalize Machine.overAll four State.seizePump s = x at h0 hf0
  have h1 := h0.completeOrder .openInlet 0 .aborted .guard []
  have hf (hr : r.pumpsOk) : (x.completeOrder .openInlet 0 .aborted .guard []).pumpsOff := hf0 hr
  generalize x.completeOrder .openInlet 0 .aborted .guard [] = u at h1 hf
  have h2 : Path K r (u.modInlet fun v => { v with owner := .guard, releasing := false, leaving := false }) :=
    h1.modInletOff _ (fun hr => hf hr.1.1) (fun he => Or.inr ⟨he, rfl, rfl⟩) (fun _ => Or.inr (Or.inl rfl)) fun hw => by
      rcases hw with hw | hw <;> cases hw
  have hf2 (hr : r.pumpsOk) : (u.modInlet fun v => { v with owner := .guard, releasing := false, leaving := false }).pumpsOff := hf hr
  refine ⟨(h2.closeNow fun hr => hf2 hr.1.1).post _, fun hr n => ?_⟩
  show (State.pump (State.closeNow _) n).contactor = false
  rw [State.closeNow_pump]
  exact hf2 hr n

theorem Path.seize [AllowsActs K] (h : Path K r s) : Path K r (s.seize) := h.seize_off.1

/-- The guard may seize what the seizure has let go. -/
theorem Path.modGuardSeized [AllowsGuard K] (f : GuardState → GuardState) (h : Path K r s) :
    Path K r (s.seize.modGuard f) :=
  h.seize.step (.guard _ _ AllowsGuard.guard fun hr _ => Or.inr (h.seize_off.2 hr))

theorem Path.enterTrip [AllowsGuard K] (a : List Cause) (b : Time) (c : Option OrderRef) (d : Seen) (h : Path K r s) :
    Path K r (s.enterTrip a b c d) := by
  unfold State.enterTrip
  dsimp only
  exact Path.settle (Path.make _ _ _ _ (Path.modGuardSeized _ h))

/-- The inlet after the seizure agrees with its holds. -/
theorem ActState.inletGuards.unseized {a : ActState} (hg : a.inletGuards) (hf : ∀ n : Fin 4, (a.pumps[n.val]'n.isLt).contactor = false)
    (b : Bool) (hb : b = true ↔ ∃ x ∈ a.holds, x.act = .inlet ∧ x.established.isSome = true) :
    ({ a with inlet := { a.inlet with owner := if b then .hold else .none, releasing := false, leaving := false } } :
      ActState).inletGuards := by
  refine ⟨fun n hn => absurd (hf n) (by rw [hn]; exact Bool.noConfusion), hg.switches, hg.room, hg.numbers, hg.acts,
    fun x hx hi he => ?_, fun x hx hi he => ?_, fun hw => by rcases hw with hw | hw <;> cases hw⟩
  · have hn : b = false := Bool.eq_false_iff.mpr fun hb' => by
      obtain ⟨y, hy, hyi, hye⟩ := hb.mp hb'
      rw [eq_of_nodup_map hg.acts hy hx (hyi.trans hi.symm), he] at hye
      cases hye
    rw [hn]
    exact Or.inl rfl
  · rw [hb.mpr ⟨x, hx, hi, he⟩]
    exact Or.inl rfl

/-- An actuator is held when an ESTABLISHED hold names it, and it alone. -/
theorem State.heldEstablished_iff {s : State} (hg : s.act.inletGuards) (a : ActId) :
    s.heldEstablished a = true ↔ ∃ x ∈ s.act.holds, x.act = a ∧ x.established.isSome = true := by
  unfold State.heldEstablished State.holdNaming
  constructor
  · intro h
    cases hf : s.act.holds.find? fun x => decide (x.act = a) with
    | none => rw [hf] at h; cases h
    | some x =>
      rw [hf] at h
      have ha := List.find?_some hf
      exact ⟨x, List.mem_of_find?_eq_some hf, of_decide_eq_true ha, h⟩
  · rintro ⟨x, hx, ha, he⟩
    cases hf : s.act.holds.find? fun x => decide (x.act = a) with
    | none =>
      rw [List.find?_eq_none] at hf
      exact absurd (by simp [ha]) (hf x hx)
    | some y =>
      have hy := List.find?_some hf
      rw [← eq_of_nodup_map hg.acts hx (List.mem_of_find?_eq_some hf) (ha.trans (of_decide_eq_true hy).symm)]
      exact he

theorem Path.clearGuard [AllowsGuard K] (a : Nat) (b : Time) (c : Option OrderRef) (d : Seen) (hm : s.guard.mode.seizes = true)
    (h : Path K r s) : Path K r (s.clearGuard a b c d) := by
  have h1 : Path K r (s.modInlet fun v =>
      { v with owner := if s.heldEstablished .inlet then .hold else .none, releasing := false, leaving := false }) :=
    h.modInletOf _ fun hr hg => hg.unseized ((h.pumpsGuarded hr.1).2.1 hm) _ (State.heldEstablished_iff hg .inlet)
  unfold State.clearGuard
  generalize s.heldEstablished .inlet = held at h1
  dsimp only
  refine ((Path.modGuard _ ?_ (Path.post _ ?_)).make _ _ _ _).settle
  · intro hx; cases hx
  · cases held
    · exact h1.clearPauses _
    · exact h1

theorem Path.judgeOpen [AllowsGuard K] (a : List Cause) (b : Judgement) (h : Path K r s) : Path K r (s.judgeOpen a b) := by
  unfold State.judgeOpen
  split
  · refine (h.modGuard _ ?_).settle
    intro hx
    dsimp only at hx
    split at hx <;> cases hx
  · exact h.enterTrip _ _ _ _

theorem Path.judgeTripped [AllowsGuard K] (a : Judgement) (hm : s.guard.mode.seizes = true) (h : Path K r s) :
    Path K r (s.judgeTripped a) := by
  have h1 := h.modGuard (fun g => { g with tripSecs := g.tripSecs + a.period, release := releaseAfter s.set a s.guard.release })
    id
  unfold State.judgeTripped
  dsimp only
  split
  · exact h1
  · split
    · exact h1
    · split
      · refine Path.modGuard _ ?_ h1
        exact fun _ => hm
      · exact h1.clearGuard _ _ _ _ hm

theorem Path.judgeHeld [AllowsGuard K] (a : List Cause) (b : Judgement) (hm : s.guard.mode.seizes = true) (h : Path K r s) :
    Path K r (s.judgeHeld a b) := by
  have h1 := h.modGuard (fun g => { g with tripSecs := g.tripSecs + b.period }) id
  unfold State.judgeHeld
  dsimp only
  split
  · exact h1
  · refine Path.make _ _ _ _ (Path.modGuard _ ?_ h1)
    exact fun _ => hm

theorem Path.episode [AllowsGuard K] (a : Judgement) (h : Path K r s) : Path K r (s.episode a) := by
  unfold State.episode
  split
  · exact (h.modGuard (fun g => { g with episode := some ⟨a.time, 0⟩ }) id).make _ _ _ _
  · rename_i e _ _
    exact h.modGuard (fun g => { g with episode := some ⟨e.start, e.elapsed + a.period⟩ }) id
  · exact (h.modGuard (fun g => { g with episode := none }) id).make _ _ _ _
  · exact h

theorem Path.guardJudges [AllowsGuard K] (a : Judgement) (h : Path K r s) : Path K r (s.guardJudges a) := by
  have h1 := h.modGuard (fun g => { g with confirm := s.guard.confirmAfter s.set a }) id
  unfold State.guardJudges
  dsimp only
  refine Path.episode a ?_
  split
  · exact h1.judgeOpen _ _
  · exact h1.judgeOpen _ _
  · rename_i hm; exact h1.judgeTripped a (by show s.guard.mode.seizes = true; rw [hm]; rfl)
  · rename_i hm; exact h1.judgeHeld _ a (by show s.guard.mode.seizes = true; rw [hm]; rfl)

theorem Path.guardJudgementRow [AllowsGuard K] (a : Judgement) (h : Path K r s) : Path K r (s.guardJudgementRow a) :=
  h.taking _ _ fun _ ht => ht.guardJudges a

theorem Path.frostStateChangeRow [AllowsGuard K] (a : FrostState) (h : Path K r s) : Path K r (s.frostStateChangeRow a) :=
  h.taking _ _ fun t ht => ht.modGuard (fun g => GuardState.withLevels t.set { g with frostFlag := decide (a ≠ .none) }) id

theorem Path.guardAdopt [AllowsGuard K] (h : Path K r s) : Path K r s.guardAdopt := h.modGuard (fun g => g.withLevels s.set) id

theorem Path.guardRecloses [AllowsActs K] (h : Path K r s) : Path K r (s.guardRecloses) := by
  unfold State.guardRecloses
  split
  · rename_i hc
    simp only [Bool.and_eq_true] at hc
    exact h.closeNow fun hr => (h.pumpsGuarded hr.1).2.1 hc.1
  · exact h

theorem Path.guardTravelEndRow [AllowsActs K] (h : Path K r s) : Path K r (s.guardTravelEndRow) := by
  unfold State.guardTravelEndRow
  try dsimp only
  repeat' first
    | with_reducible assumption
    | with_reducible apply Path.taking
    | with_reducible apply Path.settle
    | with_reducible apply Path.guardRecloses
    | intro _
    | split

theorem Path.guardTests [AllowsGuard K] (a : OrderRef) (h : Path K r s) : Path K r (s.guardTests a) := by
  unfold State.guardTests
  split
  · exact h.modGuard (fun g => { g with causes := allCauses.filter fun c => g.causes.contains c || decide (c = .test) }) id
  · exact h.enterTrip _ _ _ _

/-! ### The frost unit -/

theorem Path.setZone [AllowsFrost K] (a : Fin 4) (b : Zone) (h : Path K r s) : Path K r (s.setZone a b) :=
  h.frost AllowsFrost.frost _

theorem Path.moveZone [AllowsFrost K] (a : Fin 4) (b : Zone) (c : Time) (h : Path K r s) : Path K r (s.moveZone a b c) := by
  unfold State.moveZone
  try dsimp only
  repeat' first
    | with_reducible assumption
    | with_reducible apply Path.setZone
    | with_reducible apply Path.make
    | intro _
    | split

theorem Path.passLevel [AllowsFrost K] (a : Fin 4) (b : Bool) (h : Path K r s) : Path K r (s.passLevel a b) := by
  unfold State.passLevel
  dsimp only
  split
  · have h1 := h.setHeater a { s.heater a with level := zoneLevel (s.zoneSet a) (s.zone a).urgent, urgent := (s.zone a).urgent }
      (HeaterMove.quiet s rfl rfl)
    split
    · exact h1
    · exact h1.post _
  · exact h

theorem Path.alignHeater [AllowsFrost K] (a : Fin 4) (b : Bool) (h : Path K r s) : Path K r (s.alignHeater a b) := by
  unfold State.alignHeater
  dsimp only
  repeat' split
  · exact h
  · exact h.post _
  · exact (h.passLevel a b).post _
  · exact h.passLevel a b

theorem Path.judgeFrost [AllowsFrost K] (a : Judgement) (h : Path K r s) : Path K r (s.judgeFrost a) := by
  unfold State.judgeFrost
  try dsimp only
  repeat' first
    | with_reducible assumption
    | with_reducible apply Path.post
    | with_reducible apply Path.make
    | intro _
    | split
  all_goals refine Path.frost ?_ AllowsFrost.frost _
  repeat' first
    | with_reducible assumption
    | with_reducible apply Path.post
    | with_reducible apply Path.make
    | intro _
    | split

theorem Path.judgeZones [AllowsFrost K] (a : Judgement) (h : Path K r s) : Path K r (s.judgeZones a) := by
  unfold State.judgeZones
  try dsimp only
  repeat' first
    | with_reducible assumption
    | with_reducible apply Path.overAll
    | with_reducible apply Path.moveZone
    | with_reducible apply Path.alignHeater
    | intro _
    | split

theorem Path.judgeStagnation [AllowsFrost K] (a : Judgement) (h : Path K r s) : Path K r (s.judgeStagnation a) := by
  unfold State.judgeStagnation
  try dsimp only
  repeat' first
    | with_reducible assumption
    | with_reducible apply Path.post
    | intro _
    | split
  all_goals refine Path.frost ?_ AllowsFrost.frost _
  repeat' first
    | with_reducible assumption
    | with_reducible apply Path.post
    | intro _
    | split

theorem Path.frostJudges [AllowsFrost K] (a : Judgement) (h : Path K r s) : Path K r (s.frostJudges a) := by
  unfold State.frostJudges
  try dsimp only
  repeat' first
    | with_reducible assumption
    | with_reducible apply Path.judgeStagnation
    | with_reducible apply Path.judgeZones
    | with_reducible apply Path.judgeFrost
    | intro _
    | split

theorem Path.frostJudgementRow [AllowsFrost K] (a : Judgement) (h : Path K r s) : Path K r (s.frostJudgementRow a) := by
  unfold State.frostJudgementRow
  try dsimp only
  repeat' first
    | with_reducible assumption
    | with_reducible apply Path.taking
    | with_reducible apply Path.frostJudges
    | intro _
    | split

theorem Path.heaterNoticeRow [AllowsFrost K] (a : Fin 4) (b : Notice) (h : Path K r s) : Path K r (s.heaterNoticeRow a b) := by
  unfold State.heaterNoticeRow
  try dsimp only
  repeat' first
    | with_reducible assumption
    | with_reducible apply Path.taking
    | with_reducible apply Path.moveZone
    | intro _
    | split

theorem Path.turnoverCreatedRow [AllowsFrost K] (h : Path K r s) : Path K r (s.turnoverCreatedRow) := by
  unfold State.turnoverCreatedRow
  try dsimp only
  repeat' first
    | with_reducible assumption
    | with_reducible apply Path.taking
    | intro _
    | split
  all_goals refine Path.frost ?_ AllowsFrost.frost _
  repeat' first
    | with_reducible assumption
    | with_reducible apply Path.taking
    | intro _
    | split

theorem Path.frostAdopt [AllowsFrost K] (a : Settings) (h : Path K r s) : Path K r (s.frostAdopt a) := by
  unfold State.frostAdopt
  try dsimp only
  repeat' first
    | with_reducible assumption
    | with_reducible apply Path.overAll
    | with_reducible apply Path.modHeater
    | with_reducible exact HeaterMove.quiet _ rfl rfl
    | with_reducible exact HeaterMove.off _ rfl
    | with_reducible apply Path.moveZone
    | intro _
    | split

/-! ### The calendar -/

theorem Path.evaluate [AllowsCalendar K] (h : Path K r s) : Path K r (s.evaluate) := by
  unfold State.evaluate
  try dsimp only
  repeat' first
    | with_reducible assumption
    | with_reducible apply Path.posts
    | intro _
    | split
  all_goals refine Path.cal ?_ AllowsCalendar.cal _
  repeat' first
    | with_reducible assumption
    | with_reducible apply Path.posts
    | intro _
    | split

theorem Path.tariffEvaluationRow [AllowsCalendar K] (h : Path K r s) : Path K r (s.tariffEvaluationRow) := by
  unfold State.tariffEvaluationRow
  try dsimp only
  repeat' first
    | with_reducible assumption
    | with_reducible apply Path.taking
    | with_reducible apply Path.evaluate
    | intro _
    | split
  all_goals refine Path.cal ?_ AllowsCalendar.cal _
  repeat' first
    | with_reducible assumption
    | with_reducible apply Path.taking
    | with_reducible apply Path.evaluate
    | intro _
    | split

theorem Path.firstEvaluation [AllowsCalendar K] (h : Path K r s) : Path K r (s.firstEvaluation) := by
  unfold State.firstEvaluation
  dsimp only
  split
  · exact h.evaluate.posts _
  · exact h.evaluate

theorem Path.calAdopt [AllowsCalendar K] (a : Settings) (h : Path K r s) : Path K r (s.calAdopt a) := by
  unfold State.calAdopt
  dsimp only
  split
  · exact h.evaluate.posts _
  · exact h.evaluate

theorem Path.clockRolloverRow [AllowsCalendar K] (h : Path K r s) : Path K r (s.clockRolloverRow) := by
  unfold State.clockRolloverRow
  try dsimp only
  repeat' first
    | with_reducible assumption
    | with_reducible apply Path.taking
    | with_reducible apply Path.make
    | with_reducible apply Path.overAll
    | with_reducible apply Path.finishPlan
    | with_reducible apply Path.evaluate
    | with_reducible apply Path.contest
    | intro _
    | split
  all_goals refine Path.cal ?_ AllowsCalendar.cal _
  repeat' first
    | with_reducible assumption
    | with_reducible apply Path.taking
    | with_reducible apply Path.make
    | with_reducible apply Path.overAll
    | with_reducible apply Path.finishPlan
    | with_reducible apply Path.evaluate
    | with_reducible apply Path.contest
    | intro _
    | split

end Sys2Proof.Machine
end

