-- ==== Sys2Proof/Laws/PathPlan.lean ====
section
/-! SUPPORT. The survey unit and the plan controller as paths. -/

namespace Sys2Proof.Machine

variable {K : Scope} {r s : State}

/-! ### The survey unit -/

theorem Path.modSurvey [AllowsSurvey K] (f : SurveyState → SurveyState) (h : Path K r s) : Path K r (s.modSurvey f) :=
  h.survey AllowsSurvey.survey _

theorem Path.deliver (h : Path K r s) : Path K r s.deliver := by
  unfold State.deliver
  split
  · exact h
  · exact h.posts _

theorem Path.reportStep [AllowsSurvey K] (a : Judgement) (h : Path K r s) : Path K r (s.reportStep a) := by
  unfold State.reportStep
  try dsimp only
  repeat' first
    | with_reducible assumption
    | with_reducible apply Path.modSurvey
    | with_reducible apply Path.make
    | intro _
    | split

theorem Path.stepCheck [AllowsSurvey K] (a : Judgement) (h : Path K r s) : Path K r (s.stepCheck a) := by
  unfold State.stepCheck
  try dsimp only
  repeat' first
    | with_reducible assumption
    | with_reducible apply Path.modSurvey
    | with_reducible apply Path.make
    | intro _
    | split

theorem Path.doSurvey [AllowsSurvey K] (a : Sample) (h : Path K r s) : Path K r (s.doSurvey a) := by
  unfold State.doSurvey
  try dsimp only
  repeat' first
    | with_reducible assumption
    | with_reducible apply Path.make
    | with_reducible apply Path.modSurvey
    | with_reducible apply Path.stepCheck
    | with_reducible apply Path.reportStep
    | intro _
    | split

theorem Path.clockSetReportRow [AllowsSurvey K] (a : Time) (b : Time) (h : Path K r s) : Path K r (s.clockSetReportRow a b) := by
  unfold State.clockSetReportRow
  try dsimp only
  repeat' first
    | with_reducible assumption
    | with_reducible apply Path.taking
    | with_reducible apply Path.modSurvey
    | intro _
    | split

theorem Path.surveyAdopt [AllowsSurvey K] (a : Settings) (h : Path K r s) : Path K r (s.surveyAdopt a) := by
  unfold State.surveyAdopt
  try dsimp only
  repeat' first
    | with_reducible assumption
    | with_reducible apply Path.modSurvey
    | intro _
    | split

theorem Path.surveyRow [AllowsSurvey K] (a : Sample) (h : Path K r s) : Path K r (s.surveyRow a) :=
  h.alive _ fun _ ht => (ht.doSurvey a).deliver

/-! ### The plan controller -/

theorem Path.nightOnward [AllowsPlans K] (a : Plan) (c : Bool) (h : Path K r s) : Path K r (s.nightOnward a c) := by
  unfold State.nightOnward
  repeat' first
    | with_reducible assumption
    | with_reducible apply Path.modPlan
    | split

theorem Path.replanNight [AllowsPlans K] (a : Plan) (b : Time) (c : Bool) (h : Path K r s) :
    Path K r (s.replanNight a b c) := by
  unfold State.replanNight
  try dsimp only
  repeat' first
    | with_reducible assumption
    | with_reducible apply Path.finishPlan
    | with_reducible apply Path.modPlan
    | with_reducible apply Path.nightOnward
    | intro _
    | split

theorem Path.askStage [AllowsPlans K] (a : Nat) (b : Nat) (h : Path K r s) : Path K r (s.askStage a b) := by
  unfold State.askStage
  repeat' first
    | with_reducible assumption
    | with_reducible apply Path.post
    | split

theorem Path.askAgain [AllowsPlans K] (a : Nat) (b : Nat) (h : Path K r s) : Path K r (s.askAgain a b) := by
  unfold State.askAgain
  try dsimp only
  repeat' first
    | with_reducible assumption
    | with_reducible apply Path.post
    | intro _
    | split

theorem Path.replan [AllowsPlans K] (a : Nat) (b : Time) (c : Bool) (h : Path K r s) : Path K r (s.replan a b c) := by
  unfold State.replan
  try dsimp only
  repeat' first
    | with_reducible assumption
    | with_reducible apply Path.askAgain
    | with_reducible apply Path.replanNight
    | intro _
    | split

theorem Path.replanAll [AllowsPlans K] (a : Time) (c : Bool) (h : Path K r s) : Path K r (s.replanAll a c) := by
  unfold State.replanAll
  try dsimp only
  repeat' first
    | with_reducible assumption
    | with_reducible apply Path.overAll
    | with_reducible apply Path.replan
    | intro _
    | split

theorem Path.topupStage [AllowsPlans K] (a : Judgement) (h : Path K r s) : Path K r (s.topupStage a) := by
  unfold State.topupStage
  try dsimp only
  repeat' first
    | with_reducible assumption
    | with_reducible apply Path.askAgain
    | with_reducible apply Path.modPlan
    | intro _
    | split

theorem Path.createTurnover [AllowsPlans K] (a : Origin) (b : Option OrderRef) (h : Path K r s) : Path K r (s.createTurnover a b) := by
  unfold State.createTurnover
  try dsimp only
  repeat' first
    | with_reducible assumption
    | with_reducible apply Path.contest
    | with_reducible apply Path.post
    | with_reducible apply Path.addPlan
    | intro _
    | split

theorem Path.endTest [AllowsPlans K] (a : Judgement) (b : Nat) (h : Path K r s) : Path K r (s.endTest a b) := by
  unfold State.endTest
  try dsimp only
  repeat' first
    | with_reducible assumption
    | with_reducible apply Path.finishPlan
    | intro _
    | split

theorem Path.floatStage [AllowsPlans K] (a : Judgement) (h : Path K r s) : Path K r (s.floatStage a) := by
  unfold State.floatStage
  try dsimp only
  repeat' first
    | with_reducible assumption
    | with_reducible apply Path.askStage
    | with_reducible apply Path.modPlan
    | intro _
    | split

theorem Path.earlyStart [AllowsPlans K] (a : Judgement) (h : Path K r s) : Path K r (s.earlyStart a) := by
  unfold State.earlyStart
  try dsimp only
  repeat' first
    | with_reducible assumption
    | with_reducible apply Path.modPlan
    | intro _
    | split

theorem Path.createTopup [AllowsPlans K] (a : Judgement) (h : Path K r s) : Path K r (s.createTopup a) := by
  unfold State.createTopup
  try dsimp only
  repeat' first
    | with_reducible assumption
    | with_reducible apply Path.addPlan
    | intro _
    | split

theorem Path.planJudges [AllowsPlans K] (a : Judgement) (h : Path K r s) : Path K r (s.planJudges a) := by
  unfold State.planJudges
  try dsimp only
  repeat' first
    | with_reducible assumption
    | with_reducible apply Path.overAll
    | with_reducible apply Path.modPlan
    | with_reducible apply Path.endTest
    | with_reducible apply Path.floatStage
    | with_reducible apply Path.topupStage
    | with_reducible apply Path.replanAll
    | with_reducible apply Path.drawCheck
    | with_reducible apply Path.earlyStart
    | with_reducible apply Path.contestAt
    | with_reducible apply Path.createTopup
    | intro _
    | split
  all_goals refine Path.plans ?_ AllowsPlans.plans _
  repeat' first
    | with_reducible assumption
    | with_reducible apply Path.overAll
    | with_reducible apply Path.modPlan
    | with_reducible apply Path.endTest
    | with_reducible apply Path.floatStage
    | with_reducible apply Path.topupStage
    | with_reducible apply Path.replanAll
    | with_reducible apply Path.drawCheck
    | with_reducible apply Path.earlyStart
    | with_reducible apply Path.contestAt
    | with_reducible apply Path.createTopup
    | intro _
    | split
  all_goals exact h.plans AllowsPlans.plans _

theorem Path.planJudgementRow [AllowsPlans K] (a : Judgement) (h : Path K r s) : Path K r (s.planJudgementRow a) := by
  unfold State.planJudgementRow
  try dsimp only
  repeat' first
    | with_reducible assumption
    | with_reducible apply Path.taking
    | with_reducible apply Path.planJudges
    | intro _
    | split

theorem Path.cheapStarts [AllowsPlans K] (a : WindowId) (b : Time) (h : Path K r s) : Path K r (s.cheapStarts a b) := by
  unfold State.cheapStarts
  try dsimp only
  repeat' first
    | with_reducible assumption
    | with_reducible apply Path.contest
    | with_reducible apply Path.replan
    | with_reducible apply Path.modPlan
    | with_reducible apply Path.addPlan
    | with_reducible apply Path.finishPlan
    | with_reducible apply Path.nightStartNow
    | with_reducible apply Path.drawCheck
    | intro _
    | split
  all_goals refine Path.plans ?_ AllowsPlans.plans _
  repeat' first
    | with_reducible assumption
    | with_reducible apply Path.contest
    | with_reducible apply Path.replan
    | with_reducible apply Path.modPlan
    | with_reducible apply Path.addPlan
    | with_reducible apply Path.finishPlan
    | with_reducible apply Path.nightStartNow
    | with_reducible apply Path.drawCheck
    | intro _
    | split

theorem Path.cheapStartRow [AllowsPlans K] (a : WindowId) (b : Time) (h : Path K r s) : Path K r (s.cheapStartRow a b) := by
  unfold State.cheapStartRow
  try dsimp only
  repeat' first
    | with_reducible assumption
    | with_reducible apply Path.taking
    | with_reducible apply Path.cheapStarts
    | intro _
    | split

theorem Path.cheapEndRow [AllowsPlans K] (a : WindowId) (h : Path K r s) : Path K r (s.cheapEndRow a) := by
  unfold State.cheapEndRow
  try dsimp only
  repeat' first
    | with_reducible assumption
    | with_reducible apply Path.taking
    | with_reducible apply Path.endPlan
    | intro _
    | split

theorem Path.startAtPassesRow [AllowsPlans K] (a : Nat) (h : Path K r s) : Path K r (s.startAtPassesRow a) := by
  unfold State.startAtPassesRow
  try dsimp only
  repeat' first
    | with_reducible assumption
    | with_reducible apply Path.taking
    | with_reducible apply Path.contest
    | with_reducible apply Path.drawCheck
    | intro _
    | split

theorem Path.inletSeizedRow [AllowsPlans K] (h : Path K r s) : Path K r (s.inletSeizedRow) := by
  unfold State.inletSeizedRow
  try dsimp only
  repeat' first
    | with_reducible assumption
    | with_reducible apply Path.taking
    | with_reducible apply Path.pausePlan
    | with_reducible apply Path.contest
    | with_reducible apply Path.clearPauses
    | intro _
    | split

theorem Path.inletFreeRow [AllowsPlans K] (h : Path K r s) : Path K r (s.inletFreeRow) := by
  unfold State.inletFreeRow
  try dsimp only
  repeat' first
    | with_reducible assumption
    | with_reducible apply Path.taking
    | with_reducible apply Path.contest
    | with_reducible apply Path.clearPauses
    | intro _
    | split

theorem Path.noPumpsCheck [AllowsPlans K] (a : Nat) (h : Path K r s) : Path K r (s.noPumpsCheck a) := by
  unfold State.noPumpsCheck
  try dsimp only
  repeat' first
    | with_reducible assumption
    | with_reducible apply Path.contest
    | with_reducible apply Path.post
    | with_reducible apply Path.pausePlan
    | intro _
    | split

theorem Path.reported [AllowsPlans K] (a : Nat) (b : Report) (c : Plan) (h : Path K r s) : Path K r (s.reported a b c) := by
  unfold State.reported
  try dsimp only
  repeat' first
    | with_reducible assumption
    | with_reducible apply Path.post
    | with_reducible apply Path.replan
    | with_reducible apply Path.pausePlan
    | with_reducible apply Path.noPumpsCheck
    | intro _
    | split

theorem Path.actuatorReportRow [AllowsPlans K] (a : Nat) (b : Report) (h : Path K r s) : Path K r (s.actuatorReportRow a b) := by
  unfold State.actuatorReportRow
  try dsimp only
  repeat' first
    | with_reducible assumption
    | with_reducible apply Path.taking
    | with_reducible apply Path.modPlan
    | with_reducible apply Path.contest
    | with_reducible apply Path.reported
    | intro _
    | split

theorem Path.pumpAvailableRow [AllowsPlans K] (a : Fin 4) (h : Path K r s) : Path K r (s.pumpAvailableRow a) := by
  unfold State.pumpAvailableRow
  try dsimp only
  repeat' first
    | with_reducible assumption
    | with_reducible apply Path.taking
    | with_reducible apply Path.contest
    | with_reducible apply Path.clearPauses
    | intro _
    | split

theorem Path.turnoverRequestRow [AllowsPlans K] (h : Path K r s) : Path K r (s.turnoverRequestRow) := by
  unfold State.turnoverRequestRow
  try dsimp only
  repeat' first
    | with_reducible assumption
    | with_reducible apply Path.taking
    | with_reducible apply Path.createTurnover
    | intro _
    | split

theorem Path.pauseStopped [AllowsPlans K] (a : Pause) (h : Path K r s) : Path K r (s.pauseStopped a) := by
  unfold State.pauseStopped
  try dsimp only
  repeat' first
    | with_reducible assumption
    | with_reducible apply Path.modPlan
    | with_reducible apply Path.pausePlan
    | intro _
    | split

theorem Path.planMainsLossRow [AllowsPlans K] (h : Path K r s) : Path K r (s.planMainsLossRow) := by
  unfold State.planMainsLossRow
  try dsimp only
  repeat' first
    | with_reducible assumption
    | with_reducible apply Path.taking
    | with_reducible apply Path.pauseStopped
    | with_reducible apply Path.contest
    | with_reducible apply Path.clearPauses
    | intro _
    | split

theorem Path.planAdopt [AllowsPlans K] (h : Path K r s) : Path K r (s.planAdopt) := by
  unfold State.planAdopt
  try dsimp only
  repeat' first
    | with_reducible assumption
    | with_reducible apply Path.overAll
    | with_reducible apply Path.finishPlan
    | with_reducible apply Path.contest
    | with_reducible apply Path.replanAll
    | intro _
    | split
  all_goals refine Path.plans ?_ AllowsPlans.plans _
  repeat' first
    | with_reducible assumption
    | with_reducible apply Path.overAll
    | with_reducible apply Path.finishPlan
    | with_reducible apply Path.contest
    | with_reducible apply Path.replanAll
    | intro _
    | split

end Sys2Proof.Machine
end

