-- ==== Sys2Proof/Laws/PathOrders.lean ====
section
/-! SUPPORT. The orders as paths: what each owning block does, and what the engine writes of it. -/

namespace Sys2Proof.Machine

variable {K : Scope} {r s : State}

/-! ### The order engine's own parts -/

/-- A change of the engine that leaves its pages and its access state, or leaves LOCAL. -/
theorem Path.engRest [AllowsEngine K] (h : Path K r s) (x : EngState) (ha : x.access = s.eng.access)
    (ht : x.taken.map (fun t => (t.page, t.next, t.parked)) = s.eng.taken.map (fun t => (t.page, t.next, t.parked)))
    (hs : x.submitted = s.eng.submitted) (hl : x.lastTaken = s.eng.lastTaken)
    (hf : x.inflight.length ≤ max s.eng.inflight.length Config.inflightMax)
    (hb : ∀ f ∈ x.inflight, (∃ g ∈ s.eng.inflight, g.ref.page = f.ref.page) ∨ f.ref.page ∈ s.eng.taken.map TakenPage.page) :
    Path K r { s with eng := x } :=
  h.step (.eng s x AllowsEngine.eng (fun _ hx => Or.inl (ha ▸ hx))
    (by have := congrArg List.length ht; simp only [List.length_map] at this; rw [this]; exact Nat.le_max_left _ _) hf
    (fun hx f hm => by
      have key : f.ref.page ∈ s.eng.taken.map TakenPage.page := by
        rcases hb f hm with ⟨g, hg, he⟩ | hp
        · obtain ⟨t, ht, hp⟩ := hx g hg
          exact List.mem_map.mpr ⟨t, ht, hp.trans he⟩
        · exact hp
      rw [← taken_pages ht, List.mem_map] at key
      exact key)
    (fun hr => ⟨hr.1, fun p hp => by
      rcases hp with hp | hp | ⟨t, hm, rfl⟩ | hp
      · exact h.ownByte (Or.inl hp) hr
      · exact h.ownByte (Or.inr (Or.inl hp)) hr
      · refine h.ownByte (Or.inr (Or.inr (Or.inl ?_))) hr
        have hx : t.page ∈ x.taken.map TakenPage.page := List.mem_map_of_mem hm
        rw [taken_pages ht, List.mem_map] at hx
        exact hx
      · exact h.ownByte (Or.inr (Or.inr (Or.inr (hs ▸ hp)))) hr⟩)
    fun _ => ⟨ha, hs, hl, taken_pages ht⟩)

theorem Path.renewService [AllowsEngine K] (h : Path K r s) : Path K r s.renewService :=
  h.engRest { s.eng with serviceEnd := some (s.now + Config.serviceTime) } rfl rfl rfl rfl (Nat.le_max_left _ _) fun f hf =>
    Or.inl ⟨f, hf, rfl⟩

/-- A change of the holds that keeps the number, the actuator and the establishment of each. -/
theorem ActState.inletGuards.mapped {a : ActState} (hg : a.inletGuards) (f : Hold → Hold)
    (hf : ∀ x, (f x).number = x.number ∧ (f x).act = x.act ∧ (f x).established = x.established) :
    ({ a with holds := a.holds.map f } : ActState).inletGuards := by
  refine ⟨hg.pumps, hg.switches, by rw [List.length_map]; exact hg.room, ?_, ?_, fun y hy hi he => ?_, fun y hy hi he => ?_, hg.going⟩
  · rw [List.map_map, show Hold.number ∘ f = Hold.number from funext fun x => (hf x).1]; exact hg.numbers
  · rw [List.map_map, show Hold.act ∘ f = Hold.act from funext fun x => (hf x).2.1]; exact hg.acts
  all_goals
    obtain ⟨z, hz, rfl⟩ := List.mem_map.mp hy
    rw [(hf z).2.1] at hi
    rw [(hf z).2.2] at he
  · exact hg.pending z hz hi he
  · exact hg.held z hz hi he

theorem Path.touchHold [AllowsActs K] (n : Nat) (h : Path K r s) : Path K r (s.touchHold n) := by
  have h1 : Path K r { s with act := { s.act with holds := s.act.holds.map fun x =>
      if x.number = n ∧ n ≠ 0 then { x with deadline := s.now + 60 * s.set.holdLifetime } else x } } :=
    h.actRest _ rfl (by
      show (List.map _ s.act.holds).length ≤ _
      rw [List.length_map]
      exact Nat.le_max_left _ _) fun _ hg => hg.mapped _ fun x => by
        split <;> exact ⟨rfl, rfl, rfl⟩
  exact h1

/-- A change of the actuator table that leaves each heater's contactor and machine state. -/
theorem Path.actQuiet [AllowsActs K] (x : ActState)
    (hp : ∀ n : Fin 4, PumpStep s (s.pump n) (x.pumps[n.val]'n.isLt))
    (hq : ∀ k : Fin 4, (x.heaters[k.val]'k.isLt).contactor = (s.heater k).contactor
      ∧ (x.heaters[k.val]'k.isLt).mode = (s.heater k).mode)
    (hh : x.holds.length ≤ max s.act.holds.length Config.holdsMax) (hd : s.act.inletGuards → x.inletGuards)
    (h : Path K r s) : Path K r { s with act := x } :=
  h.step (.act s x AllowsActs.act hp (fun k => HeaterMove.quiet s (hq k).1 (hq k).2) hh fun _ => hd)

@[simp] theorem Handed.done_state (l : List Byte) (s : State) : (Handed.done l s).state = s := rfl
@[simp] theorem Handed.accepted_state (s : State) : (Handed.accepted s).state = s := rfl
@[simp] theorem Handed.refused_state (x : Reason) (s : State) : (Handed.refused x s).state = s := rfl
@[simp] theorem Handed.retry_state (x : Reason) (s : State) : (Handed.retry x s).state = s := rfl

/-! ### The calendar's clock and the settings -/

theorem Path.moveWaits [AllowsOrders K] (d : Int) (h : Path K r s) : Path K r (s.moveWaits d) := by
  have h1 := h.actQuiet { s.act with
      pumps := s.act.pumps.map (Pump.shifted d)
      heaters := s.act.heaters.map (Heater.shifted d)
      inlet := { s.act.inlet with travelDl := shift d s.act.inlet.travelDl }
      holds := s.act.holds.map fun h => { h with deadline := h.deadline + d } }
    (fun n => by simp only [Vector.getElem_map]; exact (PumpMove.quiet s (p := s.pump n) (q := (s.pump n).shifted d) rfl rfl rfl rfl rfl).step)
    (fun k => by simp only [Vector.getElem_map]; exact ⟨rfl, rfl⟩)
    (by
      show (List.map _ s.act.holds).length ≤ _
      rw [List.length_map]
      exact Nat.le_max_left _ _)
    (fun hg => by
      refine ActState.inletGuards.mapped (a := { s.act with
        pumps := s.act.pumps.map (Pump.shifted d)
        heaters := s.act.heaters.map (Heater.shifted d)
        inlet := { s.act.inlet with travelDl := shift d s.act.inlet.travelDl } }) ?_ _ fun _ => ⟨rfl, rfl, rfl⟩
      refine ⟨fun n hn => ?_, hg.switches, hg.room, hg.numbers, hg.acts, hg.pending, hg.held, hg.going⟩
      simp only [Vector.getElem_map] at hn ⊢
      exact hg.pumps n hn)
  have h2 := h1.engRest { s.eng with
      inflight := s.eng.inflight.map fun e => { e with entry := e.entry + d }
      serviceEnd := shift d s.eng.serviceEnd } rfl rfl rfl rfl (by
      show (List.map _ s.eng.inflight).length ≤ _
      rw [List.length_map]
      exact Nat.le_max_left _ _) fun f hf => by
        obtain ⟨g, hg, rfl⟩ := List.mem_map.mp hf
        exact Or.inl ⟨g, hg, rfl⟩
  have h3 := h2.jrn { s.jrn with opened := s.jrn.opened.map fun o => { o with ageStart := shift d o.ageStart } } h2.queueLe
    (fun ha hm p hp => by
      obtain ⟨o, ho, hp⟩ := ha hm p hp
      exact ⟨_, congrArg (Option.map _) ho, hp⟩)
    (fun hr p hp => by
      rcases hp with ⟨o, ho, rfl⟩ | hp
      · obtain ⟨o', ho', rfl⟩ := Option.map_eq_some_iff.mp ho
        exact h.ownByte (Or.inl ⟨o', ho', rfl⟩) hr
      · exact h.ownByte (Or.inr (Or.inl hp)) hr)
  exact h3.sysRest { s.sys with stagger := shift d s.sys.stagger } ⟨rfl, rfl, rfl⟩

theorem Path.clockSet [AllowsOrders K] (a : Time) (b : OrderRef) (h : Path K r s) : Path K r (s.clockSet a b) :=
  ((((h.cal AllowsCalendar.cal { s.cal with count := a, set := true }).survey AllowsSurvey.survey
    { s.survey with reportFrom := a }).moveWaits (a - s.now)).make _ _ _ _).post _

theorem Path.blocksAdopt [AllowsOrders K] (a : Settings) (b : Bool) (h : Path K r s) : Path K r (s.blocksAdopt a b) := by
  unfold State.blocksAdopt
  try dsimp only
  repeat' first
    | with_reducible assumption
    | with_reducible apply Path.calAdopt
    | with_reducible apply Path.actAdopt
    | with_reducible apply Path.guardAdopt
    | with_reducible apply Path.surveyAdopt
    | with_reducible apply Path.outputsFreed
    | with_reducible apply Path.ageCheck
    | with_reducible apply Path.frostAdopt
    | with_reducible apply Path.planAdopt
    | with_reducible apply Path.setBudget
    | intro _
    | split

theorem Path.adopt [AllowsOrders K] (a : Settings) (b : Nat) (c : OrderRef) (h : Path K r s) : Path K r (s.adopt a b c) := by
  have h1 := h.sysRest { s.sys with settings := a, number := b, standby := false } ⟨rfl, rfl, rfl⟩
  exact (h1.make .settings s.now (some c) (settingsBody s.sys.number b)).blocksAdopt s.sys.settings s.sys.standby

/-! ### What each owning block does at the handing -/

theorem Path.orderSetTarget [AllowsOrders K] (a : Nat) (h : Path K r s) : Path K r (s.orderSetTarget a).state := by
  unfold State.orderSetTarget
  try dsimp only
  repeat' first
    | with_reducible assumption
    | simp only [Handed.done_state]
    | simp only [Handed.refused_state]
    | with_reducible apply Path.contest
    | with_reducible apply Path.replan
    | with_reducible apply Path.modPlan
    | intro _
    | split
  all_goals first | exact h | (refine Path.plans ?_ AllowsPlans.plans _)
  repeat' first
    | with_reducible assumption
    | simp only [Handed.done_state]
    | simp only [Handed.refused_state]
    | with_reducible apply Path.contest
    | with_reducible apply Path.replan
    | with_reducible apply Path.modPlan
    | intro _
    | split

theorem Path.orderFillNow [AllowsOrders K] (q : OrderRef) (a b c : Nat) (h : Path K r s) : Path K r (s.orderFillNow q a b c).state := by
  unfold State.orderFillNow
  try dsimp only
  repeat' first
    | with_reducible assumption
    | simp only [Handed.done_state]
    | simp only [Handed.refused_state]
    | with_reducible apply Path.contest
    | with_reducible apply Path.addPlan
    | intro _
    | split

theorem Path.orderTurnoverNow [AllowsOrders K] (q : OrderRef) (h : Path K r s) : Path K r (s.orderTurnoverNow q).state := by
  unfold State.orderTurnoverNow
  try dsimp only
  repeat' first
    | with_reducible assumption
    | simp only [Handed.done_state]
    | simp only [Handed.refused_state]
    | simp only [Handed.retry_state]
    | with_reducible apply Path.createTurnover
    | intro _
    | split

theorem Path.orderCancelPlan [AllowsOrders K] (q : OrderRef) (a : Nat) (h : Path K r s) : Path K r (s.orderCancelPlan q a).state := by
  unfold State.orderCancelPlan
  try dsimp only
  repeat' first
    | with_reducible assumption
    | simp only [Handed.done_state]
    | simp only [Handed.refused_state]
    | with_reducible apply Path.endPlan
    | intro _
    | split
  all_goals first | exact h | (refine Path.plans ?_ AllowsPlans.plans _)
  repeat' first
    | with_reducible assumption
    | simp only [Handed.done_state]
    | simp only [Handed.refused_state]
    | with_reducible apply Path.endPlan
    | intro _
    | split

theorem Path.orderReadPlan [AllowsOrders K] (a : Nat) (h : Path K r s) : Path K r (s.orderReadPlan a).state := by
  unfold State.orderReadPlan
  try dsimp only
  repeat' first
    | with_reducible assumption
    | simp only [Handed.done_state]
    | simp only [Handed.refused_state]
    | intro _
    | split

theorem Path.orderReadActuator [AllowsOrders K] (a : Nat) (h : Path K r s) : Path K r (s.orderReadActuator a).state := by
  unfold State.orderReadActuator
  try dsimp only
  repeat' first
    | with_reducible assumption
    | simp only [Handed.done_state]
    | simp only [Handed.refused_state]
    | intro _
    | split

theorem Path.orderSetClock [AllowsOrders K] (q : OrderRef) (a : Nat) (h : Path K r s) : Path K r (s.orderSetClock q a).state := by
  unfold State.orderSetClock
  rw [Handed.done_state]
  exact ((((h.clockSet _ _).replanAll _ _).contest).evaluate).settle

theorem Path.orderAdoptSettings [AllowsOrders K] (q : OrderRef) (h : Path K r s) : Path K r (s.orderAdoptSettings q).state := by
  unfold State.orderAdoptSettings
  split
  · exact h
  · split
    · rw [Handed.refused_state]; exact h
    · rw [Handed.done_state]; exact h.adopt _ _ _

theorem Path.hostStart [AllowsActs K] (a : Fin 4) (ho : s.act.inlet.owner = .manual) (h : Path K r s) : Path K r (s.hostStart a) := by
  have h1 : ∀ o, (o = .manual ∨ o = .hold) → Path K r (s.setPump a { s.pump a with owner := o, request := .start, stopWait := false }) :=
    fun o hx => by
      refine h.setPump a _ ?_
      exact PumpMove.owned s rfl rfl rfl rfl fun _ _ => Or.inr (Or.inl ⟨hx, ho⟩)
  have hx : (if s.matchedHold (.pump a) then Owner.hold else Owner.manual) = .manual ∨
      (if s.matchedHold (.pump a) then Owner.hold else Owner.manual) = .hold := by
    split
    · exact Or.inr rfl
    · exact Or.inl rfl
  unfold State.hostStart
  generalize (if s.matchedHold (.pump a) then Owner.hold else Owner.manual) = o at hx
  have h2 := h1 o hx
  generalize hu : s.setPump a { s.pump a with owner := o, request := .start, stopWait := false } = u at h2
  dsimp only
  rw [hu]
  refine Path.settle ?_
  split
  · exact h2.claimPump a
  · split
    · exact h2.post _
    · exact h2

theorem Path.orderStartPump [AllowsOrders K] (a : Fin 4) (b : Nat) (h : Path K r s) : Path K r (s.orderStartPump a b).state := by
  unfold State.orderStartPump
  by_cases ho : s.act.inlet.owner = .manual
  · have h1 := h.hostStart a ho
    dsimp only
    repeat' first
      | with_reducible assumption
      | simp only [Handed.done_state]
      | simp only [Handed.accepted_state]
      | simp only [Handed.refused_state]
      | split
  · dsimp only
    rw [if_pos (Or.inl ho)]
    repeat' first
      | with_reducible assumption
      | simp only [Handed.refused_state]
      | split

theorem Path.orderStopPump [AllowsOrders K] (a : Fin 4) (b : Nat) (h : Path K r s) : Path K r (s.orderStopPump a b).state := by
  unfold State.orderStopPump
  try dsimp only
  repeat' first
    | with_reducible assumption
    | simp only [Handed.done_state]
    | simp only [Handed.accepted_state]
    | simp only [Handed.refused_state]
    | with_reducible apply Path.settle
    | with_reducible apply Path.pumpStop
    | intro _
    | split

/-- The pumps of a plan that owns the inlet are dropped: no pump runs then. -/
theorem Path.dropPlan [AllowsActs K] (m : Nat) (ho : s.act.inlet.owner = .plan m) (h : Path K r s) :
    Path K r (Machine.overAll (four.filter fun k => decide ((s.pump k).owner = .plan m)) State.pumpDrop s) ∧
      (r.guarded → (Machine.overAll (four.filter fun k => decide ((s.pump k).owner = .plan m)) State.pumpDrop s).pumpsOff) := by
  have e : (four.filter fun k => decide ((s.pump k).owner = .plan m)) = four.filter fun k => s.ownersPump (s.pump k) := by
    refine List.filter_congr fun k _ => ?_
    simp [State.ownersPump, ho]
  rw [e]
  exact h.dropOwners

theorem Path.takeManual [AllowsActs K] (h : Path K r s) : Path K r (s.takeManual) := by
  unfold State.takeManual
  dsimp only
  by_cases hm : s.matchedHold .inlet = true
  · rw [if_pos hm]; exact h
  · rw [if_neg hm]
    have hu : ∀ x ∈ s.act.holds, x.act ≠ .inlet := by
      intro x hx e
      refine hm ?_
      rw [State.matchedHold, State.holdNaming, List.find?_isSome]
      exact ⟨x, hx, by simp [e]⟩
    split
    · exact h
    · exact h
    · rename_i ho
      refine h.modInletOff _ (fun hr => (h.inletGuards hr).off_of_owner ?_) (fun he => Or.inr ⟨he, rfl, rfl⟩)
        (fun _ => Or.inr (Or.inr hu)) fun _ => Or.inl (Or.inl rfl)
      rw [ho]
      exact ⟨by decide, fun m hm => by cases hm⟩
    · exact h
    · exact h
    · rename_i n ho
      obtain ⟨h1, hf⟩ := h.dropPlan n ho
      have hh : (Machine.overAll (four.filter fun k => decide ((s.pump k).owner = .plan n)) State.pumpDrop s).act.holds = s.act.holds :=
        overAll_keeps (fun t : State => t.act.holds) State.pumpDrop (fun k t => (t.pumpDrop_only k).holds) _ s
      generalize Machine.overAll (four.filter fun k => decide ((s.pump k).owner = .plan n)) State.pumpDrop s = u at h1 hf hh
      have h2 : Path K r (u.modInlet fun v => { v with owner := .manual, leaving := false }) :=
        h1.modInletOff _ hf (fun he => Or.inr ⟨he, rfl, rfl⟩) (fun _ => Or.inr (Or.inr (by rw [hh]; exact hu)))
          fun _ => Or.inl (Or.inl rfl)
      exact h2.tellPlan _ _

theorem Path.hostOpen [AllowsActs K] (h : Path K r s) : Path K r (s.hostOpen) := by
  have h1 := h.takeManual
  unfold State.hostOpen
  dsimp only
  split
  · exact h1.modInlet _ ⟨rfl, Or.inl rfl, id, Or.inl rfl, Or.inl⟩
  · exact h1.command _

theorem Path.inletCheck [AllowsOrders K] (a : Nat) (f : State → Handed) (hf : Path K r (f s).state) (h : Path K r s) :
    Path K r (s.inletCheck a f).state := by
  unfold State.inletCheck
  split
  · exact h
  · split
    · exact h
    · split
      · exact h
      · exact hf

theorem Path.orderOpenInlet [AllowsOrders K] (a : Nat) (h : Path K r s) : Path K r (s.orderOpenInlet a).state := by
  unfold State.orderOpenInlet
  refine Path.inletCheck _ _ ?_ h
  have h1 := h.hostOpen.settle
  dsimp only
  split
  · rw [Handed.done_state]; exact h1
  · rw [Handed.accepted_state]; exact h1

theorem Path.orderCloseInlet [AllowsOrders K] (a : Nat) (h : Path K r s) : Path K r (s.orderCloseInlet a).state := by
  unfold State.orderCloseInlet
  refine Path.inletCheck _ _ ?_ h
  have h1 := (h.takeManual.command .closed).settle
  dsimp only
  split
  · rw [Handed.done_state]; exact h1
  · rw [Handed.accepted_state]; exact h1

theorem Path.letManualGo [AllowsActs K] (h : Path K r s) : Path K r (s.letManualGo) := by
  have h1 := Path.overAll (four.filter fun k => decide ((s.pump k).owner = .manual ∨ (s.pump k).owner = .hold)) State.pumpStop
    (fun k _ u hu => hu.pumpStop k) h
  have hi : (Machine.overAll (four.filter fun k => decide ((s.pump k).owner = .manual ∨ (s.pump k).owner = .hold)) State.pumpStop
      s).act.inlet = s.act.inlet := overAll_keeps (fun t : State => t.act.inlet) State.pumpStop (fun k t => (t.pumpStop_only k).inlet) _ s
  unfold State.letManualGo
  dsimp only
  split
  · rename_i ho
    refine h1.modInlet _ ⟨rfl, Or.inl rfl, id, Or.inr (Or.inr ⟨rfl, rfl⟩), fun _ => Or.inr (Or.inl ?_)⟩
    rw [hi]
    exact ho
  · exact h1

theorem Path.orderReleaseManual [AllowsOrders K] (h : Path K r s) : Path K r (s.orderReleaseManual).state := by
  unfold State.orderReleaseManual
  try dsimp only
  repeat' first
    | with_reducible assumption
    | simp only [Handed.done_state]
    | simp only [Handed.refused_state]
    | with_reducible apply Path.settle
    | with_reducible apply Path.letManualGo
    | intro _
    | split

theorem Path.orderHoldActuator [AllowsOrders K] (q : OrderRef) (a : ActId) (h : Path K r s) :
    Path K r (s.orderHoldActuator q a).state := by
  unfold State.orderHoldActuator
  by_cases hl : Config.holdsMax ≤ s.act.holds.length
  · rw [if_pos hl]
    repeat' first
      | rw [Handed.refused_state]
      | rw [Handed.retry_state]
      | with_reducible assumption
      | split
  · by_cases hu : (s.holdNaming a).isSome = true
    · rw [if_pos hu]
      repeat' first
        | rw [Handed.refused_state]
        | with_reducible assumption
        | split
    · have hn : s.unheld a := by
        intro x hx e
        refine hu ?_
        rw [State.holdNaming, List.find?_isSome]
        exact ⟨x, hx, by simp [e]⟩
      have h1 := (h.makeHold a q (Nat.lt_of_not_le hl) hn).settle
      rw [if_neg hl]
      repeat' first
        | rw [Handed.refused_state]
        | rw [Handed.accepted_state]
        | rw [Handed.done_state]
        | with_reducible assumption
        | with_reducible apply Path.unpost
        | dsimp only
        | split

theorem Path.orderReleaseHold [AllowsOrders K] (q : OrderRef) (a : Nat) (h : Path K r s) : Path K r (s.orderReleaseHold q a).state := by
  unfold State.orderReleaseHold
  split
  · rw [Handed.refused_state]; exact h
  · rename_i hf
    rw [Handed.done_state]
    exact (h.endHold _ _ _ (List.mem_of_find?_eq_some hf)).settle

theorem Path.clearPump [AllowsActs K] (a : Fin 4) (h : Path K r s) : Path K r (s.clearPump a) := by
  unfold State.clearPump
  dsimp only
  split
  · rename_i hm
    refine ((h.setPump a _ ?_).post _).entersResting a
    exact PumpMove.idle s (Pump.idle_of_mode hm (by decide)) rfl rfl
  · exact h

theorem Path.clearHeater [AllowsActs K] (a : Fin 4) (h : Path K r s) : Path K r (s.clearHeater a) := by
  unfold State.clearHeater
  dsimp only
  split
  · rename_i hm
    refine (h.setHeater a _ ?_).tellFrost _ _
    exact HeaterMove.rest s rfl (by rw [hm]; decide)
  · exact h

theorem Path.clearInlet [AllowsActs K] (h : Path K r s) : Path K r (s.clearInlet) := by
  refine h.modInlet _ ?_
  split
  · rename_i hm
    refine ⟨rfl, Or.inr (by rw [hm]; decide), fun _ he => ?_, Or.inr (Or.inr ⟨rfl, rfl⟩), Or.inl⟩
    revert he
    cases s.act.inlet.openLs <;> cases s.act.inlet.closedLs <;> simp [judged]
  · exact ⟨rfl, Or.inl rfl, id, Or.inr (Or.inr ⟨rfl, rfl⟩), Or.inl⟩

theorem Path.clearFailureOf [AllowsActs K] (a : ActId) (h : Path K r s) : Path K r (s.clearFailureOf a) := by
  unfold State.clearFailureOf
  try dsimp only
  repeat' first
    | with_reducible assumption
    | with_reducible apply Path.settle
    | with_reducible apply Path.clearPump
    | with_reducible apply Path.clearInlet
    | with_reducible apply Path.clearHeater
    | intro _
    | split

theorem Path.orderClearFailure [AllowsOrders K] (a : ActId) (h : Path K r s) : Path K r (s.orderClearFailure a).state := by
  unfold State.orderClearFailure
  try dsimp only
  repeat' first
    | with_reducible assumption
    | simp only [Handed.done_state]
    | simp only [Handed.refused_state]
    | with_reducible apply Path.clearFailureOf
    | intro _
    | split

theorem Path.orderResetGuard [AllowsOrders K] (q : OrderRef) (h : Path K r s) : Path K r (s.orderResetGuard q).state := by
  unfold State.orderResetGuard
  split
  · rename_i hm
    rw [Handed.done_state]
    exact h.clearGuard _ _ _ _ (by rw [hm]; rfl)
  · rw [Handed.refused_state]; exact h

theorem Path.orderGuardTest [AllowsOrders K] (q : OrderRef) (h : Path K r s) : Path K r (s.orderGuardTest q).state := by
  unfold State.orderGuardTest
  try dsimp only
  repeat' first
    | with_reducible assumption
    | simp only [Handed.done_state]
    | simp only [Handed.accepted_state]
    | with_reducible apply Path.guardTests
    | intro _
    | split

theorem Path.orderJournalMark [AllowsOrders K] (q : OrderRef) (b : List Byte) (h : Path K r s) : Path K r (s.orderJournalMark q b).state := by
  unfold State.orderJournalMark
  try dsimp only
  repeat' first
    | with_reducible assumption
    | with_reducible apply Path.make
    | intro _
    | split

theorem Path.orderFlushJournal [AllowsOrders K] (q : OrderRef) (h : Path K r s) : Path K r (s.orderFlushJournal q).state := by
  unfold State.orderFlushJournal
  try dsimp only
  repeat' first
    | with_reducible assumption
    | simp only [Handed.done_state]
    | simp only [Handed.accepted_state]
    | with_reducible apply Path.unpost
    | with_reducible apply Path.flushRequest
    | intro _
    | split

/-! ### The engine's checks and what it writes -/

theorem Path.finish [AllowsOrders K] (a : OrderRef) (b : Status) (c : Reason) (d : Option (List Byte)) (h : Path K r s) :
    Path K r (s.finish a b c d) := by
  unfold State.finish
  split
  · rename_i ht
    simp only [State.isTaken, List.any_eq_true, decide_eq_true_eq] at ht
    obtain ⟨t, hm, hp⟩ := ht
    have hb := h.ownByte (Or.inr (Or.inr (Or.inl ⟨t, hm, hp⟩)))
    split
    · exact h.writeStatus _ _ _ hb
    · exact (h.writeStatus _ _ _ hb).writeResult _ _ hb
  · exact h

theorem Path.enterFlight [AllowsOrders K] (a : OrderCode) (b : OrderRef) (c : Nat) (h : Path K r s) :
    Path K r (s.enterFlight a b c) := by
  unfold State.enterFlight
  split
  · rename_i ht
    obtain ⟨ht, hl⟩ := ht
    simp only [State.isTaken, List.any_eq_true, decide_eq_true_eq] at ht
    obtain ⟨t, hm, hp⟩ := ht
    have hb := h.ownByte (Or.inr (Or.inr (Or.inl ⟨t, hm, hp⟩)))
    refine Path.poke _ _ _ hb ?_ (h.engRest { s.eng with inflight := s.eng.inflight ++ [(⟨b, a, c, s.now⟩ : InFlight)] } rfl
      rfl rfl rfl ?_ ?_)
    · have := b.slot.isLt
      simp [slotOffset]
      omega
    · refine Nat.le_trans ?_ (Nat.le_max_right _ _)
      simp only [List.length_append, List.length_cons, List.length_nil]
      omega
    · intro f hf
      rcases List.mem_append.mp hf with hf | hf
      · exact Or.inl ⟨f, hf, rfl⟩
      · rw [List.mem_singleton.mp hf]
        exact Or.inr (List.mem_map.mpr ⟨t, hm, hp⟩)
  · exact h

theorem Path.conclude [AllowsOrders K] (a : OrderReq) (b : Handed) (h : Path K r b.state) : Path K r (State.conclude a b) := by
  unfold State.conclude
  split
  · exact h.enterFlight _ _ _
  · exact h.finish _ _ _ _

/-- An order that goes through the engine: the handing is reached from a state on the path, or the order stops before. -/
theorem Path.runOrder [AllowsOrders K] (a : OrderReq) (f : State → Handed) (hf : ∀ t, Path K r t → Path K r (f t).state)
    (h : Path K r s) : Path K r (s.runOrder a f) := by
  refine Path.conclude _ _ ?_
  have hd : ∀ t, Path K r t → Path K r (t.delayedCheck a f).state := by
    intro t ht
    unfold State.delayedCheck
    split
    · exact ht
    · split
      · exact ht
      · split
        · exact ht
        · exact hf t ht
  have ha : ∀ t, Path K r t → Path K r (t.argumentCheck a f).state := by
    intro t ht
    unfold State.argumentCheck
    split
    · exact ht
    · split
      · exact ht
      · split
        · exact hd t ht
        · exact hf t ht
  unfold State.engine State.accessCheck
  have h1 := h.touchHold a.hold
  split
  · exact h1
  · split
    · split
      · exact ha _ h1.renewService
      · exact h1
    · exact ha _ h1

/-! ### The twenty orders -/

theorem Path.setClockOrder [AllowsOrders K] (a : OrderRef) (b : BitVec 32) (h : Path K r s) : Path K r (s.setClockOrder a b) :=
  Path.runOrder _ _ (fun _ ht => ht.orderSetClock _ _) h
theorem Path.adoptSettingsOrder [AllowsOrders K] (a : OrderRef) (h : Path K r s) : Path K r (s.adoptSettingsOrder a) :=
  Path.runOrder _ _ (fun _ ht => ht.orderAdoptSettings _) h
theorem Path.setTargetOrder [AllowsOrders K] (a : OrderRef) (b : Word) (h : Path K r s) : Path K r (s.setTargetOrder a b) :=
  Path.runOrder _ _ (fun _ ht => ht.orderSetTarget _) h
theorem Path.fillNowOrder [AllowsOrders K] (a : OrderRef) (b c : Word) (d : BitVec 32) (h : Path K r s) : Path K r (s.fillNowOrder a b c d) :=
  Path.runOrder _ _ (fun _ ht => ht.orderFillNow _ _ _ _) h
theorem Path.turnoverNowOrder [AllowsOrders K] (a : OrderRef) (h : Path K r s) : Path K r (s.turnoverNowOrder a) :=
  Path.runOrder _ _ (fun _ ht => ht.orderTurnoverNow _) h
theorem Path.cancelPlanOrder [AllowsOrders K] (a : OrderRef) (b : Word) (h : Path K r s) : Path K r (s.cancelPlanOrder a b) :=
  Path.runOrder _ _ (fun _ ht => ht.orderCancelPlan _ _) h
theorem Path.readPlanOrder [AllowsOrders K] (a : OrderRef) (b : Word) (h : Path K r s) : Path K r (s.readPlanOrder a b) :=
  Path.runOrder _ _ (fun _ ht => ht.orderReadPlan _) h
theorem Path.readActuatorOrder [AllowsOrders K] (a : OrderRef) (b : Word) (h : Path K r s) : Path K r (s.readActuatorOrder a b) :=
  Path.runOrder _ _ (fun _ ht => ht.orderReadActuator _) h
theorem Path.startPumpOrder [AllowsOrders K] (a : OrderRef) (b c : Word) (h : Path K r s) : Path K r (s.startPumpOrder a b c) :=
  Path.runOrder _ _ (fun _ ht => ht.orderStartPump _ _) h
theorem Path.stopPumpOrder [AllowsOrders K] (a : OrderRef) (b c : Word) (h : Path K r s) : Path K r (s.stopPumpOrder a b c) :=
  Path.runOrder _ _ (fun _ ht => ht.orderStopPump _ _) h
theorem Path.openInletOrder [AllowsOrders K] (a : OrderRef) (b : Word) (h : Path K r s) : Path K r (s.openInletOrder a b) :=
  Path.runOrder _ _ (fun _ ht => ht.orderOpenInlet _) h
theorem Path.closeInletOrder [AllowsOrders K] (a : OrderRef) (b : Word) (h : Path K r s) : Path K r (s.closeInletOrder a b) :=
  Path.runOrder _ _ (fun _ ht => ht.orderCloseInlet _) h
theorem Path.releaseManualOrder [AllowsOrders K] (a : OrderRef) (h : Path K r s) : Path K r (s.releaseManualOrder a) :=
  Path.runOrder _ _ (fun _ ht => ht.orderReleaseManual) h
theorem Path.releaseHoldOrder [AllowsOrders K] (a : OrderRef) (b : Word) (h : Path K r s) : Path K r (s.releaseHoldOrder a b) :=
  Path.runOrder _ _ (fun _ ht => ht.orderReleaseHold _ _) h
theorem Path.resetGuardOrder [AllowsOrders K] (a : OrderRef) (h : Path K r s) : Path K r (s.resetGuardOrder a) :=
  Path.runOrder _ _ (fun _ ht => ht.orderResetGuard _) h
theorem Path.guardTestOrder [AllowsOrders K] (a : OrderRef) (h : Path K r s) : Path K r (s.guardTestOrder a) :=
  Path.runOrder _ _ (fun _ ht => ht.orderGuardTest _) h
theorem Path.journalMarkOrder [AllowsOrders K] (a : OrderRef) (b : Vector Byte 16) (h : Path K r s) : Path K r (s.journalMarkOrder a b) :=
  Path.runOrder _ _ (fun _ ht => ht.orderJournalMark _ _) h
theorem Path.flushJournalOrder [AllowsOrders K] (a : OrderRef) (h : Path K r s) : Path K r (s.flushJournalOrder a) :=
  Path.runOrder _ _ (fun _ ht => ht.orderFlushJournal _) h
theorem Path.holdActuatorOrder [AllowsOrders K] (a : OrderRef) (b : Word) (h : Path K r s) : Path K r (s.holdActuatorOrder a b) :=
  Path.runOrder _ _ (fun t ht => by
    split
    · exact ht
    · exact ht.orderHoldActuator _ _) h
theorem Path.clearFailureOrder [AllowsOrders K] (a : OrderRef) (b : Word) (h : Path K r s) : Path K r (s.clearFailureOrder a b) :=
  Path.runOrder _ _ (fun t ht => by
    split
    · exact ht
    · exact ht.orderClearFailure _) h

end Sys2Proof.Machine
end

