-- ==== Sys2Proof/Laws/PathEngine.lean ====
section
/-! SUPPORT. The order engine's pages and access states as paths (Engine.lean). -/

namespace Sys2Proof.Machine

variable {K : Scope} {r s : State}

/-- A change of the engine whose pages are in scope, under a condition on what `access` adds. -/
theorem Path.engKeep [AllowsEngine K] (h : Path K r s) (x : EngState)
    (ha : x.access = .localControl → s.eng.access = .localControl)
    (ht : x.taken.length ≤ max s.eng.taken.length Config.takenMax)
    (hf : x.inflight.length ≤ max s.eng.inflight.length Config.inflightMax)
    (hb : s.eng.flightsTaken → x.flightsTaken)
    (hp : r.owned K → ∀ p, (p ∈ x.taken.map TakenPage.page ∨ p ∈ x.submitted) → ∀ i < 256, K.byte (addr p i))
    (hs : ¬K.part .access → x.samePages s.eng) : Path K r { s with eng := x } :=
  h.step (.eng s x AllowsEngine.eng (fun _ hx => Or.inl (ha hx)) ht hf hb (fun hr => ⟨hr.1, fun p hx => by
    rcases hx with hx | hx | ⟨t, hm, rfl⟩ | hx
    · exact h.ownByte (Or.inl hx) hr
    · exact h.ownByte (Or.inr (Or.inl hx)) hr
    · exact hp hr _ (Or.inl (List.mem_map_of_mem hm))
    · exact hp hr _ (Or.inr hx)⟩) hs)

/-- A change of the engine whose pages are in scope. -/
theorem Path.engMove [AllowsAccess K] (h : Path K r s) (x : EngState)
    (ha : x.access = .localControl → s.eng.access = .localControl)
    (ht : x.taken.length ≤ max s.eng.taken.length Config.takenMax)
    (hf : x.inflight.length ≤ max s.eng.inflight.length Config.inflightMax)
    (hb : s.eng.flightsTaken → x.flightsTaken)
    (hp : r.owned K → ∀ p, (p ∈ x.taken.map TakenPage.page ∨ p ∈ x.submitted) → ∀ i < 256, K.byte (addr p i)) :
    Path K r { s with eng := x } := h.engKeep x ha ht hf hb hp fun hn => absurd AllowsAccess.access hn

theorem Path.ownTaken {p : Page} (h : Path K r s) (hp : p ∈ s.eng.taken.map TakenPage.page) :
    r.owned K → ∀ i < 256, K.byte (addr p i) := by
  obtain ⟨t, hm, rfl⟩ := List.mem_map.mp hp
  exact h.ownByte (Or.inr (Or.inr (Or.inl ⟨t, hm, rfl⟩)))

theorem Path.ownSubmitted {p : Page} (h : Path K r s) (hp : p ∈ s.eng.submitted) :
    r.owned K → ∀ i < 256, K.byte (addr p i) := h.ownByte (Or.inr (Or.inr (Or.inr hp)))

/-- Orders in flight belong to taken pages, as long as the pages stay. -/
theorem EngState.flightsTaken.mono {x y : EngState} (h : x.flightsTaken) (hi : ∀ f ∈ y.inflight, f ∈ x.inflight)
    (hp : ∀ f ∈ y.inflight, f.ref.page ∈ x.taken.map TakenPage.page → f.ref.page ∈ y.taken.map TakenPage.page) : y.flightsTaken :=
  fun f hf => by
    obtain ⟨t, ht, he⟩ := h f (hi f hf)
    exact List.mem_map.mp (hp f hf (List.mem_map.mpr ⟨t, ht, he⟩))

theorem modTaken_pages (l : List TakenPage) (a : Page) (f : TakenPage → TakenPage) (hf : ∀ t, (f t).page = t.page) :
    (l.map fun t => if t.page = a then f t else t).map TakenPage.page = l.map TakenPage.page := by
  rw [List.map_map]
  refine List.map_congr_left fun t _ => ?_
  show (if t.page = a then f t else t).page = t.page
  split
  · exact hf t
  · rfl

/-- A change of the taken entries that keeps their pages. -/
theorem Path.modTaken [AllowsEngine K] (a : Page) (f : TakenPage → TakenPage) (hf : ∀ t, (f t).page = t.page)
    (h : Path K r s) : Path K r (s.modTaken a f) := by
  have e := modTaken_pages s.eng.taken a f hf
  refine h.engKeep { s.eng with taken := s.eng.taken.map fun t => if t.page = a then f t else t } id ?_ (Nat.le_max_left _ _)
    (fun hx => hx.mono (fun _ hf => hf) fun _ _ hp => by rw [e]; exact hp) ?_ fun _ => ⟨rfl, rfl, rfl, e⟩
  · show (List.map _ _).length ≤ _
    rw [List.length_map]
    exact Nat.le_max_left _ _
  · intro hr p hp
    rcases hp with hp | hp
    · exact h.ownTaken (e ▸ hp) hr
    · exact h.ownSubmitted hp hr

theorem Path.handSlot [AllowsOrders K] (a : OrderCode) (b : OrderRef) (h : Path K r s) : Path K r (s.handSlot a b) := by
  unfold State.handSlot
  try dsimp only
  repeat' first
    | with_reducible assumption
    | with_reducible apply Path.setClockOrder
    | with_reducible apply Path.adoptSettingsOrder
    | with_reducible apply Path.setTargetOrder
    | with_reducible apply Path.fillNowOrder
    | with_reducible apply Path.turnoverNowOrder
    | with_reducible apply Path.cancelPlanOrder
    | with_reducible apply Path.readPlanOrder
    | with_reducible apply Path.readActuatorOrder
    | with_reducible apply Path.startPumpOrder
    | with_reducible apply Path.stopPumpOrder
    | with_reducible apply Path.openInletOrder
    | with_reducible apply Path.closeInletOrder
    | with_reducible apply Path.releaseManualOrder
    | with_reducible apply Path.holdActuatorOrder
    | with_reducible apply Path.releaseHoldOrder
    | with_reducible apply Path.clearFailureOrder
    | with_reducible apply Path.resetGuardOrder
    | with_reducible apply Path.guardTestOrder
    | with_reducible apply Path.journalMarkOrder
    | with_reducible apply Path.flushJournalOrder
    | intro _
    | split

theorem Path.runSlot [AllowsOrders K] (a : OrderRef) (ht : r.owned K → ∀ i < 256, K.byte (addr a.page i)) (h : Path K r s) :
    Path K r (s.runSlot a) := by
  have h1 := h.modTaken a.page (fun t => { t with next := a.slot.val + 1 }) fun _ => rfl
  unfold State.runSlot
  dsimp only
  split
  · exact h1.writeStatus _ _ _ ht
  · split
    · exact h1.writeStatus _ _ _ ht
    · split
      · exact h1.handSlot _ _
      · exact h1.writeStatus _ _ _ ht
      · exact h.modTaken _ _ fun _ => rfl

theorem State.takenEntry_mem {s : State} {p : Page} {t : TakenPage} (h : s.takenEntry p = some t) :
    p ∈ s.eng.taken.map TakenPage.page := by
  have hm := List.mem_of_find?_eq_some h
  have hp := List.find?_some h
  simp only [decide_eq_true_eq] at hp
  exact hp ▸ List.mem_map_of_mem hm

theorem Path.runSlots [AllowsOrders K] : ∀ (n : Nat) (a : Page) {s : State}, Path K r s → Path K r (s.runSlots n a) := by
  intro n a
  induction n with
  | zero => exact fun h => h
  | succ n ih =>
    intro s h
    unfold State.runSlots
    split
    · exact h
    · rename_i t ht
      split
      · exact h
      · split
        · split
          · exact h
          · exact ih (h.runSlot _ (h.ownTaken (State.takenEntry_mem ht)))
        · exact h

theorem Path.runPage [AllowsOrders K] (a : Page) (h : Path K r s) : Path K r (s.runPage a) := (h.runSlots 8 a).checkAnswer a

theorem Path.orderEnded [AllowsOrders K] (a : Page) (h : Path K r s) : Path K r (s.orderEnded a) := by
  unfold State.orderEnded
  split
  · exact h
  · split
    · exact (h.modTaken a (fun t => { t with parked := false }) fun _ => rfl).runPage a
    · exact h.checkAnswer a

theorem Path.orderRow [AllowsOrders K] (a : OrderRef) (f : State → State) (hf : ∀ t, Path K r t → Path K r (f t))
    (h : Path K r s) : Path K r (s.orderRow a f) := h.alive _ fun t ht => (hf t ht).orderEnded _

theorem Path.wantTake (h : Path K r s) : Path K r s.wantTake := by
  unfold State.wantTake
  split
  · exact h.post _
  · exact h

theorem Path.answerAs [AllowsAccess K] (a : Page) (b : Nat) (hp : r.owned K → ∀ i < 256, K.byte (addr a i)) (h : Path K r s) :
    Path K r (s.answerAs a b) := ((h.poke a 3 _ hp (by simp)).setPageState a _ (by decide)).raise _ _

theorem Path.badHeader [AllowsAccess K] (a : Page) (hp : r.owned K → ∀ i < 256, K.byte (addr a i)) (h : Path K r s) :
    Path K r (s.badHeader a) :=
  Path.answerAs a _ hp (Path.overAll _ _ (fun _ _ _ ht => ht.writeStatus _ _ _ hp) h)

theorem Path.enterTaken [AllowsAccess K] (a : Page) (h : Path K r s) : Path K r (s.enterTaken a) :=
  (h.setPageState a .taken (by decide)).engMove { s.eng with submitted := s.eng.submitted.erase a, lastTaken := (s.entry a).seq } id
    (Nat.le_max_left _ _) (Nat.le_max_left _ _) id (fun hr p hq => by
      rcases hq with hq | hq
      · exact h.ownTaken hq hr
      · exact h.ownSubmitted (List.mem_of_mem_erase hq) hr)

theorem Path.runTaken [AllowsAccess K] (a : Page) (hb : r.owned K → ∀ i < 256, K.byte (addr a i))
    (hl : s.eng.taken.length < Config.takenMax) (h : Path K r s) : Path K r (s.runTaken a) := by
  refine Path.runPage a (h.engMove _ id ?_ (Nat.le_max_left _ _) (fun hx => hx.mono (fun _ hf => hf) fun _ _ hp => by
      rw [List.map_append]
      exact List.mem_append_left _ hp) (fun hr p hq => ?_))
  · refine Nat.le_trans ?_ (Nat.le_max_right _ _)
    simp only [List.length_append, List.length_cons, List.length_nil]
    omega
  · rcases hq with hq | hq
    · rw [List.map_append, List.mem_append] at hq
      rcases hq with hq | hq
      · exact h.ownTaken hq hr
      · rw [List.mem_singleton.mp hq]; exact hb hr
    · exact h.ownSubmitted hq hr

theorem Path.takeRound [AllowsAccess K] : ∀ (n : Nat) {s : State}, Path K r s → Path K r (s.takeRound n) := by
  intro n
  induction n with
  | zero => exact fun h => h
  | succ n ih =>
    intro s h
    unfold State.takeRound
    split
    · exact h
    · rename_i p l hs
      have hb := h.ownSubmitted (p := p) (hs ▸ List.mem_cons_self)
      split
      · rename_i ht
        simp only [State.takeable, Bool.and_eq_true, decide_eq_true_eq] at ht
        split
        · exact Path.wantTake ((h.enterTaken p).runTaken p hb ht.1.2)
        · exact ih ((h.enterTaken p).badHeader p hb)
      · exact h

theorem Path.takeNext [AllowsAccess K] (h : Path K r s) : Path K r s.takeNext := h.takeRound _

theorem Path.pageTakeRow [AllowsAccess K] (h : Path K r s) : Path K r s.pageTakeRow := h.taking _ _ fun _ ht => ht.takeNext

/-- A page whose answer's conditions hold is taken. -/
theorem State.pageDone_mem {s : State} {p : Page} (h : s.pageDone p = true) : p ∈ s.eng.taken.map TakenPage.page := by
  unfold State.pageDone at h
  split at h
  · cases h
  · rename_i t ht
    exact State.takenEntry_mem ht

/-- A page that may be answered has no order in flight. -/
theorem State.pageDone_free {s : State} {p : Page} (h : s.pageDone p = true) : ∀ f ∈ s.eng.inflight, f.ref.page ≠ p := by
  unfold State.pageDone at h
  split at h
  · cases h
  · simp only [Bool.and_eq_true, Bool.not_eq_true', List.any_eq_false, decide_eq_true_eq] at h
    exact h.1.2

theorem Path.answerPage [AllowsAccess K] (a : Page) (hd : s.pageDone a = true) (h : Path K r s) : Path K r (s.answerPage a) := by
  refine Path.takeNext (Path.answerAs a _ (h.ownTaken (State.pageDone_mem hd)) (h.engMove _ id ?_ (Nat.le_max_left _ _) (fun hx =>
    hx.mono (fun _ hf => hf) fun f hf hp => ?_) (fun hr p hq => ?_)))
  · exact Nat.le_trans (List.length_filter_le _ _) (Nat.le_max_left _ _)
  · obtain ⟨t, hm, he⟩ := List.mem_map.mp hp
    refine List.mem_map.mpr ⟨t, List.mem_filter.mpr ⟨hm, ?_⟩, he⟩
    rw [he]
    exact decide_eq_true (State.pageDone_free hd f hf)
  · rcases hq with hq | hq
    · obtain ⟨t, hm, rfl⟩ := List.mem_map.mp hq
      exact h.ownTaken (List.mem_map_of_mem (List.mem_filter.mp hm).1) hr
    · exact h.ownSubmitted hq hr

theorem Path.pageAnswerRow [AllowsAccess K] (a : Page) (h : Path K r s) : Path K r (s.pageAnswerRow a) := by
  refine h.taking _ _ fun t ht => ?_
  split
  · rename_i hd
    exact ht.answerPage a hd
  · exact ht

theorem Path.submitPage [AllowsAccess K] (a : Page) (hp : r.owned K → ∀ i < 256, K.byte (addr a i)) (h : Path K r s) :
    Path K r (s.submitPage a) := by
  refine Path.wantTake (h.engMove _ id (Nat.le_max_left _ _) (Nat.le_max_left _ _) id (fun hr p hq => ?_))
  rcases hq with hq | hq
  · exact h.ownTaken hq hr
  · rcases List.mem_append.mp hq with hq | hq
    · exact h.ownSubmitted hq hr
    · rw [List.mem_singleton.mp hq]; exact hp hr

theorem Path.withdrawPage [AllowsAccess K] (a : Page) (h : Path K r s) : Path K r (s.withdrawPage a) := by
  refine Path.wantTake (h.engMove _ id (Nat.le_max_left _ _) (Nat.le_max_left _ _) id (fun hr p hq => ?_))
  rcases hq with hq | hq
  · exact h.ownTaken hq hr
  · exact h.ownSubmitted (List.mem_of_mem_erase hq) hr

/-! ### In-flight orders -/

theorem Path.dropFlight [AllowsEngine K] (a : OrderRef) (h : Path K r s) : Path K r (s.dropFlight a) :=
  (h.engRest { s.eng with inflight := s.eng.inflight.filter fun e => decide (e.ref ≠ a) } rfl rfl rfl rfl
    (Nat.le_trans (List.length_filter_le _ _) (Nat.le_max_left _ _)) fun f hf => Or.inl ⟨f, (List.mem_filter.mp hf).1, rfl⟩).transit _

theorem Path.orderCompleteRow [AllowsOrders K] (a : OrderRef) (b : Status) (c : Reason) (d : List Byte) (h : Path K r s) : Path K r (s.orderCompleteRow a b c d) := by
  unfold State.orderCompleteRow
  try dsimp only
  repeat' first
    | with_reducible assumption
    | with_reducible apply Path.taking
    | with_reducible apply Path.orderEnded
    | with_reducible apply Path.finish
    | with_reducible apply Path.dropFlight
    | intro _
    | split

theorem Path.withdrawRequest [AllowsOrders K] (a : InFlight) (h : Path K r s) : Path K r (s.withdrawRequest a) := by
  unfold State.withdrawRequest
  split
  · split
    · exact (h.pumpStop _).settle
    · exact h
  · split
    · exact h
    · rename_i hf
      split
      · exact (h.abandonHold _ (List.mem_of_find?_eq_some hf)).settle
      · exact h
  · exact h.jrnRest { s.jrn with flush := none } rfl rfl rfl
  · exact h

theorem Path.orderTimeLimitRow [AllowsOrders K] (a : OrderRef) (h : Path K r s) : Path K r (s.orderTimeLimitRow a) := by
  unfold State.orderTimeLimitRow
  try dsimp only
  repeat' first
    | with_reducible assumption
    | with_reducible apply Path.taking
    | with_reducible apply Path.orderEnded
    | with_reducible apply Path.withdrawRequest
    | with_reducible apply Path.finish
    | with_reducible apply Path.dropFlight
    | intro _
    | split

theorem Path.abortFlights [AllowsOrders K] (a : List InFlight) (b : Reason) (h : Path K r s) : Path K r (s.abortFlights a b) := by
  unfold State.abortFlights
  try dsimp only
  repeat' first
    | with_reducible assumption
    | with_reducible apply Path.overAll
    | with_reducible apply Path.finish
    | with_reducible apply Path.dropFlight
    | intro _
    | split

theorem Path.ordersEnded [AllowsOrders K] (a : List InFlight) (h : Path K r s) : Path K r (s.ordersEnded a) := by
  unfold State.ordersEnded
  try dsimp only
  repeat' first
    | with_reducible assumption
    | with_reducible apply Path.overAll
    | with_reducible apply Path.orderEnded
    | intro _
    | split

theorem Path.serviceRecord [AllowsJournal K] (a : Access) (b : Access) (c : Nat) (h : Path K r s) : Path K r (s.serviceRecord a b c) := by
  unfold State.serviceRecord
  try dsimp only
  repeat' first
    | with_reducible assumption
    | with_reducible apply Path.make
    | intro _
    | split

/-! ### Access states -/

/-- The access state changes, to LOCAL only where every contactor is off. -/
theorem Path.setAccess [AllowsAccess K] (a : Access) (ha : r.pumpsOk → a = .localControl → s.pumpsOff) (h : Path K r s) :
    Path K r (s.setAccess a) :=
  h.step (.eng s _ AllowsEngine.eng (fun hr hx => Or.inr (ha hr hx)) (Nat.le_max_left _ _) (Nat.le_max_left _ _) id
    (fun hr => ⟨hr.1, fun _ hp => h.ownByte hp hr⟩) fun hn => absurd AllowsAccess.access hn)

theorem Path.endService [AllowsAccess K] (a : Nat) (h : Path K r s) : Path K r (s.endService a) :=
  (((((h.setAccess .normal (fun _ hx => by cases hx)).abortFlights _ _).letManualGo).serviceRecord _ _ _).settle).ordersEnded _

theorem Path.serviceExpiryRow [AllowsAccess K] (h : Path K r s) : Path K r (s.serviceExpiryRow) := by
  unfold State.serviceExpiryRow
  try dsimp only
  repeat' first
    | with_reducible assumption
    | with_reducible apply Path.taking
    | with_reducible apply Path.endService
    | intro _
    | split

theorem Path.keyed [AllowsAccess K] (a : Word) (h : Path K r s) : Path K r (s.keyed a) := by
  unfold State.keyed
  split
  · split
    · exact ((h.setAccess .service (fun _ hx => by cases hx)).renewService).serviceRecord _ _ _
    · exact h
  · split
    · exact h.endService _
    · split
      · exact h.renewService
      · exact h
  · exact h

theorem Path.keyRow [AllowsAccess K] (a : Word) (h : Path K r s) : Path K r (s.keyRow a) := h.keyed a

theorem State.localPump_only (s : State) (n : Fin 4) : OnlyPump n s (s.localPump n) :=
  ((s.modPump_only n _).trans (State.releasePump_only _ n)).trans (State.tellPumps_only _ n _ _)

theorem State.localPump_idle (s : State) (n : Fin 4) : ((s.localPump n).pump n).idle := by
  unfold State.localPump
  dsimp only
  obtain ⟨c, hc⟩ := State.releasePump_pump (s.modPump n fun p => { p with
    contactor := false
    request := .none
    owner := if s.heldEstablished (.pump n) then .hold else .none
    mode := if s.heldEstablished (.pump n) then .held else if p.mode = .failed then .failed else .ready
    runSince := none
    tryDl := none
    retryDl := none
    stopDl := none
    offEnd := none
    offWaived := false
    stopWait := false }) n
  rw [State.tellPumps_pump, hc]
  exact Or.inl (by simp)

/-- Once the pump outputs are released, every contactor is off (R62). -/
theorem Path.localPumps_off [AllowsActs K] (h : Path K r s) (hr : r.pumpsOk) : s.localPumps.pumpsOff :=
  State.pumpsOff_of_idle (h.localPumps.pumpsOk hr) fun n =>
    overAll_idle (fun n s => s.localPump_only n) (fun n s => s.localPump_idle n) four s n (Or.inl (mem_four n))

theorem State.finish_act (s : State) (q : OrderRef) (st : Status) (rs : Reason) (res : Option (List Byte)) :
    (s.finish q st rs res).act = s.act := by
  unfold State.finish
  split
  · split <;> rfl
  · rfl

theorem State.abortFlights_act (s : State) (es : List InFlight) (rs : Reason) : (s.abortFlights es rs).act = s.act :=
  overAll_keeps (fun t : State => t.act) _ (fun e t => by rw [State.finish_act]; rfl) es s

theorem Path.enterLocal [AllowsAccess K] (h : Path K r s) : Path K r s.enterLocal := by
  have h1 := h.localPumps.setAccess .localControl (fun hr _ => h.localPumps_off hr)
  have hf (es rest : List InFlight) (hr : r.guarded) : (((s.localPumps.setAccess .localControl).abortFlights es .localControl).abortFlights
      rest .serviceEnd).pumpsOff := fun n => by
    unfold State.pump
    rw [State.abortFlights_act, State.abortFlights_act]
    exact h.localPumps_off hr.1.1 n
  unfold State.enterLocal
  dsimp only
  exact Path.ordersEnded _ (Path.settle (Path.serviceRecord _ _ _ (Path.pauseStopped _ (Path.localInlet (hf _ _)
    (Path.abortFlights _ _ (Path.abortFlights _ _ h1))))))

theorem Path.localEntryRow [AllowsAccess K] (h : Path K r s) : Path K r s.localEntryRow := by
  refine h.taking _ _ fun t ht => ?_
  have h1 := ht.sysRest { t.sys with localIn := true } ⟨rfl, rfl, rfl⟩
  split
  · exact h1
  · exact h1.enterLocal

theorem Path.leaveLocal [AllowsAccess K] (h : Path K r s) : Path K r s.leaveLocal :=
  ((((((h.setAccess .normal (fun _ hx => by cases hx)).serviceRecord _ _ _).stationBack).guardRecloses).clearPauses _).contest).settle

theorem Path.localExitRow [AllowsAccess K] (h : Path K r s) : Path K r s.localExitRow := by
  refine h.taking _ _ fun t ht => ?_
  have h1 := ht.sysRest { t.sys with localIn := false } ⟨rfl, rfl, rfl⟩
  split
  · exact h1.leaveLocal
  · exact h1

theorem Path.orderMainsLossRow [AllowsOrders K] (h : Path K r s) : Path K r (s.orderMainsLossRow) := by
  unfold State.orderMainsLossRow
  try dsimp only
  repeat' first
    | with_reducible assumption
    | with_reducible apply Path.taking
    | with_reducible apply Path.ordersEnded
    | with_reducible apply Path.abortFlights
    | intro _
    | split

end Sys2Proof.Machine
end

