-- ==== Sys2Proof/Laws/PathExec.lean ====
section
/-! SUPPORT. The memory port, power, start-up and the second as paths; then every command. -/

namespace Sys2Proof.Machine

variable {K : Scope} {r s : State}

/-! ### The memory port -/

theorem Path.passMove [AllowsAccess K] (a : Page) (b c : PageState) (hp : r.owned K → ∀ i < 256, K.byte (addr a i))
    (h : Path K r s) : Path K r (s.passMove a b c) := by
  unfold State.passMove
  split
  · exact h.givePage a hp
  · exact h.submitPage a hp
  · split
    · exact h.withdrawPage a
    · exact h
  · split
    · exact h.ungivePage a
    · exact h
  · exact h

theorem Path.entryWrite [AllowsAccess K] [AllowsRegs K] (a : Page) (b : Word) (hp : r.owned K → ∀ i < 256, K.byte (addr a i))
    (h : Path K r s) : Path K r (s.entryWrite a b) := by
  unfold State.entryWrite
  dsimp only
  split
  · split
    · exact h.dropWrite _ _ _
    · split
      · rename_i new _ hm
        exact (h.setEntry _ _ fun hx => absurd hm (by
          have hn : new = .journalOpen := hx
          subst hn
          cases (s.entry a).state <;> decide)).passMove a _ _ hp
      · exact h.dropWrite _ _ _
  · exact h.dropWrite _ _ _

theorem Path.storeWord (a : Nat) (b : Word) (hb : r.owned K → K.byte (2 * a) ∧ K.byte (2 * a + 1)) (h : Path K r s) :
    Path K r (s.storeWord a b) :=
  h.mem _ _ fun hr i hi => by
    simp only [List.length_cons, List.length_nil] at hi
    match i, hi with
    | 0, _ => exact (hb hr).1
    | 1, _ => exact (hb hr).2

theorem Path.contentWriteRow [AllowsAccess K] [AllowsRegs K] (a : BitVec 14) (b : Word)
    (hb : r.owned K → K.byte (2 * a.toNat) ∧ K.byte (2 * a.toNat + 1))
    (hp : r.owned K → ∀ i < 256, K.byte (addr (Fin.ofNat 128 a.toNat) i)) (h : Path K r s) :
    Path K r (s.contentWriteRow a b) := by
  unfold State.contentWriteRow
  dsimp only
  split
  · exact h.entryWrite _ _ hp
  · split
    · exact h.storeWord _ _ hb
    · exact h.dropWrite _ _ _

theorem Path.clearAttn [AllowsRegs K] (a : Word) (h : Path K r s) : Path K r (s.clearAttn a) := by
  have h1 := h.regs { s.port with attn := s.port.attn &&& ~~~(a.setWidth 6) } id
  unfold State.clearAttn
  dsimp only
  split
  · exact h1.setProtect _
  · exact h1

theorem Path.attnEnWriteRow [AllowsRegs K] (a : Word) (h : Path K r s) : Path K r (s.attnEnWriteRow a) := h.regs _ id

theorem Path.latchRow [AllowsRegs K] (a : Word) (h : Path K r s) : Path K r (s.latchRow a) := by
  refine Path.poke boardPage copyOffset _ board_byte ?_ (h.regs _ id)
  simp only [List.length_take, Config.pageBytes, copyOffset]
  omega

/-! ### Power -/

theorem Path.goDark [AllowsPower K] (h : Path K r s) : Path K r (s.goDark) := by
  unfold State.goDark
  try dsimp only
  repeat' first
    | with_reducible assumption
    | with_reducible apply Path.posts
    | with_reducible apply Path.make
    | intro _
    | split
  all_goals refine Path.sys ?_ AllowsOrders.sys _
  repeat' first
    | with_reducible assumption
    | with_reducible apply Path.posts
    | with_reducible apply Path.make
    | intro _
    | split

theorem Path.mainsLossRow [AllowsPower K] (h : Path K r s) : Path K r (s.mainsLossRow) := by
  unfold State.mainsLossRow
  try dsimp only
  repeat' first
    | with_reducible assumption
    | with_reducible apply Path.alive
    | with_reducible apply Path.goDark
    | intro _
    | split
  all_goals refine Path.sys ?_ AllowsOrders.sys _
  repeat' first
    | with_reducible assumption
    | with_reducible apply Path.alive
    | with_reducible apply Path.goDark
    | intro _
    | split

theorem Path.staggerOver [AllowsOrders K] (h : Path K r s) : Path K r (s.staggerOver) := by
  unfold State.staggerOver
  try dsimp only
  repeat' first
    | with_reducible assumption
    | with_reducible apply Path.settle
    | with_reducible apply Path.contest
    | with_reducible apply Path.clearPauses
    | intro _
    | split
  all_goals refine Path.sysRest ?_ _ ⟨rfl, rfl, rfl⟩
  repeat' first
    | with_reducible assumption
    | with_reducible apply Path.settle
    | with_reducible apply Path.contest
    | with_reducible apply Path.clearPauses
    | intro _
    | split

theorem Path.staggerEndRow [AllowsOrders K] (h : Path K r s) : Path K r (s.staggerEndRow) := by
  unfold State.staggerEndRow
  try dsimp only
  repeat' first
    | with_reducible assumption
    | with_reducible apply Path.taking
    | with_reducible apply Path.staggerOver
    | intro _
    | split

theorem Path.beginStagger [AllowsOrders K] (h : Path K r s) : Path K r (s.beginStagger) := by
  unfold State.beginStagger
  try dsimp only
  repeat' first
    | with_reducible assumption
    | with_reducible apply Path.staggerOver
    | intro _
    | split
  all_goals refine Path.sysRest ?_ _ ⟨rfl, rfl, rfl⟩
  repeat' first
    | with_reducible assumption
    | with_reducible apply Path.staggerOver
    | intro _
    | split

theorem Path.announce [AllowsJournal K] (a : Nat) (b : Nat) (c : Nat) (h : Path K r s) : Path K r (s.announce a b c) := by
  unfold State.announce
  try dsimp only
  repeat' first
    | with_reducible assumption
    | with_reducible apply Path.raise
    | with_reducible apply Path.make
    | intro _
    | split

theorem Path.setMains [AllowsOrders K] (a : Bool) (h : Path K r s) : Path K r (s.setMains a) := h.sysRest _ ⟨rfl, rfl, rfl⟩

theorem Path.mainsRestoreRow [AllowsPower K] (h : Path K r s) : Path K r s.mainsRestoreRow := by
  refine h.alive _ fun t ht => ?_
  split
  · have h1 := (ht.setMains !t.mainsFallen).announce 2 0 0
    dsimp only
    split
    · exact h1.goDark
    · exact ((h1.sys AllowsOrders.sys _).post _).beginStagger
  · exact ht.setMains true

/-! ### Resets -/

theorem Path.clearBoardRecords (h : Path K r s) : Path K r s.clearBoardRecords :=
  h.poke boardPage 2 _ board_byte (by simp [Protect.bytes, Protect.initial])

theorem Path.loseQueue [AllowsJournal K] (h : Path K r s) : Path K r s.loseQueue :=
  Path.overAll _ _ (fun _ _ _ ht => ht.lose _) h

/-- A controller with its pumps off, its inlet owned by none and shown by its switches, and no hold, is guarded. -/
theorem ActState.inletGuards.fresh (x : ActState) (hp : ∀ n : Fin 4, (x.pumps[n.val]'n.isLt).contactor = false)
    (hs : x.inlet.mode = .opened → x.inlet.openLs = true ∧ x.inlet.closedLs = false) (hh : x.holds = [])
    (hw : ¬x.inlet.going) : x.inletGuards := by
  refine ⟨fun n hn => absurd (hp n) (by rw [hn]; exact Bool.noConfusion), hs, ?_, ?_, ?_, ?_, ?_, fun h => absurd h hw⟩
  all_goals rw [hh]
  · exact Nat.zero_le _
  · exact List.nodup_nil
  · exact List.nodup_nil
  · intro h hm; cases hm
  · intro h hm; cases hm

/-- A change of the actuator table that leaves every pump fresh, every heater's contactor off, no hold, and an inlet without an
owner. -/
theorem Path.actFresh [AllowsActs K] (x : ActState)
    (hp : ∀ n : Fin 4, (x.pumps[n.val]'n.isLt).contactor = false ∧ (x.pumps[n.val]'n.isLt).starts = [])
    (hq : ∀ k : Fin 4, (x.heaters[k.val]'k.isLt).contactor = false) (hh : x.holds = [])
    (hs : x.inlet.mode = .opened → x.inlet.openLs = true ∧ x.inlet.closedLs = false) (hw : ¬x.inlet.going)
    (h : Path K r s) : Path K r { s with act := x } :=
  h.step (.act s x AllowsActs.act (fun n => ⟨fun _ hc => absurd ((hp n).1.symm.trans hc) Bool.false_ne_true,
      fun hc => absurd ((hp n).1.symm.trans hc) Bool.false_ne_true, by rw [(hp n).2]; exact Nat.zero_le _⟩)
    (fun k => HeaterMove.off s (hq k)) (by rw [hh]; exact Nat.zero_le _)
    fun _ _ => ActState.inletGuards.fresh x (fun n => (hp n).1) hs hh hw)

/-- What the switches show at rest (R47, R49). -/
theorem judged_opened {a b : Bool} (h : judged a b = .opened) : a = true ∧ b = false := by
  revert h
  cases a <;> cases b <;> decide

theorem Path.guardInitial [AllowsGuard K] (t : Settings) (h : Path K r s) :
    Path K r { s with guard := GuardState.initial t } :=
  h.step (.guard s _ AllowsGuard.guard fun _ hx => by cases hx)

theorem Path.arbInitial [AllowsArbiter K] (t : Settings) (h : Path K r s) : Path K r { s with arb := ArbState.initial t } :=
  h.arb _ fun _ => ⟨Nat.zero_le _, List.nodup_nil⟩

/-- The engine at a start: no pages, nothing in flight; LOCAL only where every pump contactor is off. -/
theorem Path.engInitial [AllowsAll K] (b : Byte) (a : Access) (hn : a = .localControl → ∀ n : Fin 4, (s.pump n).contactor = false)
    (h : Path K r s) : Path K r { s with eng := { EngState.initial with lastTaken := b, access := a } } :=
  h.step (.eng s _ AllowsEngine.eng (fun _ hx => Or.inr (hn hx)) (Nat.zero_le _) (Nat.zero_le _) (fun _ f hf => by cases hf)
    (fun hr => ⟨hr.1, fun p hp => by
      rcases hp with hp | hp | ⟨_, hx, _⟩ | hp
      · exact h.ownByte (Or.inl hp) hr
      · exact h.ownByte (Or.inr (Or.inl hp)) hr
      · cases hx
      · cases hp⟩) fun hk => absurd AllowsAccess.access hk)

theorem Path.resetAssert [AllowsAll K] (h : Path K r s) : Path K r s.resetAssert := by
  have h1 := (h.loseQueue).regs { PortState.initial with board := s.port.board } fun _ hm => by cases hm
  have h2 := h1.survey AllowsSurvey.survey { SurveyState.initial with hours := s.survey.hours }
  have h3 := h2.guardInitial s.set
  have h4 := h3.actFresh s.act.afterReset (fun n => by simp [ActState.afterReset, Pump.afterReset, Pump.initial])
    (fun k => by simp [ActState.afterReset, Heater.initial]) rfl judged_opened (by rintro (hw | hw) <;> cases hw)
  have h5 := h4.cal AllowsCalendar.cal { CalState.initial with count := s.cal.count, set := s.cal.set, band := none }
  have h6 := ((h5.arbInitial s.set).plans AllowsPlans.plans PlanCtl.initial).frost AllowsFrost.frost (FrostCtl.initial s.set)
  have h7 := h6.engInitial s.eng.lastTaken (if s.sys.localIn then .localControl else .normal) fun _ n => by
    simp [State.pump, ActState.afterReset, Pump.afterReset, Pump.initial]
  have h8 := h7.jrn { JrnState.initial with
    seq := s.jrn.seq, fill := s.jrn.fill, gaps := s.loseQueue.jrn.gaps, resetMark := true } (fun _ => Nat.zero_le _) (fun _ hm => by cases hm)
    (fun _ p hp => by
      rcases hp with ⟨_, hp, _⟩ | hp <;> cases hp)
  have h9 := (h8.sys AllowsOrders.sys { s.sys with
    power := .start, standby := false, stagger := none, started := false, held := true }).transit []
  exact h9.clearBoardRecords

theorem Path.resetInputRow [AllowsAll K] (h : Path K r s) : Path K r s.resetInputRow := h.alive _ fun _ ht => ht.resetAssert

theorem Path.coldState [AllowsAll K] (h : Path K r s) : Path K r s.coldState := by
  have h1 := h.regs { PortState.initial with board := s.port.board } fun _ hm => by cases hm
  have h2 := (h1.survey AllowsSurvey.survey SurveyState.initial).guardInitial factory
  have h3 := h2.actFresh ActState.initial (fun n => by simp [ActState.initial, Pump.initial])
    (fun k => by simp [ActState.initial, Heater.initial]) rfl (fun hm => by cases hm) (by rintro (hw | hw) <;> cases hw)
  have h4 := (h3.cal AllowsCalendar.cal CalState.initial).arbInitial factory
  have h5 := ((h4.plans AllowsPlans.plans PlanCtl.initial).frost AllowsFrost.frost (FrostCtl.initial factory)).engInitial 0 .normal fun hx => by cases hx
  have h6 := h5.jrn JrnState.initial (fun _ => Nat.zero_le _) (fun _ hm => by cases hm) (fun _ p hp => by
      rcases hp with ⟨_, hp, _⟩ | hp <;> cases hp)
  have h7 := (h6.sys AllowsOrders.sys SysState.initial).transit []
  exact h7.clearBoardRecords

/-! ### Start-up, where every byte is in scope -/

theorem Path.initializeMemory [AllowsAll K] (h : Path K r s) : Path K r s.initializeMemory := by
  have h1 := Path.overAll allPages (fun p s => s.setEntry p ⟨if p.val < 4 then .fixed else .free, 0⟩)
    (fun p _ _ ht => ht.setEntry _ _ fun hx => by
      dsimp only at hx
      split at hx <;> cases hx) h
  unfold State.initializeMemory
  generalize Machine.overAll allPages (fun p s => s.setEntry p ⟨if p.val < 4 then .fixed else .free, 0⟩) s = u at h1 ⊢
  exact Path.poke boardPage 0 _ board_byte (by simp) (h1.regs { u.port with
    board := none, protect := Protect.initial, detail := Vector.replicate 6 ⟨0, 0, 0⟩ } id)

theorem Path.loadEntry [AllowsAll K] (a : Page) (hm : s.port.mapReady = false) (h : Path K r s) : Path K r (s.loadEntry a) := by
  unfold State.loadEntry
  dsimp only
  split
  · exact h.setEntry _ _ fun _ hr => absurd (hm.symm.trans hr) Bool.false_ne_true
  · exact h.regs _ fun _ hr => absurd (hm.symm.trans hr) Bool.false_ne_true

/-- Loading an entry leaves the map as ready as it was. -/
theorem State.loadEntry_mapReady (a : Page) (s : State) : (s.loadEntry a).port.mapReady = s.port.mapReady := by
  unfold State.loadEntry
  dsimp only
  split <;> rfl

theorem Path.loadEntries [AllowsAll K] (l : List Page) :
    ∀ {s : State}, s.port.mapReady = false → Path K r s → Path K r (Machine.overAll l State.loadEntry s) := by
  induction l with
  | nil => exact fun _ h => h
  | cons a l ih => exact fun {s} hm h => ih ((s.loadEntry_mapReady a).trans hm) (h.loadEntry a hm)

theorem Path.loadSettings [AllowsAll K] (a : Nat) (h : Path K r s) : Path K r (s.loadSettings a) := by
  unfold State.loadSettings
  dsimp only
  exact (((h.sys AllowsOrders.sys _).guardInitial _).arbInitial _).frost AllowsFrost.frost _

theorem Path.takeInputs [AllowsAll K] (x : StartInputs) (h : Path K r s) : Path K r (s.takeInputs x) := by
  have h1 := h.step (.act s { s.act with
      pumps := s.act.pumps.zipWith (fun p f => { p with contactor := false, feedback := f }) x.feedback
      heaters := s.act.heaters.zipWith (fun p c => p.found c s.now) x.current
      inlet := { s.act.inlet with openLs := x.openLs, closedLs := x.closedLs, mode := judged x.openLs x.closedLs } }
    AllowsActs.act (fun n => by
      simp only [Vector.getElem_zipWith]
      exact (PumpMove.off s (p := s.pump n) (q := { s.pump n with contactor := false, feedback := x.feedback[n.val] }) rfl rfl).step)
    (fun k => by
      simp only [Vector.getElem_zipWith]
      exact HeaterMove.quiet s rfl rfl) (Nat.le_max_left _ _) fun _ hg => by
      refine ⟨fun n hn => ?_, judged_opened, hg.room, hg.numbers, hg.acts, hg.pending, hg.held, hg.going⟩
      simp at hn)
  have h2 := h1.step (.eng _ { s.eng with
      access := s.eng.access.found x.localIn, serviceEnd := if x.localIn then none else s.eng.serviceEnd } AllowsEngine.eng
    (fun _ _ => Or.inr fun n => by simp [State.pump]) (Nat.le_max_left _ _) (Nat.le_max_left _ _) id
    (fun hr => ⟨hr.1, fun p hp => h.ownByte hp hr⟩) fun hn => absurd AllowsAccess.access hn)
  exact (h2.sys AllowsOrders.sys { s.sys with
    power := .start, held := false, mains := x.mains, localIn := x.localIn }).regs _ fun _ hm => by cases hm

theorem Path.firstJudgement [AllowsAll K] (h : Path K r s) : Path K r s.firstJudgement := by
  unfold State.firstJudgement
  split
  · exact h
  · exact ((h.guardJudges _).planJudges _).frostJudges _

theorem Path.firstCheapStart [AllowsAll K] (h : Path K r s) : Path K r s.firstCheapStart := by
  unfold State.firstCheapStart
  split
  · exact (h.unpost _).cheapStarts _ _
  · exact h

theorem Path.startStep2 [AllowsAll K] (x : StartInputs) (h : Path K r s) : Path K r (s.startStep2 x) :=
  ((((h.loadSettings _).doSurvey _).firstEvaluation).firstJudgement).firstCheapStart

theorem Path.repairTaken [AllowsAll K] (a : Page) (hb : ∀ b, K.byte b) (h : Path K r s) : Path K r (s.repairTaken a) := by
  unfold State.repairTaken
  dsimp only
  split
  · refine Path.answerAs _ _ (fun _ _ _ => hb _) (Path.overAll _ _ (fun k _ t ht => ?_) h)
    unfold State.repairOrder
    split
    · exact ht.writeStatus _ _ _ fun _ _ _ => hb _
    · exact ht
  · exact h.badHeader a fun _ _ _ => hb _

theorem Path.repairOpen [AllowsAll K] (a : Page) (hb : ∀ b, K.byte b) (h : Path K r s) : Path K r (s.repairOpen a) :=
  ((h.poke a 6 _ (fun _ _ _ => hb _) (by simp)).setPageState a _ (by decide)).raise _ _

theorem Path.repairPage [AllowsAll K] (a : Page) (hb : ∀ b, K.byte b) (h : Path K r s) : Path K r (s.repairPage a) := by
  unfold State.repairPage
  split
  · exact h.repairTaken a hb
  · exact h.repairOpen a hb
  · exact h.engMove { s.eng with submitted := placePage s.distance a s.eng.submitted } id (Nat.le_max_left _ _)
      (Nat.le_max_left _ _) id fun _ _ _ _ _ => hb _
  · exact h.jrn { s.jrn with given := s.jrn.given ++ [a] } h.queueLe id fun _ _ _ _ _ => hb _
  · exact h

/-- A page that is JOURNAL_OPEN after a change was so before it. -/
def State.opensNone (s t : State) : Prop := ∀ q, (t.entry q).state = .journalOpen → (s.entry q).state = .journalOpen

theorem State.opensNone.trans {s t u : State} (h : s.opensNone t) (k : t.opensNone u) : s.opensNone u := fun q hq => h q (k q hq)

theorem State.setPageState_opensNone (p : Page) (st : PageState) (hst : st ≠ .journalOpen) (s : State) :
    s.opensNone (s.setPageState p st) ∧ ((s.setPageState p st).entry p).state ≠ .journalOpen := by
  unfold State.setPageState
  refine ⟨fun q hq => ?_, ?_⟩
  · rw [State.entry_setEntry] at hq
    split at hq
    · exact absurd hq hst
    · exact hq
  · rw [State.entry_setEntry, if_pos rfl]
    exact hst

theorem State.entry_of_shadow {s t : State} (h : t.port.shadow = s.port.shadow) (p : Page) : t.entry p = s.entry p := by
  unfold State.entry
  rw [h]

/-- An answered page is not JOURNAL_OPEN, and no other page becomes so. -/
theorem State.answerAs_opensNone (p : Page) (n : Nat) {s u : State} (hu : u.port.shadow = s.port.shadow) :
    s.opensNone (u.answerAs p n) ∧ ((u.answerAs p n).entry p).state ≠ .journalOpen := by
  have h1 := (u.poke p 3 (b1 n ++ bt u.now)).setPageState_opensNone p .answered (by decide)
  refine ⟨fun q hq => ?_, h1.2⟩
  rw [← State.entry_of_shadow hu]
  exact h1.1 q hq

/-- The repair of a page opens no page, and leaves that page not JOURNAL_OPEN (R162). -/
theorem State.repairPage_opensNone (p : Page) (s : State) :
    s.opensNone (s.repairPage p) ∧ ((s.repairPage p).entry p).state ≠ .journalOpen := by
  unfold State.repairPage
  split
  · unfold State.repairTaken State.badHeader
    dsimp only
    split
    · exact State.answerAs_opensNone p _ (overAll_keeps (fun s : State => s.port.shadow) (State.repairOrder p)
        (fun k s => by unfold State.repairOrder; split <;> rfl) _ s)
    · exact State.answerAs_opensNone p _ (overAll_keeps (fun s : State => s.port.shadow)
        (fun k s => s.writeStatus ⟨p, k⟩ .notRun .none) (fun _ _ => rfl) _ s)
  · exact State.setPageState_opensNone p .journalFull (by decide) s
  · rename_i he; exact ⟨fun _ hq => hq, fun hx => by rw [show (s.entry p).state = _ from hx] at he; cases he⟩
  · rename_i he; exact ⟨fun _ hq => hq, fun hx => by rw [show (s.entry p).state = _ from hx] at he; cases he⟩
  · rename_i hn _ _; exact ⟨fun _ hq => hq, fun hx => hn hx⟩

theorem State.repairPages_opensNone (l : List Page) : ∀ s : State, s.opensNone (overAll l State.repairPage s) ∧
    ∀ q ∈ l, ((overAll l State.repairPage s).entry q).state ≠ .journalOpen := by
  induction l with
  | nil => exact fun s => ⟨fun _ h => h, fun _ hq => by cases hq⟩
  | cons p l ih =>
    intro s
    have h1 := s.repairPage_opensNone p
    have h2 := ih (s.repairPage p)
    refine ⟨h1.1.trans h2.1, fun q hq => ?_⟩
    rcases List.mem_cons.mp hq with rfl | hq
    · exact fun hx => h1.2 (h2.1 _ hx)
    · exact h2.2 q hq

theorem Path.startStep3 [AllowsAll K] (hb : ∀ b, K.byte b) (h : Path K r s) : Path K r s.startStep3 := by
  have h1 : Path K r (Machine.overAll allPages State.repairPage s) := Path.overAll _ _ (fun p _ t ht => ht.repairPage p hb) h
  have hn := (State.repairPages_opensNone allPages s).2
  unfold State.startStep3
  generalize Machine.overAll allPages State.repairPage s = u at h1 hn
  have h2 : Path K r { u with port := { u.port with mapReady := true } } :=
    h1.regs _ fun _ _ p hp => absurd hp (hn p (List.mem_finRange p))
  exact Path.writer (Path.jrn (s := { u with port := { u.port with mapReady := true } }) { u.jrn with starting := false }
    h2.queueLe id (fun _ _ _ _ _ => hb _) h2)

theorem Path.startPower [AllowsAll K] (a : Bool) (h : Path K r s) : Path K r (s.startPower a) := by
  unfold State.startPower
  dsimp only
  split
  · refine Path.settle ?_
    have h1 := h.sys AllowsOrders.sys { s.sys with power := .run }
    have h2 : Path K r (if s.eng.access = .localControl then { s with sys := { s.sys with power := .run } }
        else Machine.overAll four State.runOn { s with sys := { s.sys with power := .run } }) := by
      split
      · exact h1
      · exact Path.overAll _ _ (fun n _ t ht => ht.runOn n) h1
    split
    · exact h2.driveHeld.beginStagger
    · exact h2.driveHeld.contest
  · exact h.goDark

theorem Path.repairSome [AllowsAll K] (a : Bool) (l : List Page) (hb : ∀ b, K.byte b) (h : Path K r s) :
    Path K r (if a then Machine.overAll l State.repairPage s else s) := by
  split
  · exact Path.overAll _ _ (fun p _ t ht => ht.repairPage p hb) h
  · exact h

theorem Path.startEnd [AllowsAll K] (a : Bool) (h : Path K r s) : Path K r (s.startEnd a) :=
  ((h.startPower a).sys AllowsOrders.sys _).wantTake

theorem Path.startUp [AllowsAll K] (a : Nat) (x : StartInputs) (hb : ∀ b, K.byte b) (h : Path K r s) :
    Path K r (s.startUp a x) := by
  have h1 : Path K r (if (s.takeInputs x).formatted then Machine.overAll allPages State.loadEntry (s.takeInputs x)
      else (s.takeInputs x).initializeMemory) := by
    split
    · exact Path.loadEntries _ rfl (h.takeInputs x)
    · exact (h.takeInputs x).initializeMemory
  have h2 := h1.startStep2 x
  have h3 := h2.startStep3 hb
  unfold State.startUp
  dsimp only
  split
  · exact (h3.announce _ _ _).startEnd _
  · exact h1.resetAssert
  · exact h2.resetAssert
  · exact (h2.repairSome _ _ hb).resetAssert
  · exact (h3.announce _ _ _).resetAssert

theorem Path.coldStartRow [AllowsAll K] (x : StartInputs) (hb : ∀ b, K.byte b) (h : Path K r s) :
    Path K r (s.coldStartRow x) := h.coldState.startUp 0 x hb

theorem Path.pinResetRow [AllowsAll K] (x : StartInputs) (hb : ∀ b, K.byte b) (h : Path K r s) :
    Path K r (s.pinResetRow x) := by
  refine Path.startUp 1 x hb ?_
  split
  · exact h
  · exact h.resetAssert

/-! ### Every command -/

/-- The commands that change the power state or the marks of start-up, beside the starts. -/
def movesPower : Instr → Bool
  | .mainsLoss => true
  | .mainsRestore => true
  | .resetInputAsserted => true
  | _ => false

/-- The commands that change the port's registers, beside the host's writes of memory and the starts. -/
def movesRegs : Instr → Bool
  | .attnWrite _ => true
  | .attnEnWrite _ => true
  | .latch _ => true
  | .resetInputAsserted => true
  | _ => false

/-- The next state of a command other than those that reach out is reached by a path; the power state and the port's registers are
in its scope only for the commands that move them. -/
theorem exec_path_within [AllowsAccess K] (c : Instr) (s t : State) (hc : reachesOut c = false)
    (hp : movesPower c = true → AllowsPower K) (hr : movesRegs c = true → AllowsRegs K) (h : exec c s = .next t) : Path K s t := by
  have go : ∀ u, exec c s = .next u → Path K s u → Path K s t := fun u hu hp => by
    rw [hu] at h
    cases h
    exact hp
  cases c
  case survey => exact go _ rfl (Path.refl.surveyRow _)
  case clockSetReport => exact go _ rfl (Path.refl.clockSetReportRow _ _)
  case guardJudgement => exact go _ rfl (Path.refl.guardJudgementRow _)
  case frostStateChange => exact go _ rfl (Path.refl.frostStateChangeRow _)
  case guardTravelEnd => exact go _ rfl (Path.refl.guardTravelEndRow)
  case claim => exact go _ rfl (Path.refl.claimRow _ _ _ _)
  case withdrawal => exact go _ rfl (Path.refl.withdrawalRow _)
  case grantRelease => exact go _ rfl (Path.refl.grantReleaseRow _)
  case relevel => exact go _ rfl (Path.refl.relevelRow _ _ _)
  case maskChange => exact go _ rfl (Path.refl.maskChangeRow _)
  case budgetChange => exact go _ rfl (Path.refl.budgetChangeRow _)
  case arbiterMainsLoss => exact go _ rfl (Path.refl.arbiterMainsLossRow)
  case tryBegin => exact go _ rfl (Path.refl.tryBegin _)
  case tryDeadline => exact go _ rfl (Path.refl.tryDeadline _)
  case retryDeadline => exact go _ rfl (Path.refl.retryDeadline _)
  case runFeedbackChange => exact go _ rfl (Path.refl.runFeedbackChange _ _)
  case minRunElapsed => exact go _ rfl (Path.refl.minRunElapsed _)
  case stopConfirmExpiry => exact go _ rfl (Path.refl.stopConfirmExpiry _)
  case minOffExpiry => exact go _ rfl (Path.refl.minOffExpiry _)
  case startListAgeing => exact go _ rfl (Path.refl.startListAgeing _)
  next => exact go _ rfl (Path.refl.recall _)
  case stageRequest => exact go _ rfl (Path.refl.stageRequest _ _ _)
  case planGrant => exact go _ rfl (Path.refl.planGrant _)
  case inletCommand => exact go _ rfl (Path.refl.inletCommand _ _)
  case limitSwitchChange => exact go _ rfl (Path.refl.limitSwitchChange _ _)
  case travelDeadline => exact go _ rfl (Path.refl.travelDeadline)
  case heaterStartRequest => exact go _ rfl (Path.refl.heaterStartRequest _ _ _)
  case heaterStopRequest => exact go _ rfl (Path.refl.heaterStopRequest _)
  case heaterCurrentChange => exact go _ rfl (Path.refl.heaterCurrentChange _ _)
  case heaterTryDeadline => exact go _ rfl (Path.refl.heaterTryDeadline _)
  case heaterRetryEnd => exact go _ rfl (Path.refl.heaterRetryEnd _)
  case heaterStuckExpiry => exact go _ rfl (Path.refl.heaterStuckExpiry _)
  case holdDeadline => exact go _ rfl (Path.refl.holdDeadline _)
  case actuatorMainsLoss => exact go _ rfl (Path.refl.actuatorMainsLoss)
  case actuatorMainsRestore => exact go _ rfl (Path.refl.actuatorMainsRestore)
  case tariffEvaluation => exact go _ rfl (Path.refl.tariffEvaluationRow)
  case clockRollover => exact go _ rfl (Path.refl.clockRolloverRow)
  case cheapStart => exact go _ rfl (Path.refl.cheapStartRow _ _)
  case cheapEnd => exact go _ rfl (Path.refl.cheapEndRow _)
  case planJudgement => exact go _ rfl (Path.refl.planJudgementRow _)
  case startAtPasses => exact go _ rfl (Path.refl.startAtPassesRow _)
  case inletSeized => exact go _ rfl (Path.refl.inletSeizedRow)
  case inletFree => exact go _ rfl (Path.refl.inletFreeRow)
  case actuatorReport => exact go _ rfl (Path.refl.actuatorReportRow _ _)
  case pumpAvailable => exact go _ rfl (Path.refl.pumpAvailableRow _)
  case turnoverRequest => exact go _ rfl (Path.refl.turnoverRequestRow)
  case planMainsLoss => exact go _ rfl (Path.refl.planMainsLossRow)
  case frostJudgement => exact go _ rfl (Path.refl.frostJudgementRow _)
  case heaterNotice => exact go _ rfl (Path.refl.heaterNoticeRow _ _)
  case turnoverCreated => exact go _ rfl (Path.refl.turnoverCreatedRow)
  case mapEntryWrite => cases hc
  case contentWrite => cases hc
  case attnWrite => haveI := hr rfl; exact go _ rfl (Path.refl.clearAttn _)
  case attnEnWrite => haveI := hr rfl; exact go _ rfl (Path.refl.attnEnWriteRow _)
  case latch => haveI := hr rfl; exact go _ rfl (Path.refl.latchRow _)
  case key => exact go _ rfl (Path.refl.keyRow _)
  case ignoredWrite => exact go _ rfl (Path.refl)
  case pageTake => exact go _ rfl (Path.refl.pageTakeRow)
  case setClock => exact go _ rfl (Path.refl.orderRow _ _ fun _ ht => ht.setClockOrder _ _)
  case adoptSettings => exact go _ rfl (Path.refl.orderRow _ _ fun _ ht => ht.adoptSettingsOrder _)
  case setTarget => exact go _ rfl (Path.refl.orderRow _ _ fun _ ht => ht.setTargetOrder _ _)
  case fillNow => exact go _ rfl (Path.refl.orderRow _ _ fun _ ht => ht.fillNowOrder _ _ _ _)
  case turnoverNow => exact go _ rfl (Path.refl.orderRow _ _ fun _ ht => ht.turnoverNowOrder _)
  case cancelPlan => exact go _ rfl (Path.refl.orderRow _ _ fun _ ht => ht.cancelPlanOrder _ _)
  case readPlan => exact go _ rfl (Path.refl.orderRow _ _ fun _ ht => ht.readPlanOrder _ _)
  case readActuator => exact go _ rfl (Path.refl.orderRow _ _ fun _ ht => ht.readActuatorOrder _ _)
  case startPump => exact go _ rfl (Path.refl.orderRow _ _ fun _ ht => ht.startPumpOrder _ _ _)
  case stopPump => exact go _ rfl (Path.refl.orderRow _ _ fun _ ht => ht.stopPumpOrder _ _ _)
  case openInlet => exact go _ rfl (Path.refl.orderRow _ _ fun _ ht => ht.openInletOrder _ _)
  case closeInlet => exact go _ rfl (Path.refl.orderRow _ _ fun _ ht => ht.closeInletOrder _ _)
  case releaseManual => exact go _ rfl (Path.refl.orderRow _ _ fun _ ht => ht.releaseManualOrder _)
  case holdActuator => exact go _ rfl (Path.refl.orderRow _ _ fun _ ht => ht.holdActuatorOrder _ _)
  case releaseHold => exact go _ rfl (Path.refl.orderRow _ _ fun _ ht => ht.releaseHoldOrder _ _)
  case clearFailure => exact go _ rfl (Path.refl.orderRow _ _ fun _ ht => ht.clearFailureOrder _ _)
  case resetGuard => exact go _ rfl (Path.refl.orderRow _ _ fun _ ht => ht.resetGuardOrder _)
  case guardTest => exact go _ rfl (Path.refl.orderRow _ _ fun _ ht => ht.guardTestOrder _)
  case journalMark => exact go _ rfl (Path.refl.orderRow _ _ fun _ ht => ht.journalMarkOrder _ _)
  case flushJournal => exact go _ rfl (Path.refl.orderRow _ _ fun _ ht => ht.flushJournalOrder _)
  case orderComplete => exact go _ rfl (Path.refl.orderCompleteRow _ _ _ _)
  case orderTimeLimit => exact go _ rfl (Path.refl.orderTimeLimitRow _)
  case pageAnswer => exact go _ rfl (Path.refl.pageAnswerRow _)
  case serviceExpiry => exact go _ rfl (Path.refl.serviceExpiryRow)
  case localEntry => exact go _ rfl (Path.refl.localEntryRow)
  case localExit => exact go _ rfl (Path.refl.localExitRow)
  case orderMainsLoss => exact go _ rfl (Path.refl.orderMainsLossRow)
  case recordArrival => exact go _ rfl (Path.refl.recordArrival _)
  case pageOpen => exact go _ rfl (Path.refl.pageOpen)
  case journalAgeExpiry => exact go _ rfl (Path.refl.taking _ _ fun _ ht => ht.ageCheck)
  case mainsLoss => haveI := hp rfl; exact go _ rfl (Path.refl.mainsLossRow)
  case mainsRestore => haveI := hp rfl; exact go _ rfl (Path.refl.mainsRestoreRow)
  case staggerEnd => exact go _ rfl (Path.refl.staggerEndRow)
  case coldStart => cases hc
  case pinReset => cases hc
  case resetInputAsserted => haveI : AllowsAll K := { hp rfl, hr rfl with }; exact go _ rfl (Path.refl.resetInputRow)

/-- The next state of a command other than those that reach out is reached by a path of every part. -/
theorem exec_path [AllowsAll K] (c : Instr) (s t : State) (hc : reachesOut c = false) (h : exec c s = .next t) : Path K s t :=
  exec_path_within c s t hc (fun _ => inferInstance) (fun _ => inferInstance) h

/-- The next state of any command is reached by a path of the whole scope. -/
theorem exec_path_all [AllowsAll K] (hb : ∀ a, K.byte a) (c : Instr) (s t : State) (h : exec c s = .next t) : Path K s t := by
  have go : ∀ u, exec c s = .next u → Path K s u → Path K s t := fun u hu hp => by
    rw [hu] at h
    cases h
    exact hp
  by_cases hc : reachesOut c = false
  · exact exec_path c s t hc h
  · cases c <;> first | exact absurd rfl hc | skip
    · exact go _ rfl (Path.refl.entryWrite _ _ fun _ _ _ => hb _)
    · exact go _ rfl (Path.refl.contentWriteRow _ _ (fun _ => ⟨hb _, hb _⟩) fun _ _ _ => hb _)
    · exact go _ rfl (Path.refl.coldStartRow _ hb)
    · exact go _ rfl (Path.refl.pinResetRow _ hb)

/-! ### The second and the step -/

theorem Path.clockSecond [AllowsAll K] (h : Path K r s) : Path K r s.clockSecond := by
  unfold State.clockSecond
  split
  · exact h.clockRolloverRow
  · exact h.cal AllowsCalendar.cal _

theorem accrue_keeps (p : Pump) :
    p.accrue.contactor = p.contactor ∧ p.accrue.mode = p.mode ∧ p.accrue.starts = p.starts ∧ p.accrue.owner = p.owner ∧
      p.accrue.claim = p.claim := by
  unfold Pump.accrue
  repeat' split
  all_goals exact ⟨rfl, rfl, rfl, rfl, rfl⟩

theorem Path.second [AllowsAll K] (h : Path K r s) : Path K r s.second := by
  unfold State.second
  split
  · exact h.cal AllowsCalendar.cal _
  · have h1 := h.pumps (s.act.pumps.map Pump.accrue) fun n => by
      simp only [Vector.getElem_map]
      have := accrue_keeps (s.act.pumps[n.val]'n.isLt)
      exact PumpMove.quiet s this.1 this.2.1 this.2.2.1 this.2.2.2.1 this.2.2.2.2
    exact h1.clockSecond.posts _

/-- The step on an empty queue is a path of the whole scope. -/
theorem idle_path [AllowsAll K] (hb : ∀ a, K.byte a) (s t : State) (h : s.idle = .next t) : Path K s t := by
  unfold State.idle at h
  split at h
  · cases h; exact Path.refl.second
  · split at h
    · cases h; exact Path.refl.second
    · exact exec_path_all hb _ s t h

/-- What a step can do: the queue apart, it is a path of the whole scope. -/
theorem step_path [AllowsAll K] (hb : ∀ a, K.byte a) (s t : State) (h : step s = .next t) :
    Path K { s with pending := s.pending.tail } t := by
  unfold step at h
  split at h
  · rename_i c rest he
    have : ({ s with pending := s.pending.tail } : State) = { s with pending := rest } := by rw [he]; rfl
    rw [this]
    exact exec_path_all hb c _ t h
  · rename_i he
    have : ({ s with pending := s.pending.tail } : State) = s := by rw [he]; cases s; simp_all
    rw [this]
    exact idle_path hb s t h

end Sys2Proof.Machine
end

