-- ==== Sys2Proof/Laws/Settle.lean ====
section
/-! SUPPORT. What settling leaves alone: every block but the controller and the plan table, a pump or heater with nothing
to begin, an inlet with nothing to wait for, and who is held. -/

namespace Sys2Proof.Machine

variable (s : State)

/-- The arrival of a message in a part that is not held in reset. -/
theorem State.taking_run (c : Instr) (f : State → State) (h : s.sys.held = false) :
    s.taking c f = f { s with transit := s.transit.erase c } := by
  unfold State.taking State.alive
  rw [if_neg (by rw [h]; exact Bool.false_ne_true)]

/-- An event in a part that is not held in reset. -/
theorem State.alive_run (f : State → State) (h : s.sys.held = false) : s.alive f = f s := by
  unfold State.alive
  rw [if_neg (by rw [h]; exact Bool.false_ne_true)]

/-- The parts an operation of the actuator controller may change. -/
def Part.ofActs (p : Part) : Bool := p.ofPlans || decide (p = .act)

theorem allowsActs_parts : AllowsActs (Scope.parts Part.ofActs) :=
  { port := rfl, records := rfl, jrn := rfl, plans := rfl, act := rfl }

theorem State.settle_path : Path (Scope.parts Part.ofActs) s s.settle :=
  haveI := allowsActs_parts
  Path.refl.settle

@[simp] theorem State.settle_survey : s.settle.survey = s.survey := s.settle_path.survey_eq Bool.false_ne_true
@[simp] theorem State.settle_guard : s.settle.guard = s.guard := s.settle_path.guard_eq Bool.false_ne_true
@[simp] theorem State.settle_cal : s.settle.cal = s.cal := s.settle_path.cal_eq Bool.false_ne_true
@[simp] theorem State.settle_arb : s.settle.arb = s.arb := s.settle_path.arb_eq Bool.false_ne_true
@[simp] theorem State.settle_frost : s.settle.frost = s.frost := s.settle_path.frost_eq Bool.false_ne_true
@[simp] theorem State.settle_sys : s.settle.sys = s.sys := s.settle_path.sys_eq Bool.false_ne_true
@[simp] theorem State.settle_pending : s.settle.pending = s.pending := s.settle_path.pending_eq
@[simp] theorem State.settle_set : s.settle.set = s.set := by simp [State.set]
@[simp] theorem State.settle_now : s.settle.now = s.now := by simp [State.now]
@[simp] theorem State.settle_access : s.settle.eng.access = s.eng.access :=
  (s.settle_path.eng_same Bool.false_ne_true).access
@[simp] theorem State.settle_inflight : s.settle.eng.inflight = s.eng.inflight :=
  (s.settle_path.eng_same Bool.false_ne_true).inflight

/-! ### The inlet -/

/-- An inlet with nothing to wait for. -/
theorem State.inletProgress_calm (h1 : s.act.inlet.closeWait = false) (h2 : s.act.inlet.openWait = false)
    (h3 : s.act.inlet.leaving = false) (h4 : s.act.inlet.releasing = false) : s.inletProgress = s := by
  unfold State.inletProgress
  simp [h1, h2, h3, h4]

/-! ### Holds -/

theorem State.setHoldOf_holds (a : ActId) (n : Option Nat) : (s.setHoldOf a n).act.holds = s.act.holds := by cases a <;> rfl

theorem State.takeHold_pump (a : ActId) (n : Fin 4) (h : a ≠ .pump n) : (s.takeHold a).pump n = s.pump n := by
  cases a with
  | pump k =>
    have : k ≠ n := fun e => h (by rw [e])
    simp [State.takeHold, this]
  | inlet => rfl
  | heater k => rfl

theorem State.takeHold_heater (a : ActId) (n : Fin 4) (h : a ≠ .heater n) : (s.takeHold a).heater n = s.heater n := by
  cases a with
  | pump k => rfl
  | inlet => rfl
  | heater k =>
    have : k ≠ n := fun e => h (by rw [e])
    simp [State.takeHold, this]

theorem State.takeHold_inlet (a : ActId) (h : a ≠ .inlet) : (s.takeHold a).act.inlet = s.act.inlet := by
  cases a with
  | pump k => rfl
  | inlet => exact absurd rfl h
  | heater k => rfl

theorem State.completeHold_act (h : Hold) : (s.completeHold h).act = s.act := rfl

theorem State.establish_pump (h : Hold) (n : Fin 4) (hn : h.act ≠ .pump n) : (s.establish h).pump n = s.pump n := by
  unfold State.establish
  dsimp only
  show State.pump (State.make _ _ _ _ _) n = _
  rw [State.make_pump, State.takeHold_pump _ _ _ hn]
  rfl

theorem State.establish_heater (h : Hold) (n : Fin 4) (hn : h.act ≠ .heater n) : (s.establish h).heater n = s.heater n := by
  unfold State.establish
  dsimp only
  show State.heater (State.make _ _ _ _ _) n = _
  rw [State.make_heater, State.takeHold_heater _ _ _ hn]
  rfl

theorem State.establish_inlet (h : Hold) (hn : h.act ≠ .inlet) : (s.establish h).act.inlet = s.act.inlet := by
  unfold State.establish
  dsimp only
  rw [State.completeHold_act, State.make_act, State.takeHold_inlet _ _ hn]

/-- What a fold over the holds keeps, when no PENDING hold of it names the entry. -/
theorem overHolds {α : Type} (v : State → α) (l : List Hold) (P : Hold → Prop)
    (hv : ∀ h s, P h → v (State.establish h s) = v s) : ∀ s : State, (∀ h ∈ l, h.established.isSome = true ∨ P h) →
    v (overAll l (fun h s => if h.established.isNone && s.safe h.act then s.establish h else s) s) = v s := by
  induction l with
  | nil => exact fun _ _ => rfl
  | cons h l ih =>
    intro s hl
    have h0 : v (if h.established.isNone && s.safe h.act then s.establish h else s) = v s := by
      split
      · rename_i hc
        rcases hl h List.mem_cons_self with hs | hp
        · simp at hc
          simp [hc.1] at hs
        · exact hv h s hp
      · rfl
    exact (ih _ (fun x hx => hl x (List.mem_cons_of_mem h hx))).trans h0

theorem State.establishHolds_pump (n : Fin 4) (hh : ∀ h ∈ s.act.holds, h.established.isSome = true ∨ h.act ≠ .pump n) :
    s.establishHolds.pump n = s.pump n :=
  overHolds (fun s => s.pump n) _ (fun h => h.act ≠ .pump n) (fun h s hp => s.establish_pump h n hp) s hh
theorem State.establishHolds_heater (n : Fin 4) (hh : ∀ h ∈ s.act.holds, h.established.isSome = true ∨ h.act ≠ .heater n) :
    s.establishHolds.heater n = s.heater n :=
  overHolds (fun s => s.heater n) _ (fun h => h.act ≠ .heater n) (fun h s hp => s.establish_heater h n hp) s hh
theorem State.establishHolds_inlet (hh : ∀ h ∈ s.act.holds, h.established.isSome = true ∨ h.act ≠ .inlet) :
    s.establishHolds.act.inlet = s.act.inlet :=
  overHolds (fun s => s.act.inlet) _ (fun h => h.act ≠ .inlet) (fun h s hp => s.establish_inlet h hp) s hh
theorem State.establishHolds_names : s.establishHolds.holdNames = s.holdNames :=
  overHolds State.holdNames _ (fun _ => True) (fun h s _ => s.establish_names h) s fun _ _ => Or.inr trivial

/-- A seized inlet stays as it is when a hold is established on it. -/
theorem State.establish_seized (h : Hold) (hg : s.act.inlet.owner = .guard) : (s.establish h).act.inlet = s.act.inlet := by
  unfold State.establish
  dsimp only
  rw [State.completeHold_act, State.make_act]
  cases h.act with
  | pump k => rfl
  | heater k => rfl
  | inlet =>
    simp only [State.takeHold, State.modInlet]
    rw [if_pos hg, ← hg]

theorem State.establishHolds_seized (hg : s.act.inlet.owner = .guard) : s.establishHolds.act.inlet = s.act.inlet := by
  have key : ∀ (l : List Hold) (u : State), u.act.inlet.owner = .guard →
      (overAll l (fun h s => if h.established.isNone && s.safe h.act then s.establish h else s) u).act.inlet = u.act.inlet := by
    intro l
    induction l with
    | nil => exact fun _ _ => rfl
    | cons h l ih =>
      intro u hu
      have e : (if h.established.isNone && u.safe h.act then u.establish h else u).act.inlet = u.act.inlet := by
        split
        · exact u.establish_seized h hu
        · rfl
      exact (ih _ (by rw [e]; exact hu)).trans e
  exact key _ s hg

/-! ### Tries -/

theorem State.pumpConfirmed_only (n : Fin 4) : OnlyPump n s (s.pumpConfirmed n) := by
  unfold State.pumpConfirmed
  exact (((s.modPump_only n _).trans (State.make_only _ n _ _ _ _)).trans (State.completeOrder_only _ n _ _ _ _ _)).trans
    (State.tellPumps_only _ n _ _)

theorem State.beginTry_only (n : Fin 4) : OnlyPump n s (s.beginTry n) := by
  unfold State.beginTry
  dsimp only
  split
  · exact (s.modPump_only n _).trans (State.pumpConfirmed_only _ n)
  · exact s.modPump_only n _

/-- The controller's table but for one heater. -/
structure OnlyHeater (n : Fin 4) (s t : State) : Prop where
  heater : ∀ m, n ≠ m → t.heater m = s.heater m
  pumps : t.act.pumps = s.act.pumps
  inlet : t.act.inlet = s.act.inlet
  holds : t.act.holds = s.act.holds
  sys : t.sys = s.sys

theorem OnlyHeater.trans {n : Fin 4} {s t u : State} (h : OnlyHeater n s t) (k : OnlyHeater n t u) : OnlyHeater n s u :=
  ⟨fun m hm => (k.heater m hm).trans (h.heater m hm), k.pumps.trans h.pumps, k.inlet.trans h.inlet, k.holds.trans h.holds,
    k.sys.trans h.sys⟩
theorem State.modHeater_only (n : Fin 4) (f : Heater → Heater) : OnlyHeater n s (s.modHeater n f) :=
  ⟨fun m hm => by simp [hm], rfl, rfl, rfl, rfl⟩

theorem OnlyHeater.confirmed {n : Fin 4} {s t : State} (h : OnlyHeater n s t) : OnlyHeater n s (t.heaterConfirmed n) := by
  have h1 := h.trans (t.modHeater_only n fun p => { p with mode := .on, tries := 0, tryDl := none, runSince := some t.now })
  exact ⟨h1.heater, h1.pumps, h1.inlet, h1.holds, h1.sys⟩

theorem State.beginHeaterTry_only (n : Fin 4) : OnlyHeater n s (s.beginHeaterTry n) := by
  unfold State.beginHeaterTry
  dsimp only
  split
  · refine OnlyHeater.confirmed ?_
    exact s.modHeater_only n _
  · exact s.modHeater_only n _

/-- What a fold over the four keeps, each step keeping it. -/
theorem overFour {α : Type} (v : State → α) (f : Fin 4 → State → State) (hf : ∀ n s, v (f n s) = v s) (s : State) :
    v (overAll four f s) = v s := by
  show v (f 3 (f 2 (f 1 (f 0 s)))) = v s
  rw [hf, hf, hf, hf]

theorem State.canTry_waits (n : Fin 4) (h : s.canTry n = true) : (s.pump n).waits = true := by
  simp only [State.canTry, Bool.and_eq_true] at h
  simp only [Pump.waits, Bool.and_eq_true]
  obtain ⟨⟨⟨⟨⟨⟨⟨⟨⟨⟨⟨⟨-, hm⟩, hr⟩, hc⟩, -⟩, -⟩, -⟩, -⟩, -⟩, -⟩, -⟩, -⟩, -⟩ := h
  exact ⟨by simpa using ⟨of_decide_eq_true hr, of_decide_eq_true hc⟩, hm⟩

theorem State.canTryHeater_waits (n : Fin 4) (h : s.canTryHeater n = true) : (s.heater n).waits = true := by
  simp only [State.canTryHeater, Bool.and_eq_true, decide_eq_true_eq] at h
  simp only [Heater.waits, decide_eq_true_eq]
  exact ⟨h.1.1.1.2, h.1.1.2, h.1.1.1.1.1.2, h.1.1.1.1.2⟩

theorem State.startTries_pump (n : Fin 4) (hw : (s.pump n).waits = false) : s.startTries.pump n = s.pump n := by
  have h2 : ∀ u : State, (overAll four (fun h s => if s.canTryHeater h then s.beginHeaterTry h else s) u).pump n = u.pump n :=
    overFour (fun u => u.pump n) _ fun k u => by
      split
      · simp [State.pump, (u.beginHeaterTry_only k).pumps]
      · rfl
  have h1 : ∀ (k : Fin 4) (u : State), (u.pump n).waits = false →
      (if u.canTry k then u.beginTry k else u).pump n = u.pump n := by
    intro k u hu
    split
    · rename_i hc
      by_cases hk : k = n
      · subst hk
        exact absurd (u.canTry_waits k hc) (by simp [hu])
      · exact (u.beginTry_only k).pump n hk
    · rfl
  unfold State.startTries
  rw [h2]
  have e0 := h1 0 s hw
  have e1 := h1 1 _ (by rw [e0]; exact hw)
  have e2 := h1 2 _ (by rw [e1, e0]; exact hw)
  have e3 := h1 3 _ (by rw [e2, e1, e0]; exact hw)
  rw [e2, e1, e0] at e3
  exact e3

theorem State.startTries_heater (n : Fin 4) (hw : (s.heater n).waits = false) : s.startTries.heater n = s.heater n := by
  have h2 : ∀ u : State, (overAll four (fun n s => if s.canTry n then s.beginTry n else s) u).heater n = u.heater n :=
    overFour (fun u => u.heater n) _ fun k u => by
      split
      · simp [State.heater, (u.beginTry_only k).heaters]
      · rfl
  have h1 : ∀ (k : Fin 4) (u : State), (u.heater n).waits = false →
      (if u.canTryHeater k then u.beginHeaterTry k else u).heater n = u.heater n := by
    intro k u hu
    split
    · rename_i hc
      by_cases hk : k = n
      · subst hk
        exact absurd (u.canTryHeater_waits k hc) (by simp [hu])
      · exact (u.beginHeaterTry_only k).heater n hk
    · rfl
  unfold State.startTries
  have e := h2 s
  generalize overAll four (fun n s => if s.canTry n then s.beginTry n else s) s = u at e
  have hu : (u.heater n).waits = false := by rw [e]; exact hw
  rw [← e]
  have e0 := h1 0 u hu
  have e1 := h1 1 _ (by rw [e0]; exact hu)
  have e2 := h1 2 _ (by rw [e1, e0]; exact hu)
  have e3 := h1 3 _ (by rw [e2, e1, e0]; exact hu)
  rw [e2, e1, e0] at e3
  exact e3

theorem State.startTries_inlet : s.startTries.act.inlet = s.act.inlet := by
  unfold State.startTries
  rw [overFour (fun u => u.act.inlet) (fun h s => if s.canTryHeater h then s.beginHeaterTry h else s),
    overFour (fun u => u.act.inlet) (fun n s => if s.canTry n then s.beginTry n else s)]
  · intro k u
    split
    · exact (u.beginTry_only k).inlet
    · rfl
  · intro k u
    split
    · exact (u.beginHeaterTry_only k).inlet
    · rfl

theorem State.startTries_holds : s.startTries.act.holds = s.act.holds := by
  unfold State.startTries
  rw [overFour (fun u => u.act.holds) (fun h s => if s.canTryHeater h then s.beginHeaterTry h else s),
    overFour (fun u => u.act.holds) (fun n s => if s.canTry n then s.beginTry n else s)]
  · intro k u
    split
    · exact (u.beginTry_only k).holds
    · rfl
  · intro k u
    split
    · exact (u.beginHeaterTry_only k).holds
    · rfl

/-! ### Settling -/

/-- Settling leaves a pump alone that no PENDING hold names and that has no try to begin. -/
theorem State.settle_pump (n : Fin 4) (hh : ∀ h ∈ s.act.holds, h.established.isSome = true ∨ h.act ≠ .pump n)
    (hw : (s.pump n).waits = false) : s.settle.pump n = s.pump n := by
  have h1 := s.inletProgress_only
  have h2 := s.inletProgress.establishHolds_pump n (by rw [h1.holds]; exact hh)
  unfold State.settle
  rw [State.startTries_pump _ n (by rw [h2, h1.pump]; exact hw), h2, h1.pump]

/-- Settling leaves a heater alone that no PENDING hold names and that has no try to begin. -/
theorem State.settle_heater (n : Fin 4) (hh : ∀ h ∈ s.act.holds, h.established.isSome = true ∨ h.act ≠ .heater n)
    (hw : (s.heater n).waits = false) : s.settle.heater n = s.heater n := by
  have h1 := s.inletProgress_only
  have h2 := s.inletProgress.establishHolds_heater n (by rw [h1.holds]; exact hh)
  unfold State.settle
  rw [State.startTries_heater _ n (by rw [h2, h1.heater]; exact hw), h2, h1.heater]

/-- Settling leaves the inlet as its waits leave it, when no PENDING hold names it. -/
theorem State.settle_inlet (hh : ∀ h ∈ s.act.holds, h.established.isSome = true ∨ h.act ≠ .inlet) :
    s.settle.act.inlet = s.inletProgress.act.inlet := by
  unfold State.settle
  rw [State.startTries_inlet, State.establishHolds_inlet _ (by rw [s.inletProgress_only.holds]; exact hh)]

/-- Settling leaves a seized inlet with nothing to wait for. -/
theorem State.settle_seized (hc : s.act.inlet.calm) (hg : s.act.inlet.owner = .guard) : s.settle.act.inlet = s.act.inlet := by
  unfold State.settle
  rw [State.startTries_inlet, s.inletProgress_calm hc.1 hc.2.1 hc.2.2.1 hc.2.2.2, s.establishHolds_seized hg]

/-- Settling leaves an inlet with nothing to wait for that no PENDING hold names. -/
theorem State.settle_inlet_calm (hc : s.act.inlet.calm) (hh : s.unpending .inlet) : s.settle.act.inlet = s.act.inlet := by
  rw [s.settle_inlet hh, s.inletProgress_calm hc.1 hc.2.1 hc.2.2.1 hc.2.2.2]

/-- Settling keeps which hold numbers name which actuators. -/
theorem State.settle_names : s.settle.holdNames = s.holdNames := by
  unfold State.settle
  rw [State.holdNames, State.startTries_holds, ← State.holdNames, State.establishHolds_names, State.holdNames,
    s.inletProgress_only.holds, ← State.holdNames]

end Sys2Proof.Machine
end

