-- ==== Sys2Proof/Laws/Effects.lean ====
section
/-! SUPPORT. What the operations of the guard, the arbiter and the controller do, as equations the provers cite: each says what
one operation leaves in the entry it works on, or what it leaves alone. -/

namespace Sys2Proof.Machine

/-! ## Paths of a command and of a step -/

/-- Everything may move. -/
def allScope : Scope := ⟨fun _ => True, fun _ => True⟩

theorem allScope_all : AllowsAll allScope :=
  { port := trivial, records := trivial, jrn := trivial, plans := trivial, act := trivial, guard := trivial, arb := trivial, frost := trivial
    survey := trivial, cal := trivial, eng := trivial, sys := trivial, access := trivial, power := trivial, regs := trivial }

theorem exec_path_everywhere (c : Instr) (s t : State) (h : exec c s = .next t) : Path allScope s t :=
  haveI := allScope_all
  exec_path_all (fun _ => trivial) c s t h

theorem step_path_everywhere (s t : State) (h : step s = .next t) : Path allScope { s with pending := s.pending.tail } t :=
  haveI := allScope_all
  step_path (fun _ => trivial) s t h

/-- Everything may move, of memory the pages the part writes to. -/
def ownScope (s : State) : Scope := ⟨fun _ => True, fun a => a < 512 ∨ ∃ p, s.ownPage p ∧ addr p 0 ≤ a ∧ a < addr p 256⟩

theorem ownScope_all (s : State) : AllowsAll (ownScope s) :=
  { port := trivial, records := trivial, jrn := trivial, plans := trivial, act := trivial, guard := trivial, arb := trivial, frost := trivial
    survey := trivial, cal := trivial, eng := trivial, sys := trivial, access := trivial, power := trivial, regs := trivial }

/-- Everything may move but the power state and the marks of start-up. -/
def powerKept : Scope := ⟨fun p => p ≠ .power, fun _ => True⟩

theorem powerKept_access : AllowsAccess powerKept :=
  { port := nofun, records := nofun, jrn := nofun, plans := nofun, act := nofun, guard := nofun, arb := nofun, frost := nofun
    survey := nofun, cal := nofun, eng := nofun, sys := nofun, access := nofun }
theorem powerKept_regs : AllowsRegs powerKept := { port := nofun, records := nofun, jrn := nofun, regs := nofun }

/-- A command other than the starts, the mains' and the reset's keeps the power state, so that outside RUN it turns no contactor on
(`Path.stays_off`). -/
theorem exec_path_powerKept (c : Instr) (s t : State) (hp : movesPower c = false) (hc : ∀ x, c ≠ .coldStart x ∧ c ≠ .pinReset x)
    (h : exec c s = .next t) : Path powerKept s t := by
  haveI := powerKept_access
  haveI := powerKept_regs
  by_cases hr : reachesOut c = false
  · exact exec_path_within c s t hr (fun hx => absurd (hp.symm.trans hx) Bool.false_ne_true) (fun _ => powerKept_regs) h
  · cases c <;> first | exact absurd rfl hr | skip
    · cases h; exact Path.refl.entryWrite _ _ fun _ _ _ => trivial
    · cases h; exact Path.refl.contentWriteRow _ _ (fun _ => ⟨trivial, trivial⟩) fun _ _ _ => trivial
    · exact absurd rfl (hc _).1
    · exact absurd rfl (hc _).2

/-- Everything may move but the port's registers. -/
def regsKept : Scope := ⟨fun p => p ≠ .regs, fun _ => True⟩

theorem regsKept_power : AllowsPower regsKept :=
  { port := nofun, records := nofun, jrn := nofun, plans := nofun, act := nofun, guard := nofun, arb := nofun, frost := nofun
    survey := nofun, cal := nofun, eng := nofun, sys := nofun, access := nofun, power := nofun }

/-- A command other than the host's writes, the register writes, the starts and the reset's keeps the port's registers but for flags
that it raises (`Path.regs_same`). -/
theorem exec_path_regsKept (c : Instr) (s t : State) (hc : reachesOut c = false) (hr : movesRegs c = false)
    (h : exec c s = .next t) : Path regsKept s t :=
  haveI := regsKept_power
  exec_path_within c s t hc (fun _ => regsKept_power) (fun hx => absurd (hr.symm.trans hx) Bool.false_ne_true) h

/-! ## The survey -/

theorem Completes.intro {c : Instr} {s u : State} {P : State → Prop} (h : exec c s = .next u) (hp : P u) : Completes c s P := ⟨u, h, hp⟩

theorem doSurvey_path (x : Sample) (s : State) :
    Path (Scope.parts fun p => p.ofJournal || decide (p = .survey)) s (s.doSurvey x) :=
  haveI : AllowsSurvey (Scope.parts fun p => p.ofJournal || decide (p = .survey)) :=
    { port := rfl, records := rfl, jrn := rfl, survey := rfl }
  Path.refl.doSurvey x

/-- The parts of the survey unit its float statements speak of. -/
def surveyView (u : State) := (u.survey.chans, u.survey.deb, u.survey.prev)

theorem reportStep_surveyView (u : State) (j) : surveyView (u.reportStep j) = surveyView u := by
  unfold State.reportStep
  split
  · rfl
  · dsimp only
    split <;> split <;> simp [State.modSurvey, surveyView]

theorem stepCheck_surveyView (u : State) (j) : surveyView (u.stepCheck j) = surveyView u := by
  unfold State.stepCheck
  dsimp only
  repeat' split
  all_goals simp [State.modSurvey, surveyView]

theorem minute_surveyView (u : State) (v q) : surveyView (u.modSurvey fun x => x.minute v q) = surveyView u := rfl

theorem hourly_surveyView (u : State) (v) : surveyView (u.modSurvey fun x => x.hourly v) = surveyView u := by
  unfold surveyView State.modSurvey
  dsimp only
  unfold SurveyState.hourly
  split
  · rfl
  · split <;> rfl

theorem reportStep_sys (u : State) (j) : (u.reportStep j).sys = u.sys := by
  unfold State.reportStep
  split
  · rfl
  · dsimp only
    split <;> split <;> simp [State.modSurvey]

theorem stepCheck_sys (u : State) (j) : (u.stepCheck j).sys = u.sys := by
  unfold State.stepCheck
  dsimp only
  repeat' split
  all_goals simp [State.modSurvey]

theorem doSurvey_surveyView (x : Sample) (s : State) : surveyView (s.doSurvey x) = (s.converted x, debounced s.survey.deb s.survey.prev x.floats, some x.floats) := by
  unfold State.doSurvey
  dsimp only
  show surveyView (State.stepCheck _ _) = _
  rw [stepCheck_surveyView, reportStep_surveyView]
  split
  · rw [hourly_surveyView]; split <;> split <;> rfl
  · split <;> split <;> rfl

theorem doSurvey_judgement (x : Sample) (s : State) : ∃ d v m,
    (s.doSurvey x).survey.judgement = some { s.judge (s.converted x) (debounced s.survey.deb s.survey.prev x.floats) (s.survey.interval.getD s.period) m with draw := d, drawValid := v }
      ∧ (s.doSurvey x).survey.interval = some s.period := by
  exact ⟨_, _, _, rfl, rfl⟩

/-! ## The guard -/

/-- The guard and what follows from it may move. -/
def guardScope : Scope := Scope.parts fun p => p.ofActs || decide (p = .guard)

theorem guardScope_ok : AllowsGuard guardScope := { port := rfl, records := rfl, jrn := rfl, plans := rfl, act := rfl, guard := rfl }

theorem seize_guard (s : State) : s.seize.guard = s.guard :=
  haveI := allowsActs_parts
  (Path.seize (K := Scope.parts Part.ofActs) Path.refl).guard_eq Bool.false_ne_true

theorem seize_set (s : State) : s.seize.sys = s.sys :=
  haveI := allowsActs_parts
  (Path.seize (K := Scope.parts Part.ofActs) Path.refl).sys_eq Bool.false_ne_true

theorem enterTrip_guard (s : State) (cs t ref x) : (s.enterTrip cs t ref x).guard = { s.guard with
    mode := .tripped, causes := cs, first := cs.head?, tripTime := some t, tripSecs := 0, release := none } := by
  unfold State.enterTrip
  simp [State.modGuard, seize_guard]

theorem clearGuard_guard (s : State) (w t ref x) : (s.clearGuard w t ref x).guard = { s.guard with
    mode := .clear, causes := [], first := none, tripTime := none, release := none } := by
  unfold State.clearGuard
  simp [State.modGuard]
  split <;> simp [State.modInlet]

theorem episode_guard (s : State) (j) : (s.episode j).guard = { s.guard with episode := (s.episode j).guard.episode } := by
  unfold State.episode
  split <;> simp [State.modGuard]

theorem episode_confirm (s : State) (j) : (s.episode j).guard.confirm = s.guard.confirm := by rw [episode_guard]

theorem episode_mode (s : State) (j) : (s.episode j).guard.mode = s.guard.mode := by rw [episode_guard]

theorem episode_causes (s : State) (j) : (s.episode j).guard.causes = s.guard.causes := by rw [episode_guard]

theorem episode_first (s : State) (j) : (s.episode j).guard.first = s.guard.first := by rw [episode_guard]

theorem episode_tripTime (s : State) (j) : (s.episode j).guard.tripTime = s.guard.tripTime := by rw [episode_guard]

theorem episode_release (s : State) (j) : (s.episode j).guard.release = s.guard.release := by rw [episode_guard]

theorem episode_act (s : State) (j) : (s.episode j).act = s.act := by
  unfold State.episode
  split <;> simp [State.modGuard]

theorem guardJudgement_run (j) (s : State) (hh : s.sys.held = false) :
    exec (.guardJudgement j) s = .next (State.guardJudges j { s with transit := s.transit.erase (.guardJudgement j) }) := by
  show Host.Outcome.next _ = _
  unfold State.guardJudgementRow
  rw [s.taking_run _ _ hh]

theorem judgeOpen_confirm (s : State) (cs j) : (s.judgeOpen cs j).guard.confirm = s.guard.confirm := by
  unfold State.judgeOpen
  split
  · simp [State.modGuard]
  · rw [enterTrip_guard]

theorem judgeTripped_confirm (s : State) (j) : (s.judgeTripped j).guard.confirm = s.guard.confirm := by
  unfold State.judgeTripped
  dsimp only
  split
  · rfl
  · split
    · rfl
    · split
      · rfl
      · rw [clearGuard_guard]; rfl

theorem judgeHeld_confirm (s : State) (cs j) : (s.judgeHeld cs j).guard.confirm = s.guard.confirm := by
  unfold State.judgeHeld
  dsimp only
  split
  · rfl
  · simp [State.modGuard]

theorem guardJudges_confirm (s : State) (j) : (s.guardJudges j).guard.confirm = s.guard.confirmAfter s.set j := by
  unfold State.guardJudges
  dsimp only
  rw [episode_confirm]
  split
  · rw [judgeOpen_confirm]; rfl
  · rw [judgeOpen_confirm]; rfl
  · rw [judgeTripped_confirm]; rfl
  · rw [judgeHeld_confirm]; rfl

theorem drive_fields (s : State) (d) : (s.drive d).act.inlet = { s.act.inlet with mode := (s.drive d).act.inlet.mode, travelDl := (s.drive d).act.inlet.travelDl, driveWait := (s.drive d).act.inlet.driveWait } := by
  obtain ⟨m, x, w, he⟩ := s.drive_inlet d
  rw [he]

theorem seize_inlet (w : State) : w.seize.act.inlet.calm ∧ w.seize.act.inlet.cmd = some .closed ∧ w.seize.act.inlet.owner = .guard := by
  unfold State.seize State.closeNow
  dsimp only
  simp only [State.post_act]
  rw [drive_fields]
  exact ⟨⟨rfl, rfl, rfl, rfl⟩, rfl, rfl⟩

theorem closeNow_drives (s : State) (hd : s.drives = true) (hm : s.act.inlet.mode = .opened ∨ s.act.inlet.mode = .midway ∨ s.act.inlet.mode = .stuck
      ∨ s.act.inlet.mode = .opening) : s.closeNow.act.inlet = { s.act.inlet with cmd := some .closed, closeWait := false, openWait := false, mode := .closing, travelDl := some (s.now + s.set.travelLimit), driveWait := false } := by
  unfold State.closeNow State.drive State.travel
  have hd' : (s.modInlet fun v => { v with cmd := some .closed, closeWait := false, openWait := false }).drives = true := hd
  simp only [if_pos hd']
  have e : (s.modInlet fun v => { v with cmd := some .closed, closeWait := false, openWait := false }).act.inlet.mode = s.act.inlet.mode := rfl
  rw [e]
  rcases hm with hm | hm | hm | hm <;> rw [hm] <;> rfl

theorem settle_valve (s : State) (hc : s.act.inlet.calm) : s.settle.act.inlet.cmd = s.act.inlet.cmd ∧ s.settle.act.inlet.mode = s.act.inlet.mode ∧ s.settle.act.inlet.travelDl = s.act.inlet.travelDl := by
  unfold State.settle
  rw [State.startTries_inlet, s.inletProgress_calm hc.1 hc.2.1 hc.2.2.1 hc.2.2.2]
  have := overHolds (fun s => (s.act.inlet.cmd, s.act.inlet.mode, s.act.inlet.travelDl)) s.act.holds (fun _ => True) (fun h u _ => by
    unfold State.establish
    dsimp only
    rw [State.completeHold_act, State.make_act]
    cases h.act <;> rfl) s (fun _ _ => Or.inr trivial)
  simp only [Prod.mk.injEq] at this
  exact this

/-! ## The arbiter -/

theorem granted_arb (s : State) (l : Load) : (s.granted l).arb = s.arb := by
  unfold State.granted
  repeat' split
  all_goals rfl

theorem arbWalk_arb (s : State) : s.arbWalk.arb = s.arb.walked.state := by
  unfold State.arbWalk
  dsimp only
  rw [State.settle_arb]
  show (overAll _ _ _).arb = _
  rw [overAll_keeps State.arb State.granted (fun a s => granted_arb s a)]

/-- Every grant below level 6 recalled. -/
def allRecalled (gs : List Grant) := gs.map fun g : Grant => if g.level < 6 then { g with recalled := true } else g

theorem victim_none {gs : List Grant} (h : victim gs = none) : allRecalled gs = gs := by
  have key : ∀ (l : List Grant) (b : Option Grant), l.foldl (fun best g =>
    match best with
    | none => some g
    | some b => if g.level ≤ b.level then some g else some b) b = none → l = [] ∧ b = none := by
    intro l
    induction l with
    | nil => intro b h; exact ⟨rfl, h⟩
    | cons a l ih =>
      intro b h
      have := (ih _ h).2
      dsimp only at this
      split at this
      · cases this
      · split at this <;> cases this
  have := (key _ _ h).1
  rw [List.filter_eq_nil_iff] at this
  unfold allRecalled
  conv => rhs; rw [← List.map_id gs]
  refine List.map_congr_left fun g hg => ?_
  have := this g hg
  simp at this
  split
  · rename_i hl
    have hr : g.recalled = true := by
      cases hr : g.recalled
      · have := this hr; omega
      · rfl
    cases g; simp_all
  · rfl

theorem victim_mem {gs : List Grant} {g} (h : victim gs = some g) : g ∈ gs ∧ g.recalled = false ∧ g.level < 6 := by
  have key : ∀ (l : List Grant) (b : Option Grant), l.foldl (fun best g =>
    match best with
    | none => some g
    | some b => if g.level ≤ b.level then some g else some b) b = some g → g ∈ l ∨ b = some g := by
    intro l
    induction l with
    | nil => intro b h; exact Or.inr h
    | cons a l ih =>
      intro b h
      rcases ih _ h with h | h
      · exact Or.inl (List.mem_cons_of_mem _ h)
      · dsimp only at h
        split at h
        · cases h; exact Or.inl List.mem_cons_self
        · split at h
          · cases h; exact Or.inl List.mem_cons_self
          · exact Or.inr h
  have := key _ _ h
  simp at this
  exact this

theorem recallGrant_all (w) (gs : List Grant) (h : ∀ g ∈ gs, g.who = w → g.level < 6) : allRecalled (recallGrant w gs) = allRecalled gs := by
  unfold allRecalled recallGrant
  rw [List.map_map]
  refine List.map_congr_left fun g hg => ?_
  simp only [Function.comp]
  split
  · rename_i hw
    simp [h g hg hw]
  · rfl

/-- How many grants preemption may still recall. -/
def recallable (gs : List Grant) : Nat := (gs.filter fun g => !g.recalled && decide (g.level < 6)).length

theorem recallGrant_recallable (w) : ∀ (gs : List Grant), recallable (recallGrant w gs) ≤ recallable gs ∧ (∀ g ∈ gs, g.who = w → g.recalled = false → g.level < 6 → recallable (recallGrant w gs) < recallable gs)
  | [] => by simp [recallGrant, recallable]
  | x :: gs => by
    have ih := recallGrant_recallable w gs
    unfold recallGrant recallable at *
    simp only [List.map_cons, List.filter_cons]
    by_cases hw : x.who = w
    · simp only [hw, if_true, Bool.not_true, Bool.false_and, Bool.false_eq_true, if_false]
      refine ⟨by split <;> (try simp only [List.length_cons]) <;> omega, fun g hg hgw hr hl => ?_⟩
      rcases List.mem_cons.mp hg with rfl | hg
      · simp [hr, hl]; omega
      · have := ih.2 g hg hgw hr hl
        split <;> (try simp only [List.length_cons]) <;> omega
    · simp only [hw, if_false]
      refine ⟨by split <;> (try simp only [List.length_cons]) <;> omega, fun g hg hgw hr hl => ?_⟩
      rcases List.mem_cons.mp hg with rfl | hg
      · exact absurd hgw hw
      · have := ih.2 g hg hgw hr hl
        split <;> (try simp only [List.length_cons]) <;> omega

theorem recallable_le (gs : List Grant) : recallable gs ≤ gs.length := List.length_filter_le _ _

theorem grant_eq_of_who {gs : List Grant} (hn : (gs.map Grant.who).Nodup) {a b : Grant} (ha : a ∈ gs) (hb : b ∈ gs) (h : a.who = b.who) : a = b := by
  
  induction gs with
  | nil => cases ha
  | cons x l ih =>
    simp only [List.map_cons, List.nodup_cons, List.mem_map, not_exists, not_and] at hn
    rcases List.mem_cons.mp ha with rfl | ha' <;> rcases List.mem_cons.mp hb with rfl | hb'
    · rfl
    · exact absurd h.symm (hn.1 b hb')
    · exact absurd h (hn.1 a ha')
    · exact ih hn.2 ha' hb'

theorem preemptLoop_spec (budget) (c : Claim) : ∀ (k : Nat) (gs : List Grant), (gs.map Grant.who).Nodup → recallable gs ≤ k →
    (preemptLoop budget c k gs).1.map (fun g => (g.who, g.units, g.level, g.urgent, g.join)) = gs.map (fun g => (g.who, g.units, g.level, g.urgent, g.join))
    ∧ (∀ g ∈ gs, 6 ≤ g.level → g ∈ (preemptLoop budget c k gs).1) ∧ (∀ g ∈ gs, g.recalled = true → g ∈ (preemptLoop budget c k gs).1)
    ∧ (covered budget c (allRecalled gs) = true → covered budget c (preemptLoop budget c k gs).1 = true) := by
  intro k
  induction k with
  | zero =>
    intro gs hn hl
    refine ⟨rfl, fun g h _ => h, fun g h _ => h, fun h => ?_⟩
    have : allRecalled gs = gs := by
      cases hv : victim gs with
      | none => exact victim_none hv
      | some g =>
        have := victim_mem hv
        have h1 : g ∈ gs.filter fun g => !g.recalled && decide (g.level < 6) := by simp [this]
        have : 0 < recallable gs := List.length_pos_of_mem h1
        omega
    rw [this] at h; exact h
  | succ k ih =>
    intro gs hn hl
    unfold preemptLoop
    split
    · rename_i hc
      exact ⟨rfl, fun g h _ => h, fun g h _ => h, fun _ => hc⟩
    · rename_i hc
      split
      · rename_i hv
        refine ⟨rfl, fun g h _ => h, fun g h _ => h, fun h => ?_⟩
        rw [victim_none hv] at h; exact h
      · rename_i g hv
        have hg := victim_mem hv
        have hw : ∀ x ∈ gs, x.who = g.who → x = g := fun x hx hxw => grant_eq_of_who hn hx hg.1 hxw
        have := ih (recallGrant g.who gs) (by rw [recallGrant_whos]; exact hn) (by
          have := (recallGrant_recallable g.who gs).2 g hg.1 rfl hg.2.1 hg.2.2
          omega)
        have hmem : ∀ x ∈ gs, x ≠ g → x ∈ recallGrant g.who gs := by
          intro x hx hxg
          refine List.mem_map.mpr ⟨x, hx, ?_⟩
          rw [if_neg (fun e => hxg (hw x hx e))]
        refine ⟨?_, fun x hx h6 => this.2.1 x (hmem x hx ?_) h6, fun x hx hr => this.2.2.1 x (hmem x hx ?_) hr, fun h => this.2.2.2 ?_⟩
        · dsimp only
          rw [this.1]
          unfold recallGrant
          rw [List.map_map]
          refine List.map_congr_left fun x _ => ?_
          simp only [Function.comp]
          split <;> rfl
        · rintro rfl; omega
        · rintro rfl; rw [hg.2.1] at hr; cases hr
        · rw [recallGrant_all]
          · exact h
          · intro x hx hxw; rw [hw x hx hxw]; exact hg.2.2

/-! ## Pumps -/

theorem taking_next {c : Instr} {row : State → State} {f : State → State} {s : State} {P : State → Prop}
    (he : exec c s = .next (row s)) (hr : row s = s.taking c f) (hh : s.sys.held = false)
    (hp : P (f { s with transit := s.transit.erase c })) : Completes c s P :=
  ⟨_, by rw [he, hr, s.taking_run _ _ hh], hp⟩

theorem setPump_same (s : State) (n p) : (s.setPump n p).pump n = p := by simp

theorem modPump_same (s : State) (n f) : (s.modPump n f).pump n = f (s.pump n) := by simp

theorem claimPump_eq (s : State) (n) : (s.claimPump n).pump n = if (s.pump n).claims then { s.pump n with claim := .claimed } else s.pump n := by
  unfold State.claimPump
  dsimp only
  split <;> simp [*]

theorem releasePump_eq (s : State) (n) : (s.releasePump n).pump n = if ({ s.pump n with claim := .none } : Pump).claims then { s.pump n with claim := .claimed } else { s.pump n with claim := .none } := by
  unfold State.releasePump
  dsimp only
  rw [claimPump_eq]
  simp

theorem pumpFailed_eq (s : State) (n k) : (s.pumpFailed n k).pump n = { s.pump n with
    mode := if (s.pump n).owner = .hold then .held else .failed
    tries := if (s.pump n).owner = .hold then 0 else k
    request := .none
    owner := if (s.pump n).owner = .hold then .hold else .none
    claim := .none } := by
  unfold State.pumpFailed
  dsimp only
  split
  all_goals
    simp only [State.completeOrder_pump, State.tellPumps_pump, State.make_pump, releasePump_eq, setPump_same]
    simp_all [Pump.claims]

theorem runStop_eq (s : State) (n k) : (s.runStop n k).pump n = { s.pump n with runSince := none } := by
  unfold State.runStop
  split
  · rename_i h
    generalize s.pump n = p at h
    cases p; simp at h; simp [h]
  · simp


theorem settle_pump_quiet (u : State) (n) (hh : u.unpending (.pump n)) (hw : (u.pump n).waits = false) : u.settle.pump n = u.pump n :=
  u.settle_pump n hh hw

theorem OnlyPump.unpending {n m} {u w : State} (h : OnlyPump n u w) (hu : u.unpending (.pump m)) : w.unpending (.pump m) := by
  unfold State.unpending; rw [h.holds]; exact hu

theorem tryFailed_only (s : State) (n) : OnlyPump n s (s.tryFailed n) := by
  have pf : ∀ (u : State) k, OnlyPump n u (u.pumpFailed n k) := by
    intro u k
    unfold State.pumpFailed
    dsimp only
    split
    · exact (((((u.setPump_only n _).trans (State.releasePump_only _ n)).trans (State.make_only _ n _ _ _ _)).trans (State.tellPumps_only _ n _ _)).trans (State.completeOrder_only _ n _ _ _ _ _)).trans
        (State.completeOrder_only _ n _ _ _ _ _)
    · exact ((((u.setPump_only n _).trans (State.releasePump_only _ n)).trans (State.make_only _ n _ _ _ _)).trans (State.tellPumps_only _ n _ _)).trans (State.completeOrder_only _ n _ _ _ _ _)
  unfold State.tryFailed
  dsimp only
  split
  · exact (s.modPump_only n _).trans (pf _ _)
  · have h1 := (s.modPump_only n fun p => { p with contactor := false, tryDl := none, stopWait := false, tries := p.tries + 1 }).trans (State.setPump_only _ n { ((s.modPump n fun p => { p with contactor := false, tryDl := none, stopWait := false, tries := p.tries + 1 }).pump n) with mode := .retryWait, retryDl := some (s.now + s.set.restartInterval) })
    split
    · exact h1.trans (State.pumpIdle_only _ n)
    · split
      · exact h1.trans (State.releasePump_only _ n)
      · exact h1

theorem pumpIdle_eq (s : State) (n) : (s.pumpIdle n).pump n = { s.pump n with
    request := .none, owner := if (s.pump n).owner = .hold then .hold else .none, claim := .none } := by
  unfold State.pumpIdle
  rw [State.tellPumps_pump, releasePump_eq]
  simp [Pump.claims, Pump.leftOwner]

theorem tryFailed_eq (s : State) (n) : (s.tryFailed n).pump n =
    let p := s.pump n
    let q := { p with contactor := false, tryDl := none, stopWait := false, tries := p.tries + 1 }
    if s.set.startTryLimit ≤ p.tries + 1 then { q with
      mode := if p.owner = .hold then .held else .failed
      tries := if p.owner = .hold then 0 else p.tries + 1
      request := .none
      owner := if p.owner = .hold then .hold else .none
      claim := .none }
    else
      let q := { q with mode := .retryWait, retryDl := some (s.now + s.set.restartInterval) }
      if p.request ≠ .start then { q with request := .none, owner := if p.owner = .hold then .hold else .none, claim := .none }
      else if p.claim = .recalled then { q with claim := .claimed } else q := by
  unfold State.tryFailed
  dsimp only
  simp only [modPump_same]
  split
  · rw [pumpFailed_eq]; simp
  · split
    · rw [pumpIdle_eq]; simp
    · rename_i hr
      split
      · rename_i hc
        rw [releasePump_eq]; simp only [setPump_same]
        have hr' : (s.pump n).request = .start := by simpa using hr
        simp [Pump.claims, hr']
      · simp

theorem tryFailed_quiet (s : State) (n) (_ : (s.pump n).mode ≠ .ready) : ((s.tryFailed n).pump n).waits = false := by
  rw [tryFailed_eq]
  dsimp only
  repeat' split
  all_goals simp [Pump.waits]

theorem unheld_not {s : State} {a} (h : s.unheld a) : s.heldEstablished a = false := by
  unfold State.heldEstablished State.holdNaming
  have : s.act.holds.find? (fun h => decide (h.act = a)) = none := by rw [List.find?_eq_none]; intro x hx; simpa using h x hx
  rw [this]

theorem startTries_or (s : State) (n) : s.startTries.pump n = s.pump n ∨ ((s.startTries.pump n).contactor = true ∧ ((s.startTries.pump n).mode = .starting ∨ (s.startTries.pump n).mode = .running)) := by
  have h2 : ∀ u : State, (overAll four (fun h s => if s.canTryHeater h then s.beginHeaterTry h else s) u).pump n = u.pump n :=
    overFour (fun u => u.pump n) _ fun k u => by
      split
      · simp [State.pump, (u.beginHeaterTry_only k).pumps]
      · rfl
  have h1 : ∀ (k : Fin 4) (u : State), (u.pump n = s.pump n ∨ ((u.pump n).contactor = true ∧ ((u.pump n).mode = .starting ∨ (u.pump n).mode = .running))) →
      ((if u.canTry k then u.beginTry k else u).pump n = s.pump n ∨ ((((if u.canTry k then u.beginTry k else u)).pump n).contactor = true ∧ ((((if u.canTry k then u.beginTry k else u)).pump n).mode = .starting ∨ (((if u.canTry k then u.beginTry k else u)).pump n).mode = .running))) := by
    intro k u hu
    split
    · by_cases hk : k = n
      · subst hk
        right
        unfold State.beginTry
        dsimp only
        split
        · unfold State.pumpConfirmed; simp
        · simp
      · rw [(u.beginTry_only k).pump n hk]; exact hu
    · exact hu
  unfold State.startTries
  rw [h2]
  exact h1 3 _ (h1 2 _ (h1 1 _ (h1 0 s (Or.inl rfl))))

theorem settle_or_try (s : State) (n) (hu : s.unpending (.pump n)) : s.settle.pump n = s.pump n ∨ ((s.settle.pump n).contactor = true ∧ ((s.settle.pump n).mode = .starting ∨ (s.settle.pump n).mode = .running)) := by
  have h1 := s.inletProgress_only
  have h2 := s.inletProgress.establishHolds_pump n (by rw [h1.holds]; exact hu)
  have := startTries_or s.inletProgress.establishHolds n
  rw [h2, h1.pump] at this
  exact this

theorem settle_feedback (n) (s : State) : (s.settle.pump n).feedback = (s.pump n).feedback := by
  have h1 := s.inletProgress_only
  have h2 : (s.inletProgress.establishHolds.pump n).feedback = (s.inletProgress.pump n).feedback := by
    refine overHolds (fun u => (u.pump n).feedback) _ (fun _ => True) (fun h u _ => ?_) _ (fun _ _ => Or.inr trivial)
    unfold State.establish
    dsimp only
    show (State.pump (State.make _ _ _ _ _) n).feedback = _
    rw [State.make_pump]
    cases h.act with
    | pump k =>
      by_cases hk : k = n
      · subst hk; simp [State.takeHold]; rfl
      · simp [State.takeHold, hk]; rfl
    | inlet => rfl
    | heater k => rfl
  have h3 : ∀ u : State, (u.startTries.pump n).feedback = (u.pump n).feedback := by
    intro u
    have h2 : ∀ u : State, (overAll four (fun h s => if s.canTryHeater h then s.beginHeaterTry h else s) u).pump n = u.pump n :=
      overFour (fun u => u.pump n) _ fun k u => by
        split
        · simp [State.pump, (u.beginHeaterTry_only k).pumps]
        · rfl
    unfold State.startTries
    rw [h2]
    refine overFour (fun u => (u.pump n).feedback) _ (fun k u => ?_) u
    split
    · by_cases hk : k = n
      · subst hk
        unfold State.beginTry
        dsimp only
        split
        · unfold State.pumpConfirmed; simp
        · simp
      · rw [(u.beginTry_only k).pump n hk]
    · rfl
  unfold State.settle
  rw [h3, h2, h1.pump]

theorem confirmOff_claim (s : State) (n) : (s.confirmOff n).pump n = { s.pump n with
    mode := if s.heldEstablished (.pump n) then .held else .resting
    offSince := some s.now
    offEnd := if s.heldEstablished (.pump n) then none else some (s.now + s.set.minOff)
    stopDl := none
    runSince := none
    owner := (s.pump n).offOwner
    request := (s.pump n).offRequest
    claim := if (s.pump n).request = .start ∧ (s.heldEstablished (.pump n) = false ∨ (s.pump n).offOwner = .hold) then .claimed else .none } := by
  obtain ⟨c, hc⟩ := s.confirmOff_pump n
  have hp : (s.runStop n 0).pump n = { s.pump n with runSince := none } := runStop_eq s n 0
  have ho := s.runStop_only n 0
  have hh : (s.runStop n 0).heldEstablished (.pump n) = s.heldEstablished (.pump n) := by
    simp only [State.heldEstablished, State.holdNaming, ho.holds]
  have key : ((s.confirmOff n).pump n).claim = if (s.pump n).request = .start ∧ (s.heldEstablished (.pump n) = false ∨ (s.pump n).offOwner = .hold) then .claimed else .none := by
    unfold State.confirmOff
    generalize s.runStop n 0 = u at hp hh
    dsimp only
    have e : ∀ v : State, v.pump n = ((u.setPump n { u.pump n with
      mode := if u.heldEstablished (.pump n) then .held else .resting
      offSince := some u.now
      offEnd := if u.heldEstablished (.pump n) then none else some (u.now + u.set.minOff)
      stopDl := none
      owner := (u.pump n).offOwner
      request := (u.pump n).offRequest }).releasePump n).pump n → (v.pump n).claim = if (s.pump n).request = .start ∧ (s.heldEstablished (.pump n) = false ∨ (s.pump n).offOwner = .hold) then .claimed else .none := by
      intro v hv
      rw [hv, releasePump_eq]
      simp only [setPump_same, hp, hh, Pump.claims, Pump.offOwner, Pump.offRequest]
      by_cases h1 : (s.pump n).request = .start <;> cases s.heldEstablished (.pump n) <;> simp [h1] <;> split <;> rfl
    refine e _ ?_
    by_cases h1 : (u.pump n).mode = .stuckOn <;> by_cases h2 : u.heldEstablished (.pump n) = false ∧ u.set.minOff = 0 <;>
      simp [h1, h2]
  rw [hc] at key ⊢
  simp only at key
  rw [key]

theorem confirmOff_quiet (s : State) (n) : ((s.confirmOff n).pump n).waits = false := by
  rw [confirmOff_claim]
  simp only [Pump.waits]
  repeat' split
  all_goals simp

theorem contactorOff_eq (s : State) (n) : (s.contactorOff n).pump n =
    if (s.pump n).feedback then { s.pump n with
      contactor := false, mode := .stopping, stopDl := some (s.now + Config.stopConfirm), tryDl := none, stopWait := false }
    else { s.pump n with
      contactor := false, tryDl := none, stopWait := false
      mode := if s.heldEstablished (.pump n) then .held else .resting
      offSince := some s.now
      offEnd := if s.heldEstablished (.pump n) then none else some (s.now + s.set.minOff)
      stopDl := none
      runSince := none
      owner := (s.pump n).offOwner
      request := (s.pump n).offRequest
      claim := if (s.pump n).request = .start ∧ (s.heldEstablished (.pump n) = false ∨ (s.pump n).offOwner = .hold) then .claimed else .none } := by
  unfold State.contactorOff
  dsimp only
  split
  · rw [modPump_same]
  · rw [confirmOff_claim, modPump_same]
    rfl

theorem contactorOff_quiet (s : State) (n) : ((s.contactorOff n).pump n).waits = false := by
  rw [contactorOff_eq]
  simp only [Pump.waits]
  repeat' split
  all_goals simp

theorem pumpConfirmed_eq (s : State) (n) : (s.pumpConfirmed n).pump n = { s.pump n with mode := .running, tries := 0, runSince := some s.now, tryDl := none } := by
  unfold State.pumpConfirmed
  simp

theorem runOn_only (s : State) (n) : OnlyPump n s (s.runOn n) := by
  unfold State.runOn
  dsimp only
  repeat' split
  all_goals first | exact OnlyPump.refl n s | exact s.setPump_only n _

theorem runOn_waits (s : State) (n) (h : (s.pump n).waits = false) : ((s.runOn n).pump n).waits = false := by
  unfold State.runOn
  dsimp only
  repeat' split
  all_goals first | exact h | (rw [setPump_same]; simp_all [Pump.waits])

theorem canTry_power (s : State) (n) (h : s.canTry n = true) : s.sys.power = .run ∧ s.eng.access ≠ .localControl := by
  simp only [State.canTry, Bool.and_eq_true, decide_eq_true_eq] at h
  exact ⟨h.1.1.1.2, h.1.1.1.1.2⟩

theorem startTries_barred (s : State) (h : s.sys.power ≠ .run ∨ s.eng.access = .localControl) (n) : s.startTries.pump n = s.pump n := by
  have h2 : ∀ u : State, (overAll four (fun h s => if s.canTryHeater h then s.beginHeaterTry h else s) u).pump n = u.pump n :=
    overFour (fun u => u.pump n) _ fun k u => by
      split
      · simp [State.pump, (u.beginHeaterTry_only k).pumps]
      · rfl
  have h0 : ∀ k, (if s.canTry k then s.beginTry k else s) = s := by
    intro k
    rw [if_neg]
    intro hc
    have := canTry_power s k hc
    rcases h with h | h
    · exact h this.1
    · exact this.2 h
  unfold State.startTries
  rw [h2]
  show ((fun n (s : State) => if s.canTry n then s.beginTry n else s) 3 ((fun n (s : State) => if s.canTry n then s.beginTry n else s) 2 ((fun n (s : State) => if s.canTry n then s.beginTry n else s) 1 ((fun n (s : State) => if s.canTry n then s.beginTry n else s) 0 s)))).pump n = _
  simp only [h0]

theorem settle_barred (s : State) (n) (hu : s.unpending (.pump n)) (h : s.sys.power ≠ .run ∨ s.eng.access = .localControl) : s.settle.pump n = s.pump n := by
  have h1 := s.inletProgress_only
  have h2 := s.inletProgress.establishHolds_pump n (by rw [h1.holds]; exact hu)
  have hp : Path (Scope.parts Part.ofActs) s s.inletProgress.establishHolds := haveI := allowsActs_parts; (Path.refl.inletProgress).establishHolds
  unfold State.settle
  rw [startTries_barred _ (by rw [hp.sys_eq Bool.false_ne_true, (hp.eng_same Bool.false_ne_true).access]; exact h), h2, h1.pump]

theorem guardTestCheck_pump (s : State) (n) : s.guardTestCheck.pump n = s.pump n := by
  unfold State.guardTestCheck; split <;> rfl

theorem guardTestCheck_act (s : State) : s.guardTestCheck.act = s.act := by
  unfold State.guardTestCheck; split <;> rfl

theorem guardTestCheck_sys (s : State) : s.guardTestCheck.sys = s.sys := by
  unfold State.guardTestCheck; split <;> rfl

theorem guardTestCheck_eng (s : State) : s.guardTestCheck.eng = s.eng := by
  unfold State.guardTestCheck; split <;> rfl

/-! ## Tries and heaters -/

theorem canTry_iff (s : State) (n) : s.canTry n = true ↔ s.mayTry n := by
  simp only [State.canTry, Bool.and_eq_true, Bool.or_eq_true, decide_eq_true_eq, Bool.not_eq_true', Option.isNone_iff_eq_none]
  constructor
  · rintro ⟨⟨⟨⟨⟨⟨⟨⟨⟨⟨⟨⟨h1, h2⟩, h3⟩, h4⟩, h5⟩, h6⟩, h7⟩, h8⟩, h9⟩, h10⟩, h11⟩, h12⟩, h13⟩
    refine ⟨h1, h2, h3, h4, ⟨h5.1, h5.2, h6⟩, ?_, h8, h9, ⟨h10, h11, h12⟩, h13⟩
    exact (s.inletServes_iff _).mp h7
  · rintro ⟨h1, h2, h3, h4, ⟨h5, h5', h6⟩, h7, h8, h9, ⟨h10, h11, h12⟩, h13⟩
    refine ⟨⟨⟨⟨⟨⟨⟨⟨⟨⟨⟨⟨h1, h2⟩, h3⟩, h4⟩, h5, h5'⟩, h6⟩, ?_⟩, h8⟩, h9⟩, h10⟩, h11⟩, h12⟩, h13⟩
    exact (s.inletServes_iff _).mpr h7

theorem canHeat_iff (s : State) (n) : s.canTryHeater n = true ↔ s.mayHeat n := by
  simp only [State.canTryHeater, Bool.and_eq_true, decide_eq_true_eq, Bool.not_eq_true']
  constructor
  · rintro ⟨⟨⟨⟨⟨⟨h1, h2⟩, h3⟩, h4⟩, h5⟩, h6⟩, h7⟩
    exact ⟨h1, h2, h3, h4, h5, h6, h7⟩
  · rintro ⟨h1, h2, h3, h4, h5, h6, h7⟩
    exact ⟨⟨⟨⟨⟨⟨h1, h2⟩, h3⟩, h4⟩, h5⟩, h6⟩, h7⟩

theorem beginTry_eq (s : State) (n) : (s.beginTry n).pump n =
    let l := (s.pump n).starts ++ [s.now]
    let p := { s.pump n with contactor := true, starts := l.drop (l.length - Config.startsMax), mode := .starting, tryDl := some (s.now + s.set.confirmTime) }
    if (s.pump n).feedback then { p with mode := .running, tries := 0, runSince := some s.now, tryDl := none } else p := by
  unfold State.beginTry
  dsimp only
  split
  · rw [pumpConfirmed_eq]; simp [State.now, State.modPump]
  · simp

theorem beginTry_facts (s : State) (n) : ((s.beginTry n).pump n).contactor = true ∧ ((s.beginTry n).pump n).starts.getLast? = some s.now
    ∧ ((s.beginTry n).pump n).starts.length = min Config.startsMax ((s.pump n).starts.length + 1)
    ∧ (((s.beginTry n).pump n).mode = .starting ∨ ((s.beginTry n).pump n).mode = .running) := by
  have hs : ((s.beginTry n).pump n).starts = ((s.pump n).starts ++ [s.now]).drop (((s.pump n).starts ++ [s.now]).length - Config.startsMax) := by
    rw [beginTry_eq]; dsimp only; split <;> rfl
  refine ⟨?_, ?_, ?_, ?_⟩
  · rw [beginTry_eq]; dsimp only; split <;> rfl
  · rw [hs, List.getLast?_drop]
    simp [Config.startsMax]
    all_goals omega
  · rw [hs]; simp [Config.startsMax]; omega
  · rw [beginTry_eq]; dsimp only; split <;> simp

theorem post_heater (s : State) (m h) : (s.post m).heater h = s.heater h := rfl

theorem feedbackOff_only (s : State) (n) : OnlyPump n s (s.feedbackOff n) := by
  unfold State.feedbackOff
  split
  all_goals first
    | exact OnlyPump.refl n s
    | exact s.modPump_only n _
    | exact s.confirmOff_only n
    | exact (s.runStop_only n 1).trans (tryFailed_only _ n)

theorem setHeater_same (s : State) (n p) : (s.setHeater n p).heater n = p := by simp

theorem modHeater_same (s : State) (n f) : (s.modHeater n f).heater n = f (s.heater n) := by simp

theorem claimHeater_eq (s : State) (h) : (s.claimHeater h).heater h =
    if (s.heater h).request = .start ∧ (s.heater h).claim = .none ∧ ((s.heater h).mode = .ready ∨ (s.heater h).mode = .retryWait) then { s.heater h with claim := .claimed } else s.heater h := by
  unfold State.claimHeater
  dsimp only
  split
  · rename_i hc
    rw [post_heater, setHeater_same, if_pos]
    simp only [Bool.and_eq_true, decide_eq_true_eq] at hc
    exact ⟨hc.1.1, hc.1.2, hc.2⟩
  · rename_i hc
    rw [if_neg]
    simp only [Bool.and_eq_true, decide_eq_true_eq] at hc
    exact fun h => hc ⟨⟨h.1, h.2.1⟩, h.2.2⟩

theorem releaseHeater_eq (s : State) (h) : (s.releaseHeater h).heater h =
    if (s.heater h).request = .start ∧ ((s.heater h).mode = .ready ∨ (s.heater h).mode = .retryWait) then { s.heater h with claim := .claimed } else { s.heater h with claim := .none } := by
  unfold State.releaseHeater
  dsimp only
  rw [claimHeater_eq]
  have e : ∀ (u : State) l, (u.posts l).heater h = u.heater h := fun _ _ => rfl
  simp only [e, setHeater_same, true_and]

theorem heaterRelease_eq (s : State) (h) : (s.heaterRelease h).heater h =
    if (s.heater h).claim = .claimed ∧ (s.heater h).request ≠ .start then { s.heater h with claim := .none }
    else if (s.heater h).releaseDue && !(s.heater h).current then
      if (s.heater h).request = .start ∧ ((s.heater h).mode = .ready ∨ (s.heater h).mode = .retryWait) then { s.heater h with offSince := some s.now, claim := .claimed } else { s.heater h with offSince := some s.now, claim := .none }
    else s.heater h := by
  unfold State.heaterRelease
  dsimp only
  simp only [decide_eq_true_eq]
  split
  · rename_i hc
    rw [releaseHeater_eq, if_neg (fun h => hc.2 h.1)]
  · split
    · rw [releaseHeater_eq, setHeater_same]
    · rfl

theorem heaterOff_eq (s : State) (h m) : (s.heaterOff h m).heater h =
    let p : Heater := { s.heater h with
      contactor := false, mode := m, tryDl := none, runSince := none, stuckDl := (s.heater h).stuckFrom s.now }
    if (s.heater h).claim = .claimed ∧ (s.heater h).request ≠ .start then { p with claim := .none }
    else if (s.heater h).releaseDue && !(s.heater h).current then
      if (s.heater h).request = .start ∧ (m = .ready ∨ m = .retryWait) then { p with offSince := some s.now, claim := .claimed } else { p with offSince := some s.now, claim := .none }
    else p := by
  unfold State.heaterOff
  rw [heaterRelease_eq, modHeater_same]
  rfl

theorem claimHeater_holds (s : State) (h) : (s.claimHeater h).act.holds = s.act.holds := by
  unfold State.claimHeater; dsimp only; split <;> rfl

theorem heaterRelease_holds (s : State) (h) : (s.heaterRelease h).act.holds = s.act.holds := by
  unfold State.heaterRelease State.releaseHeater; dsimp only; repeat' split
  all_goals first
    | rfl
    | (rw [claimHeater_holds]; rfl)

theorem heaterOff_holds (s : State) (h m) : (s.heaterOff h m).act.holds = s.act.holds := by
  unfold State.heaterOff; rw [heaterRelease_holds]; rfl

/-! ## What stays at one pump -/

theorem taking_cases {c : Instr} {f : State → State} {s t : State} (h : t = s.taking c f) : (s.sys.held = true ∧ t = s) ∨ t = f { s with transit := s.transit.erase c } := by
  unfold State.taking State.alive at h
  split at h
  · exact Or.inl ⟨by assumption, h⟩
  · exact Or.inr h

theorem recallPump_only (s : State) (n) : OnlyPump n s (s.recallPump n) := by
  unfold State.recallPump
  dsimp only
  split
  · refine OnlyPump.trans ?_ (State.tellPumps_only _ n _ _)
    repeat' split
    all_goals first
      | exact (s.setPump_only n _).trans (State.contactorOff_only _ n)
      | exact (s.setPump_only n _).trans (State.releasePump_only _ n)
      | exact s.setPump_only n _
  · exact OnlyPump.refl n s

theorem feedbackOn_only (s : State) (n) : OnlyPump n s (s.feedbackOn n) := by
  unfold State.feedbackOn
  split
  · exact s.pumpConfirmed_only n
  · split
    · exact runOn_only s n
    · exact OnlyPump.refl n s

theorem guardTestCheck_only (s : State) (n) : OnlyPump n s s.guardTestCheck := by
  unfold State.guardTestCheck; split
  · exact State.posts_only s n _
  · exact OnlyPump.refl n s

theorem onlyPump_transit (s : State) (n : Fin 4) (x : List Instr) : OnlyPump n s { s with transit := x } := by
  constructor
  case pump => intro m _; rfl
  all_goals rfl

/-- The actuators and what follows may move. -/
def actScope := Scope.parts Part.ofActs

/-- The plans and what follows may move. -/
def planScope := Scope.parts Part.ofPlans

/-- The journal may move. -/
def jrnScope := Scope.parts Part.ofJournal

/-- The frost unit and what follows may move. -/
def frostScope : Scope := Scope.parts fun p => p.ofActs || decide (p = .frost)

/-- The calendar and what follows may move. -/
def calScope : Scope := Scope.parts fun p => p.ofPlans || decide (p = .cal)

end Sys2Proof.Machine
end

