-- ==== Sys2Proof/WellFormed.lean ====
section
/-! DEFINITION. Which operands a command may carry: the ranges the spec gives them. A meaning is total and does not
rest on these checks; they say which terms are commands of the NZ418. -/

namespace Sys2Proof

/-- A tower time the clock can show (R65). -/
def timeOk (t : Time) : Bool := decide (0 ≤ t ∧ t ≤ Config.lastSecond)

/-- A plan or hold number (Table 5-2, Table 3-6). -/
def numberOk (n : Nat) : Bool := decide (1 ≤ n ∧ n ≤ 255)

/-- A claim level with its urgent flag: the flag is set on level 6 and on no other (R73). -/
def levelOk (level : Nat) (urgent : Bool) : Bool := decide (1 ≤ level ∧ level ≤ 6) && (urgent == decide (level = 6))

/-- A judgement the survey unit can make (R8, R9): a level field of 65535 exactly with quality NONE, ranges of Table 0-2. -/
def Judgement.wf (j : Judgement) : Bool :=
  (if j.quality = .none then decide (j.level = Config.noLevel) else decide (j.level ≤ 40000))
    && decide (j.volume ≤ 4000000) && timeOk j.time && (decide (j.period = 1) || decide (j.period = 10))

/-- A record of 2 to 12 words (R153): 8 bytes of header, 4 of order reference when present, the body. -/
def Rec.wf (r : Rec) : Bool :=
  let n := 8 + (if r.ref.isSome then 4 else 0) + r.body.length
  decide (n % 4 = 0 ∧ 8 ≤ n ∧ n ≤ 48)

/-- A report names each pump at most once (R83, "Pumps engaged"). -/
def Report.wf : Report → Bool
  | .inletOpen => true
  | .inletStuck => true
  | .inletLost => true
  | .inletTaken => true
  | .left => true
  | .pumps engaged _ => decide engaged.Nodup

/-- Well-formed commands. -/
def Instr.wf : Instr → Bool
  | .survey _ => true
  | .clockSetReport old new => timeOk old && timeOk new
  | .guardJudgement j => j.wf
  | .frostStateChange _ => true
  | .guardTravelEnd => true
  | .claim _ units level urgent => decide (1 ≤ units ∧ units ≤ 250) && levelOk level urgent
  | .withdrawal _ => true
  | .grantRelease _ => true
  | .relevel _ level urgent => levelOk level urgent
  | .maskChange mask => decide (mask ≤ 5)
  | .budgetChange budget => decide (budget ≤ 250)
  | .arbiterMainsLoss => true
  | .tryBegin _ => true
  | .tryDeadline _ => true
  | .retryDeadline _ => true
  | .runFeedbackChange _ _ => true
  | .minRunElapsed _ => true
  | .stopConfirmExpiry _ => true
  | .minOffExpiry _ => true
  | .startListAgeing _ => true
  | .recall _ => true
  | .stageRequest plan count leaving => numberOk plan && decide (count ≤ 4) && (!leaving || decide (count = 0))
  | .planGrant plan => numberOk plan
  | .inletCommand owner _ => decide (owner ≠ .none ∧ owner ≠ .frost)
  | .limitSwitchChange _ _ => true
  | .travelDeadline => true
  | .heaterStartRequest _ level urgent => levelOk level urgent
  | .heaterStopRequest _ => true
  | .heaterCurrentChange _ _ => true
  | .heaterTryDeadline _ => true
  | .heaterRetryEnd _ => true
  | .heaterStuckExpiry _ => true
  | .holdDeadline number => numberOk number
  | .actuatorMainsLoss => true
  | .actuatorMainsRestore => true
  | .tariffEvaluation => true
  | .clockRollover => true
  | .cheapStart w endTime => decide (1 ≤ w.slot ∧ w.slot ≤ 3) && decide (0 ≤ endTime)
  | .cheapEnd w => decide (1 ≤ w.slot ∧ w.slot ≤ 3)
  | .planJudgement j => j.wf
  | .startAtPasses plan => numberOk plan
  | .inletSeized => true
  | .inletFree => true
  | .actuatorReport plan r => numberOk plan && r.wf
  | .pumpAvailable _ => true
  | .turnoverRequest => true
  | .planMainsLoss => true
  | .frostJudgement j => j.wf
  | .heaterNotice _ _ => true
  | .turnoverCreated => true
  | .mapEntryWrite _ _ => true
  | .contentWrite a _ => decide (128 ≤ a.toNat)
  | .attnWrite _ => true
  | .attnEnWrite _ => true
  | .latch _ => true
  | .key _ => true
  | .ignoredWrite a _ => decide (a.toNat = 0x4000 ∨ 0x4005 ≤ a.toNat)
  | .pageTake => true
  | .setClock _ _ => true
  | .adoptSettings _ => true
  | .setTarget _ _ => true
  | .fillNow _ _ _ _ => true
  | .turnoverNow _ => true
  | .cancelPlan _ _ => true
  | .readPlan _ _ => true
  | .readActuator _ _ => true
  | .startPump _ _ _ => true
  | .stopPump _ _ _ => true
  | .openInlet _ _ => true
  | .closeInlet _ _ => true
  | .releaseManual _ => true
  | .holdActuator _ _ => true
  | .releaseHold _ _ => true
  | .clearFailure _ _ => true
  | .resetGuard _ => true
  | .guardTest _ => true
  | .journalMark _ _ => true
  | .flushJournal _ => true
  | .orderComplete _ st _ result => decide (st = .done ∨ st = .failed ∨ st = .aborted) && decide (result.length ≤ 12)
  | .orderTimeLimit _ => true
  | .pageAnswer _ => true
  | .serviceExpiry => true
  | .localEntry => true
  | .localExit => true
  | .orderMainsLoss => true
  | .recordArrival r => r.wf
  | .pageOpen => true
  | .journalAgeExpiry => true
  | .mainsLoss => true
  | .mainsRestore => true
  | .staggerEnd => true
  | .coldStart _ => true
  | .pinReset _ => true
  | .resetInputAsserted => true

end Sys2Proof
end

