-- ==== Sys2Proof/Tests/Slice0.lean ====
section
/-! SUPPORT. Tests on small states: terms each check of WellFormed refuses, single commands, and for every obligation with
hypotheses a state and operands that meet them, clause by clause. -/

namespace Sys2Proof.Tests

open Sys2Proof Sys2Proof.Machine

set_option Elab.async false

/-! ## Small states -/

/-- Settings of a plant with four pumps, three fitted heaters, and a budget of 10 units. -/
def plant : Settings := { factory with
  pumps := Vector.replicate 4 ⟨true, 500, 2⟩
  zones := #v[⟨true, 3, 2, 5, 50, 100, -50, 2⟩, ⟨true, 4, 3, 5, 50, 100, -50, 2⟩, ⟨true, 5, 1, 5, 50, 100, -50, 2⟩,
    ⟨false, 3, 1, 0, -400, -400, -400, 1⟩]
  startTryLimit := 2, heaterTryLimit := 2, startsPerHour := 6, minRun := 60, minOff := 90, loadBudget := 10
  siteCode := 7, waterChannel := some 4, turnoverTemp := 40 }

/-- A part in RUN and SERVICE at 10 000 s, page 5 taken and run, nothing else going on. -/
def base : State := { State.reset with
  sys := { State.reset.sys with settings := plant, power := .run, started := true }
  port := { State.reset.port with mapReady := true }
  jrn := { State.reset.jrn with starting := false }
  cal := { State.reset.cal with count := 10000, set := true }
  arb := ArbState.initial plant
  guard := GuardState.initial plant
  frost := FrostCtl.initial plant
  eng := { State.reset.eng with access := .service, serviceEnd := some 10000, taken := [⟨5, 7, false, 0⟩] } }

/-- The order of slot 0 of page 5. -/
def order : OrderRef := ⟨5, 0⟩

/-- A pump entry in a state, with feedback and contactor as the state has them. -/
def pumpIn (m : PumpMode) : Pump := { Pump.initial with
  mode := m, contactor := decide (m = .starting ∨ m = .running), feedback := decide (m = .running ∨ m = .stopping)
  owner := .manual, request := .start, claim := .granted, runSince := some 9940, tryDl := some 10000, retryDl := some 10000
  stopDl := some 10000, offEnd := some 10000 }

/-- A heater entry in a state. -/
def heaterIn (m : HeaterMode) (current : Bool) : Heater := { Heater.initial with
  mode := m, contactor := decide (m = .starting ∨ m = .on), current := current, owner := .frost, request := .start
  claim := .granted, tryDl := some 10000, retryDl := some 10000 }

/-- The base with pump 0 in a state and MANUAL at the inlet, which is open. -/
def withPump (p : Pump) : State :=
  (base.setPump 0 p).modInlet fun v => { v with owner := .manual, cmd := some .opened, mode := .opened, openLs := true }

/-- The base with an inlet. -/
def withInlet (o : Owner) (m : InletMode) (c : Option Position) : State := base.modInlet fun v => { v with
  owner := o, mode := m, cmd := c, openLs := decide (m = .opened), closedLs := decide (m = .closed), travelDl := some 10000 }

/-- The base with heater 1 in a state. -/
def withHeater (p : Heater) : State := base.setHeater 1 p

/-- The base with a hold in its table. -/
def withHold (h : Hold) : State :=
  { base with act := { base.act with holds := [h] } }.setHoldOf h.act (some h.number)

/-- A plan in a state. -/
def planIn (k : PlanKind) (st : PlanState) (c : Option Pause) : Plan := { base.blankPlan k .calendar 20000 (some 10000) with
  state := st, pause := c, window := some ⟨0, 1⟩, stage := 1 }

/-- The base with plan 1 in its table. -/
def withPlan (p : Plan) : State := { base with plans := { base.plans with slots := base.plans.slots.set 0 (some p) } }

/-- A judgement of a quality and a level. -/
def judged' (q : Quality) (l : Nat) : Judgement :=
  ⟨l, .belowLow, q, false, false, 100, 0, 0, false, ⟨15, true⟩, ⟨20, true⟩, Vector.replicate 4 ⟨50, true⟩, ⟨false, false, false, false⟩,
    Vector.replicate 8 ⟨false, 0⟩, 10000, 1, false⟩

/-- The inputs of a start. -/
def inputs : StartInputs :=
  ⟨⟨Vector.replicate 8 1000, ⟨false, false, false, false⟩⟩, 1, true, false, Vector.replicate 4 false, Vector.replicate 4 false,
    false, true, none⟩

/-- What a command leaves passes a test. -/
def after (c : Instr) (s : State) (f : State → Bool) : Bool := match exec c s with
  | .next t => f t
  | _ => false

/-! ## Well-formedness: each check refuses a term -/

theorem test_wf_time : (Instr.clockSetReport (-1) 0).wf = false := by decide

theorem test_wf_time_end : (Instr.clockSetReport 0 3155760000).wf = false := by decide

theorem test_wf_judgement_level : (Instr.guardJudgement (judged' .good 40001)).wf = false := by decide

theorem test_wf_judgement_none : (Instr.planJudgement (judged' .none 5)).wf = false := by decide

theorem test_wf_judgement_period : (Instr.frostJudgement { judged' .good 5 with period := 2 }).wf = false := by decide

theorem test_wf_judgement_volume : (Instr.frostJudgement { judged' .good 5 with volume := 4000001 }).wf = false := by decide

theorem test_wf_units : (Instr.claim (.pump 0) 0 1 false).wf = false ∧ (Instr.claim (.pump 0) 251 1 false).wf = false := by decide

theorem test_wf_level : (Instr.claim (.pump 0) 1 0 false).wf = false ∧ (Instr.relevel (.pump 0) 7 true).wf = false := by decide

theorem test_wf_urgent : (Instr.heaterStartRequest 0 5 true).wf = false ∧ (Instr.heaterStartRequest 0 6 false).wf = false := by decide

theorem test_wf_mask : (Instr.maskChange 6).wf = false := by decide

theorem test_wf_budget : (Instr.budgetChange 251).wf = false := by decide

theorem test_wf_stage : (Instr.stageRequest 1 5 false).wf = false ∧ (Instr.stageRequest 1 1 true).wf = false := by decide

theorem test_wf_plan_number : (Instr.planGrant 0).wf = false ∧ (Instr.startAtPasses 256).wf = false := by decide

theorem test_wf_hold_number : (Instr.holdDeadline 256).wf = false := by decide

theorem test_wf_owner : (Instr.inletCommand .none .opened).wf = false ∧ (Instr.inletCommand .frost .closed).wf = false := by decide

theorem test_wf_slot : (Instr.cheapStart ⟨0, 0⟩ 5).wf = false ∧ (Instr.cheapEnd ⟨0, 4⟩).wf = false ∧ (Instr.cheapStart ⟨0, 1⟩ (-1)).wf = false := by decide

theorem test_wf_report : (Instr.actuatorReport 1 (.pumps [0, 0] .staged)).wf = false := by decide

theorem test_wf_word : (Instr.contentWrite 127 0).wf = false := by decide

theorem test_wf_ignored : (Instr.ignoredWrite 0x4003 0).wf = false := by decide

theorem test_wf_status : (Instr.orderComplete order .retry .busy []).wf = false := by decide

theorem test_wf_result : (Instr.orderComplete order .done .none (List.replicate 13 0)).wf = false := by decide

theorem test_wf_record : (Instr.recordArrival ⟨.mark, 0, none, [0]⟩).wf = false ∧ (Instr.recordArrival ⟨.mark, 0, none, List.replicate 44 0⟩).wf = false := by decide

/-! ## Single commands -/

theorem test_no_word_spells_a_command : ∀ n w, decodeTableWord n w = none := fun _ _ => rfl

theorem test_word_puts_nothing_in_front : ∀ n w, State.withFetchWord base n w = base := fun _ _ => rfl

theorem test_try_begins :
    after (.tryBegin (.pump 0)) (withPump (pumpIn .ready)) (fun t => decide (((t.pump 0).mode, (t.pump 0).contactor, (t.pump 0).tryDl) = (.starting, true, some 10002))) = true := by decide +kernel

theorem test_try_confirmed :
    after (.runFeedbackChange 0 true) (withPump (pumpIn .starting)) (fun t => decide (((t.pump 0).mode, (t.pump 0).tries) = (.running, 0))) = true := by decide +kernel

theorem test_try_fails_once :
    after (.tryDeadline 0) (withPump (pumpIn .starting)) (fun t => decide (((t.pump 0).mode, (t.pump 0).tries, (t.pump 0).retryDl) = (.retryWait, 1, some 10010))) = true := by decide +kernel

theorem test_guard_trips :
    after (.guardJudgement { judged' .floatsOnly 5 with floats := ⟨true, true, true, false⟩ }) (withPump (pumpIn .running)) (fun t => decide ((t.guard.mode, t.guard.first, (t.pump 0).contactor, t.act.inlet.mode, t.act.inlet.owner) = (.tripped, some .topFloat, false, .closing, .guard))) = true := by decide +kernel

theorem test_claim_granted :
    after (.claim (.pump 2) 2 4 false) base (fun t => decide ((t.arb.grants.map Grant.who, t.arb.claims, t.arb.join) = ([.pump 2], [], 1))) = true := by decide +kernel

theorem test_claim_too_big_waits :
    after (.claim (.pump 2) 11 4 false) base (fun t => decide ((t.arb.grants, t.arb.claims.map Claim.units) = ([], [11]))) = true := by decide +kernel

theorem test_key_opens_service :
    after (.key 7) { base with eng := { base.eng with access := .normal } } (fun t => decide ((t.eng.access, t.eng.serviceEnd) = (.service, some 11800))) = true := by decide +kernel

theorem test_key_wrong :
    after (.key 8) { base with eng := { base.eng with access := .normal } } (fun t => decide (t.eng.access = .normal)) = true := by decide +kernel

theorem test_page_map_transition :
    after (.mapEntryWrite 9 0x0501) base (fun t => decide ((t.entry 9) = ⟨.orderDraft, 5⟩)) = true := by decide +kernel

theorem test_page_map_drop :
    after (.mapEntryWrite 9 0x0503) base (fun t => decide (((t.entry 9).state, t.port.protect.captured, t.port.protect.cause, t.port.attn) = (.free, true, .mapTransition, 8))) = true := by decide +kernel

theorem test_content_to_the_board_dropped :
    after (.contentWrite 130 7) base (fun t => decide ((t.port.protect.cause, t.mem.read 260) = (.board, 130))) = true := by decide +kernel

theorem test_settings_written_in_service :
    after (.contentWrite 256 0xA1B2) base (fun t => decide ((t.mem.read 512, t.mem.read 513) = (0xB2, 0xA1))) = true := by decide +kernel

theorem test_attention_cleared :
    after (.attnWrite 9) { base with port := { base.port with attn := 0x3F } } (fun t => decide ((t.port.attn) = 0x36)) = true := by decide +kernel

theorem test_mains_loss :
    after .mainsLoss base (fun t => decide ((t.sys.power, t.transit.map fun m => m == .arbiterMainsLoss) = (.dark, [false, true, false, false]))) = true := by decide +kernel

theorem test_order_to_an_unfitted_zone :
    after (.clearFailure order 8) base (fun t => decide ((t.orderStatus 5 0, t.byte 5 19) = (Status.refused.code, Reason.notFitted.code))) = true := by decide +kernel

theorem test_hold_of_a_resting_pump :
    after (.holdActuator order 3) base (fun t => decide (((t.pump 3).mode, (t.pump 3).hold, t.orderStatus 5 0, t.byte 5 28) = (.held, some 1, Status.done.code, 1))) = true := by decide +kernel

theorem test_turnover_made :
    after .turnoverRequest { base with survey := { base.survey with judgement := some (judged' .good 15000) } } (fun t => decide ((t.planList.map fun p => (p.number, p.draw, p.startLevel), t.transit) = ([(1, true, some 15000)], [.turnoverCreated]))) = true := by decide +kernel

theorem test_frost_from_none :
    after (.frostJudgement { judged' .good 5 with air := ⟨20, true⟩ }) base (fun t => decide ((t.frost.state, (t.zone 0).state, (t.zone 3).state) = (.frost, .want, .disabled))) = true := by decide +kernel

theorem test_crc_of_check_string : crc16 [0x31, 0x32, 0x33, 0x34, 0x35, 0x36, 0x37, 0x38, 0x39] = 0x29B1#16 := by decide +kernel

/-! ## Hypotheses that are met -/

theorem witness_FrontCommandRuns :
    ({ base with pending := [.latch 0, .pageOpen] } : State).pending = .latch 0 :: [.pageOpen] := by
  repeat' first
    | decide +kernel
    | constructor

theorem witness_EmptyQueueStep :
    base.pending = [] ∧
    ({ base with sys := { base.sys with held := true } } : State).sys.held = true ∧
    base.sys.held = false ∧
    base.transit = [] ∧
    ({ base with transit := [.pageOpen] } : State).transit = .pageOpen :: [] ∧
    base.cal.count ≠ Config.lastSecond ∧
    ({ base with cal := { base.cal with count := Config.lastSecond } } : State).cal.count = Config.lastSecond := by
  repeat' first
    | decide +kernel
    | constructor

theorem witness_EmptyQueueStep_held : ({ base with sys := { base.sys with held := true } } : State).sys.held = true
    ∧ reachesOut .pageOpen = false ∧ (∀ v, Instr.pageOpen ≠ .attnWrite v) ∧ (∀ v, Instr.pageOpen ≠ .attnEnWrite v)
    ∧ (∀ v, Instr.pageOpen ≠ .latch v) ∧ ∀ v, Instr.pageOpen ≠ .key v := ⟨rfl, rfl, nofun, nofun, nofun, nofun⟩

theorem witness_MemoryFormKept : (∃ t, step (withPump (pumpIn .running)) = .next t) ∧ (withPump (pumpIn .running)).mem.wf = true :=
  ⟨⟨_, rfl⟩, by decide +kernel⟩

theorem witness_ContactorsGuardedKept : (∃ t, step (withPump (pumpIn .running)) = .next t) ∧
    ∀ n, ((withPump (pumpIn .running)).pump n).contactor = true → ((withPump (pumpIn .running)).pump n).mode = .starting
      ∨ ((withPump (pumpIn .running)).pump n).mode = .running := ⟨⟨_, rfl⟩, by decide +kernel⟩

theorem witness_ContactorsGuardedKept_premise :
    (withPump (pumpIn .running)).pumpsGuarded ∧
    (withHeater (heaterIn .on true)).heatersOk := by
  repeat' first
    | decide +kernel
    | constructor
    | unfold State.pumpsGuarded
    | unfold State.pumpsOk
    | unfold State.pumpsOff
    | unfold Pump.contactorOk
    | unfold State.heatersOk
    | unfold Heater.contactorOk

theorem witness_LoadWithinBudgetKept :
    ({ base.arb with grants := [⟨.pump 0, 10, 4, false, 0, false⟩], claims := [⟨.pump 1, 3, 3, false, 1⟩] } : ArbState).sound := by
  repeat' first
    | decide +kernel
    | constructor
    | unfold ArbState.sound

theorem witness_TablesWithinRoomKept :
    base.withinRoom := by
  repeat' first
    | decide +kernel
    | constructor
    | unfold State.withinRoom

theorem witness_FamilyFrames_memory : reachesOut (.latch 0) = false ∧ (∃ t, exec (.latch 0) State.reset = .next t) ∧
    ∀ p, State.reset.ownPage p → 512 < addr p 0 ∨ addr p 256 ≤ 512 :=
  ⟨rfl, ⟨_, rfl⟩, by rintro p (⟨o, h, _⟩ | h | ⟨o, h, _⟩ | h) <;> cases h⟩

theorem witness_FloatsDebounced :
    base.survey.prev = none ∧
    ({ base with survey := { base.survey with prev := some ⟨true, false, false, false⟩ } } : State).survey.prev = some ⟨true, false, false, false⟩ := by
  repeat' first
    | decide +kernel
    | constructor

theorem witness_ChannelStates :
    inRange 0 = false ∧
    inRange 1000 = true ∧
    (⟨false, 1, some 5⟩ : Channel).failed = false ∧
    (⟨false, 1, some 5⟩ : Channel).bad < 2 ∧
    2 ≤ (⟨false, 2, some 5⟩ : Channel).bad ∧
    (⟨true, 1, none⟩ : Channel).failed = true ∧
    (⟨true, 1, none⟩ : Channel).bad ≤ 1 ∧
    1 < (⟨true, 2, none⟩ : Channel).bad := by
  repeat' first
    | decide +kernel
    | constructor

theorem witness_SurveyRuns_clock :
    base.sys.held = false ∧
    300 < ((10301 : Int) - 10000).natAbs ∧
    300 < ((9699 : Int) - 10000).natAbs ∧
    ((9700 : Int) - 10000).natAbs ≤ 300 := by
  repeat' first
    | decide +kernel
    | constructor

theorem witness_GuardConfirmCount :
    base.sys.held = false ∧
    (((judged' .good 33000).quality = .good ∨ (judged' .good 33000).quality = .single) ∧ base.guard.effTrip ≤ (judged' .good 33000).level) ∧
    (¬(((judged' .good 32999).quality = .good ∨ (judged' .good 32999).quality = .single) ∧ base.guard.effTrip ≤ (judged' .good 32999).level)) := by
  repeat' first
    | decide +kernel
    | constructor

theorem witness_GuardJudges_open :
    base.sys.held = false ∧
    (base.guard.mode = .clear ∨ base.guard.mode = .watch) ∧
    (withPump (pumpIn .running)).pumpsGuarded ∧
    causesAt base.set (base.guard.confirmAfter base.set (judged' .none 65535)) (judged' .none 65535) ≠ [] ∧
    causesAt base.set (base.guard.confirmAfter base.set (judged' .good 32000)) (judged' .good 32000) = [] := by
  repeat' first
    | decide +kernel
    | constructor
    | unfold State.pumpsGuarded
    | unfold State.pumpsOk
    | unfold State.pumpsOff
    | unfold Pump.contactorOk

theorem witness_GuardJudges_seized :
    ({ base.guard with mode := .tripped, release := some 59, causes := [.level] } : GuardState).mode = .tripped ∧
    releaseMet base.set (judged' .good 29999) = true ∧
    releaseMet base.set (judged' .good 30000) = false ∧
    base.set.releaseDelay ≤ 60 ∧
    59 < base.set.releaseDelay ∧
    (base.set.releaseAck = true ∨ Cause.test ∈ [Cause.level]) ∧
    (({ plant with releaseAck := false } : Settings).releaseAck = false ∧ Cause.test ∉ [Cause.level]) ∧
    ({ base.guard with mode := .held } : GuardState).mode = .held ∧
    causesAt base.set 0 (judged' .none 65535) ≠ [] ∧
    causesAt base.set 0 (judged' .good 5) = [] := by
  repeat' first
    | decide +kernel
    | constructor

theorem witness_GuardIsTold :
    base.sys.held = false ∧
    ({ withInlet .guard .stuck (some .closed) with guard := { base.guard with mode := .held } } : State).guard.mode.seizes = true ∧
    ({ withInlet .guard .stuck (some .closed) with guard := { base.guard with mode := .held } } : State).drives = true ∧
    ({ withInlet .guard .stuck (some .closed) with guard := { base.guard with mode := .held } } : State).act.inlet.leaving = false ∧
    ({ withInlet .guard .stuck (some .closed) with guard := { base.guard with mode := .held } } : State).act.inlet.releasing = false ∧
    ({ withInlet .guard .stuck (some .closed) with guard := { base.guard with mode := .held } } : State).act.inlet.mode = .stuck := by
  repeat' first
    | decide +kernel
    | constructor

theorem witness_ArbiterEvents :
    base.sys.held = false ∧
    base.arb.has (.pump 2) = false ∧
    ({ base.arb with grants := [⟨.pump 0, 2, 3, false, 0, false⟩], claims := [⟨.pump 1, 3, 3, false, 1⟩] } : ArbState).has (.pump 0) = true ∧
    (∃ c ∈ ({ base.arb with grants := [⟨.pump 0, 2, 3, false, 0, false⟩], claims := [⟨.pump 1, 3, 3, false, 1⟩] } : ArbState).claims, c.who = .pump 1) ∧
    (∀ c ∈ ({ base.arb with grants := [⟨.pump 0, 2, 3, false, 0, false⟩], claims := [⟨.pump 1, 3, 3, false, 1⟩] } : ArbState).claims, c.who ≠ .pump 0) ∧
    (∃ g ∈ ({ base.arb with grants := [⟨.pump 0, 2, 3, false, 0, false⟩], claims := [⟨.pump 1, 3, 3, false, 1⟩] } : ArbState).grants, g.who = .pump 0) ∧
    (∀ g ∈ ({ base.arb with grants := [⟨.pump 0, 2, 3, false, 0, false⟩], claims := [⟨.pump 1, 3, 3, false, 1⟩] } : ArbState).grants, g.who ≠ .pump 1) ∧
    ({ base.arb with grants := [⟨.pump 0, 2, 3, false, 0, false⟩], claims := [⟨.pump 1, 3, 3, false, 1⟩] } : ArbState).claims.find? (fun c => decide (c.who = .pump 1)) = some ⟨.pump 1, 3, 3, false, 1⟩ ∧
    ({ base.arb with grants := [⟨.pump 0, 2, 3, false, 0, false⟩], claims := [⟨.pump 1, 3, 3, false, 1⟩] } : ArbState).grants.find? (fun g => decide (g.who = .pump 0)) = some ⟨.pump 0, 2, 3, false, 0, false⟩ := by
  repeat' first
    | decide +kernel
    | constructor

theorem witness_ArbiterEvents_mask :
    base.sys.held = false ∧
    base.arb.mask < 3 ∧
    1 < base.arb.mask ∧
    2 = base.arb.mask ∧
    unitsOf ({ base.arb with grants := [⟨.pump 0, 2, 3, false, 0, false⟩], claims := [⟨.pump 1, 3, 3, false, 1⟩] } : ArbState).grants ≤ 2 ∧
    1 < unitsOf ({ base.arb with grants := [⟨.pump 0, 2, 3, false, 0, false⟩], claims := [⟨.pump 1, 3, 3, false, 1⟩] } : ArbState).grants := by
  repeat' first
    | decide +kernel
    | constructor

theorem witness_MainsLossFreesAllLoad :
    base.sys.held = false ∧
    ({ base with sys := { base.sys with power := .dark } } : State).sys.power = .dark ∧
    ({ base with sys := { base.sys with power := .start } } : State).sys.power ≠ .run ∧
    base.arb.has (.heater 1) = false := by
  repeat' first
    | decide +kernel
    | constructor

theorem witness_ClaimListAndWalk :
    [(⟨.pump 1, 3, 3, false, 1⟩ : Claim), ⟨.pump 2, 3, 3, false, 2⟩, ⟨.pump 3, 1, 1, false, 0⟩].Pairwise (fun x y => y.level ≤ x.level) ∧
    unitsOf [(⟨.pump 0, 2, 3, false, 0, false⟩ : Grant)] ≤ 2 := by
  repeat' first
    | decide +kernel
    | constructor

theorem witness_ClaimListAndWalk_preempt :
    ([(⟨.pump 0, 2, 3, false, 0, false⟩ : Grant), ⟨.pump 1, 2, 3, false, 1, true⟩].map Grant.who).Nodup := by
  repeat' first
    | decide +kernel
    | constructor

theorem witness_TriesBegin :
    (withPump (pumpIn .ready)).sys.held = false ∧
    (withPump (pumpIn .ready)).mayTry 0 ∧
    ((withPump (pumpIn .ready)).pump 0).feedback = false ∧
    ((withPump { pumpIn .ready with feedback := true }).pump 0).feedback = true ∧
    (withHeater (heaterIn .ready false)).mayHeat 1 ∧
    (withHeater (heaterIn .ready true)).mayHeat 1 ∧
    ((withHeater (heaterIn .ready true)).heater 1).current = true ∧
    (withPump (pumpIn .ready)).act.inlet.calm ∧
    (withPump (pumpIn .ready)).allEstablished ∧
    (¬base.canTry 0) ∧
    (¬base.canTryHeater 0) := by
  repeat' first
    | decide +kernel
    | constructor
    | unfold Inlet.calm
    | unfold State.allEstablished

theorem witness_TriesBegin_not : ¬base.mayTry 0 ∧ ¬base.mayHeat 0 :=
  ⟨fun h => absurd h.request (by decide +kernel), fun h => absurd h.request (by decide +kernel)⟩

theorem witness_TriesFail :
    (withPump (pumpIn .starting)).sys.held = false ∧
    (withPump (pumpIn .starting)).unpending (.pump 0) ∧
    ((withPump (pumpIn .starting)).pump 0).mode = .starting ∧
    (withPump (pumpIn .starting)).due ((withPump (pumpIn .starting)).pump 0).tryDl = true ∧
    ((withPump (pumpIn .starting)).pump 0).feedback = false ∧
    ((withPump (pumpIn .starting)).pump 0).tries + 1 < (withPump (pumpIn .starting)).set.startTryLimit ∧
    ((withPump (pumpIn .starting)).pump 0).request = .start ∧
    ((withPump (pumpIn .starting)).pump 0).claim ≠ .recalled ∧
    (withPump (pumpIn .starting)).set.startTryLimit ≤ ((withPump { pumpIn .starting with tries := 1 }).pump 0).tries + 1 ∧
    ((withPump { pumpIn .starting with tries := 1 }).pump 0).owner ≠ .hold ∧
    ((withPump { pumpIn .starting with owner := .hold }).pump 0).owner = .hold ∧
    ((withPump (pumpIn .retryWait)).pump 0).mode = .retryWait ∧
    (withPump (pumpIn .retryWait)).due ((withPump (pumpIn .retryWait)).pump 0).retryDl = true ∧
    (withPump (pumpIn .retryWait)).unheld (.pump 0) ∧
    ((withPump { pumpIn .retryWait with request := .none }).pump 0).request ≠ .start ∧
    ((withPump { pumpIn .retryWait with claim := .none }).pump 0).claim = .none ∧
    ((withPump { pumpIn .retryWait with claim := .claimed }).pump 0).claim ≠ .granted ∧
    ((withPump (pumpIn .retryWait)).pump 0).claim = .granted := by
  repeat' first
    | decide +kernel
    | constructor
    | unfold State.unpending
    | unfold State.unheld

theorem witness_FeedbackChanges :
    ((withPump (pumpIn .starting)).pump 0).feedback = false ∧
    (withPump { pumpIn .failed with feedback := false }).sys.power ≠ .dark ∧
    base.eng.access ≠ .localControl ∧
    ((withPump (pumpIn .resting)).pump 0).contactor = false ∧
    ((withPump (pumpIn .resting)).pump 0).mode = .resting ∧
    ((withPump (pumpIn .failed)).pump 0).mode = .failed ∧
    ({ base with eng := { base.eng with access := .localControl } } : State).eng.access = .localControl ∧
    ((withPump (pumpIn .running)).pump 0).feedback = true ∧
    ((withPump (pumpIn .running)).pump 0).mode = .running ∧
    ((withPump (pumpIn .running)).pump 0).tries + 1 < plant.startTryLimit ∧
    ((withPump (pumpIn .stopping)).pump 0).mode = .stopping ∧
    (withPump (pumpIn .stopping)).unheld (.pump 0) ∧
    (withPump (pumpIn .stopping)).unpending (.pump 0) ∧
    (withHold ⟨1, .pump 0, 9000, some 9010, 10000, order⟩).heldEstablished (.pump 0) = true ∧
    ((withPump { pumpIn .failed with feedback := true }).pump 0).mode = .failed := by
  repeat' first
    | decide +kernel
    | constructor
    | unfold State.unpending
    | unfold State.unheld

theorem witness_PumpStops :
    ((withPump (pumpIn .running)).pump 0).mode = .running ∧
    ((withPump (pumpIn .running)).pump 0).runSince = some 9940 ∧
    (9940 : Time) + plant.minRun ≤ base.now ∧
    base.now < (9941 : Time) + plant.minRun ∧
    (withPump { pumpIn .running with stopWait := true }).unpending (.pump 0) ∧
    ((withPump { pumpIn .running with stopWait := true }).pump 0).stopWait = true ∧
    ((withPump { pumpIn .running with claim := .recalled }).pump 0).claim = .recalled ∧
    (withPump (pumpIn .stopping)).due ((withPump (pumpIn .stopping)).pump 0).stopDl = true ∧
    ((withPump (pumpIn .stopping)).pump 0).feedback = true ∧
    ((withPump (pumpIn .stopping)).pump 0).waits = false ∧
    ((withPump { pumpIn .failed with feedback := true }).pump 0).mode ≠ .stopping ∧
    ((withPump (pumpIn .resting)).pump 0).mode = .resting ∧
    (withPump (pumpIn .resting)).due ((withPump (pumpIn .resting)).pump 0).offEnd = true ∧
    (withPump (pumpIn .resting)).unheld (.pump 0) := by
  repeat' first
    | decide +kernel
    | constructor
    | unfold State.unpending
    | unfold State.unheld

theorem witness_Recalls :
    (withPump (pumpIn .running)).unpending (.pump 0) ∧
    ((withPump (pumpIn .running)).pump 0).claim = .granted ∧
    ((withPump (pumpIn .starting)).pump 0).mode = .starting ∧
    (withPump (pumpIn .running)).ranEnough 0 = true ∧
    (withPump { pumpIn .running with runSince := some 9941 }).ranEnough 0 = false ∧
    ((withPump (pumpIn .stuckOn)).pump 0).mode = .stuckOn ∧
    ((withPump (pumpIn .ready)).pump 0).mode = .ready ∧
    (base.pump 1).claim ≠ .granted ∧
    (withHeater (heaterIn .on true)).unpending (.heater 1) ∧
    ((withHeater (heaterIn .on true)).heater 1).claim = .granted ∧
    ((withHeater (heaterIn .on true)).heater 1).current = true ∧
    ((withHeater (heaterIn .starting false)).heater 1).current = false := by
  repeat' first
    | decide +kernel
    | constructor
    | unfold State.unpending

theorem witness_StagesOfAPlan :
    (withInlet (.plan 1) .opened (some .opened)).sys.held = false ∧
    (withInlet (.plan 1) .opened (some .opened)).act.inlet.owner = .plan 1 ∧
    (withInlet (.plan 1) .opened (some .opened)).act.inlet.leaving = false ∧
    (∀ j, (withInlet (.plan 1) .opened (some .opened)).isEngaged 1 j = false) ∧
    (withInlet (.plan 1) .opened (some .opened)).unpending (.pump 0) ∧
    (withInlet (.plan 1) .opened (some .opened)).choosable 0 = true ∧
    ((withInlet (.plan 1) .opened (some .opened)).pump 0).claim = .none ∧
    (∀ j : Fin 4, (withInlet (.plan 1) .opened (some .opened)).choosable j = true → ((withInlet (.plan 1) .opened (some .opened)).pump 0).minutes < ((withInlet (.plan 1) .opened (some .opened)).pump j).minutes ∨ (((withInlet (.plan 1) .opened (some .opened)).pump 0).minutes = ((withInlet (.plan 1) .opened (some .opened)).pump j).minutes ∧ 0 ≤ j)) ∧
    (withInlet (.plan 1) .opened (some .opened)).plan 1 = none ∧
    (withInlet (.plan 1) .opened (some .opened)).unpending .inlet ∧
    (∀ k, ((withInlet (.plan 1) .opened (some .opened)).pump k).turning = false) ∧
    (((withInlet (.plan 1) .opened (some .opened)).setPump 2 { pumpIn .running with owner := .plan 1, runSince := some 9941 }).pump 2).owner = .plan 1 ∧
    ((withInlet (.plan 1) .opened (some .opened)).setPump 2 { pumpIn .running with owner := .plan 1, runSince := some 9941 }).ranEnough 2 = false ∧
    (withInlet (.plan 1) .opened (some .opened)).act.inlet.owner ≠ .plan 2 := by
  repeat' first
    | decide +kernel
    | constructor
    | unfold State.unpending

theorem witness_InletPassesToAPlan :
    ({ withPlan (planIn .nightFill .waiting none) with plans := { (withPlan (planIn .nightFill .waiting none)).plans with request := some 1 } } : State).sys.held = false ∧
    ({ withPlan (planIn .nightFill .waiting none) with plans := { (withPlan (planIn .nightFill .waiting none)).plans with request := some 1 } } : State).plans.request = some 1 ∧
    ({ withPlan (planIn .nightFill .waiting none) with plans := { (withPlan (planIn .nightFill .waiting none)).plans with request := some 1 } } : State).plan 1 = some (planIn .nightFill .waiting none) ∧
    ({ withPlan (planIn .nightFill .waiting none) with plans := { (withPlan (planIn .nightFill .waiting none)).plans with request := some 1 } } : State).ready (planIn .nightFill .waiting none) = true ∧
    ({ withPlan (planIn .nightFill .waiting none) with plans := { (withPlan (planIn .nightFill .waiting none)).plans with request := some 1 } } : State).inletPassable PlanKind.nightFill.rank = true ∧
    ({ withPlan (planIn .nightFill .waiting none) with plans := { (withPlan (planIn .nightFill .waiting none)).plans with request := some 1 } } : State).act.inlet.calm ∧
    ({ withPlan (planIn .nightFill .waiting none) with plans := { (withPlan (planIn .nightFill .waiting none)).plans with request := some 1 } } : State).unpending .inlet ∧
    (withInlet (.plan 2) .opened none).act.inlet.owner = .plan 2 ∧
    (withInlet .guard .closed none).act.inlet.owner = .guard := by
  repeat' first
    | decide +kernel
    | constructor
    | unfold State.unpending
    | unfold Inlet.calm

theorem witness_InletMoves_command :
    (withInlet .manual .closed (some .closed)).sys.held = false ∧
    (withInlet .manual .closed (some .closed)).act.inlet.owner = .manual ∧
    (withInlet .manual .closed (some .closed)).act.inlet.calm ∧
    (withInlet .manual .closed (some .closed)).unpending .inlet ∧
    (withInlet .manual .closed (some .closed)).drives = true ∧
    (withInlet .manual .closed (some .closed)).act.inlet.mode = .closed ∧
    (withInlet .manual .opening (some .opened)).act.inlet.mode = .opening ∧
    (withInlet .manual .opened none).act.inlet.mode = .opened ∧
    (∀ k, ((withInlet .manual .closed (some .closed)).pump k).turning = false) ∧
    (withPump { pumpIn .running with runSince := some 9941 }).ownersPump ((withPump { pumpIn .running with runSince := some 9941 }).pump 0) = true ∧
    (withPump { pumpIn .running with runSince := some 9941 }).ranEnough 0 = false ∧
    ((withInlet .guard .midway none).act.inlet.mode ≠ .closed ∧ (withInlet .guard .midway none).act.inlet.mode ≠ .closing) ∧
    (withInlet .manual .closed (some .closed)).act.inlet.owner ≠ .plan 1 := by
  repeat' first
    | decide +kernel
    | constructor
    | unfold State.unpending
    | unfold Inlet.calm

theorem witness_InletMoves_switch :
    (withInlet .manual .closed (some .closed)).act.inlet.calm ∧
    (withInlet .manual .closed (some .closed)).unpending .inlet ∧
    (withInlet .manual .opening (some .opened)).act.inlet.openLs = false ∧
    (withInlet .manual .closing (some .closed)).act.inlet.closedLs = false ∧
    (withInlet .manual .opened (some .opened)).act.inlet.openLs = true ∧
    ((withPump (pumpIn .running)).pump 0).mode = .running ∧
    (withPump (pumpIn .running)).act.inlet.cmd = some .opened ∧
    (withPump (pumpIn .running)).drives = true ∧
    (withInlet .manual .opened none).act.inlet.cmd = none ∧
    (¬((withInlet .manual .opened none).act.inlet.openLs = true ∧ (withInlet .manual .opened none).act.inlet.closedLs = true)) ∧
    (withInlet .manual .closing none).act.inlet.mode = .closing ∧
    (withInlet .manual .closing none).due (withInlet .manual .closing none).act.inlet.travelDl = true := by
  repeat' first
    | decide +kernel
    | constructor
    | unfold State.unpending
    | unfold Inlet.calm

theorem witness_HeaterEvents_request :
    base.sys.held = false ∧
    (withHeater { heaterIn .ready false with claim := .none }).unpending (.heater 1) ∧
    ((withHeater { heaterIn .ready false with claim := .none }).zoneSet 1).fitted = true ∧
    ((withHeater { heaterIn .ready false with claim := .none }).heater 1).hold = none ∧
    ((withHeater { heaterIn .ready false with claim := .none }).heater 1).mode ≠ .failed ∧
    ((withHeater { heaterIn .ready false with claim := .none }).heater 1).mode ≠ .held ∧
    ((withHeater { heaterIn .ready false with claim := .none }).heater 1).claim = .none ∧
    (base.zoneSet 3).fitted = false ∧
    ((withHeater (heaterIn .on true)).heater 1).owner = .frost ∧
    ((withHeater (heaterIn .on true)).heater 1).mode = .on ∧
    ((withHeater (heaterIn .on true)).heater 1).current = true ∧
    ((withHeater { heaterIn .ready false with claim := .none }).heater 1).current = false := by
  repeat' first
    | decide +kernel
    | constructor
    | unfold State.unpending

theorem witness_HeaterEvents_try :
    ((withHeater (heaterIn .starting false)).heater 1).current = false ∧
    ((withHeater (heaterIn .failed false)).heater 1).contactor = false ∧
    ((withHeater (heaterIn .failed false)).heater 1).waits = false ∧
    ((withHeater (heaterIn .on true)).heater 1).tries + 1 < plant.heaterTryLimit ∧
    plant.heaterTryLimit ≤ ((withHeater { heaterIn .on true with tries := 1 }).heater 1).tries + 1 ∧
    (withHeater (heaterIn .starting false)).due ((withHeater (heaterIn .starting false)).heater 1).tryDl = true ∧
    (withHeater (heaterIn .retryWait false)).due ((withHeater (heaterIn .retryWait false)).heater 1).retryDl = true ∧
    ((withHeater { heaterIn .retryWait false with claim := .claimed }).heater 1).claim ≠ .granted ∧
    (withHeater { heaterIn .ready true with stuckDl := some 10000 }).due ((withHeater { heaterIn .ready true with stuckDl := some 10000 }).heater 1).stuckDl = true ∧
    (withHeater (heaterIn .on true)).unpending (.heater 1) := by
  repeat' first
    | decide +kernel
    | constructor
    | unfold State.unpending

theorem witness_HoldsExpire :
    (withHold ⟨1, .pump 0, 9000, some 9010, 10000, order⟩).act.holds.find? (fun x => decide (x.number = 1)) = some ⟨1, .pump 0, 9000, some 9010, 10000, order⟩ ∧
    (∀ x ∈ (withHold ⟨1, .pump 0, 9000, some 9010, 10000, order⟩).act.holds, x.number ≠ 1 → x.established.isSome = true ∧ x.act ≠ .pump 0) ∧
    (⟨1, .pump 0, 9000, some 9010, 10000, order⟩ : Hold).deadline ≤ (withHold ⟨1, .pump 0, 9000, some 9010, 10000, order⟩).now ∧
    base.now < (⟨1, .inlet, 9000, some 9010, 10001, order⟩ : Hold).deadline ∧
    (withHold ⟨1, .inlet, 9000, some 9010, 10000, order⟩).act.inlet.calm ∧
    (withHold ⟨1, .inlet, 9000, some 9010, 10000, order⟩).act.inlet.owner ≠ .guard := by
  repeat' first
    | decide +kernel
    | constructor
    | unfold Inlet.calm

theorem witness_MainsAndStagger_station :
    base.sys.held = false ∧
    (withPump (pumpIn .running)).unheld (.pump 0) ∧
    (withPump (pumpIn .running)).unpending .inlet ∧
    (withPump (pumpIn .running)).act.inlet.hold = none ∧
    (withPump (pumpIn .running)).act.inlet.owner = .manual ∧
    (withInlet .guard .closing none).act.inlet.owner = .guard ∧
    ((withPump { pumpIn .resting with offWaived := true, request := .none }).pump 0).offWaived = true ∧
    ((withPump { pumpIn .resting with offWaived := true, request := .none }).pump 0).feedback = false ∧
    judged (withInlet .guard .midway none).act.inlet.openLs (withInlet .guard .midway none).act.inlet.closedLs ≠ .closed ∧
    (withInlet .guard .midway none).drives = true ∧
    (withInlet .guard .midway none).act.inlet.calm := by
  repeat' first
    | decide +kernel
    | constructor
    | unfold State.unpending
    | unfold State.unheld
    | unfold Inlet.calm

theorem witness_FamilyFrames_pumps : (∃ t, exec (.tryDeadline 0) (withPump (pumpIn .starting)) = .next t) ∧
    ((withPump (pumpIn .starting)).pump 1).waits = false ∧ ((withPump (pumpIn .starting)).heater 1).waits = false :=
  ⟨⟨_, rfl⟩, by decide +kernel, by decide +kernel⟩

theorem witness_FamilyFrames : (∃ t, exec (.maskChange 5) base = .next t) ∧ (∃ t, exec (.tryBegin (.pump 0)) base = .next t)
    ∧ (∃ t, exec .planMainsLoss base = .next t) ∧ (∃ t, exec .turnoverCreated base = .next t)
    ∧ (∃ t, exec .tariffEvaluation base = .next t) ∧ (∃ t, exec .guardTravelEnd base = .next t)
    ∧ (∃ t, exec .pageOpen base = .next t) ∧ ∃ t, exec (.latch 0) base = .next t :=
  ⟨⟨_, rfl⟩, ⟨_, rfl⟩, ⟨_, rfl⟩, ⟨_, rfl⟩, ⟨_, rfl⟩, ⟨_, rfl⟩, ⟨_, rfl⟩, ⟨_, rfl⟩⟩

theorem witness_CalendarEvents :
    ({ base with cal := { base.cal with count := 10020 } } : State).sys.started = true ∧
    ({ base with cal := { base.cal with count := 10020 } } : State).now % 60 = 0 ∧
    base.now % 60 ≠ 0 ∧
    windowAt ({ plant with tariff := Vector.replicate 7 ⟨#v[⟨167, 30⟩, ⟨0, 0⟩, ⟨0, 0⟩], Vector.replicate 2 ⟨0, 0⟩⟩ } : Settings) 10020 = some ⟨true, ⟨0, 1⟩, 11820⟩ ∧
    base.cal.lastBegun ≠ some ⟨0, 1⟩ ∧
    sameCheap (some ⟨true, ⟨0, 1⟩, 11820⟩) none = false ∧
    ({ base with cal := { base.cal with count := Config.lastSecond } } : State).cal.count = Config.lastSecond ∧
    (withPlan (planIn .nightFill .waiting none)).plan 1 = some (planIn .nightFill .waiting none) ∧
    (planIn .nightFill .waiting none).live = true := by
  repeat' first
    | decide +kernel
    | constructor

theorem witness_PlansAreMade :
    base.sys.held = false ∧
    base.livePlan .nightFill = none ∧
    (withPlan (planIn .nightFill .waiting none)).livePlan .nightFill = some (planIn .nightFill .waiting none) ∧
    (planIn .nightFill .waiting none).window = some ⟨0, 1⟩ ∧
    (planIn .nightFill .waiting none).window ≠ some ⟨0, 2⟩ ∧
    numericQuality ({ base with survey := { base.survey with judgement := some (judged' .good 15000) } } : State).qualityNow = true ∧
    ({ base with survey := { base.survey with judgement := some (judged' .good 15000) } } : State).livePlan .turnover = none ∧
    numericQuality base.qualityNow = false ∧
    (withPlan (planIn .turnover .waiting none)).livePlan .turnover ≠ none := by
  repeat' first
    | decide +kernel
    | constructor

theorem witness_PlansFollowTheLevel :
    base.sys.held = false ∧
    (judged' .good 10000).quality = .good ∧
    (judged' .floatsOnly 5).quality = .floatsOnly ∧
    (judged' .none 65535).quality = .none ∧
    base.set.dayFloor ≤ (judged' .good 20000).level ∧
    (planIn .hostFill .active none).target ≤ (judged' .good 20000).level ∧
    (withPlan (planIn .hostFill .active none)).plan 1 = some (planIn .hostFill .active none) ∧
    (judged' .good 9999).level < base.set.dayFloor ∧
    base.cal.band ≠ some .cheap ∧
    base.plans.topupInhibit = false ∧
    base.livePlan .dayTopup = none ∧
    base.anyPumpFitted = true ∧
    base.livePlan .turnover = none := by
  repeat' first
    | decide +kernel
    | constructor

theorem witness_PlanEvents :
    (withPlan (planIn .nightFill .waiting none)).livePlan .turnover = none ∧
    (withPlan (planIn .nightFill .waiting none)).plans.request = none ∧
    (withPlan (planIn .nightFill .waiting none)).wins (planIn .nightFill .waiting none) ∧
    (∀ p ∈ base.planList, base.ready p = true → base.inletPassable p.kind.rank = false) ∧
    (({ withPlan (planIn .nightFill .waiting none) with plans := { (withPlan (planIn .nightFill .waiting none)).plans with request := some 1 } } : State)).plans.request ≠ none ∧
    (withPlan (planIn .hostFill .active none)).activePlan = some (planIn .hostFill .active none) ∧
    (withPlan (planIn .hostFill .active none)).act.inlet.owner ≠ .plan 1 ∧
    GuardMode.tripped.seizes = true ∧
    (withInlet (.plan 1) .opened none).act.inlet.owner = .plan 1 ∧
    ({ base with sys := { base.sys with power := .dark } } : State).sys.power ≠ .run ∧
    (withPlan (planIn .hostFill .active none)).plan 1 = some (planIn .hostFill .active none) ∧
    (planIn .hostFill .active none).state = .active := by
  repeat' first
    | decide +kernel
    | constructor

theorem witness_PlanEvents_cleared :
    ((withPlan { planIn .nightFill .paused (some .guard) with cleared := false }).clearPauses .guard).wins { planIn .nightFill .paused (some .guard) with cleared := true } ∧
    ((withPlan { planIn .nightFill .paused (some .noPumps) with cleared := false }).clearPauses .noPumps).wins { planIn .nightFill .paused (some .noPumps) with cleared := true } := by
  repeat' first
    | decide +kernel
    | constructor

theorem witness_FrostUnitJudges :
    base.sys.held = false ∧
    (⟨0, false⟩ : Temp).valid = false ∧
    (⟨-80, true⟩ : Temp).value ≤ base.set.hardThreshold ∧
    (base.set.hardThreshold < (⟨-79, true⟩ : Temp).value ∧ (⟨20, true⟩ : Temp).value ≤ base.set.frostThreshold) ∧
    base.set.frostThreshold < (⟨21, true⟩ : Temp).value ∧
    base.set.frostThreshold + base.set.frostHysteresis ≤ (⟨35, true⟩ : Temp).value ∧
    base.frost.state = .none ∧
    ({ base with frost := { base.frost with state := .hard } } : State).frost.state = .hard ∧
    base.frost.first = true ∧
    (base.zone 0).state = .idle ∧
    (base.zone 3).state = .disabled ∧
    (base.zoneSet 0).offTemp ≤ 100 ∧
    ((50 : Int) < (base.zoneSet 0).offTemp ∧ (50 : Int) ≤ (base.zoneSet 0).onTemp) ∧
    ((base.zoneSet 0).onTemp < 51 ∧ (51 : Int) < (base.zoneSet 0).offTemp) ∧
    (base.heater 0).request ≠ .start ∧
    ((withHeater (heaterIn .on true)).heater 1).request = .start ∧
    (((withPump (pumpIn .running)).pumpSet 0).fitted = true ∧ ((withPump (pumpIn .running)).pump 0).feedback = true) ∧
    (∀ n, (base.pumpSet n).fitted = true → (base.pump n).feedback = false) ∧
    (judged' .good 5).water.valid = true ∧
    (judged' .good 5).water.value ≤ base.set.turnoverTemp ∧
    base.set.stagnationLimit * 3600 ≤ min Config.stagnationMax (3599 + 1) := by
  repeat' first
    | decide +kernel
    | constructor

theorem witness_FrostUnitIsTold :
    base.sys.held = false ∧
    ({ (base.zone 0) with state := .want } : Zone).state = .want ∧
    ({ (base.zone 0) with state := .heating } : Zone).state = .heating ∧
    ({ (base.zone 0) with state := .zoneFault } : Zone).state = .zoneFault ∧
    ({ (base.zone 0) with state := .disabled } : Zone).state = .disabled ∧
    ({ (base.zone 0) with state := .duty } : Zone).state = .duty := by
  repeat' first
    | decide +kernel
    | constructor

theorem witness_PortRegisters :
    ((({ base with port := { base.port with board := none } } : State).copyBoard 1).bytes.take 192).length = 192 ∧
    ((255 : Nat) < addr boardPage 64 ∨ addr boardPage 256 ≤ 255) ∧
    addr boardPage 256 ≤ 512 := by
  repeat' first
    | decide +kernel
    | constructor

/-- The host's transitions of Table 7-3. -/
def listed : List (PageState × PageState) := [(.free, .orderDraft), (.free, .journalGiven), (.orderDraft, .free),
  (.orderDraft, .submitted), (.submitted, .orderDraft), (.answered, .free), (.answered, .orderDraft), (.journalGiven, .free),
  (.journalFull, .free), (.journalFull, .journalGiven)]

theorem witness_HostWrites :
    base.port.mapReady = true ∧
    base.sys.held = false ∧
    PageState.ofCode ((0x0501#16).toNat % 256) = some .orderDraft ∧
    ((base.entry 9).state, .orderDraft) ∈ listed ∧
    PageState.ofCode ((0x0505#16).toNat % 256) = some .journalGiven ∧
    ((base.entry 9).state, .journalGiven) ∈ listed ∧
    (base.jrn.queue = [] ∧ base.jrn.flush = none) ∧
    ((({ base with port := { base.port with shadow := base.port.shadow.set 9 ⟨.journalGiven, 5⟩ } } : State).entry 9).state = .journalGiven ∧ ((({ base with port := { base.port with shadow := base.port.shadow.set 9 ⟨.journalGiven, 5⟩ } } : State).entry 9).state, .free) ∈ listed) ∧
    ((({ base with port := { base.port with shadow := base.port.shadow.set 9 ⟨.submitted, 5⟩ } } : State).entry 9).state, .orderDraft) ∈ listed ∧
    PageState.ofCode ((0x0509#16).toNat % 256) = none ∧
    ((base.entry 9).state, .submitted) ∉ listed ∧
    (9 : Page).val = (1152#14).toNat / 128 ∧
    (({ base with port := { base.port with shadow := base.port.shadow.set 9 ⟨.taken, 5⟩ } } : State).entry 9).state = .taken ∧
    (({ base with port := { base.port with shadow := base.port.shadow.set 9 ⟨.answered, 5⟩ } } : State).entry 9).state = .answered ∧
    base.eng.access = .service ∧
    ({ base with eng := { base.eng with access := .normal } } : State).eng.access ≠ .service ∧
    (1 : Page).val = (128#14).toNat / 128 ∧
    (3 : Page).val = (511#14).toNat / 128 ∧
    State.reset.port.mapReady = false ∧
    128 ≤ (128#14).toNat ∧
    (9#14).toNat = (9 : Page).val ∧
    base.port.protect.captured = false ∧
    ({ base.port.protect with captured := true } : Protect).captured = true := by
  repeat' first
    | decide +kernel
    | constructor

theorem witness_PagesAreTakenAndAnswered :
    ({ base with eng := { base.eng with submitted := [9] }, mem := base.mem.writes (256 * 9 + 2) [1] } : State).eng.submitted = 9 :: [] ∧
    ({ base with eng := { base.eng with submitted := [9] }, mem := base.mem.writes (256 * 9 + 2) [1] } : State).eng.taken.length < Config.takenMax ∧
    ({ base with eng := { base.eng with submitted := [9] }, mem := base.mem.writes (256 * 9 + 2) [1] } : State).sys.started = true ∧
    (1 ≤ ({ base with eng := { base.eng with submitted := [9] }, mem := base.mem.writes (256 * 9 + 2) [1] } : State).orderCount 9 ∧ ({ base with eng := { base.eng with submitted := [9] }, mem := base.mem.writes (256 * 9 + 2) [1] } : State).orderCount 9 ≤ 7) ∧
    4 ≤ (9 : Page).val ∧
    base.orderCount 9 = 0 ∧
    base.eng.submitted = [] ∧
    State.reset.sys.started = false ∧
    base.pageDone 5 = true ∧
    base.pageDone 9 = false := by
  repeat' first
    | decide +kernel
    | constructor

theorem witness_AccessStates_service :
    base.sys.held = false ∧
    ({ base with eng := { base.eng with access := .normal } } : State).eng.access = .normal ∧
    (7#16).toNat = base.set.siteCode ∧
    base.set.siteCode ≠ 0 ∧
    (8#16).toNat ≠ base.set.siteCode ∧
    (7#16 : Word) ≠ 0 ∧
    base.eng.access = .service ∧
    base.unparked ∧
    base.unpending .inlet ∧
    base.due base.eng.serviceEnd = true ∧
    ({ base with eng := { base.eng with serviceEnd := some 10001 } } : State).due (some 10001) = false ∧
    ({ base with eng := { base.eng with access := .localControl } } : State).eng.access = .localControl := by
  repeat' first
    | decide +kernel
    | constructor
    | unfold State.unpending
    | unfold State.unparked

theorem witness_AccessStates_local :
    base.sys.held = false ∧
    base.unparked ∧
    base.eng.access ≠ .localControl ∧
    ({ base with eng := { base.eng with access := .localControl } } : State).eng.access = .localControl ∧
    (withPlan (planIn .hostFill .active none)).activePlan = some (planIn .hostFill .active none) ∧
    ({ withInlet .guard .stuck (some .closed) with guard := { base.guard with mode := .held } } : State).act.inlet.calm ∧
    ({ withInlet .guard .stuck (some .closed) with guard := { base.guard with mode := .held } } : State).act.inlet.mode ≠ .closed := by
  repeat' first
    | decide +kernel
    | constructor
    | unfold Inlet.calm
    | unfold State.unparked

theorem witness_OrdersInFlightEnd :
    ({ base with eng := { base.eng with inflight := [⟨order, .startPump, 0, 9400⟩] } } : State).flight order = some ⟨order, .startPump, 0, 9400⟩ ∧
    ({ base with eng := { base.eng with inflight := [⟨order, .startPump, 0, 9400⟩] } } : State).orderReady order ∧
    base.flight order = none ∧
    (9400 : Time) + 600 ≤ base.now ∧
    base.now < (9401 : Time) + 600 ∧
    base.apart order.page ∧
    (withPump (pumpIn .running)).act.pumps[0].owner = .manual ∧
    base.unparked ∧
    OrderCode.startPump ∈ plantOrders ∧
    (∃ k ∈ base.eng.taken, k.page = order.page) := by
  repeat' first
    | decide +kernel
    | constructor
    | unfold State.unparked
    | unfold State.apart
    | unfold State.orderReady

theorem witness_ClockSettingsAndReads :
    base.orderReady order ∧
    ((3155759999#32).toNat : Int) ≤ Config.lastSecond ∧
    base.eng.access = .service ∧
    ActId.ofCode (8#16).toNat = some (.heater 3) ∧
    (40000#16).toNat ≤ 40000 ∧
    (base.set.dayFloor ≤ (31900#16).toNat ∧ (31900#16).toNat + 100 ≤ base.set.warnLevel) ∧
    (9999#16).toNat < base.set.dayFloor ∧
    base.livePlan .nightFill = none ∧
    (withPlan (planIn .nightFill .waiting none)).livePlan .nightFill = some (planIn .nightFill .waiting none) ∧
    base.eng.access ≠ .localControl ∧
    base.unpending .inlet ∧
    (withPump (pumpIn .running)).act.inlet.owner = .manual ∧
    base.act.inlet.owner ≠ .manual ∧
    unitsOf base.arb.grants ≤ factory.loadBudget := by
  repeat' first
    | decide +kernel
    | constructor
    | unfold State.unpending
    | unfold State.orderReady

theorem witness_ClockSettingsAndReads_faulty : base.validate = .error 0 := rfl

theorem witness_PlanOrders :
    base.orderReady order ∧
    (20000#16).toNat ≤ 40000 ∧
    base.set.dayFloor ≤ (20000#16).toNat ∧
    (20000#16).toNat + 100 ≤ base.set.warnLevel ∧
    (1 ≤ (1#16).toNat ∧ (4#16).toNat ≤ 4) ∧
    (base.now < ((10001#32).toNat : Int) ∧ ((10001#32).toNat : Int) ≤ Config.lastSecond ∧ base.cal.set = true) ∧
    base.livePlan .hostFill = none ∧
    (withPlan (planIn .hostFill .active none)).livePlan .hostFill ≠ none ∧
    numericQuality ({ base with survey := { base.survey with judgement := some (judged' .good 15000) } } : State).qualityNow = true ∧
    ({ base with survey := { base.survey with judgement := some (judged' .good 15000) } } : State).livePlan .turnover = none ∧
    numericQuality base.qualityNow = false ∧
    (withPlan (planIn .turnover .waiting none)).livePlan .turnover ≠ none ∧
    (1 ≤ (1#16).toNat ∧ (255#16).toNat ≤ 255) ∧
    (withPlan (planIn .hostFill .active none)).plan (1#16).toNat = some (planIn .hostFill .active none) ∧
    base.plan 1 = none := by
  repeat' first
    | decide +kernel
    | constructor
    | unfold State.orderReady

theorem witness_PumpOrders :
    (0#16).toNat = (0 : Fin 4).val ∧
    (withInlet .manual .opened (some .opened)).orderReady order ∧
    (withInlet .manual .opened (some .opened)).handles (.pump 0) 0 ∧
    (withInlet .manual .opened (some .opened)).passes ⟨.startPump, order, 0, true, 0⟩ ∧
    ((withInlet .manual .opened (some .opened)).pumpSet 0).fitted = true ∧
    ((withInlet .manual .opened (some .opened)).pump 0).mode ≠ .failed ∧
    (withInlet .manual .opened (some .opened)).guard.mode.seizes = false ∧
    (withInlet .manual .opened (some .opened)).act.inlet.owner = .manual ∧
    (withInlet .manual .opened (some .opened)).act.inlet.releasing = false ∧
    ((withInlet .manual .opened (some .opened)).pump 0).owner = .none ∧
    ((withInlet .manual .opened (some .opened)).pump 0).claim = .none ∧
    (withHold ⟨1, .pump 0, 9000, some 9010, 10000, order⟩).handles (.pump 0) 1 ∧
    (withHold ⟨1, .pump 0, 9000, some 9010, 10000, order⟩).matchedHold (.pump 0) = true ∧
    (withPump (pumpIn .running)).passes ⟨.stopPump, order, 0, true, 0⟩ ∧
    ((withPump (pumpIn .running)).pump 0).owner = .manual ∧
    (((withPump (pumpIn .running)).pump 0).mode = .running ∧ (withPump (pumpIn .running)).ranEnough 0 = true) ∧
    (((withPump (pumpIn .starting)).pump 0).mode = .starting ∧ ((withPump (pumpIn .starting)).pump 0).feedback = false) ∧
    (withPump { pumpIn .running with runSince := some 9941 }).ranEnough 0 = false ∧
    ({ base with eng := { base.eng with access := .normal } } : State).eng.access = .normal := by
  repeat' first
    | decide +kernel
    | constructor
    | unfold State.unpending
    | unfold State.handles
    | unfold State.orderReady

theorem witness_InletOrders :
    base.orderReady order ∧
    base.handles .inlet 0 ∧
    base.act.inlet.owner = .none ∧
    base.act.inlet.calm ∧
    base.passes ⟨.openInlet, order, 0, true, 0⟩ ∧
    base.passes ⟨.closeInlet, order, 0, true, 0⟩ ∧
    base.unheld .inlet ∧
    (∀ n, (base.pump n).turning = false) ∧
    (withInlet .manual .opened (some .opened)).act.inlet.mode = .opened ∧
    (withInlet .manual .closed (some .closed)).act.inlet.mode = .closed ∧
    (withInlet (.plan 1) .opened (some .opened)).act.inlet.owner = .plan 1 ∧
    ((withPump { pumpIn .running with runSince := some 9941 }).pump 0).owner = .manual ∧
    (withInlet .guard .closed none).act.inlet.owner = .guard ∧
    (withInlet .guard .closed none).passes ⟨.openInlet, order, 0, true, 0⟩ ∧
    (withHold ⟨1, .inlet, 9000, some 9010, 10000, order⟩).handles .inlet 1 := by
  repeat' first
    | decide +kernel
    | constructor
    | unfold State.unpending
    | unfold State.unheld
    | unfold Inlet.calm
    | unfold State.handles
    | unfold State.orderReady

theorem witness_HoldOrders :
    base.orderReady order ∧
    base.eng.access = .service ∧
    (3#16).toNat = (3 : Fin 4).val ∧
    base.passes ⟨.holdActuator, order, 3, true, 0⟩ ∧
    (base.pumpSet 3).fitted = true ∧
    base.unheld (.pump 3) ∧
    (∀ e ∈ base.eng.inflight, e.code.names e.target ≠ some (.pump 3)) ∧
    base.act.holds.length < Config.holdsMax ∧
    ((base.pump 3).mode = .ready ∧ (base.pump 3).feedback = false) ∧
    (((withPump (pumpIn .running)).pump 0).mode = .running ∧ ((withPump (pumpIn .running)).pump 0).feedback = true) ∧
    (1#16).toNat = (⟨1, .pump 0, 9000, some 9010, 10000, order⟩ : Hold).number ∧
    (withHold ⟨1, .pump 0, 9000, some 9010, 10000, order⟩).act.holds.find? (fun x => decide (x.number = 1)) = some ⟨1, .pump 0, 9000, some 9010, 10000, order⟩ ∧
    (∀ x ∈ base.act.holds, x.number ≠ (255#16).toNat) ∧
    ActId.ofCode (0#16).toNat = some (.pump 0) ∧
    ActId.ofCode (4#16).toNat = some .inlet ∧
    (withPump (pumpIn .failed)).unpending (.pump 0) ∧
    (withPump (pumpIn .failed)).fitted (.pump 0) = true ∧
    ((withPump (pumpIn .failed)).pump 0).mode = .failed ∧
    ((withHeater { heaterIn .failed false with request := .none }).heater 1).mode = .failed ∧
    ((withInlet .none .stuck none).act.inlet.mode = .stuck ∧ (withInlet .none .stuck none).fitted .inlet = true) ∧
    (withInlet .none .stuck none).act.inlet.calm := by
  repeat' first
    | decide +kernel
    | constructor
    | unfold State.unpending
    | unfold State.unheld
    | unfold Inlet.calm
    | unfold State.orderReady

theorem witness_GuardAndJournalOrders :
    base.orderReady order ∧
    ({ withInlet .guard .stuck (some .closed) with guard := { base.guard with mode := .held } } : State).guard.mode = .held ∧
    base.guard.mode ≠ .held ∧
    base.passes ⟨.guardTest, order, 0, true, 0⟩ ∧
    (withPump (pumpIn .running)).pumpsGuarded ∧
    base.guard.mode = .clear ∧
    ({ withInlet .guard .stuck (some .closed) with guard := { base.guard with mode := .held } } : State).guard.mode.seizes = true ∧
    ((withInlet .manual .closed (some .closed)).act.inlet.mode = .closed ∧ ∀ n, ((withInlet .manual .closed (some .closed)).pumpSet n).fitted = true → ((withInlet .manual .closed (some .closed)).pump n).feedback = false) ∧
    base.act.inlet.mode ≠ .closed ∧
    (base.jrn.opened = none ∧ base.jrn.given = [] ∧ base.jrn.queue.length < Config.queueMax) ∧
    base.passes ⟨.flushJournal, order, 0, true, 0⟩ ∧
    (∀ m ∈ base.transit, flushResult order m = none) ∧
    base.jrn.queue = [] ∧
    ({ base with jrn := { base.jrn with opened := some ⟨19, 0, 1, 20, 0, false, some 9100⟩ } } : State).jrn.opened = some ⟨19, 0, 1, 20, 0, false, some 9100⟩ ∧
    ({ base with jrn := { base.jrn with opened := some ⟨19, 0, 1, 20, 0, false, some 9100⟩ } } : State).jrn.starting = false ∧
    ({ base.jrn with queue := [(⟨.mark, 9000, none, List.replicate 16 1⟩ : Rec)] } : JrnState).queue ≠ [] := by
  repeat' first
    | decide +kernel
    | constructor
    | unfold State.pumpsGuarded
    | unfold State.pumpsOk
    | unfold State.pumpsOff
    | unfold Pump.contactorOk
    | unfold State.orderReady

theorem witness_WriterWorks :
    RecKind.stuck.cls = 0 ∧
    (List.replicate 24 (⟨.mark, 9000, none, List.replicate 16 1⟩ : Rec)).length = Config.queueMax ∧
    (∀ x ∈ (List.replicate 24 (⟨.mark, 9000, none, List.replicate 16 1⟩ : Rec)), x.kind.cls ≤ RecKind.mark.cls) ∧
    (RecKind.stuck.cls < RecKind.mark.cls ∧ (⟨.mark, 9000, none, List.replicate 16 1⟩ : Rec) ∈ (List.replicate 24 (⟨.mark, 9000, none, List.replicate 16 1⟩ : Rec))) ∧
    (List.replicate 24 (⟨.mark, 9000, none, List.replicate 16 1⟩ : Rec)).find? (fun x => decide (x.kind.cls = RecKind.mark.cls)) = some (⟨.mark, 9000, none, List.replicate 16 1⟩ : Rec) ∧
    (({ base with jrn := { base.jrn with opened := some ⟨19, 0, 1, 20, 0, false, some 9100⟩ } } : State).jrn.queue = [] ∧ ({ base with jrn := { base.jrn with opened := some ⟨19, 0, 1, 20, 0, false, some 9100⟩ } } : State).jrn.flush = none ∧ ({ base with jrn := { base.jrn with opened := some ⟨19, 0, 1, 20, 0, false, some 9100⟩ } } : State).jrn.gapPending = false) ∧
    20 + (⟨.mark, 9000, none, List.replicate 40 1⟩ : Rec).length ≤ Config.journalBytes ∧
    2 ≤ (19 : Page).val ∧
    ({ base.jrn with queue := [(⟨.mark, 9000, none, List.replicate 16 1⟩ : Rec)], given := [20] } : JrnState).given = 20 :: [] ∧
    (⟨.mark, 9000, none, List.replicate 16 1⟩ : Rec).length ≤ Config.journalBytes ∧
    ({ base with jrn := { base.jrn with opened := some ⟨19, 0, 1, 20, 0, false, some 9100⟩ } } : State).pageAged ⟨19, 0, 1, 20, 0, false, some 9100⟩ = true ∧
    ({ base with jrn := { base.jrn with opened := some ⟨19, 0, 1, 20, 0, false, some 9100⟩ } } : State).pageAged ⟨19, 0, 1, 20, 0, false, some 9101⟩ = false := by
  repeat' first
    | decide +kernel
    | constructor

theorem witness_MainsAndStagger :
    base.sys.held = false ∧
    base.sys.power = .run ∧
    ({ base with sys := { base.sys with power := .dark } } : State).sys.power ≠ .run ∧
    ({ base with sys := { base.sys with power := .dark } } : State).sys.power = .dark ∧
    ({ withPump (pumpIn .ready) with sys := { base.sys with stagger := some 10000 } } : State).due ({ withPump (pumpIn .ready) with sys := { base.sys with stagger := some 10000 } } : State).sys.stagger = true ∧
    base.due base.sys.stagger = false ∧
    ({ withPump (pumpIn .ready) with sys := { base.sys with stagger := some 10000 } } : State).act.inlet.calm ∧
    ({ withPump (pumpIn .ready) with sys := { base.sys with stagger := some 10000 } } : State).allEstablished ∧
    ({ ({ withPump (pumpIn .ready) with sys := { base.sys with stagger := some 10000 } } : State) with sys := { ({ withPump (pumpIn .ready) with sys := { base.sys with stagger := some 10000 } } : State).sys with stagger := none } } : State).mayTry 0 ∧
    ({ withPump (pumpIn .ready) with sys := { base.sys with stagger := some 10000 } } : State).livePlan .turnover = none ∧
    (withPlan { planIn .nightFill .paused (some .power) with cleared := false }).planList.any (fun p => decide (p.pause = some .power)) = true := by
  repeat' first
    | decide +kernel
    | constructor
    | unfold Inlet.calm
    | unfold State.allEstablished

theorem witness_ResetsAndStarts :
    base.sys.held = false ∧
    ({ base with sys := { base.sys with held := true } } : State).sys.held = true ∧
    inputs.mains = true := by
  repeat' first
    | decide +kernel
    | constructor

/-! ### The survey -/

/-- A sample with codes for the two transducers. -/
def sample (a b : BitVec 12) (f : Floats) : Sample := ⟨#v[a, b, 1000, 1000, 1000, 0, 0, 0], f⟩

/-- The base with another `ab_tolerance`. -/
def tight (n : Nat) : State := { base with sys := { base.sys with settings := { plant with abTolerance := n } } }

/-- Floats by their number of wet ones. -/
def wet (n : Nat) : Floats := ⟨decide (1 ≤ n), decide (2 ≤ n), decide (3 ≤ n), false⟩

/-- The values the two transducers contribute, and quality, level, band and fault of the judgement, after a survey. -/
def seen (s : State) (x : Sample) : Option Int × Option Int × Option (Quality × Nat × Band × Bool) :=
  match exec (.survey x) s with
  | .next t => ((t.survey.chans[0]).contributes, (t.survey.chans[1]).contributes,
    t.survey.judgement.map fun j => (j.quality, j.level, j.band, j.floatFault))
  | _ => (none, none, none)

/-- The base a second before a minute boundary, with samples of minutes and an hour gathered. -/
def minuted (l : List MinuteSample) (h : Option HourAcc) (set : Bool) : State := { base with
  cal := { base.cal with set := set }, survey := { base.survey with seconds := 59, interval := some 1, minutes := l, hourAcc := h } }

/-- The base with a report interval, last sought at a time, with a step reference and a spacing. -/
def reporting (i : Option Interval) (from' : Time) (ref : Option Nat) (k : Nat) : State := { base with
  survey := { base.survey with report := i, reportFrom := from', stepRef := ref, spacing := k } }

theorem witness_LevelsAreJudged :
    base.sys.held = false ∧
    seen (tight 149) (sample 1000 1013 (wet 1)) = (some 6857, some 7006, some (.good, 6931, .lowToHigh, false)) ∧
    seen (tight 148) (sample 1000 1013 (wet 1)) = (some 6857, some 7006, some (.floatsOnly, 2000, .lowToHigh, false)) ∧
    seen base (sample 1000 1000 ⟨false, true, false, false⟩) = (some 6857, some 6857, some (.good, 6857, .lowToHigh, true)) ∧
    seen base (sample 1000 2000 ⟨false, true, false, false⟩) = (some 6857, some 18286, some (.none, 65535, .highToTop, false)) ∧
    seen base (sample 1000 400 (wet 1)) = (some 6857, some 0, some (.single, 6857, .lowToHigh, false)) ∧
    seen base (sample 400 1000 (wet 1)) = (some 0, some 6857, some (.single, 6857, .lowToHigh, false)) ∧
    seen base (sample 400 1000 (wet 2)) = (some 0, some 6857, some (.floatsOnly, 30000, .highToTop, false)) ∧
    seen base (sample 3374 0 (wet 3)) = (some 33989, none, some (.single, 33989, .highToTop, false)) ∧
    seen base (sample 3375 0 (wet 3)) = (some 34000, none, some (.single, 34000, .aboveTop, false)) ∧
    seen base (sample 3026 0 (wet 2)) = (some 30011, none, some (.single, 30011, .highToTop, false)) ∧
    seen base (sample 575 0 (wet 1)) = (some 2000, none, some (.single, 2000, .lowToHigh, false)) ∧
    seen base (sample 574 0 (wet 1)) = (some 1989, none, some (.single, 1989, .belowLow, false)) ∧
    seen base (sample 0 3900 (wet 3)) = (none, some 40000, some (.single, 40000, .aboveTop, false)) ∧
    seen base (sample 0 400 (wet 0)) = (none, some 0, some (.single, 0, .belowLow, false)) ∧
    seen base (sample 0 400 ⟨false, false, true, false⟩) = (none, some 0, some (.none, 65535, .aboveTop, false)) ∧
    seen base (sample 400 0 (wet 1)) = (some 0, none, some (.floatsOnly, 2000, .lowToHigh, false)) ∧
    seen base (sample 0 0 (wet 0)) = (none, none, some (.floatsOnly, 0, .belowLow, false)) ∧
    seen base (sample 0 0 (wet 3)) = (none, none, some (.floatsOnly, 34000, .aboveTop, false)) ∧
    seen base (sample 0 0 ⟨false, true, true, false⟩) = (none, none, some (.none, 65535, .aboveTop, false)) ∧
    plant.straps.Pairwise (fun a b => a.level < b.level) ∧
    (plant.straps[0]? = some ⟨0, 0⟩ ∧ plant.straps[0 + 1]? = some ⟨40000, 4000000⟩) ∧
    (plant.waterChannel = some 4 ∧ factory.waterChannel = none) ∧
    ((base.zoneSet 0).fitted = true ∧ (base.zoneSet 3).fitted = false) := by
  repeat' first
    | decide +kernel
    | constructor

theorem witness_MinutesAndHours :
    base.sys.held = false ∧
    base.sys.power = .run ∧
    ({ base with sys := { base.sys with power := .dark } } : State).sys.power = .dark ∧
    after (.survey (sample 1000 1000 (wet 1))) base (fun t => decide (t.survey.judgement.any fun j => !j.minute)) = true ∧
    (after (.survey (sample 1000 1000 (wet 1))) (minuted [(⟨685700, .good, 0⟩ : MinuteSample), (⟨685700, .good, 0⟩ : MinuteSample), (⟨685700, .good, 0⟩ : MinuteSample)] none true) (fun t => decide (t.survey.judgement.any Judgement.minute ∧ ((drawsOf t.survey.minutes).filterMap id).length = 3 ∧ (drawsOf t.survey.minutes).getLast?.join = some 0)) = true) ∧
    (after (.survey (sample 1000 1000 (wet 1))) (minuted [(⟨685700, .good, 0⟩ : MinuteSample), (⟨685700, .good, 0⟩ : MinuteSample)] none false) (fun t => decide (t.survey.judgement.any Judgement.minute ∧ ((drawsOf t.survey.minutes).filterMap id).length = 2)) = true) ∧
    (after (.survey (sample 1000 1000 (wet 1))) (minuted [] none true) (fun t => decide (t.survey.judgement.any Judgement.minute ∧ (drawsOf t.survey.minutes).getLast?.join = none)) = true) ∧
    (minuted [(⟨685700, .good, 0⟩ : MinuteSample)] (some ⟨2, 900, 59⟩) true).survey.hourAcc = some ⟨2, 900, 59⟩ ∧
    ((10000 : Time) % 86400 / 3600).toNat = 2 ∧
    (minuted [(⟨685700, .good, 0⟩ : MinuteSample)] (some ⟨1, 900, 30⟩) true).survey.hourAcc = some ⟨1, 900, 30⟩ ∧
    (minuted [(⟨685700, .good, 0⟩ : MinuteSample)] none true).cal.set = true := by
  repeat' first
    | decide +kernel
    | constructor

theorem witness_SurveyRecords :
    base.sys.held = false ∧
    base.recordsWait 3 ∧
    1 ≤ base.set.reportInterval ∧
    (reporting none 9990 none 0).survey.report = none ∧
    after (.survey (sample 1000 1000 (wet 1))) base (fun t => decide (t.survey.judgement.map Judgement.quality ≠ base.survey.judgement.map Judgement.quality)) = true ∧
    (({ base with survey := { base.survey with judgement := some (judged' .good 6857) } } : State).survey.judgement.map Judgement.quality) = some .good ∧
    ((9899 : Time) < 9900 ∧ (9900 : Time) ≤ base.now ∧ (9900 : Time) % 60 = 0 ∧ ((9900 : Time) % 86400 / 60) % (base.set.reportInterval : Int) = 0) ∧
    (reporting (some ⟨9000, 65535, 0, 0, 0, .good, 500000, 0⟩) 9899 none 9).survey.report = some ⟨9000, 65535, 0, 0, 0, .good, 500000, 0⟩ ∧
    (reporting (some ⟨9000, 65535, 0, 0, 0, .good, 500000, 0⟩) 9999 none 9).survey.report = some ⟨9000, 65535, 0, 0, 0, .good, 500000, 0⟩ ∧
    (after (.survey (sample 1000 1000 (wet 1))) (reporting (some ⟨9000, 65535, 0, 0, 0, .good, 500000, 0⟩) 9999 (some 6657) 9) (fun t => decide (t.survey.spacing = 0 ∧ t.jrn.queue.map Rec.kind = [.quality, .levelStep])) = true) ∧
    (after (.survey (sample 1000 1000 (wet 1))) (reporting (some ⟨9000, 65535, 0, 0, 0, .good, 500000, 0⟩) 9999 (some 6658) 9) (fun t => decide (t.survey.spacing = 10 ∧ t.jrn.queue.map Rec.kind = [.quality])) = true) ∧
    (after (.survey (sample 1000 1000 (wet 1))) (reporting (some ⟨9000, 65535, 0, 0, 0, .good, 500000, 0⟩) 9999 (some 6657) 8) (fun t => decide (t.survey.spacing = 9 ∧ t.jrn.queue.map Rec.kind = [.quality])) = true) ∧
    after (.survey (sample 1000 1000 (wet 1))) (reporting (some ⟨9000, 65535, 0, 0, 0, .good, 500000, 0⟩) 9899 (some 6657) 9) (fun t => decide (t.jrn.queue.map Rec.kind = [.quality, .levelFrame])) = true ∧
    plant.reportInterval ≤ (⟨9000, 65535, 0, 0, 0, .good, 0, 14⟩ : Interval).minutes + 1 := by
  repeat' first
    | decide +kernel
    | constructor
    | unfold State.recordsWait

theorem witness_SurveyRecords_boundary_not_passed :
    ¬∃ b : Int, 9900 < b ∧ b ≤ base.now ∧ b % 60 = 0 ∧ (b % 86400 / 60) % (base.set.reportInterval : Int) = 0 := by
  rintro ⟨b, h1, h2, h3, h4⟩
  have h5 : b ≤ 10000 := h2
  have h6 : (b % 86400 / 60) % 15 = 0 := h4
  omega

/-! ### Arbiter, calendar, plans, frost unit -/

theorem witness_MainsLossFreesAllLoad_step :
    (after (.claim (.pump 0) 2 4 false) ({ base with sys := { base.sys with power := .dark } } : State) (fun t => decide (t.sys.power ≠ .run ∧ (t.pump 0).contactor = false ∧ (t.heater 0).contactor = false)) = true) ∧
    ((base.pump 0).contactor = false ∧ (base.heater 0).contactor = false) ∧
    ({ base with sys := { base.sys with power := .dark } } : State).arb.has (.pump 0) = false := by
  repeat' first
    | decide +kernel
    | constructor

theorem witness_ClaimListAndWalk_joins :
    ({ base.arb with join := 65535 } : ArbState).join = 65535 ∧
    base.arb.join < 65535 ∧
    (walk 10 2 [(⟨.heater 1, 9, 6, true, 7⟩ : Claim)] [(⟨.pump 0, 2, 3, false, 0, false⟩ : Grant), ⟨.pump 1, 2, 3, false, 1, true⟩]).urgent = some (⟨.heater 1, 9, 6, true, 7⟩ : Claim) ∧
    (walk 10 2 [] []).urgent = none ∧
    covered 10 (⟨.heater 1, 9, 6, true, 7⟩ : Claim) ([(⟨.pump 0, 2, 3, false, 0, false⟩ : Grant), ⟨.pump 1, 2, 3, false, 1, true⟩].map fun g => if g.level < 6 then { g with recalled := true } else g) = true ∧
    covered 8 (⟨.heater 1, 9, 6, true, 7⟩ : Claim) ([(⟨.pump 0, 2, 3, false, 0, false⟩ : Grant), ⟨.pump 1, 2, 3, false, 1, true⟩].map fun g => if g.level < 6 then { g with recalled := true } else g) = false ∧
    covered 13 (⟨.heater 1, 9, 6, true, 7⟩ : Claim) [] = true ∧
    covered 10 (⟨.heater 1, 9, 6, true, 7⟩ : Claim) [(⟨.pump 0, 2, 3, false, 0, false⟩ : Grant), ⟨.pump 1, 2, 3, false, 1, true⟩] = false := by
  repeat' first
    | decide +kernel
    | constructor

theorem witness_StagesByMinutes :
    ((withInlet (.plan 1) .opened (some .opened)).setPump 0 { pumpIn .running with owner := .plan 1 }).allEstablished ∧
    ((four.filter fun k => decide ((((withInlet (.plan 1) .opened (some .opened)).setPump 0 { pumpIn .running with owner := .plan 1 }).pump k).owner = .plan 1 ∧ (((withInlet (.plan 1) .opened (some .opened)).setPump 0 { pumpIn .running with owner := .plan 1 }).pump k).request = .start)).length = 1) ∧
    (((withInlet (.plan 1) .opened (some .opened)).setPump 0 { pumpIn .running with owner := .plan 1 }).act.inlet.owner = .plan 1 ∧ ((withInlet (.plan 1) .opened (some .opened)).setPump 0 { pumpIn .running with owner := .plan 1 }).act.inlet.leaving = false) ∧
    (∀ k, k ∈ [1, 2, 3] ↔ (((withInlet (.plan 1) .opened (some .opened)).setPump 0 { pumpIn .running with owner := .plan 1 }).pumpSet k).fitted = true ∧ (((withInlet (.plan 1) .opened (some .opened)).setPump 0 { pumpIn .running with owner := .plan 1 }).pump k).mode = .ready ∧ (((withInlet (.plan 1) .opened (some .opened)).setPump 0 { pumpIn .running with owner := .plan 1 }).pump k).owner = .none ∧ (((withInlet (.plan 1) .opened (some .opened)).setPump 0 { pumpIn .running with owner := .plan 1 }).pump k).hold = none) ∧
    ((withInlet (.plan 1) .opened (some .opened)).setPump 0 { pumpIn .running with owner := .plan 1 }).fewestFirst [1, 2, 3] ∧
    (∀ k, k ∈ [0] ↔ (((withInlet (.plan 1) .opened (some .opened)).setPump 0 { pumpIn .running with owner := .plan 1 }).pump k).owner = .plan 1 ∧ (((withInlet (.plan 1) .opened (some .opened)).setPump 0 { pumpIn .running with owner := .plan 1 }).pump k).request = .start) := by
  repeat' first
    | decide +kernel
    | constructor
    | unfold State.allEstablished
    | unfold State.fewestFirst

/-- The plant with cheap windows of 30 minutes from Sunday's last minute before midnight on, and a peak window every day at 03:00. -/
def night : Settings := { plant with
  tariff := Vector.replicate 7 ⟨#v[⟨1439, 30⟩, ⟨0, 0⟩, ⟨0, 0⟩], #v[⟨180, 60⟩, ⟨0, 0⟩]⟩ }

/-- The base under those windows at a time. -/
def at' (t : Time) : State :=
  { base with sys := { base.sys with settings := night }, cal := { base.cal with count := t, band := some .standard } }

theorem witness_WindowAndBand :
    ((at' 86340).sys.started = true ∧ (at' 86340).now % 60 = 0 ∧ (at' 86340).cal.set = true) ∧
    (∃ x ∈ daySlots night (86340 / 86400), x.2.2.stands (86340 / 86400) 86340) ∧
    (∀ x ∈ daySlots night (86400 / 86400), ¬x.2.2.stands (86400 / 86400) 86400) ∧
    (∃ x ∈ daySlots night (86400 / 86400 - 1), x.2.2.stands (86400 / 86400 - 1) 86400) ∧
    (∀ x ∈ daySlots night (88140 / 86400), ¬x.2.2.stands (88140 / 86400) 88140) ∧
    (∀ x ∈ daySlots night (88140 / 86400 - 1), ¬x.2.2.stands (88140 / 86400 - 1) 88140) ∧
    (after .tariffEvaluation (at' 86340) (fun t => decide (t.cal.band = some .cheap ∧ .maskChange 0 ∈ t.transit)) = true) ∧
    (after .tariffEvaluation (at' 86400) (fun t => decide (t.cal.band = some .cheap ∧ .maskChange 0 ∈ t.transit)) = true) ∧
    (after .tariffEvaluation (at' 10800) (fun t => decide (t.cal.band = some .peak ∧ .maskChange 3 ∈ t.transit)) = true) ∧
    (after .tariffEvaluation (at' 88140) (fun t => decide (t.cal.window = none ∧ t.cal.band = some .standard)) = true) ∧
    (after .tariffEvaluation ({ at' 88140 with cal := { (at' 88140).cal with band := some .cheap } } : State) (fun t => decide (t.cal.band = some .standard ∧ .maskChange 2 ∈ t.transit)) = true) ∧
    ({ at' 88140 with cal := { (at' 88140).cal with set := false } } : State).cal.set = false := by
  repeat' first
    | decide +kernel
    | constructor

/-- The base with a level and a night fill, or none, in a state. -/
def filling (v : Nat) (p : Option Plan) : State := { base with
  survey := { base.survey with judgement := some { judged' .good 10000 with volume := v } }
  plans := { base.plans with slots := base.plans.slots.set 0 p } }

theorem witness_NightFillComputed :
    base.sys.held = false ∧
    (filling 2000000 none).livePlan .turnover = none ∧
    (filling 2000000 none).anyPumpFitted = true ∧
    (filling 2000000 none).livePlan .nightFill = none ∧
    (filling 2000000 none).rateList (filling 2000000 none).nextPlanNumber [0, 1, 2, 3] ∧
    numericQ (filling 2000000 none).qualityNow ∧
    (volumeAt (filling 2000000 none).set.straps ((filling 2000000 none).plans.override.getD (filling 2000000 none).set.nightTarget) : Int) + (filling 2000000 none).drawAhead 600 = (filling 2000000 none).volumeNow + 1000000 ∧
    (volumeAt (filling 2000000 none).set.straps ((filling 2000000 none).plans.override.getD (filling 2000000 none).set.nightTarget) : Int) + (filling 3000000 none).drawAhead 600 ≤ (filling 3000000 none).volumeNow ∧
    ((46000 - (10000 : Time)) / 60).toNat = 600 ∧
    (1000000 ≤ (filling 2000000 none).rateOf [0, 1, 2, 3] 4 * 600 ∧ (filling 2000000 none).rateOf [0, 1, 2, 3] 3 * 600 < 1000000) ∧
    (∀ n, n ≤ 4 → (filling 2000000 none).rateOf [0, 1, 2, 3] n * 500 < 1000001) ∧
    (¬numericQ base.qualityNow) ∧
    (filling 2000000 (some { planIn .nightFill .waiting none with targetVolume := 3000000, stage := 1 })).livePlan .nightFill = some { planIn .nightFill .waiting none with targetVolume := 3000000, stage := 1 } ∧
    (filling 2000000 (some { planIn .nightFill .waiting none with targetVolume := 3000000, stage := 1 })).plan 1 = some { planIn .nightFill .waiting none with targetVolume := 3000000, stage := 1 } ∧
    (filling 2000000 (some { planIn .nightFill .waiting none with targetVolume := 3000000, stage := 1 })).rateList 1 [0, 1, 2, 3] ∧
    (3000000 : Int) + (filling 2000000 (some { planIn .nightFill .waiting none with targetVolume := 3000000, stage := 1 })).drawAhead 600 = (filling 2000000 (some { planIn .nightFill .waiting none with targetVolume := 3000000, stage := 1 })).volumeNow + 1000000 ∧
    (({ planIn .nightFill .active none with targetVolume := 3000000, stage := 1 } : Plan).state = .active ∧ ({ planIn .nightFill .active none with targetVolume := 3000000, stage := 1 } : Plan).floatsComputed = false) ∧
    ((filling 2000000 (some { planIn .nightFill .active none with targetVolume := 3000000, stage := 1 })).volumeNow : Int) + ((filling 2000000 (some { planIn .nightFill .active none with targetVolume := 3000000, stage := 1 })).rateOf [0, 1, 2, 3] 1 * 600 : Nat) < 3000000 + (filling 2000000 (some { planIn .nightFill .active none with targetVolume := 3000000, stage := 1 })).drawAhead 600 ∧
    (¬(((filling 2000000 (some { planIn .nightFill .active none with targetVolume := 3000000, stage := 4 })).volumeNow : Int) + ((filling 2000000 (some { planIn .nightFill .active none with targetVolume := 3000000, stage := 4 })).rateOf [0, 1, 2, 3] 4 * 600 : Nat) < 3000000 + (filling 2000000 (some { planIn .nightFill .active none with targetVolume := 3000000, stage := 4 })).drawAhead 600)) := by
  repeat' first
    | decide +kernel
    | constructor
    | unfold State.rateList
    | unfold State.fewestFirst

theorem witness_ZonesOnDuty :
    base.sys.held = false ∧
    base.recordsWait 5 ∧
    ((base.zone 0).state ≠ .zoneFault ∧ (base.zone 0).state ≠ .disabled) ∧
    (-50 : Int) ≤ (base.zoneSet 0).hardTemp ∧
    (base.zoneSet 0).hardTemp + 10 ≤ -40 ∧
    ((base.zoneSet 0).hardTemp < -41 ∧ (-41 : Int) < (base.zoneSet 0).hardTemp + 10) ∧
    (after (.frostJudgement { judged' .good 5 with zones := Vector.replicate 4 ⟨-50, true⟩ }) ((withHeater (heaterIn .on true)).setHeater 0 (heaterIn .on true)) (fun t => decide ((t.zone 0).urgent ≠ (base.zone 0).urgent ∧ (t.zone 0).want = true ∧ .relevel (.heater 0) 6 true ∈ t.transit)) = true) ∧
    (after (.frostJudgement { judged' .good 5 with zones := Vector.replicate 4 ⟨0, false⟩ }) ({ base with frost := { base.frost with zones := base.frost.zones.set 0 ⟨.duty, false, true, 299, ⟨0, false⟩⟩ } } : State) (fun t => decide ((t.zone 0).want = true ∧ (t.zone 0).duty = 300)) = true) ∧
    after (.frostJudgement { judged' .good 5 with zones := Vector.replicate 4 ⟨0, false⟩ }) ({ base with frost := { base.frost with zones := base.frost.zones.set 0 ⟨.duty, false, true, 300, ⟨0, false⟩⟩ } } : State) (fun t => decide ((t.zone 0).want = false)) = true ∧
    after (.frostJudgement { judged' .good 5 with zones := Vector.replicate 4 ⟨0, false⟩ }) ({ base with frost := { base.frost with zones := base.frost.zones.set 0 ⟨.duty, false, true, 599, ⟨0, false⟩⟩ } } : State) (fun t => decide ((t.zone 0).duty = 0)) = true ∧
    after (.frostJudgement { judged' .good 5 with zones := Vector.replicate 4 ⟨100, true⟩ }) ({ base with frost := { base.frost with zones := base.frost.zones.set 0 ⟨.duty, false, true, 9, ⟨0, false⟩⟩ } } : State) (fun t => decide ((t.zone 0).state = .idle)) = true ∧
    after (.frostJudgement { judged' .good 5 with zones := Vector.replicate 4 ⟨50, true⟩ }) ({ base with frost := { base.frost with zones := base.frost.zones.set 0 ⟨.duty, false, true, 9, ⟨0, false⟩⟩ } } : State) (fun t => decide ((t.zone 0).state = .want)) = true ∧
    after (.frostJudgement { judged' .good 5 with zones := Vector.replicate 4 ⟨51, true⟩ }) ({ base with frost := { base.frost with zones := base.frost.zones.set 0 ⟨.duty, false, true, 9, ⟨0, false⟩⟩ } } : State) (fun t => decide ((t.zone 0).state = .idle)) = true ∧
    after (.frostJudgement { judged' .good 5 with zones := Vector.replicate 4 ⟨99, true⟩ }) (({ base with frost := { base.frost with zones := base.frost.zones.set 0 ⟨.duty, false, true, 9, ⟨0, false⟩⟩ } } : State).setHeater 0 (heaterIn .on true)) (fun t => decide ((t.zone 0).state = .heating)) = true ∧
    after (.frostJudgement { judged' .good 5 with air := ⟨0, false⟩, zones := Vector.replicate 4 ⟨0, false⟩ }) base (fun t => decide (t.jrn.queue.map Rec.kind = [.frost, .zone, .zone, .zone])) = true ∧
    base.recordsWait 1 ∧
    (({ base with frost := { base.frost with zones := base.frost.zones.set 0 ⟨.duty, false, true, 9, ⟨0, false⟩⟩ } } : State).zone 0).state = .duty ∧
    (Notice.on ≠ .failed ∧ Notice.on ≠ .held) := by
  repeat' first
    | decide +kernel
    | constructor
    | unfold State.recordsWait

/-! ### The order engine, settings, journal and start-up -/

/-- The base with page 5 taken, at a slot, of three orders: DONE, of a status, and NEW; the second and the third with a code and flags. -/
def running (next : Nat) (parked : Bool) (st code flags : Byte) : State := { base with
  mem := base.mem.writes (256 * 5 + 2) [3] |>.writes (256 * 5 + 16) [1, 0, 2] |>.writes (256 * 5 + 48) [code, flags, st]
    |>.writes (256 * 5 + 80) [code, flags, 0]
  eng := { base.eng with taken := [⟨5, next, parked, 0⟩] } }

theorem witness_PageOrdersRun :
    ((running 1 false 0 1 0).takenEntry 5 = some ⟨5, 1, false, 0⟩ ∧ 1 < (running 1 false 0 1 0).orderCount 5) ∧
    ((running 3 false 0 1 0).takenEntry 5 = some ⟨5, 3, false, 0⟩ ∧ (running 3 false 0 1 0).orderCount 5 ≤ 3) ∧
    (running 1 true 1 1 1).takenEntry 5 = some ⟨5, 1, true, 0⟩ ∧
    base.pageDone 5 = true ∧
    (running 3 false 0 1 0).pageDone 5 = false ∧
    (running 1 false 1 1 0).orderStatus 5 1 ≠ 0 ∧
    (running 1 false 0 1 0).orderStatus 5 1 = 0 ∧
    (running 1 false 0 0 0).orderCode 5 1 = 0 ∧
    20 < (running 1 false 0 21 0).orderCode 5 1 ∧
    OrderCode.ofCode ((running 1 false 0 20 0).orderCode 5 1) = some .flushJournal ∧
    OrderCode.ofCode ((running 1 false 0 1 0).orderCode 5 1) = some .setClock ∧
    (running 1 false 0 1 0).orderChain 5 1 = false ∧
    ((running 1 false 0 1 1).orderChain 5 1 = true ∧ ∀ k, k < 1 → (running 1 false 0 1 1).orderStatus 5 k = 2) ∧
    ((running 2 false 3 1 1).orderStatus 5 2 = 0 ∧ (running 2 false 3 1 1).orderChain 5 2 = true ∧ (running 2 false 3 1 1).orderStatus 5 1 = 3) ∧
    (running 2 false 7 1 1).orderStatus 5 1 = 7 ∧
    ((running 2 false 1 1 1).orderStatus 5 1 ≠ 2 ∧ ∀ k, k < 2 → ¬(3 ≤ (running 2 false 1 1 1).orderStatus 5 k ∧ (running 2 false 1 1 1).orderStatus 5 k ≤ 7)) ∧
    base.sys.held = false := by
  repeat' first
    | decide +kernel
    | constructor

theorem witness_PagesAreTakenAndAnswered_counts :
    ({ base with eng := { base.eng with submitted := [9] }, mem := base.mem.writes (256 * 9 + 2) [7] } : State).orderCount 9 = 7 ∧
    7 < ({ base with eng := { base.eng with submitted := [9] }, mem := base.mem.writes (256 * 9 + 2) [8] } : State).orderCount 9 ∧
    (({ base with eng := { base.eng with submitted := [9] }, mem := base.mem.writes (256 * 9 + 2) [0] } : State).orderCount 9 = 0 ∧ ({ base with eng := { base.eng with submitted := [9] }, mem := base.mem.writes (256 * 9 + 2) [0] } : State).eng.submitted = 9 :: []) ∧
    Config.takenMax ≤ [(⟨5, 7, false, 0⟩ : TakenPage), ⟨6, 7, false, 0⟩, ⟨7, 7, false, 0⟩, ⟨8, 7, false, 0⟩].length := by
  repeat' first
    | decide +kernel
    | constructor

/-- Bytes as memory from an address on. -/
def cells (a : Nat) (l : List Byte) : Memory := ((l.zipIdx a).filter fun x => decide (x.1 ≠ 0)).map fun x => (x.2, x.1)

/-- A settings body as 11.5 lays it out. -/
def bodyOf (t : Settings) : List Byte :=
  let fill (n : Nat) (l : List Byte) : List Byte := l ++ List.replicate (n - l.length) 0
  let bit (b : Bool) : Nat := if b then 1 else 0
  fill 504 (b2 t.siteNumber ++ b2 t.siteCode ++ b2 t.straps.length ++ fill 96 (t.straps.flatMap fun a => b2 a.level ++ b4 a.volume)
    ++ b2 t.floatLow ++ b2 t.floatHigh ++ b2 t.floatTop ++ b2 t.floatBand
    ++ t.cal.toList.flatMap (fun c => b2 c.code1 ++ bs2 c.value1 ++ b2 c.code2 ++ bs2 c.value2)
    ++ b2 t.abTolerance ++ b2 t.warnLevel ++ b2 t.tripLevel ++ b2 t.releaseLevel ++ b2 t.frostMargin ++ b2 t.tripConfirm
    ++ b2 (bit t.releaseAck) ++ b2 t.releaseDelay ++ t.pumps.toList.flatMap (fun p => b2 (bit p.fitted) ++ b2 p.flow ++ b2 p.units)
    ++ b2 t.confirmTime ++ b2 t.startTryLimit ++ b2 t.restartInterval ++ b2 t.startsPerHour ++ b2 t.minRun ++ b2 t.minOff
    ++ b2 t.travelLimit ++ b2 t.heaterConfirm ++ b2 t.heaterTryLimit
    ++ bs2 t.frostThreshold ++ bs2 t.hardThreshold ++ bs2 t.frostHysteresis ++ bs2 t.turnoverTemp ++ b2 t.stagnationLimit
    ++ b2 (match t.waterChannel with | none => 65535 | some k => k.val) ++ b2 t.turnoverDepth ++ b2 t.drawLimit
    ++ t.zones.toList.flatMap (fun z => b1 (bit z.fitted) ++ b1 z.channel.val ++ b1 z.level ++ b1 z.failDuty ++ bs2 z.onTemp
      ++ bs2 z.offTemp ++ bs2 z.hardTemp ++ b2 z.units)
    ++ t.tariff.toList.flatMap (fun d => (d.cheap.toList ++ d.peak.toList).flatMap fun w => b2 w.start ++ b2 w.length)
    ++ b1 t.cheapMask ++ b1 t.standardMask ++ b1 t.peakMask ++ [0] ++ b2 t.loadBudget ++ b2 t.nightTarget ++ b2 t.dayFloor
    ++ b2 t.topupMargin ++ b2 t.topupMinutes ++ b2 t.fillMargin ++ b2 t.defaultDraw ++ b2 t.restartStagger ++ b2 t.reportInterval
    ++ b2 t.stepDeadband ++ b2 t.journalAge ++ b2 t.holdLifetime)

/-- The base with a settings image in its pages: a CRC and a body. -/
def withImage (crc : Nat) (body : List Byte) : State :=
  { base with mem := cells 512 (b2 1 ++ b2 77 ++ b2 504 ++ b2 crc ++ body) }

/-- Settings of a second plant: pump 0 and zone 0 are not fitted, zone 3 is, and a third strapping point stands between. -/
def other : Settings := { plant with
  pumps := #v[⟨false, 500, 2⟩, ⟨true, 500, 2⟩, ⟨true, 500, 2⟩, ⟨true, 500, 2⟩]
  zones := #v[⟨false, 3, 2, 5, 50, 100, -50, 2⟩, ⟨true, 4, 3, 5, 50, 100, -50, 2⟩, ⟨true, 5, 1, 5, 50, 100, -50, 2⟩,
    ⟨true, 3, 1, 0, -50, 40, -60, 1⟩]
  straps := [⟨0, 0⟩, ⟨1000, 50000⟩, ⟨40000, 4000000⟩] }

/-- A plant whose `hard_threshold` is not below its `frost_threshold`. -/
def unordered : Settings := { plant with hardThreshold := 20 }

/-- A plant whose second slot of a day begins in the last minute of the first. -/
def overlapping : Settings :=
  { plant with tariff := Vector.replicate 7 ⟨#v[⟨0, 30⟩, ⟨29, 5⟩, ⟨0, 0⟩], Vector.replicate 2 ⟨0, 0⟩⟩ }

/-- Images with the CRC of their bodies: of the second plant, of the two faulty ones, and of a body of zeros. -/
def soundImage : State := withImage 8 (bodyOf other)
def unorderedImage : State := withImage 30399 (bodyOf unordered)
def overlapImage : State := withImage 44291 (bodyOf overlapping)
def zeroImage : State := withImage 21073 []

/-- The fold of the CRC with its register evaluated at each byte, as the kernel needs it on a long list. -/
def crcFold : BitVec 16 → List Byte → BitVec 16
  | c, [] => c
  | c, b :: l => if c.toNat < 65536 then crcFold (crcByte c b) l else crcFold (crcByte c b) l

theorem crc16_eq_crcFold (l : List Byte) : crc16 l = crcFold 0xFFFF#16 l := by
  unfold crc16
  generalize 0xFFFF#16 = c
  induction l generalizing c with
  | nil => rfl
  | cons b l ih => rw [List.foldl_cons, ih]; exact (ite_self _).symm

/-- The header of an image, as R164's first stage asks for it. -/
def goodHeader (s : State) : Prop :=
  s.img2 0 = 1 ∧ s.img2 4 = 504 ∧ s.img2 6 = (crc16 ((List.range 504).map fun i => s.imgByte (8 + i))).toNat

theorem goodHeader_of_fold (s : State) (h : s.img2 0 = 1 ∧ s.img2 4 = 504
    ∧ s.img2 6 = (crcFold 0xFFFF#16 ((List.range 504).map fun i => s.imgByte (8 + i))).toNat) : goodHeader s := by
  rw [← crc16_eq_crcFold] at h
  exact h

theorem validate_of_goodHeader (s : State) (t : Settings) (h : goodHeader s) (hr : s.badRange = none) (hi : s.imgSettings = t)
    (ho : badOrder t = none) (hw : badWindow t = none) : s.validate = .ok t := by
  unfold State.validate State.headerOk
  rw [h.1, h.2.1, ← h.2.2, hr]
  simp only [hi, ho, hw, decide_true, Bool.and_self, Bool.not_true, Bool.false_eq_true, if_false]

theorem inRanges_of_badRange (s : State) (h : s.badRange = none) : s.inRanges := by
  intro x hx
  rw [State.badRange, Option.map_eq_none_iff, List.find?_eq_none] at h
  have h1 : s.exempt x.2 = false → x.1.lo ≤ s.field x.1 ∧ s.field x.1 ≤ x.1.hi := by simpa using h x hx
  cases hc : s.exempt x.2 with
  | true => exact .inl rfl
  | false => exact .inr (h1 hc)

theorem test_sound_image : soundImage.validate = .ok other :=
  validate_of_goodHeader _ _ (goodHeader_of_fold _ (by decide +kernel)) (by decide +kernel) (by decide +kernel) (by decide +kernel)
    (by decide +kernel)

theorem witness_SettingsAreValidated : ¬goodHeader base ∧ soundImage.validate = .ok other :=
  ⟨fun h => absurd h.1 (by decide +kernel), test_sound_image⟩

theorem witness_SettingsAreValidated_range : goodHeader zeroImage ∧
    ∃ x ∈ fields.zipIdx 1, zeroImage.exempt x.2 = false ∧ (zeroImage.field x.1 < x.1.lo ∨ x.1.hi < zeroImage.field x.1) ∧
      ∀ y ∈ fields.zipIdx 1, y.2 < x.2 → zeroImage.exempt y.2 = true ∨ (y.1.lo ≤ zeroImage.field y.1 ∧ zeroImage.field y.1 ≤ y.1.hi) :=
  ⟨goodHeader_of_fold _ (by decide +kernel), by decide +kernel⟩

theorem witness_SettingsAreValidated_relation : goodHeader unorderedImage ∧ unorderedImage.inRanges ∧
    (false, 102) ∈ relations unorderedImage.imgSettings ∧ ∀ k, (false, k) ∈ relations unorderedImage.imgSettings → 102 ≤ k := by
  rw [show unorderedImage.imgSettings = unordered by decide +kernel]
  have h : ∀ x ∈ relations unordered, x.1 = false → 102 ≤ x.2 := by decide +kernel
  exact ⟨goodHeader_of_fold _ (by decide +kernel), inRanges_of_badRange _ (by decide +kernel), by decide +kernel,
    fun k hk => h (false, k) hk rfl⟩

theorem witness_SettingsAreValidated_overlap : goodHeader overlapImage ∧ overlapImage.inRanges ∧ overlapImage.imgSettings = overlapping ∧
    badOrder overlapping = none ∧ (0, 30, 141) ∈ slotsOf overlapping ∧ (29, 5, 143) ∈ slotsOf overlapping ∧
    coversMinute (0, 30, 141) 29 ∧ coversMinute (29, 5, 143) 29 ∧
    ∀ d ∈ slotsOf overlapping, d.2.2 < 143 → ∀ c ∈ slotsOf overlapping, ¬c.2.2 < d.2.2 :=
  ⟨goodHeader_of_fold _ (by decide +kernel), inRanges_of_badRange _ (by decide +kernel), by decide +kernel, by decide +kernel,
    by decide +kernel, by decide +kernel, by decide +kernel, by decide +kernel, by decide +kernel⟩

theorem witness_AdoptionReachesTheBlocks_sound : soundImage.orderReady order ∧ soundImage.eng.access = .service ∧
    soundImage.validate = .ok other ∧ unitsOf soundImage.arb.grants ≤ other.loadBudget ∧ soundImage.set = plant ∧
    (∀ a, soundImage.unheld a) ∧ soundImage.pumpsOk ∧ soundImage.heatersOk :=
  ⟨⟨rfl, _, rfl, rfl⟩, rfl, test_sound_image, by decide +kernel, rfl, fun _ _ h => (nomatch h), fun n => by
    unfold Pump.contactorOk; revert n; decide +kernel, fun n => by unfold Heater.contactorOk; revert n; decide +kernel⟩

theorem witness_AdoptionReachesTheBlocks :
    base.orderReady order ∧
    base.eng.access = .service ∧
    plant.loadBudget < unitsOf [(⟨.pump 0, 11, 4, false, 0, false⟩ : Grant)] ∧
    unitsOf [(⟨.pump 0, 10, 4, false, 0, false⟩ : Grant)] ≤ plant.loadBudget ∧
    other.straps ≠ plant.straps ∧
    (other.pumps[0].fitted = false ∧ plant.pumps[0].fitted = true) ∧
    (other.zones[3].fitted = true ∧ plant.zones[3].fitted = false) ∧
    (other.zones[0].fitted = false ∧ plant.zones[0].fitted = true) ∧
    ((planIn .hostFill .active none).target ≠ 0 ∧ (planIn .hostFill .active none).live = true) ∧
    (({ planIn .hostFill .active none with target := 9999 } : Plan).target < plant.dayFloor ∧ plant.warnLevel < ({ planIn .hostFill .active none with target := 31901 } : Plan).target + 100) ∧
    (∀ n : Fin 4, (factory.pumps[n.val]'n.isLt).fitted = false) := by
  repeat' first
    | decide +kernel
    | constructor
    | unfold State.orderReady

theorem witness_JournalFitsAndGaps :
    (base.jrn.starting = false ∧ base.jrn.flush = none ∧ RecKind.mark.cls ≠ 0) ∧
    (⟨.mark, 9000, none, List.replicate 16 1⟩ : Rec).length = 24 ∧
    (({ base with jrn := { base.jrn with opened := some ⟨19, 0, 1, 184, 0, false, some 9100⟩, given := [], resetMark := true } } : State).jrn.opened = some ⟨19, 0, 1, 184, 0, false, some 9100⟩ ∧ ({ base with jrn := { base.jrn with opened := some ⟨19, 0, 1, 184, 0, false, some 9100⟩, given := [], resetMark := true } } : State).jrn.queue = []) ∧
    (({ base with jrn := { base.jrn with opened := some ⟨19, 0, 1, 184, 0, false, some 9100⟩, given := [], resetMark := true } } : State).jrn.gapPending = true ∧ 184 + 40 + (⟨.mark, 9000, none, List.replicate 16 1⟩ : Rec).length ≤ 248) ∧
    (({ base with jrn := { base.jrn with opened := some ⟨19, 0, 1, 209, 0, false, some 9100⟩, given := [], resetMark := true } } : State).jrn.gapPending = true ∧ 248 < 209 + 40) ∧
    (({ base with jrn := { base.jrn with opened := some ⟨19, 0, 1, 225, 0, false, some 9100⟩, given := [], resetMark := false } } : State).jrn.gapPending = false ∧ 248 < 225 + (⟨.mark, 9000, none, List.replicate 16 1⟩ : Rec).length) ∧
    ({ base with jrn := { base.jrn with opened := some ⟨19, 0, 1, 225, 0, false, some 9100⟩, given := [], resetMark := false } } : State).jrn.given = [] ∧
    (({ base with jrn := { base.jrn with opened := some ⟨19, 0, 1, 225, 0, false, some 9100⟩, given := [20], resetMark := false } } : State).jrn.given = 20 :: [] ∧ (20 : Page) ≠ 19) ∧
    (base.jrn.opened = none ∧ base.jrn.given = [] ∧ base.jrn.queue.length < 24) ∧
    base.jrn.shortage = false ∧
    ({ base.jrn with shortage := true } : JrnState).shortage = true := by
  repeat' first
    | decide +kernel
    | constructor

theorem witness_StartRepairsPages :
    (({ base with port := { base.port with shadow := base.port.shadow.set 9 ⟨.taken, 5⟩ } } : State).entry 9).state = .taken ∧
    (({ base with port := { base.port with shadow := base.port.shadow.set 9 ⟨.journalOpen, 5⟩ } } : State).entry 9).state = .journalOpen ∧
    (({ base with port := { base.port with shadow := base.port.shadow.set 9 ⟨.submitted, 5⟩ } } : State).entry 9).state = .submitted ∧
    (({ base with port := { base.port with shadow := base.port.shadow.set 9 ⟨.journalGiven, 5⟩ } } : State).entry 9).state = .journalGiven ∧
    (({ base with port := { base.port with shadow := base.port.shadow.set 9 ⟨.free, 5⟩ } } : State).entry 9).state = .free ∧
    ({ base with mem := base.mem.writes (256 * 9 + 2) [7] } : State).countGood 9 ∧
    (¬base.countGood 9) ∧
    ((running 0 false 1 1 0).orderStatus 5 1 ≤ 1 ∧ 1 < (running 0 false 1 1 0).orderStatus 5 0 ∧ (running 0 false 1 1 0).orderCount 5 ≤ 3) ∧
    (({ base with mem := base.mem.writes 18 [3] |>.writes 256 [0x5A, 0x4E] } : State).wordAt 128 = 0x4E5A ∧ (({ base with mem := base.mem.writes 18 [3] |>.writes 256 [0x5A, 0x4E] } : State).mem.read (2 * (9 : Page).val)).toNat = 3) ∧
    (({ base with mem := base.mem.writes 18 [6] } : State).mem.read (2 * (9 : Page).val)).toNat = 6 ∧
    (inputs.cut = none ∧ ({ inputs with cut := some (.repair 0) } : StartInputs).cut = some (.repair 0)) ∧
    after (.coldStart inputs) ({ base with mem := base.mem.writes 18 [3] |>.writes 256 [0x5A, 0x4E] } : State) (fun t => decide ((t.entry 9).state = .answered)) = true := by
  repeat' first
    | decide +kernel
    | constructor

theorem witness_ResetsAndStarts_cut :
    (({ inputs with localIn := true } : StartInputs).localIn = true ∧ inputs.localIn = false) ∧
    after (.pinReset { inputs with cut := some (.repair 128) }) base (fun t => decide (t.sys.held = true)) = true ∧
    ({ base with sys := { base.sys with held := true }, eng := { base.eng with access := .service } } : State).eng.access = .service := by
  repeat' first
    | decide +kernel
    | constructor

theorem witness_HoldOrders_inlet :
    base.passes ⟨.holdActuator, order, 4, true, 0⟩ ∧
    base.passes ⟨.holdActuator, order, 6, true, 0⟩ ∧
    (ActId.ofCode (4#16).toNat = some .inlet ∧ ActId.ofCode (6#16).toNat = some (.heater 1)) ∧
    (base.fitted .inlet = true ∧ base.fitted (.heater 1) = true) ∧
    (base.unheld .inlet ∧ base.unheld (.heater 1)) ∧
    ({ withInlet .guard .stuck (some .closed) with guard := { base.guard with mode := .held } } : State).guard.mode.seizes = true ∧
    (base.guard.mode.seizes = false ∧ base.act.inlet.owner ≠ .guard) ∧
    ((withHeater { heaterIn .ready false with claim := .none }).heater 1).current = false ∧
    (((withHeater (heaterIn .on true)).heater 1).current = true ∧ (withHeater (heaterIn .on true)).heatersOk) ∧
    (withPump (pumpIn .running)).pumpsOk ∧
    ((withPump (pumpIn .running)).pump 0).owner = (withPump (pumpIn .running)).act.inlet.owner ∧
    ((withInlet (.plan 1) .opened (some .opened)).act.inlet.owner = .plan 1 ∧ (withInlet (.plan 1) .opened (some .opened)).act.inlet.mode ≠ .closed) ∧
    (withInlet .manual .closed (some .closed)).act.inlet.mode = .closed := by
  repeat' first
    | decide +kernel
    | constructor
    | unfold State.unheld
    | unfold State.pumpsOk
    | unfold Pump.contactorOk
    | unfold State.heatersOk
    | unfold Heater.contactorOk

theorem witness_PumpOrders_resting :
    (((withPump (pumpIn .resting)).pump 0).mode = .resting ∧ ((withPump (pumpIn .resting)).pump 0).owner = .manual) ∧
    (withPump (pumpIn .resting)).handles (.pump 0) 0 ∧
    ((withPump (pumpIn .resting)).pumpSet 0).fitted = true ∧
    (withPump (pumpIn .resting)).passes ⟨.stopPump, order, 0, true, 0⟩ := by
  repeat' first
    | decide +kernel
    | constructor
    | unfold State.unpending
    | unfold State.handles

theorem witness_PlansFollowTheLevel_runOn :
    (withPlan ({ planIn .dayTopup .waiting none with runOn := some 58 })).livePlan .dayTopup = some ({ planIn .dayTopup .waiting none with runOn := some 58 }) ∧
    ({ planIn .dayTopup .waiting none with runOn := none } : Plan).runOn = none ∧
    60 * plant.topupMinutes ≤ 59 + (judged' .floatsOnly 5).period ∧
    58 + (judged' .floatsOnly 5).period < 60 * plant.topupMinutes ∧
    ({ judged' .floatsOnly 5 with floats := ⟨true, true, false, false⟩ } : Judgement).floats.high = true ∧
    (judged' .floatsOnly 5).floats.low = false := by
  repeat' first
    | decide +kernel
    | constructor

theorem witness_HeaterEvents_stuck :
    ((withHeater { heaterIn .ready true with stuckDl := some 10000, stuckSaid := true, contactor := false }).heater 1).stuckSaid = true ∧
    (((withHeater { heaterIn .ready true with stuckDl := some 10000 }).heater 1).current = true ∧ ((withHeater { heaterIn .ready true with stuckDl := some 10000 }).heater 1).contactor = false) ∧
    ((withHeater { heaterIn .ready true with claim := .claimed }).heater 1).claim = .claimed ∧
    ((withHeater (heaterIn .retryWait false)).heater 1).request = .start := by
  repeat' first
    | decide +kernel
    | constructor

theorem witness_HoldsExpire_failed :
    ((((withHold ⟨1, .pump 0, 9000, some 9010, 10000, order⟩).setPump 0 { pumpIn .failed with feedback := false }).pump 0).mode = .failed ∧ (((withHold ⟨1, .pump 0, 9000, some 9010, 10000, order⟩).setPump 0 { pumpIn .failed with feedback := false }).pump 0).feedback = false) ∧
    ((((withHold ⟨1, .pump 0, 9000, some 9010, 10000, order⟩).setPump 0 { pumpIn .retryWait with feedback := true }).pump 0).mode = .retryWait ∧ (((withHold ⟨1, .pump 0, 9000, some 9010, 10000, order⟩).setPump 0 { pumpIn .retryWait with feedback := true }).pump 0).feedback = true) ∧
    ((withHold ⟨1, .pump 0, 9000, some 9010, 10000, order⟩).sys.power ≠ .dark ∧ (withHold ⟨1, .pump 0, 9000, some 9010, 10000, order⟩).eng.access ≠ .localControl) := by
  repeat' first
    | decide +kernel
    | constructor

theorem witness_MainsAndStagger_fallen :
    ({ base with pending := [.mainsLoss], sys := { base.sys with power := .dark } } : State).pending = .mainsLoss :: [] ∧
    ({ base with pending := [.mainsLoss], sys := { base.sys with power := .dark } } : State).sys.power = .dark ∧
    (after .mainsRestore ({ base with pending := [.mainsLoss], sys := { base.sys with power := .dark } } : State) (fun t => decide (t.sys.power = .dark ∧ .actuatorMainsRestore ∉ t.transit)) = true) ∧
    (after .mainsRestore ({ base with sys := { base.sys with power := .dark } } : State) (fun t => decide (t.sys.power = .run ∧ .actuatorMainsRestore ∈ t.transit)) = true) := by
  repeat' first
    | decide +kernel
    | constructor

theorem witness_MainsAndStagger_active : ∀ l, base.pending ≠ .mainsLoss :: l := nofun

/-! ### Clause by clause: what a judgement, a hold, a passing inlet and a start leave -/

theorem witness_ContactorsGuardedKept_inlet : (withPump (pumpIn .running)).guarded ∧
    ((withPump (pumpIn .running)).pump 0).contactor = true ∧ (withPump (pumpIn .running)).act.inlet.cmd = some .opened :=
  ⟨⟨⟨fun n => by unfold Pump.contactorOk; revert n; decide +kernel, nofun, nofun⟩,
    ⟨fun n => by
        have h : ∀ n : Fin 4, ((withPump (pumpIn .running)).act.pumps[n.val]'n.isLt).contactor = true →
          ((withPump (pumpIn .running)).act.pumps[n.val]'n.isLt).owner = .manual := by decide +kernel
        exact fun hc => ⟨rfl, .inl ⟨.inl (h n hc), rfl⟩, .inl rfl⟩,
      fun _ => ⟨rfl, rfl⟩, by decide, .nil, .nil, nofun, nofun, fun _ => .inl rfl⟩⟩, by decide +kernel, rfl⟩

/-- The base with a page open in the writer, the map saying so; with pages given, a reset mark, and bytes used. -/
def writing (given : List Page) (mark : Bool) (used : Nat) : State := { base with
  jrn := { base.jrn with opened := some ⟨19, 0, 1, used, 0, false, some 9100⟩, given := given, resetMark := mark }
  port := { base.port with shadow := base.port.shadow.set 19 ⟨.journalOpen, 0⟩ } }

/-- The base held in reset, over a memory with some bytes of the map and with or without the format word. -/
def asleep (a : Nat) (l : List Byte) (word : Bool) : State := { State.reset.resetAssert with
  mem := (State.reset.mem.writes a l).writes 256 (if word then [0x5A, 0x4E] else []) }


theorem witness_TablesWithinRoomKept_pages : ({ base with eng := { base.eng with inflight := [⟨order, .startPump, 0, 9400⟩] } } :
      State).eng.flightsTaken ∧ (writing [] false 20).openAgrees ∧ (writing [] false 20).port.mapReady = true ∧
    ((writing [] false 20).entry 19).state = .journalOpen ∧ (asleep 0 [] true).heldShut ∧ (asleep 0 [] true).sys.held = true := by
  refine ⟨fun f hf => ⟨_, .head _, ?_⟩, fun _ p hp => ⟨_, rfl, ?_⟩, rfl, by decide +kernel, fun _ => ⟨rfl, rfl, rfl, rfl⟩, rfl⟩
  · cases hf with
    | head => rfl
    | tail _ h => cases h
  · have h : ∀ p : Page, ((writing [] false 20).entry p).state = .journalOpen → (19 : Page) = p := by decide +kernel
    exact h p hp

/-- The base with the guard in a state, holding the inlet; a release count, causes, an episode, and whether to acknowledge. -/
def seized (m : GuardMode) (rel : Option Nat) (c : List Cause) (e : Option Episode) (ack : Bool) : State :=
  { withInlet .guard .stuck (some .closed) with
    sys := { base.sys with settings := { plant with releaseAck := ack } }
    guard := { base.guard with mode := m, release := rel, causes := c, first := c.head?, tripTime := some 9000, episode := e } }


theorem witness_GuardJudges_records :
    (base.recordsWait 7 ∧ base.allEstablished) ∧
    (seized .tripped (some 59) [.level] none false).act.inlet.mode = .stuck ∧
    after (.guardJudgement (judged' .good 5)) (seized .tripped (some 59) [.level] none false) (fun t => decide (t.guard.mode = .clear ∧ t.act.inlet.owner = .none ∧ t.act.inlet.mode = .stuck ∧ .inletFree ∈ t.transit ∧ t.jrn.queue.map Rec.kind = [.guardClear])) = true ∧
    after (.guardJudgement (judged' .good 5)) (seized .tripped (some 58) [.level] none false) (fun t => decide (t.guard.mode = .tripped ∧ t.guard.release = some 59)) = true ∧
    after (.guardJudgement (judged' .good 5)) (seized .tripped (some 59) [.level, .test] none false) (fun t => decide (t.guard.mode = .held)) = true ∧
    after (.guardJudgement { judged' .good 5 with floats := ⟨false, false, false, true⟩ }) (seized .tripped none [.level] none true) (fun t => decide (t.guard.episode = some ⟨10000, 0⟩ ∧ t.jrn.queue.map Rec.kind = [.overflow])) = true ∧
    after (.guardJudgement { judged' .good 5 with floats := ⟨false, false, false, true⟩ }) (seized .tripped none [.level] (some ⟨9000, 4⟩) true) (fun t => decide (t.guard.episode = some ⟨9000, 5⟩ ∧ t.jrn.queue = [])) = true ∧
    after (.guardJudgement (judged' .good 5)) (seized .tripped none [.level] (some ⟨9000, 4⟩) true) (fun t => decide (t.guard.episode = none ∧ t.jrn.queue.map Rec.kind = [.overflow])) = true ∧
    after (.guardJudgement { judged' .good 5 with floats := ⟨false, false, false, true⟩ }) (base) (fun t => decide (t.guard.mode = .tripped ∧ t.guard.tripSecs = 0 ∧ t.jrn.queue.map Rec.kind = [.guardTrip, .overflow])) = true ∧
    after (.guardJudgement (judged' .none 65535)) (seized .held none [.level] none true) (fun t => decide (t.guard.mode = .tripped ∧ t.jrn.queue.map Rec.kind = [.guardTrip])) = true ∧
    after (.guardJudgement (judged' .good 5)) ({ seized .tripped (some 59) [.level] none false with act := { (seized .tripped (some 59) [.level] none false).act with holds := [⟨1, .inlet, 9000, some 9010, 20000, order⟩] } }) (fun t => decide (t.guard.mode = .clear ∧ t.act.inlet.owner = .hold)) = true := by
  repeat' first
    | decide +kernel
    | constructor
    | unfold State.recordsWait
    | unfold State.allEstablished

/-- The inlet OPEN for MANUAL, and pump 0 as given under an ESTABLISHED hold. -/
def exercised (p : Pump) : State :=
  let h := withHold ⟨1, .pump 0, 9000, some 9010, 20000, order⟩
  (h.setPump 0 { p with owner := .hold, hold := some 1 }).modInlet fun v =>
    { v with owner := .manual, cmd := some .opened, mode := .opened, openLs := true }


theorem witness_Recalls_exercised :
    (exercised { pumpIn .held with feedback := false }).unpending (.pump 0) ∧
    (((exercised { pumpIn .held with feedback := false }).pump 0).mode = .held ∧ ((exercised { pumpIn .held with feedback := false }).pump 0).owner = .hold ∧ ((exercised { pumpIn .held with feedback := false }).pump 0).claim = .granted) ∧
    after (.recall (.pump 0)) (exercised { pumpIn .held with feedback := false }) (fun t => decide ((t.pump 0).mode = .held ∧ (t.pump 0).claim = .claimed)) = true ∧
    after (.recall (.pump 0)) (exercised { pumpIn .held with feedback := false, request := .none }) (fun t => decide ((t.pump 0).mode = .held ∧ (t.pump 0).claim = .none)) = true := by
  repeat' first
    | decide +kernel
    | constructor
    | unfold State.unpending

theorem witness_FeedbackChanges_exercised :
    plant.startTryLimit ≤ (pumpIn .running).tries + 2 ∧
    after (.runFeedbackChange 0 false) (exercised { pumpIn .running with tries := 1 }) (fun t => decide ((t.pump 0).mode = .held ∧ (t.pump 0).tries = 0 ∧ (t.pump 0).claim = .none)) = true ∧
    after (.runFeedbackChange 0 false) (withPump { pumpIn .running with tries := 1 }) (fun t => decide ((t.pump 0).mode = .failed ∧ (t.pump 0).owner = .none)) = true := by
  repeat' first
    | decide +kernel
    | constructor

/-- Plan 2 asks for the inlet of plan 1, which is leaving it: in a state, with a close that waits or has begun, and with pump 0. -/
def passing (m : InletMode) (wait : Bool) (p : Pump) : State :=
  let s := withInlet (.plan 1) m (some .closed)
  let s := s.setPump 0 { p with owner := .plan 1 }
  let s := s.modInlet fun v => { v with leaving := true, closeWait := wait, closeFor := if wait then [0] else [], goFor := [0] }
  { s with plans := { s.plans with request := some 2, slots := (s.plans.slots.set 0 (some { planIn .nightFill .ended none with
      endCause := some .cancelled, engaged := [0] })).set 1 (some { planIn .hostFill .waiting none with
        number := 2, startAt := some 10000 }) } }


theorem witness_InletPassesToAPlan_leaving :
    ((passing .opened true { pumpIn .running with request := .stop, stopWait := true, runSince := some 9941 }).ready { planIn .hostFill .waiting none with number := 2, startAt := some 10000 } = true ∧ (passing .opened true { pumpIn .running with request := .stop, stopWait := true, runSince := some 9941 }).inletPassable PlanKind.hostFill.rank = true) ∧
    ((passing .opened true { pumpIn .running with request := .stop, stopWait := true, runSince := some 9941 }).act.inlet.openWait = false ∧ (passing .opened true { pumpIn .running with request := .stop, stopWait := true, runSince := some 9941 }).act.inlet.releasing = false ∧ (passing .opened true { pumpIn .running with request := .stop, stopWait := true, runSince := some 9941 }).allEstablished ∧ (passing .opened true { pumpIn .running with request := .stop, stopWait := true, runSince := some 9941 }).drives = true) ∧
    (four.filter fun k => (passing .opened true { pumpIn .running with request := .stop, stopWait := true, runSince := some 9941 }).passesOn 1 k || (passing .opened true { pumpIn .running with request := .stop, stopWait := true, runSince := some 9941 }).isEngaged 2 k).length ≤ 1 ∧
    after (.planGrant 2) (passing .opened true { pumpIn .running with request := .stop, stopWait := true, runSince := some 9941 }) (fun t => decide (t.act.inlet.owner = .plan 2 ∧ t.act.inlet.leaving = false ∧ t.act.inlet.closeWait = false ∧ t.act.inlet.mode = .opened ∧ (t.pump 0).owner = .plan 2 ∧ (t.pump 0).request = .start ∧ .relevel (.pump 0) 3 false ∈ t.transit ∧ t.planList.map (fun p => (p.number, p.engaged)) = [(1, []), (2, [0])])) = true ∧
    after (.planGrant 2) (passing .closing false { pumpIn .stopping with request := .stop, claim := .none }) (fun t => decide (t.act.inlet.mode = .opening ∧ t.act.inlet.cmd = some .opened ∧ t.act.inlet.travelDl = some 10120 ∧ (t.pump 0).mode = .stopping ∧ (t.pump 0).request = .start)) = true ∧
    after (.planGrant 2) (passing .closing false { pumpIn .resting with request := .stop, claim := .none }) (fun t => decide ((t.pump 0).claim = .claimed ∧ (t.pump 0).request = .start)) = true := by
  repeat' first
    | decide +kernel
    | constructor
    | unfold State.allEstablished

theorem witness_InletMoves_close :
    after (.inletCommand .manual .closed) (withInlet .manual .opening (some .opened)) (fun t => decide (t.act.inlet.mode = .closing ∧ t.act.inlet.travelDl = some 10120)) = true ∧
    after (.inletCommand .manual .closed) (withInlet .manual .stuck none) (fun t => decide (t.act.inlet.mode = .closing)) = true ∧
    after (.inletCommand .manual .closed) (withInlet .manual .midway none) (fun t => decide (t.act.inlet.mode = .closing)) = true ∧
    after (.inletCommand .manual .closed) (withInlet .manual .closing (some .closed)) (fun t => decide (t.act.inlet.mode = .closing ∧ t.act.inlet.travelDl = some 10000)) = true ∧
    after (.inletCommand .manual .closed) (withPump { pumpIn .running with runSince := some 9941 }) (fun t => decide (t.act.inlet.mode = .opened ∧ t.act.inlet.closeWait = true)) = true ∧
    after (.inletCommand .manual .closed) ((withPump { pumpIn .running with runSince := some 9941 }).modInlet fun v => { v with mode := .opening, travelDl := some 10000 }) (fun t => decide (t.act.inlet.mode = .opening ∧ t.act.inlet.closeWait = true)) = true := by
  repeat' first
    | decide +kernel
    | constructor

/-- The base with plan 1 ACTIVE at an OPEN inlet, and every pump in a state. -/
def pumping (m : PumpMode) (im : InletMode) : State :=
  let s := withInlet (.plan 1) im (some .opened)
  { s with
    act := { s.act with pumps := Vector.replicate 4 { Pump.initial with mode := m } }
    plans := { s.plans with slots := s.plans.slots.set 0 (some (planIn .hostFill .active none)) } }


theorem witness_PlanEvents_reports :
    (∀ k, ((pumping .failed .opened).pump k).mode = .failed) ∧
    (pumping .failed .opened).livePlan .turnover = none ∧
    ((pumping .failed .midway).plan 1 = some (planIn .hostFill .active none) ∧ (pumping .failed .midway).act.inlet.owner = .plan 1) ∧
    after (.actuatorReport 1 (.pumps [] .failed)) (pumping .failed .opened) (fun t => decide (.stageRequest 1 0 true ∈ t.transit ∧ (t.planList.map fun p => (p.state, p.pause)) = [(.paused, some .noPumps)])) = true ∧
    after (.actuatorReport 1 (.pumps [] .staged)) (pumping .failed .opened) (fun t => decide (.stageRequest 1 0 true ∈ t.transit ∧ (t.planList.map fun p => (p.state, p.pause)) = [(.paused, some .noPumps)])) = true ∧
    after (.actuatorReport 1 (.pumps [] .failed)) (pumping .ready .opened) (fun t => decide ((t.planList.map fun p => (p.state, p.pause)) = [(.active, none)])) = true ∧
    after (.actuatorReport 1 .inletLost) (pumping .ready .midway) (fun t => decide (.inletCommand (.plan 1) .opened ∈ t.transit)) = true ∧
    after (.actuatorReport 1 .inletStuck) (pumping .ready .stuck) (fun t => decide (t.plans.slots = (pumping .ready .stuck).plans.slots)) = true ∧
    after (.actuatorReport 1 .left) (passing .closing false { pumpIn .stopping with request := .stop, claim := .none }) (fun t => decide (t.planList.map (fun p => (p.number, p.engaged)) = [(1, []), (2, [])])) = true := by
  repeat' first
    | decide +kernel
    | constructor

/-- The base with two plans in its table, at a time. -/
def planned (t : Time) (p : Plan) (q : Option Plan) : State := { base with
  cal := { base.cal with count := t.toNat }
  plans := { base.plans with slots := (base.plans.slots.set 0 (some p)).set 1 (q.map fun q => { q with number := 2 }) } }

/-- A turnover in DRAW from a level and a depth, drawn for some seconds, or in REFILL. -/
def drawing (draw : Bool) (secs : Nat) : Plan :=
  { planIn .turnover .waiting none with draw := draw, startLevel := some 15000, depth := some 1000, drawSecs := secs }


theorem witness_PlansFollowTheLevel_effects :
    (none ∈ (planned 10000 (drawing true 0) none).plans.slots.toList ∧ (planned 10000 (drawing true 0) none).livePlan .turnover = some (drawing true 0)) ∧
    after (.planJudgement (judged' .good 11000)) (planned 10000 { planIn .hostFill .active none with deadline := some 10000, target := 20000 } none) (fun t => decide ((t.planList.map fun p => (p.kind, p.state, p.endCause, p.draw)) = [(.hostFill, .ended, some .deadline, false)])) = true ∧
    after (.planJudgement (judged' .good 11000)) (planned 10000 { planIn .hostFill .active none with deadline := some 10001, target := 20000 } none) (fun t => decide ((t.planList.map fun p => (p.kind, p.state, p.endCause, p.draw)) = [(.hostFill, .active, none, false)])) = true ∧
    after (.planJudgement (judged' .good 11000)) ((planned 10000 { planIn .hostFill .active none with target := 20000 } none).setPump 0 { pumpIn .running with owner := .plan 1 }) (fun t => decide ((t.planList.map fun p => (p.volAcc, p.runTime)) = [(500, 1)])) = true ∧
    after (.planJudgement { judged' .good 9999 with minute := true }) (planned 10000 { planIn .dayTopup .active none with target := 20000, activeLevel := some 10000, actRun := 599 } none) (fun t => decide ((t.planList.map Plan.stage) = [2])) = true ∧
    after (.planJudgement { judged' .good 9999 with minute := true }) (planned 10000 { planIn .dayTopup .active none with target := 20000, activeLevel := some 10000, actRun := 598 } none) (fun t => decide ((t.planList.map Plan.stage) = [1])) = true ∧
    after (.planJudgement (judged' .good 9999)) ({ planned 10000 { planIn .nightFill .waiting none with target := 20000, startAt := some 15000 } none with guard := { base.guard with mode := .watch } }) (fun t => decide ((t.planList.map fun p => (p.kind, p.startAt, p.early)) = [(.nightFill, some 10000, true), (.dayTopup, some 10000, false)])) = true ∧
    after (.planJudgement (judged' .good 15000)) (planned 10000 (drawing false 0) none) (fun t => decide ((t.planList.map fun p => (p.kind, p.state, p.endCause, p.draw)) = [(.turnover, .ended, some .notNeeded, false)])) = true ∧
    after (.planJudgement (judged' .good 14001)) (planned 10000 (drawing true 0) none) (fun t => decide ((t.planList.map fun p => (p.kind, p.state, p.endCause, p.draw)) = [(.turnover, .waiting, none, true)])) = true ∧
    after (.planJudgement (judged' .good 14000)) (planned 10000 (drawing true 0) none) (fun t => decide ((t.planList.map fun p => (p.kind, p.state, p.endCause, p.draw)) = [(.turnover, .waiting, none, false)])) = true ∧
    after (.planJudgement (judged' .good 14001)) (planned 10000 (drawing true 3599) none) (fun t => decide ((t.planList.map fun p => (p.kind, p.state, p.endCause, p.draw)) = [(.turnover, .waiting, none, false)])) = true ∧
    after (.planJudgement (judged' .good 14000)) (planned 10000 (drawing true 0) (some { planIn .nightFill .waiting none with target := 20000, startAt := some 15000, latest := some 15000 })) (fun t => decide ((t.planList.map fun p => (p.kind, p.state, p.endCause, p.draw)) = [(.turnover, .ended, some .absorbed, true), (.nightFill, .waiting, none, false)] ∧ (t.planList.map Plan.startAt)[1]? = some (some 10000))) = true ∧
    after (.planJudgement (judged' .good 14001)) (planned 10000 (drawing true 0) (some { planIn .nightFill .waiting none with target := 20000, startAt := some 10000, latest := some 10001 })) (fun t => decide ((t.planList.map fun p => (p.kind, p.state, p.endCause, p.draw)) = [(.turnover, .waiting, none, true), (.nightFill, .waiting, none, false)])) = true ∧
    after (.planJudgement (judged' .good 14001)) (planned 10000 (drawing true 0) (some { planIn .nightFill .waiting none with target := 20000, startAt := some 10000, latest := some 10000 })) (fun t => decide ((t.planList.map Plan.endCause)[0]? = some (some .absorbed))) = true := by
  repeat' first
    | decide +kernel
    | constructor

theorem witness_ZonesOnDuty_requests :
    after (.frostJudgement { judged' .good 5 with zones := Vector.replicate 4 ⟨0, false⟩ }) ({ base with frost := { base.frost with zones := base.frost.zones.set 0 ⟨.duty, false, true, 299, ⟨0, false⟩⟩ } }) (fun t => decide (.heaterStartRequest 0 2 false ∈ t.transit)) = true ∧
    after (.frostJudgement { judged' .good 5 with zones := Vector.replicate 4 ⟨0, false⟩ }) (({ base with frost := { base.frost with zones := base.frost.zones.set 0 ⟨.duty, false, true, 300, ⟨0, false⟩⟩ } } : State).setHeater 0 (heaterIn .on true)) (fun t => decide (.heaterStopRequest 0 ∈ t.transit)) = true ∧
    after (.frostJudgement { judged' .good 5 with zones := Vector.replicate 4 ⟨100, true⟩ }) (({ base with frost := { base.frost with zones := base.frost.zones.set 0 ⟨.want, true, true, 0, ⟨0, true⟩⟩ } } : State).setHeater 0 { heaterIn .on true with level := 6, urgent := true }) (fun t => decide (.heaterStopRequest 0 ∈ t.transit ∧ .relevel (.heater 0) 2 false ∈ t.transit ∧ (t.heater 0).level = 2)) = true := by
  repeat' first
    | decide +kernel
    | constructor

/-- The base in LOCAL with an inlet and pump 0. -/
def localAt (o : Owner) (m : InletMode) (p : Pump) : State :=
  let s := (withInlet o m none).setPump 0 p
  { s with eng := { s.eng with access := .localControl, serviceEnd := none }, sys := { s.sys with localIn := true } }


theorem witness_AccessStates_entry :
    after .localEntry (withPump (pumpIn .running)) (fun t => decide (.grantRelease (.pump 0) ∈ t.transit ∧ (t.pump 0).owner = .none ∧ t.act.inlet.owner = .none ∧ t.act.inlet.cmd = none)) = true ∧
    after .localEntry (withPump { pumpIn .ready with claim := .claimed }) (fun t => decide (.withdrawal (.pump 0) ∈ t.transit)) = true ∧
    after .localEntry (seized .held none [.level] none true) (fun t => decide (t.act.inlet.owner = .guard ∧ t.act.inlet.cmd = some .closed)) = true ∧
    after .localEntry (withHold ⟨1, .inlet, 9000, some 9010, 20000, order⟩) (fun t => decide (t.act.inlet.cmd = some .closed)) = true ∧
    after .localExit (localAt .guard .midway { pumpIn .ready with feedback := true, request := .none, claim := .none, owner := .none }) (fun t => decide (t.act.inlet.mode = .closing ∧ t.act.inlet.travelDl = some 10120 ∧ (t.pump 0).mode = .stopping ∧ (t.pump 0).stopDl = some 10010)) = true ∧
    after .localExit (localAt .none .midway { pumpIn .failed with feedback := true, request := .none, owner := .none }) (fun t => decide (t.act.inlet.mode = .midway ∧ (t.pump 0).mode = .failed ∧ (t.pump 0).stopDl = some 10010)) = true ∧
    after .localExit ({ localAt .none .midway { pumpIn .ready with feedback := true, request := .none, claim := .none, owner := .none } with sys := { base.sys with power := .dark } }) (fun t => decide ((t.pump 0).mode = .ready)) = true ∧
    (∀ n, (localAt .guard .midway { pumpIn .ready with feedback := true, request := .none, claim := .none, owner := .none }).unpending (.pump n)) ∧ (localAt .guard .midway { pumpIn .ready with feedback := true, request := .none, claim := .none, owner := .none }).act.inlet.calm := by
  repeat' first
    | decide +kernel
    | constructor
    | unfold State.unpending
    | unfold Inlet.calm

theorem witness_ClockSettingsAndReads_moves :
    (((withPump (pumpIn .retryWait)).pump 0).waits = false ∧ ((withHeater (heaterIn .retryWait false)).heater 1).waits = false) ∧
    after (.setClock order 20000) ((withPump (pumpIn .retryWait)).setHeater 1 (heaterIn .retryWait false)) (fun t => decide ((t.pump 0).retryDl = some 20000 ∧ (t.pump 0).runSince = some 19940 ∧ (t.pump 0).starts = [] ∧ (t.heater 1).retryDl = some 20000 ∧ t.eng.serviceEnd = some 20000)) = true ∧
    after (.setClock order 20000) (withHold ⟨1, .pump 0, 9000, some 9010, 10000, order⟩) (fun t => decide ((t.act.holds.map Hold.deadline) = [20000])) = true ∧
    after (.setClock order 9000) (writing [] false 20) (fun t => decide ((t.jrn.opened.map OpenPage.ageStart) = some (some 8100))) = true ∧
    after (.setClock order 20000) ({ base with sys := { base.sys with stagger := some 10005 } }) (fun t => decide (t.sys.stagger = some 20005)) = true := by
  repeat' first
    | decide +kernel
    | constructor

theorem witness_InletOrders_owners :
    ((withInlet .hold .closed (some .closed)).act.inlet.owner = .hold ∧ (withInlet (.plan 1) .opened none).act.inlet.owner.isPlan = true) ∧
    after (.closeInlet order 0) (withInlet (.plan 1) .opened (some .opened)) (fun t => decide (t.act.inlet.owner = .manual ∧ t.act.inlet.mode = .closing ∧ .actuatorReport 1 .inletTaken ∈ t.transit)) = true ∧
    after (.closeInlet order 0) (withPump { pumpIn .running with runSince := some 9941 }) (fun t => decide (t.act.inlet.mode = .opened ∧ t.act.inlet.closeWait = true)) = true := by
  repeat' first
    | decide +kernel
    | constructor

theorem witness_GuardAndJournalOrders_records :
    base.recordsWait 6 ∧ base.allEstablished ∧
    after (.resetGuard order) (seized .held none [.level] none true) (fun t => decide (t.act.inlet.owner = .none ∧ t.act.inlet.mode = .stuck ∧ .inletFree ∈ t.transit ∧ t.jrn.queue.map (fun r => (r.kind, r.ref)) = [(.guardClear, some order)])) = true ∧
    after (.guardTest order) (base) (fun t => decide (t.guard.causes = [.test] ∧ t.jrn.queue.map (fun r => (r.kind, r.ref)) = [(.guardTrip, some order)])) = true ∧
    after (.resetGuard order) ({ seized .held none [.level] none true with act := { (seized .held none [.level] none true).act with holds := [⟨1, .inlet, 9000, some 9010, 20000, order⟩] } }) (fun t => decide (t.act.inlet.owner = .hold)) = true := by
  repeat' first
    | decide +kernel
    | constructor
    | unfold State.recordsWait
    | unfold State.allEstablished

theorem witness_JournalFitsAndGaps_heads :
    ((writing [] true 208).jrn.gapPending = true ∧ 208 + 40 ≤ 248 ∧ 248 < 208 + 40 + (⟨.mark, 9000, none, List.replicate 16 1⟩ : Rec).length) ∧
    after (.recordArrival ⟨.mark, 9000, none, List.replicate 16 1⟩) (writing [] true 208) (fun t => decide (t.jrn.queue.map Rec.kind = [.mark] ∧ t.jrn.opened = none ∧ t.jrn.resetMark = false ∧ (t.entry 19).state = .journalFull ∧ t.byte 19 2 = 2 ∧ t.byte 19 3 = 248 ∧ t.byte 19 6 = 1)) = true ∧
    after (.recordArrival ⟨.mark, 9000, none, List.replicate 16 1⟩) (writing [20] true 208) (fun t => decide (t.jrn.queue = [] ∧ (t.jrn.opened.map fun o => (o.page, o.records, o.used, o.gapInside)) = some (20, 1, 24, false) ∧ t.byte 20 2 = 1 ∧ t.byte 20 3 = 24)) = true ∧
    after (.recordArrival ⟨.mark, 9000, none, List.replicate 16 1⟩) (writing [20] true 209) (fun t => decide (t.jrn.queue = [] ∧ (t.jrn.opened.map fun o => (o.page, o.records, o.used, o.gapInside)) = some (20, 2, 64, true) ∧ (t.entry 19).state = .journalFull ∧ t.byte 20 6 = 1)) = true ∧
    after (.recordArrival ⟨.mark, 9000, none, List.replicate 16 1⟩) (writing [] true 184) (fun t => decide ((t.jrn.opened.map fun o => (o.records, o.used)) = some (3, 248) ∧ t.byte 19 3 = 248)) = true := by
  repeat' first
    | decide +kernel
    | constructor

theorem witness_WriterWorks_heads :
    after (.recordArrival ⟨.mark, 9000, none, List.replicate 16 1⟩) (writing [] false 20) (fun t => decide ((t.half 19 0, t.byte 19 2, t.byte 19 3, t.half 19 4, t.byte 19 6) = (0, 2, 44, 0, 0))) = true ∧
    after .journalAgeExpiry (writing [] false 20) (fun t => decide ((t.byte 19 2, t.byte 19 3, t.byte 19 6) = (1, 20, 4) ∧ t.port.attn.getLsbD 1 = true)) = true ∧
    after .pageOpen ({ base with jrn := { base.jrn with queue := [⟨.mark, 9000, none, List.replicate 16 1⟩], given := [20] } }) (fun t => decide ((t.half 20 0, t.byte 20 2, t.byte 20 3, t.half 20 4, t.byte 20 6) = (0, 1, 24, 0, 0))) = true := by
  repeat' first
    | decide +kernel
    | constructor

theorem witness_MainsAndStagger_records :
    (base.recordsWait 10 ∧ (withHeater (heaterIn .on true)).unheld (.heater 1)) ∧
    after .mainsLoss (base) (fun t => decide (t.jrn.queue.map Rec.kind = [.power])) = true ∧
    after .mainsRestore ({ base with sys := { base.sys with power := .dark } }) (fun t => decide (t.jrn.queue.map Rec.kind = [.start])) = true ∧
    after .mainsRestore ({ base with pending := [.mainsLoss], sys := { base.sys with power := .dark } }) (fun t => decide (t.jrn.queue.map Rec.kind = [.start, .power])) = true ∧
    after .actuatorMainsLoss (withPump { pumpIn .running with tries := 1 }) (fun t => decide (t.jrn.queue = [⟨.run, 10000, none, [0, 1, 2, 0, 60, 0, 0, 0]⟩] ∧ (t.pump 0).tries = 0 ∧ (t.pump 0).mode = .resting)) = true ∧
    after .actuatorMainsLoss (withPump { pumpIn .failed with tries := 2 }) (fun t => decide ((t.pump 0).tries = 2 ∧ (t.pump 0).mode = .failed)) = true ∧
    after .actuatorMainsLoss (withHeater (heaterIn .on true)) (fun t => decide ((t.heater 1).mode = .ready ∧ (t.heater 1).owner = .frost)) = true ∧
    after .actuatorMainsLoss (withHeater (heaterIn .retryWait false)) (fun t => decide ((t.heater 1).mode = .ready)) = true ∧
    after .actuatorMainsRestore (withInlet .guard .midway (some .closed)) (fun t => decide (t.act.inlet.mode = .closing ∧ t.act.inlet.travelDl = some 10120)) = true ∧
    after .actuatorMainsRestore (withInlet .none .midway none) (fun t => decide (t.act.inlet.mode = .midway)) = true := by
  repeat' first
    | decide +kernel
    | constructor
    | unfold State.recordsWait
    | unfold State.unheld

theorem witness_ResetsAndStarts_gaps :
    after .resetInputAsserted ({ base with jrn := { base.jrn with queue := [⟨.mark, 9000, none, List.replicate 16 1⟩, ⟨.mark, 9000, none, List.replicate 16 1⟩] } }) (fun t => decide (t.jrn.gaps = #v[⟨0, 0, 0⟩, ⟨2, 10000, 10000⟩, ⟨0, 0, 0⟩] ∧ t.jrn.resetMark = true)) = true ∧
    after .resetInputAsserted ({ base with jrn := { base.jrn with queue := [⟨.mark, 9000, none, List.replicate 16 1⟩], gaps := #v[⟨0, 0, 0⟩, ⟨65535, 8000, 9000⟩, ⟨0, 0, 0⟩] } }) (fun t => decide (t.jrn.gaps = #v[⟨0, 0, 0⟩, ⟨65535, 8000, 10000⟩, ⟨0, 0, 0⟩])) = true := by
  repeat' first
    | decide +kernel
    | constructor

theorem witness_StartRepairsPages_record :
    ((asleep 18 [3] true).wordAt 128 = 0x4E5A ∧ (asleep 18 [3] false).wordAt 128 ≠ 0x4E5A) ∧
    (∀ p : Page, 4 ≤ p.val → ((asleep 18 [3, 7, 6] true).mem.read (2 * p.val)).toNat ≠ 5) ∧
    ((asleep 18 [3] true).jrn.queue = [] ∧ inputs.cut = none) ∧
    after (.pinReset inputs) (asleep 0 [8, 0, 8, 0, 8, 0, 8, 0, 1, 4, 9, 9, 6, 1, 3, 2] true) (fun t => decide ((t.entry 5, t.entry 6, t.entry 7) = (⟨.free, 0⟩, ⟨.journalFull, 1⟩, ⟨.answered, 2⟩) ∧ t.entry 4 = ⟨.orderDraft, 4⟩ ∧ (t.jrn.queue.filter fun r => decide (r.kind = .start)).map Rec.body = [[1, 2, 0, 3, 0, 0, 0, 0]])) = true ∧
    after (.coldStart inputs) (asleep 18 [3, 7] false) (fun t => decide (t.entry 9 = ⟨.free, 0⟩ ∧ (t.entry 0).state = .fixed ∧ t.wordAt 128 = 0x4E5A ∧ (t.jrn.queue.filter fun r => decide (r.kind = .start)).map Rec.body = [[0, 2, 1, 0, 0, 0, 0, 0]])) = true := by
  repeat' first
    | decide +kernel
    | constructor


end Sys2Proof.Tests
end

/-! PROOF. The debounce of the floats and the overflow-pipe switch (R5). -/

namespace Sys2Proof.Machine

/-! ## What a survey and a start leave of the survey unit -/

@[simp] theorem State.deliver_survey (s : State) : s.deliver.survey = s.survey := by
  unfold State.deliver
  split
  case h_1 => rfl
  case h_2 j => exact s.posts_survey _

@[simp] theorem State.clearBoardRecords_survey (s : State) : s.clearBoardRecords.survey = s.survey :=
  s.poke_survey boardPage 2 _

theorem exec_survey_awake (x : Sample) (s : State) (hs : s.sys.held = false) :
    exec (.survey x) s = .next (s.doSurvey x).deliver :=
  congrArg Host.Outcome.next (s.alive_run _ hs)

theorem doSurvey_deb (x : Sample) (s : State) :
    (s.doSurvey x).survey.deb = debounced s.survey.deb s.survey.prev x.floats :=
  congrArg (fun view => view.2.1) (doSurvey_surveyView x s)

theorem doSurvey_prev (x : Sample) (s : State) : (s.doSurvey x).survey.prev = some x.floats :=
  congrArg (fun view => view.2.2) (doSurvey_surveyView x s)

/-- The judgement a survey forms carries the debounced states of that survey. -/
theorem doSurvey_judgement_floats (x : Sample) (s : State) :
    ∃ j, (s.doSurvey x).survey.judgement = some j ∧ j.floats = (s.doSurvey x).survey.deb := by
  obtain ⟨d, v, m, hj, -⟩ := doSurvey_judgement x s
  exact ⟨_, hj, (doSurvey_deb x s).symm⟩

theorem coldState_prev (s : State) : s.coldState.survey.prev = none := by
  unfold State.coldState
  rw [State.clearBoardRecords_survey]
  rfl

theorem resetAssert_prev (s : State) : s.resetAssert.survey.prev = none := by
  unfold State.resetAssert
  rw [State.clearBoardRecords_survey]
  rfl

/-! ## The debounce -/

@[simp] theorem debounced_none (deb x : Floats) : debounced deb none x = x := rfl

@[simp] theorem debounced_some (deb p x : Floats) : debounced deb (some p) x =
    ⟨debounce deb.low p.low x.low, debounce deb.high p.high x.high, debounce deb.top p.top x.top, debounce deb.opf p.opf x.opf⟩ := rfl

/-- Settles O10: a survey leaves the states `debounced` gives and the sample as the previous one (`doSurvey_surveyView`), the delivery
moves neither, and a cold start and a pin reset leave no previous sample. -/
theorem floatsDebounced : Obligations.FloatsDebounced := by
  unfold Obligations.FloatsDebounced
  refine ⟨fun x s hs => Completes.intro (exec_survey_awake x s hs) ?_, fun s => ⟨coldState_prev s, resetAssert_prev s⟩⟩
  rw [State.deliver_survey]
  refine ⟨fun hprev => ?first, fun p hprev => ?later, doSurvey_prev x s, doSurvey_judgement_floats x s⟩
  case first => rw [doSurvey_deb, hprev, debounced_none]
  case later =>
    rw [doSurvey_deb, hprev, debounced_some]
    exact ⟨rfl, rfl, rfl, rfl⟩

end Sys2Proof.Machine

/-! PROOF. The overflow guard's confirm count (R22). -/

namespace Sys2Proof.Machine

/-! ## The confirm count and the LEVEL cause -/

theorem numericQuality_iff (q : Quality) : numericQuality q = true ↔ numericQ q := decide_eq_true_iff

/-- The test under which `GuardState.confirmAfter` counts, in the words of R22. -/
theorem confirm_counts_iff (g : GuardState) (j : Judgement) :
    (numericQuality j.quality && decide (g.effTrip ≤ j.level)) = true ↔ numericQ j.quality ∧ g.effTrip ≤ j.level := by
  rw [Bool.and_eq_true, numericQuality_iff, decide_eq_true_iff]

theorem confirmAfter_of_reached {g : GuardState} {j : Judgement} (t : Settings) (h : numericQ j.quality ∧ g.effTrip ≤ j.level) :
    g.confirmAfter t j = if g.confirm < t.tripConfirm then g.confirm + 1 else g.confirm :=
  if_pos ((confirm_counts_iff g j).mpr h)

theorem confirmAfter_of_not_reached {g : GuardState} {j : Judgement} (t : Settings)
    (h : ¬(numericQ j.quality ∧ g.effTrip ≤ j.level)) : g.confirmAfter t j = 0 :=
  if_neg fun hc => h ((confirm_counts_iff g j).mp hc)

theorem mem_allCauses (c : Cause) : c ∈ allCauses := by cases c <;> decide

theorem mem_causesAt (t : Settings) (n : Nat) (j : Judgement) (c : Cause) : c ∈ causesAt t n j ↔ causePresent t n j c = true := by
  simp [causesAt, mem_allCauses]

theorem level_mem_causesAt (t : Settings) (n : Nat) (j : Judgement) : Cause.level ∈ causesAt t n j ↔ t.tripConfirm ≤ n :=
  (mem_causesAt t n j .level).trans decide_eq_true_iff

/-- Settles O15: whichever of the four guard states the judgement finds, it leaves the count of `GuardState.confirmAfter`
(`guardJudges_confirm`); the message that leaves the transit moves neither the guard nor the settings. -/
theorem guardConfirmCount : Obligations.GuardConfirmCount := by
  unfold Obligations.GuardConfirmCount
  intro j s hs
  refine Completes.intro (guardJudgement_run j s hs) ?_
  have hcount : (State.guardJudges j { s with transit := s.transit.erase (.guardJudgement j) }).guard.confirm
      = s.guard.confirmAfter s.set j := guardJudges_confirm _ j
  rw [hcount]
  exact ⟨confirmAfter_of_reached s.set, confirmAfter_of_not_reached s.set, level_mem_causesAt s.set _ j⟩

end Sys2Proof.Machine

/-! PROOF. Mains loss and the load, and the contactors outside RUN (R81). -/

namespace Sys2Proof.Machine

/-! ## What a loss of mains leaves of the claims -/

/-- What a fold reaches at one member and every other member keeps, it has reached at its end. -/
theorem overAll_reaches {α : Type} {P : State → Prop} {f : α → State → State} {a : α} (hat : ∀ s, P (f a s))
    (hkeep : ∀ b s, P s → P (f b s)) (l : List α) (ha : a ∈ l) (s : State) : P (overAll l f s) := by
  have keeps : ∀ (l : List α) (s : State), P s → P (overAll l f s) := fun l => by
    induction l with
    | nil => exact fun _ h => h
    | cons b l ih => exact fun s h => ih (f b s) (hkeep b s h)
  induction l generalizing s with
  | nil => cases ha
  | cons b l ih =>
    rcases List.mem_cons.mp ha with rfl | hl
    · exact keeps l (f a s) (hat s)
    · exact ih hl (f b s)

theorem darkPump_pump (s : State) (k n : Fin 4) :
    (s.darkPump k).pump n = if k = n then (s.pump k).darkened (s.heldEstablished (.pump k)) else s.pump n := by
  unfold State.darkPump
  rw [State.tellPumps_pump, State.pump_modPump]

theorem darkPumps_claim (s : State) (n : Fin 4) : ((overAll four State.darkPump s).pump n).claim = .none := by
  refine overAll_reaches (P := fun u => (u.pump n).claim = .none) (a := n) (fun u => ?_) (fun k u hu => ?_) four (mem_four n) s
  · rw [darkPump_pump, if_pos rfl]
    rfl
  · rw [darkPump_pump]
    split
    · rfl
    · exact hu

theorem tellFrost_heater (s : State) (k : Fin 4) (x : Notice) (h : Fin 4) : (s.tellFrost k x).heater h = s.heater h := rfl

theorem darkHeaters_claim (s : State) (h : Fin 4) :
    ((overAll four (fun k u => (u.modHeater k fun p => p.darkened u.now).tellFrost k .mainsLoss) s).heater h).claim = .none := by
  refine overAll_reaches (P := fun u => (u.heater h).claim = .none) (a := h) (fun u => ?_) (fun k u hu => ?_) four (mem_four h) s
  · rw [tellFrost_heater, modHeater_same]
    rfl
  · rw [tellFrost_heater, State.heater_modHeater]
    split
    · rfl
    · exact hu

/-- The claim states of the pumps and of the heaters. -/
def State.claims (s : State) : (Fin 4 → ClaimState) × (Fin 4 → ClaimState) :=
  (fun n => (s.pump n).claim, fun h => (s.heater h).claim)

theorem State.claims_of_act {s t : State} (h : t.act = s.act) : t.claims = s.claims := by
  unfold State.claims State.pump State.heater
  rw [h]

theorem takeHold_claims (s : State) (a : ActId) : (s.takeHold a).claims = s.claims := by
  cases a with
  | pump k =>
    refine Prod.ext (funext fun n => ?_) rfl
    by_cases hk : k = n <;> simp [State.claims, State.takeHold, hk]
  | inlet => rfl
  | heater k =>
    refine Prod.ext rfl (funext fun h => ?_)
    by_cases hk : k = h <;> simp [State.claims, State.takeHold, hk]

theorem establish_claims (s : State) (x : Hold) : (s.establish x).claims = s.claims := by
  unfold State.establish
  dsimp only
  rw [State.claims_of_act ((State.completeHold_act _ _).trans (State.make_act _ _ _ _ _)), takeHold_claims]
  rfl

/-- Holds that become ESTABLISHED move no claim. -/
theorem establishHolds_claims (s : State) : s.establishHolds.claims = s.claims :=
  overHolds State.claims _ (fun _ => True) (fun x u _ => establish_claims u x) s fun _ _ => Or.inr trivial

theorem releaseInlet_claims (s : State) (c : Option Position) (w : Bool) : (s.releaseInlet c w).claims = s.claims := by
  unfold State.releaseInlet
  dsimp only
  split
  · exact (State.claims_of_act (State.inletFreed_act _)).trans rfl
  · rfl

/-- R61: after ACTUATOR_MAINS_LOSS no pump and no heater has a claim. -/
theorem actuatorMainsLoss_claims (s : State) (hs : s.sys.held = false) :
    s.actuatorMainsLoss.claims = (fun _ => .none, fun _ => .none) := by
  unfold State.actuatorMainsLoss
  rw [s.taking_run _ _ hs]
  dsimp only
  generalize overAll (four.filter _) _ _ = u
  rw [establishHolds_claims, State.claims_of_act (State.abortOrders_act _ _ _), releaseInlet_claims]
  refine Prod.ext (funext fun n => ?pump) (funext fun h => ?heater)
  case pump =>
    show (State.pump _ n).claim = .none
    rw [overAll_keeps (fun v : State => v.pump n) _ (fun k v => by simp [State.tellFrost])]
    exact darkPumps_claim u n
  case heater => exact darkHeaters_claim _ h

/-! ## The arbiter through DARK and at the restore -/

theorem claimRow_arb (l : Load) (units level : Nat) (urgent : Bool) (s : State) (hs : s.sys.held = false)
    (hl : s.arb.has l = false) : (s.claimRow l units level urgent).arb = (s.arb.joins l units level urgent).walked.state := by
  unfold State.claimRow
  rw [s.taking_run _ _ hs, if_neg (ne_true_of_eq_false hl), arbWalk_arb]

theorem walked_mask (a : ArbState) : a.walked.state.mask = a.mask := by
  unfold ArbState.walked
  dsimp only
  split <;> rfl

theorem maskChangeRow_mask (m : Nat) (s : State) (hs : s.sys.held = false) : (s.maskChangeRow m).arb.mask = m := by
  unfold State.maskChangeRow
  rw [s.taking_run _ _ hs]
  split
  · rename_i hm
    exact hm.symm
  · rw [arbWalk_arb, walked_mask]
    rfl

theorem goDark_arb (s : State) : s.goDark.arb = s.arb := State.make_arb _ _ _ _ _

theorem announce_arb (a b c : Nat) (s : State) : (s.announce a b c).arb = s.arb := State.make_arb _ _ _ _ _

/-- The end of the stagger runs the contest and the tries, which reach the arbiter by messages alone. -/
theorem staggerOver_arb (s : State) : s.staggerOver.arb = s.arb := by
  unfold State.staggerOver
  rw [State.settle_arb]
  have := allowsPlans_parts
  exact ((Path.refl.clearPauses (K := Scope.parts Part.ofPlans) .power).contest).arb_eq Bool.false_ne_true

theorem beginStagger_arb (s : State) : s.beginStagger.arb = s.arb := by
  unfold State.beginStagger
  split
  · exact staggerOver_arb s
  · rfl

/-- The restore of a DARK part as its start-up begins: the input as it now stands, the START record and RESTART (R171). -/
def State.restoring (s : State) : State := (s.setMains !s.mainsFallen).announce 2 0 0

/-- What MAINS_RESTORE can do: nothing in a part held in reset, the note of the input outside DARK, and in DARK the fall back into
DARK or the stagger in RUN (R171). -/
theorem mainsRestoreRow_cases (s : State) :
    s.mainsRestoreRow = s ∨ s.mainsRestoreRow = s.setMains true ∨ s.mainsRestoreRow = s.restoring.goDark ∨
      s.mainsRestoreRow = (({ s.restoring with sys := { s.restoring.sys with power := .run } } : State).post
        .actuatorMainsRestore).beginStagger := by
  cases hh : s.sys.held with
  | true => exact .inl (if_pos hh)
  | false =>
    unfold State.mainsRestoreRow
    rw [s.alive_run _ hh]
    split
    · dsimp only
      split
      · exact .inr (.inr (.inl rfl))
      · exact .inr (.inr (.inr rfl))
    · exact .inr (.inl rfl)

theorem restoring_arb (s : State) : s.restoring.arb = s.arb := announce_arb 2 0 0 _

theorem mainsRestoreRow_arb (s : State) : s.mainsRestoreRow.arb = s.arb := by
  rcases mainsRestoreRow_cases s with he | he | he | he
  · rw [he]
  · rw [he]
    rfl
  · rw [he, goDark_arb, restoring_arb]
  · rw [he, beginStagger_arb]
    exact restoring_arb s

/-! ## Outside RUN no contactor goes on -/

/-- Begun outside RUN, the change from `s` to `t` ends outside RUN and turns no contactor on (R81). -/
def State.undriven (s t : State) : Prop :=
  s.sys.power ≠ .run → t.sys.power ≠ .run ∧ (∀ n, (s.pump n).contactor = false → (t.pump n).contactor = false) ∧
    ∀ h, (s.heater h).contactor = false → (t.heater h).contactor = false

theorem State.undriven.trans {s t u : State} (h : s.undriven t) (k : t.undriven u) : s.undriven u := fun hs => by
  obtain ⟨ht, hp, hh⟩ := h hs
  obtain ⟨hu, kp, kh⟩ := k ht
  exact ⟨hu, fun n hn => kp n (hp n hn), fun x hx => kh x (hh x hx)⟩

/-- A path that keeps the power state drives nothing outside RUN. -/
theorem State.undriven.of_path {s t : State} (h : Path powerKept s t) : s.undriven t := fun hs =>
  ⟨fun ht => hs ((h.power_same fun hk => hk rfl).power.symm.trans ht), h.stays_off (fun hk => hk rfl) hs⟩

theorem State.undriven.of_same {s t : State} (ha : t.act = s.act) (hp : t.sys.power = s.sys.power) : s.undriven t := fun hs =>
  ⟨fun ht => hs (hp.symm.trans ht), fun n hn => by rw [State.pump, ha]; exact hn,
    fun h hh => by rw [State.heater, ha]; exact hh⟩

/-- What leaves the actuators alone and ends DARK drives nothing. -/
theorem State.undriven.of_dark {s t : State} (ha : t.act = s.act) (hp : t.sys.power = .dark) : s.undriven t := fun _ =>
  ⟨fun ht => Power.noConfusion (hp.symm.trans ht), fun n hn => by rw [State.pump, ha]; exact hn,
    fun h hh => by rw [State.heater, ha]; exact hh⟩

/-! ### Mains and resets -/

theorem goDark_act (s : State) : s.goDark.act = s.act := State.make_act _ _ _ _ _

theorem goDark_power (s : State) : s.goDark.sys.power = .dark := congrArg SysState.power (State.make_sys _ _ _ _ _)

theorem announce_act (a b c : Nat) (s : State) : (s.announce a b c).act = s.act := State.make_act _ _ _ _ _

theorem announce_sys (a b c : Nat) (s : State) : (s.announce a b c).sys = s.sys := State.make_sys _ _ _ _ _

theorem beginStagger_power (s : State) : s.beginStagger.sys.power = s.sys.power :=
  have := powerKept_access
  ((Path.refl (K := powerKept)).beginStagger.power_same fun hk => hk rfl).power

theorem mainsLossRow_undriven (s : State) (hs : s.sys.power ≠ .run) : s.undriven s.mainsLossRow := by
  cases hh : s.sys.held with
  | true => rw [show s.mainsLossRow = s from if_pos hh]; exact .of_same rfl rfl
  | false =>
    unfold State.mainsLossRow
    rw [s.alive_run _ hh]
    dsimp only
    rw [if_neg hs]
    exact .of_same rfl rfl

/-- A restore that leaves the part outside RUN has found the input fallen again (R171). -/
theorem mainsRestoreRow_undriven (s : State) (ht : s.mainsRestoreRow.sys.power ≠ .run) : s.undriven s.mainsRestoreRow := by
  rcases mainsRestoreRow_cases s with he | he | he | he
  · rw [he]
    exact .of_same rfl rfl
  · rw [he]
    exact .of_same rfl rfl
  · rw [he]
    exact .of_dark ((goDark_act _).trans (announce_act 2 0 0 _)) (goDark_power _)
  · rw [he] at ht
    exact absurd (beginStagger_power _) ht

/-- The assertion of the reset turns every contactor off (R28). -/
theorem resetAssert_undriven (s : State) : s.undriven s.resetAssert := fun _ =>
  ⟨nofun,
    fun n _ => by simp [State.resetAssert, State.clearBoardRecords, State.pump, ActState.afterReset, Pump.afterReset, Pump.initial],
    fun h _ => by simp [State.resetAssert, State.clearBoardRecords, State.heater, ActState.afterReset, Heater.initial]⟩

theorem coldState_undriven (s : State) : s.undriven s.coldState := fun _ =>
  ⟨nofun, fun n _ => by simp [State.coldState, State.clearBoardRecords, State.pump, State.reset, ActState.initial, Pump.initial],
    fun h _ => by simp [State.coldState, State.clearBoardRecords, State.heater, State.reset, ActState.initial, Heater.initial]⟩

theorem resetInputRow_undriven (s : State) : s.undriven s.resetInputRow := by
  unfold State.resetInputRow State.alive
  split
  · exact .of_same rfl rfl
  · exact resetAssert_undriven s

/-! ### Start-up -/

/-- The inputs found at a start turn every pump off, and leave each heater's contactor (Table 3-7). -/
theorem takeInputs_undriven (x : StartInputs) (s : State) : s.undriven (s.takeInputs x) := fun _ =>
  ⟨nofun, fun n _ => by simp [State.takeInputs, State.pump], fun h hh => by
    simpa [State.takeInputs, State.heater, Heater.found] using hh⟩

theorem loadEntry_actSys (p : Page) (s : State) : ((s.loadEntry p).act, (s.loadEntry p).sys) = (s.act, s.sys) := by
  unfold State.loadEntry
  dsimp only
  split <;> rfl

/-- A fold whose every member leaves the actuators and the settings unit alone drives nothing. -/
theorem overAll_undriven {α : Type} {f : α → State → State} (hf : ∀ a s, ((f a s).act, (f a s).sys) = (s.act, s.sys))
    (l : List α) (s : State) : s.undriven (overAll l f s) := by
  have he := overAll_keeps (fun u : State => (u.act, u.sys)) f hf l s
  exact .of_same (congrArg Prod.fst he) (congrArg (SysState.power ∘ Prod.snd) he)

theorem initializeMemory_undriven (s : State) : s.undriven s.initializeMemory :=
  (overAll_undriven (f := fun p u => u.setEntry p ⟨if p.val < 4 then .fixed else .free, 0⟩) (fun _ _ => rfl) allPages s).trans
    (.of_same rfl rfl)

/-- Step 1 of the start: the map is loaded, or the memory initialized (R133). -/
theorem startStep1_undriven (s : State) :
    s.undriven (if s.formatted then overAll allPages State.loadEntry s else s.initializeMemory) := by
  split
  · exact overAll_undriven loadEntry_actSys allPages s
  · exact initializeMemory_undriven s

theorem firstJudgement_undriven (s : State) : s.undriven s.firstJudgement := by
  have := powerKept_access
  unfold State.firstJudgement
  split
  · exact .of_path .refl
  · exact .of_path (((Path.refl.guardJudges _).planJudges _).frostJudges _)

theorem firstCheapStart_undriven (s : State) : s.undriven s.firstCheapStart := by
  have := powerKept_access
  unfold State.firstCheapStart
  split
  · exact .of_path ((Path.refl.unpost _).cheapStarts _ _)
  · exact .of_path .refl

theorem startStep2_undriven (x : StartInputs) (s : State) : s.undriven (s.startStep2 x) := by
  have := powerKept_access
  have hload : s.undriven (s.loadSettings x.startsel.val) := .of_same rfl rfl
  have hsurvey : (s.loadSettings x.startsel.val).undriven ((s.loadSettings x.startsel.val).doSurvey x.sample).firstEvaluation :=
    .of_path (Path.refl.doSurvey x.sample).firstEvaluation
  exact ((hload.trans hsurvey).trans (firstJudgement_undriven _)).trans (firstCheapStart_undriven _)

theorem repairTaken_actSys (p : Page) (s : State) : ((s.repairTaken p).act, (s.repairTaken p).sys) = (s.act, s.sys) := by
  unfold State.repairTaken
  dsimp only
  split
  · exact overAll_keeps (fun u : State => (u.act, u.sys)) (State.repairOrder p)
      (fun k u => by unfold State.repairOrder; split <;> rfl) _ s
  · exact overAll_keeps (fun u : State => (u.act, u.sys)) (fun k u => u.writeStatus ⟨p, k⟩ .notRun .none) (fun _ _ => rfl) _ s

theorem repairPage_actSys (p : Page) (s : State) : ((s.repairPage p).act, (s.repairPage p).sys) = (s.act, s.sys) := by
  unfold State.repairPage
  split
  · exact repairTaken_actSys p s
  all_goals rfl

theorem repairPages_undriven (l : List Page) (s : State) : s.undriven (overAll l State.repairPage s) :=
  overAll_undriven repairPage_actSys l s

theorem writer_undriven (s : State) : s.undriven s.writer :=
  .of_same (s.writer_path.act_eq Bool.false_ne_true) (congrArg SysState.power (s.writer_path.sys_eq Bool.false_ne_true))

/-- Step 3 of the start: the repair of every page, the map ready, and the writer at work (R170, R126). -/
theorem startStep3_undriven (s : State) : s.undriven s.startStep3 := by
  have hrepair := repairPages_undriven allPages s
  unfold State.startStep3
  generalize overAll allPages State.repairPage s = u at hrepair ⊢
  refine State.undriven.trans ?_ (writer_undriven _)
  exact hrepair.trans (.of_same rfl rfl)

/-- What looks for run-on where the station is not in LOCAL keeps the power state (R64). -/
theorem runOns_path (s : State) :
    Path powerKept s (if s.eng.access = .localControl then s else overAll four State.runOn s) := by
  have := powerKept_access
  split
  · exact .refl
  · exact Path.overAll _ _ (fun n _ _ ht => ht.runOn n) .refl

/-- A start with mains ends in RUN (R168). -/
theorem startPower_run (pin : Bool) (s : State) (hm : s.sys.mains = true) : (s.startPower pin).sys.power = .run := by
  have := powerKept_access
  have hdriven := (runOns_path { s with sys := { s.sys with power := .run } }).driveHeld
  have hend : Path powerKept { s with sys := { s.sys with power := .run } } (s.startPower pin) := by
    unfold State.startPower
    rw [if_pos hm]
    dsimp only
    split
    · exact hdriven.beginStagger.settle
    · exact hdriven.contest.settle
  exact (hend.power_same fun hk => hk rfl).power

theorem startEnd_act (pin : Bool) (s : State) : (s.startEnd pin).act = (s.startPower pin).act := by
  unfold State.startEnd State.wantTake
  dsimp only
  split <;> rfl

theorem startEnd_power (pin : Bool) (s : State) : (s.startEnd pin).sys.power = (s.startPower pin).sys.power := by
  unfold State.startEnd State.wantTake
  dsimp only
  split <;> rfl

/-- The end of a start that leaves the part outside RUN is the fall into DARK. -/
theorem startEnd_undriven (pin : Bool) (s : State) (ht : (s.startEnd pin).sys.power ≠ .run) : s.undriven (s.startEnd pin) := by
  have hm : ¬s.sys.mains = true := fun hm => ht ((startEnd_power pin s).trans (startPower_run pin s hm))
  have he : s.startPower pin = s.goDark := if_neg hm
  refine .of_dark ((startEnd_act pin s).trans ?_) ((startEnd_power pin s).trans ?_)
  · rw [he, goDark_act]
  · rw [he, goDark_power]

theorem startUp_undriven (cause : Nat) (x : StartInputs) (s : State) (ht : (s.startUp cause x).sys.power ≠ .run) :
    s.undriven (s.startUp cause x) := by
  have h1 := (takeInputs_undriven x s).trans (startStep1_undriven (s.takeInputs x))
  have h2 := h1.trans (startStep2_undriven x _)
  have h3 (memory repaired : Nat) := (h2.trans (startStep3_undriven _)).trans
    (.of_same (announce_act cause memory repaired _) (congrArg SysState.power (announce_sys cause memory repaired _)))
  unfold State.startUp at ht ⊢
  dsimp only at ht ⊢
  split at ht
  · exact (h3 _ _).trans (startEnd_undriven _ _ ht)
  · exact h1.trans (resetAssert_undriven _)
  · exact h2.trans (resetAssert_undriven _)
  · refine (h2.trans ?_).trans (resetAssert_undriven _)
    split
    · exact repairPages_undriven _ _
    · exact .of_same rfl rfl
  · exact (h3 _ _).trans (resetAssert_undriven _)

theorem pinResetRow_undriven (x : StartInputs) (s : State) (ht : (s.pinResetRow x).sys.power ≠ .run) :
    s.undriven (s.pinResetRow x) := by
  refine State.undriven.trans ?_ (startUp_undriven 1 x _ ht)
  split
  · exact .of_same rfl rfl
  · exact resetAssert_undriven s

/-! ### Every command -/

/-- A command that finds and leaves the part outside RUN turns no contactor on: the starts, the mains' and the reset's each by its own
row, every other by a path that keeps the power state. -/
theorem exec_undriven (c : Instr) (s t : State) (h : exec c s = .next t) (hs : s.sys.power ≠ .run) (ht : t.sys.power ≠ .run) :
    s.undriven t := by
  cases c
  case coldStart x => cases h; exact (coldState_undriven s).trans (startUp_undriven 0 x _ ht)
  case pinReset x => cases h; exact pinResetRow_undriven x s ht
  case mainsLoss => cases h; exact mainsLossRow_undriven s hs
  case mainsRestore => cases h; exact mainsRestoreRow_undriven s ht
  case resetInputAsserted => cases h; exact resetInputRow_undriven s
  all_goals
    refine .of_path (exec_path_powerKept _ s t rfl ?_ h)
    exact fun _ => ⟨nofun, nofun⟩

/-- Settles O19: the arbiter's clauses from its rows (`arbWalk_arb`), the actuator's from the two folds that empty every claim state, and
the contactors' from `State.undriven`, which every command but a start, the mains' and the reset's has by its path
(`exec_path_powerKept`). -/
theorem mainsLossFreesAllLoad : Obligations.MainsLossFreesAllLoad := by
  unfold Obligations.MainsLossFreesAllLoad
  refine ⟨fun s hs => ⟨?arbiter, ?actuator, fun _ l units level urgent m => ⟨?claim, ?mask⟩, fun _ => ?restore⟩,
    fun c s t h hp ht => (exec_undriven c s t h hp ht hp).2⟩
  case arbiter => exact Completes.intro rfl (s.taking_run _ _ hs)
  case actuator =>
    have hnone := actuatorMainsLoss_claims s hs
    exact Completes.intro rfl ⟨congrFun (congrArg Prod.fst hnone), congrFun (congrArg Prod.snd hnone)⟩
  case claim => exact Completes.intro rfl (claimRow_arb l units level urgent s hs)
  case mask => exact Completes.intro rfl (maskChangeRow_mask m s hs)
  case restore => exact Completes.intro rfl (mainsRestoreRow_arb s)

end Sys2Proof.Machine
